-- ==== Sys2Proof/Word.lean ====
section
/-! DEFINITION. The widths in which the SB2140's spec carries its values: bytes of frames and of the boot image,
16-bit offsets, classes and generations, 32-bit host data and event details, 64-bit unique IDs. -/

namespace Sys2Proof

/-- One byte of a link frame, of the boot image or of a code field. -/
abbrev Byte := BitVec 8

/-- A 16-bit remote offset, class, generation or attention word. -/
abbrev Half := BitVec 16

/-- A 32-bit host data word or event detail. -/
abbrev Word := BitVec 32

/-- The 64-bit identity a module reports in answer to a join query (00_scope, Terms). -/
abbrev UniqueId := BitVec 64

end Sys2Proof
end

