-- ==== Sys2Proof/Config.lean ====
section
/-! DEFINITION. What is fixed for every SB2140: the capacities of its collections (00_scope, "Collections"). The spec
leaves no VALUE open that a free constant would have to stand for: the one thing it leaves open inside an event, the order
in which two blocks post their records (R90, R159), is an operand of the commands concerned (Syntax, `PostOrder`). -/

namespace Sys2Proof.Config

/-- The host request queue holds up to 16 entries (R77). -/
def hostQueueCapacity : Nat := 16

/-- The management queue holds up to eight requests (R26). -/
def mgmtQueueCapacity : Nat := 8

/-- The event queue has 31 ordinary places (R155); one further place is the OVERFLOW record's. -/
def ordinaryPlaces : Nat := 31

/-- A module entry's list holds 0 to 8 capability records (section 2.1, R36). -/
def capabilityCapacity : Nat := 8

end Sys2Proof.Config
end

