-- ==== Sys2Proof/Syntax.lean ====
section
/-! DEFINITION. The commands of the block: one constructor for each row of spec/opcode_table.json, with the operands
the rules give it. A command is something that comes to the bridge from outside (a host access, a pin, a frame, a byte of the
boot memory) or the moment at which one of the bridge's own timed or arbitrated events takes place; each is one whole and
indivisible step (95_what_each_step_holds). -/

namespace Sys2Proof

/-- The index of an assignable link address: index i is the address i + 1, so the fourteen values are the addresses
1 to 14 (section 2.1: "fourteen entries, one for each address 1 to 14"). -/
abbrev ModAddr := Fin 14

/-- The direction of a host access. -/
inductive Dir where
  | read
  | write
deriving DecidableEq, Repr

/-- The two reset inputs (R197, R198). -/
inductive ResetPin where
  | coldRst
  | hostRst
deriving DecidableEq, Repr

/-- The four field registers of a window (R62). -/
inductive WinField where
  | range
  | target
  | remote
  | attr
deriving DecidableEq, Repr

/-- The thirteen timing parameters, in the order of their indexes 1 to 13 (R176, R203). -/
inductive Param where
  | linkRate
  | respTimeout
  | retryLimit
  | busyLimit
  | busyHoldoff
  | pollInterval
  | discoveryInterval
  | quarThreshold
  | departThreshold
  | quarPollInterval
  | hostHold
  | discardTime
  | settleTime
deriving DecidableEq, Repr

/-- The seventeen kinds of event record, in the order of their numbers 1 to 17 (R154). -/
inductive Kind where
  | moduleJoined
  | moduleLeft
  | moduleQuarantined
  | moduleResponding
  | attention
  | writeFailed
  | delayedDiscard
  | mailboxDone
  | joinCollision
  | tableFull
  | bindingConflict
  | descriptorTruncated
  | decodeMiss
  | autoloadDone
  | wake
  | hostResetRetained
  | overflow
deriving DecidableEq, Repr

/-- Which of two blocks posts first when a request ends: the block that owns the request's entry, or the module manager
with the failure-run report. The spec allows both (R90: "may stand in the event queue in either order"; R159), so the order
is an operand and every statement holds for either (log entry 3). -/
inductive PostOrder where
  | ownerFirst
  | managerFirst
deriving DecidableEq, Repr

/-- The commands. `lanes` are the byte enables of a host access (bit k is lane k, lane 0 the lowest-addressed byte;
section 4.3); `data` is the 32-bit host data. -/
inductive Instr where
  /-- COLD_RESET: assertion of COLD_RST, or of HOST_RST while RETAIN is clear (R197). -/
  | coldReset (pin : ResetPin)
  /-- HOST_PORT_RESET: assertion of HOST_RST while RETAIN is set (R198). -/
  | hostPortReset
  /-- RESET_RELEASE: release of a cold reset input (R172, R197). -/
  | resetRelease (pin : ResetPin)
  /-- ATTN_ASSERTED: the filtered ATTN level changes to ASSERTED (R11, R139). -/
  | attnAsserted
  /-- ATTN_RELEASED: the filtered ATTN level changes to RELEASED (R11). -/
  | attnReleased
  /-- WINDOW_READ: a host read in window space (R65 to R73, R99). -/
  | windowRead (addr : BitVec 17) (lanes : BitVec 4)
  /-- WINDOW_WRITE: a host write in window space (R65 to R72, R78). -/
  | windowWrite (addr : BitVec 17) (lanes : BitVec 4) (data : Word)
  /-- HELD_ACCESS_ENQUEUE: the held access takes a freed place (R82). -/
  | heldAccessEnqueue
  /-- HOST_HOLD_EXPIRY: the hold period runs out (R82, R103). -/
  | hostHoldExpiry
  /-- NO_TARGET_ACCESS: an access no register or window answers (R199). -/
  | noTargetAccess (dir : Dir) (addr : BitVec 17) (lanes : BitVec 4)
  /-- REGISTER_WRITE: a write to a control register (R201). -/
  | registerWrite (offset : BitVec 12) (lanes : BitVec 4) (data : Word)
  /-- WIN_FIELD_WRITE: a write to WINn_RANGE, WINn_TARGET, WINn_REMOTE or WINn_ATTR (R62). -/
  | winFieldWrite (n : Fin 8) (field : WinField) (lanes : BitVec 4) (data : Word)
  /-- WIN_ENABLE: a write of 1 to WINn_ENABLE (R63). -/
  | winEnable (n : Fin 8) (lanes : BitVec 4)
  /-- WIN_DISABLE: a write of 0 to WINn_ENABLE (R64). -/
  | winDisable (n : Fin 8) (lanes : BitVec 4)
  /-- WIN_FAULT_RESET: a write to WIN_FAULT (R74). -/
  | winFaultReset (lanes : BitVec 4)
  /-- READ_FAULT_RESET: a write to READ_FAULT (R105). -/
  | readFaultReset (lanes : BitVec 4)
  /-- BIND_SEL_WRITE (R49). -/
  | bindSelWrite (lanes : BitVec 4) (data : Word)
  /-- MOD_SEL_WRITE (R204). -/
  | modSelWrite (lanes : BitVec 4) (data : Word)
  /-- TIMING_WRITE: a write to one timing register (R203). -/
  | timingWrite (p : Param) (lanes : BitVec 4) (data : Word)
  /-- ROUTE_WRITE: a write to EVT_ROUTE_k (R165). -/
  | routeWrite (k : Kind) (lanes : BitVec 4) (data : Word)
  /-- EVT_MODE_WRITE (R163). -/
  | evtModeWrite (lanes : BitVec 4) (data : Word)
  /-- EVT_LINE_EN_WRITE (R167). -/
  | evtLineEnWrite (lanes : BitVec 4) (data : Word)
  /-- EVT_STATUS_CLEAR: a write to EVT_STATUS (R168). -/
  | evtStatusClear (lanes : BitVec 4) (data : Word)
  /-- EVT_POP: a read of EVT_W3 (R161). -/
  | evtPop (lanes : BitVec 4)
  /-- EVT_RELEASE: a write to EVT_RELEASE (R162). -/
  | evtRelease (lanes : BitVec 4) (data : Word)
  /-- ATTN_MODE_AUTO: a write of AUTO to ATTN_MODE (R149). -/
  | attnModeAuto (lanes : BitVec 4)
  /-- ATTN_MODE_HELD: a write of HELD to ATTN_MODE (R150). -/
  | attnModeHeld (lanes : BitVec 4)
  /-- SLEEP_REQUEST: a write to PWR_CTRL with SLEEP_REQ set, and RETAIN as written (R188, R189). -/
  | sleepRequest (retain : Bool) (lanes : BitVec 4)
  /-- SLEEP_CANCEL: a write to PWR_CTRL with SLEEP_REQ clear, and RETAIN as written (R188, R191). -/
  | sleepCancel (retain : Bool) (lanes : BitVec 4)
  /-- RETAIN_WRITE: a write to PWR_CTRL that leaves SLEEP_REQ as it stands (R188, R196). -/
  | retainWrite (retain : Bool) (lanes : BitVec 4)
  /-- MBX_STATUS_CLEAR: a write to MBX_STATUS (R122). -/
  | mbxStatusClear (lanes : BitVec 4) (data : Word)
  /-- MBX_READ: a GO while MBX_OP names READ (R123, R124). -/
  | mbxRead (lanes : BitVec 4)
  /-- MBX_WRITE: a GO while MBX_OP names WRITE (R123, R124). -/
  | mbxWrite (lanes : BitVec 4)
  /-- MBX_DESC_READ: a GO while MBX_OP names DESC_READ (R123, R124). -/
  | mbxDescRead (lanes : BitVec 4)
  /-- MBX_WAITING_ENQUEUE: the waiting mailbox command takes a freed place (R83). -/
  | mbxWaitingEnqueue
  /-- BIND: a GO while MBX_OP names BIND (R50, R51, R128). -/
  | bind (lanes : BitVec 4)
  /-- UNBIND: a GO while MBX_OP names UNBIND (R52, R128). -/
  | unbind (lanes : BitVec 4)
  /-- READMIT: a GO while MBX_OP names READMIT (R43, R129). -/
  | readmit (lanes : BitVec 4)
  /-- FORGET: a GO while MBX_OP names FORGET (R44, R130). -/
  | forget (lanes : BitVec 4)
  /-- DISCOVER_NOW: a GO while MBX_OP names DISCOVER_NOW (R131). -/
  | discoverNow (lanes : BitVec 4)
  /-- LINK_RESET: a GO while MBX_OP names LINK_RESET (R132). -/
  | linkReset (lanes : BitVec 4)
  /-- FLUSH_CACHE: a GO while MBX_OP names FLUSH_CACHE (R133). -/
  | flushCache (lanes : BitVec 4)
  /-- RELOAD: a GO while MBX_OP names RELOAD (R134). -/
  | reload (lanes : BitVec 4)
  /-- MBX_ABORT: a write to MBX_ABORT (R135). -/
  | mbxAbort (lanes : BitVec 4)
  /-- ARBITER_GRANT: the arbiter acts (R22). -/
  | arbiterGrant
  /-- BROADCAST_SENT: the last character of the broadcast has been sent (R21, R46). -/
  | broadcastSent
  /-- SETTLED: SETTLE_TIME runs out (R21). -/
  | settled
  /-- RESPONSE_RECEIVED: the field bytes of a response frame, received whole (R14, R15, R208). -/
  | responseReceived (frame : List Byte) (order : PostOrder)
  /-- RESPONSE_TIMEOUT: the response timer expires (R14). -/
  | responseTimeout (order : PostOrder)
  /-- RETRANSMISSION: the frame is sent again after an attempt failure (R16). -/
  | retransmission
  /-- HOLDOFF_END: BUSY_HOLDOFF and the pacing have run out (R17). -/
  | holdoffEnd
  /-- PACING_INTERVAL_END: a module's pacing interval passes (R22, R23). -/
  | pacingIntervalEnd (a : ModAddr)
  /-- DISCOVERY_TIMER_EXPIRY: the query timer reaches DISCOVERY_INTERVAL (R30). -/
  | discoveryTimerExpiry
  /-- POLL_TIMER_EXPIRY: an entry's poll timer reaches its interval (R39). -/
  | pollTimerExpiry (a : ModAddr)
  /-- DISCARD_TIMER_EXPIRY: a COMPLETE slot's discard timer reaches DISCARD_TIME (R107). -/
  | discardTimerExpiry (slot : Fin 4)
  /-- AUTOLOAD_MARKER_READ: the first two bytes of the boot memory have been read (R174). -/
  | autoloadMarkerRead (b1 b2 : Byte)
  /-- AUTOLOAD_HEADER_READ: bytes 3 to 6 of the boot memory have been read (R174, R175). -/
  | autoloadHeaderRead (version count lenLow lenHigh : Byte)
  /-- AUTOLOAD_IMAGE_READ: further bytes of the boot memory, in address order, have been read (R175). -/
  | autoloadImageRead (bytes : List Byte)
  /-- AUTOLOAD_VERIFY_END: verification ends (R177 to R182). -/
  | autoloadVerifyEnd
  /-- DRAIN_COMPLETE: every drain condition holds (R190). -/
  | drainComplete
  /-- WAKE_SETTLE_END: the wake timer reaches the wake settle (R195). -/
  | wakeSettleEnd
  /-- HOST_RST_RELEASE: release of HOST_RST after a retaining reset (R198). -/
  | hostRstRelease
  /-- REQUEST_FRAME_SENT: the last character of a request frame to 0 to 14 has been sent (R14). -/
  | requestFrameSent
  /-- RESPONSE_LEAD_IN: the lead-in of a response arrives while the response timer runs (R14). -/
  | responseLeadIn
  /-- MBX_GO_NO_COMMAND: a GO while MBX_OP names no command (R123). -/
  | mbxGoNoCommand (lanes : BitVec 4)
deriving DecidableEq, Repr

end Sys2Proof
end

