-- ==== Sys2Proof/Machine/Operands.lean ====
section
/-! DEFINITION. What the operands of the commands mean as numbers: link addresses, lane groups, the check of frames and
images, link frames, the control register map, and the ranges and codes of fields. Nothing here reads State. -/

namespace Sys2Proof.Machine

/-! ### Fixed tables -/

/-- The element of a table at an index. -/
def vget {α : Type} {n : Nat} (v : Vector α n) (i : Fin n) : α := v.get i

/-- A table with one element replaced. -/
def vset {α : Type} {n : Nat} (v : Vector α n) (i : Fin n) (x : α) : Vector α n := v.set i.val x i.isLt

/-- A table with a function applied to every element. -/
def vmap {α β : Type} {n : Nat} (f : α → β) (v : Vector α n) : Vector β n := ⟨⟨v.toList.map f⟩, by simp⟩

/-! ### Link addresses -/

/-- The 4-bit link address of a module table index (section 2.1). -/
def linkAddr (a : ModAddr) : BitVec 4 := BitVec.ofNat 4 (a.val + 1)

/-- The module table index of a 4-bit link address: present for 1 to 14 alone. -/
def modAddr? (d : BitVec 4) : Option ModAddr :=
  if h : 1 ≤ d.toNat ∧ d.toNat ≤ 14 then some ⟨d.toNat - 1, by omega⟩ else none

/-- The fourteen addresses in ascending order (the order of R27 and R46). -/
def allAddrs : List ModAddr := [0, 1, 2, 3, 4, 5, 6, 7, 8, 9, 10, 11, 12, 13]

/-! ### Widths and lanes -/

/-- The three data widths (00_scope, "Widths and alignment"). -/
inductive Width where
  | one
  | two
  | four
deriving DecidableEq, Repr

/-- A width in bytes. -/
def Width.bytes : Width → Nat
  | .one => 1
  | .two => 2
  | .four => 4

/-- The width of a byte count, where it is one (R124). -/
def widthOfBytes? (n : Nat) : Option Width :=
  if n = 1 then some .one else if n = 2 then some .two else if n = 4 then some .four else none

/-- The width code of WINn_ATTR: 0, 1 and 2 for 1, 2 and 4 bytes, 3 for none (R61). -/
def widthOfCode? (c : Nat) : Option Width :=
  if c = 0 then some .one else if c = 1 then some .two else if c = 2 then some .four else none

/-- The code a width is written as (R61). -/
def Width.code : Width → Nat
  | .one => 0
  | .two => 1
  | .four => 2

/-- The low bytes of a word that a width holds. -/
def Width.mask : Width → Word
  | .one => 0xFF#32
  | .two => 0xFFFF#32
  | .four => 0xFFFFFFFF#32

/-- The lane group that a pattern of enables forms: its first lane and its width, or none for a lane fault (R65). -/
def laneGroup? (lanes : BitVec 4) : Option (Nat × Width) :=
  if lanes = 0x1#4 then some (0, .one)
  else if lanes = 0x2#4 then some (1, .one)
  else if lanes = 0x4#4 then some (2, .one)
  else if lanes = 0x8#4 then some (3, .one)
  else if lanes = 0x3#4 then some (0, .two)
  else if lanes = 0xC#4 then some (2, .two)
  else if lanes = 0xF#4 then some (0, .four)
  else none

/-- The 4-byte-aligned word that holds a host address (section 4.3). -/
def wordAddress (addr : BitVec 17) : BitVec 17 := addr &&& 0x1FFFC#17

/-- The data of an access, formed from its enabled lanes, lowest lane least significant (R65). -/
def fromLanes (lane : Nat) (w : Width) (data : Word) : Word := (data >>> (8 * lane)) &&& w.mask

/-- A value placed on an access's lanes; lanes not enabled read 0 (R65, R199). -/
def toLanes (lane : Nat) (w : Width) (value : Word) : Word := (value &&& w.mask) <<< (8 * lane)

/-- A register word seen through the enabled lanes (R201). -/
def enabledLanes (lane : Nat) (w : Width) (value : Word) : Word := value &&& (w.mask <<< (8 * lane))

/-- Do the bytes from `o1` on, `w1` of them, overlap the bytes from `o2` on, `w2` of them (R108, R115)? -/
def bytesOverlap (o1 : Half) (w1 : Width) (o2 : Half) (w2 : Width) : Bool :=
  o1.toNat < o2.toNat + w2.bytes && o2.toNat < o1.toNat + w1.bytes

/-! ### Bytes -/

/-- The number that bytes spell, low byte first (00_scope, "Byte order"). -/
def leNat : List Byte → Nat
  | [] => 0
  | b :: bs => b.toNat + 256 * leNat bs

/-- The lowest `n` bytes of a number, low byte first. -/
def leBytes : Nat → Nat → List Byte
  | 0, _ => []
  | n + 1, v => BitVec.ofNat 8 v :: leBytes n (v / 256)

/-- One shift of the CRC-16 register with generator 0x1021 (R1). -/
def crcShift (c : Half) : Half := if c.msb then (c <<< 1) ^^^ 0x1021#16 else c <<< 1

/-- `n` shifts of the CRC-16 register. -/
def crcShifts : Nat → Half → Half
  | 0, c => c
  | n + 1, c => crcShifts n (crcShift c)

/-- The CRC-16 register after one more byte, taken most significant bit first (R1). -/
def crcByte (c : Half) (b : Byte) : Half := crcShifts 8 (c ^^^ (b.setWidth 16 <<< 8))

/-- The CRC-16 of R1 and R178: generator 0x1021, register starting at 0xFFFF, no final inversion. -/
def crc16 (bs : List Byte) : Half := bs.foldl crcByte 0xFFFF#16

/-! ### Link frames -/

/-- The ten operations of R4. -/
inductive LinkOp where
  | read
  | write
  | ping
  | joinQuery
  | assign
  | descRead
  | attnFetch
  | attnClear
  | release
  | linkReset
deriving DecidableEq, Repr

/-- The operation codes of R207. -/
def LinkOp.code : LinkOp → BitVec 4
  | .read => 1
  | .write => 2
  | .ping => 3
  | .joinQuery => 4
  | .assign => 5
  | .descRead => 6
  | .attnFetch => 7
  | .attnClear => 8
  | .release => 9
  | .linkReset => 10

/-- The four statuses of a response (R5). -/
inductive Status where
  | ok
  | busy
  | refused
  | noRegister
deriving DecidableEq, Repr

/-- The status that a 2-bit code names (R208). -/
def statusOf (c : BitVec 2) : Status :=
  if c = 0#2 then .ok else if c = 1#2 then .busy else if c = 2#2 then .refused else .noRegister

/-- What a request asks: the fields of R2 but for the sequence and the retransmit flag. -/
structure Payload where
  dest   : BitVec 4
  op     : LinkOp
  offset : Half
  length : Nat
  data   : List Byte
deriving DecidableEq, Repr

/-- The length code of a request frame (R207). -/
def lengthCode (n : Nat) : BitVec 2 := if n = 0 then 0 else if n = 1 then 1 else if n = 2 then 2 else 3

/-- The field bytes of a request frame before its check (R207). -/
def requestFields (p : Payload) (seq : BitVec 4) (retransmit : Bool) : List Byte :=
  [p.op.code ++ p.dest, (0#1 ++ lengthCode p.length) ++ (BitVec.ofBool retransmit ++ seq)]
    ++ leBytes 2 p.offset.toNat ++ p.data

/-- The characters of a request frame: the lead-in 0x55, the fields, and the check low byte first (R1, R206, R207). -/
def requestFrame (p : Payload) (seq : BitVec 4) (retransmit : Bool) : List Byte :=
  0x55#8 :: (requestFields p seq retransmit ++ leBytes 2 (crc16 (requestFields p seq retransmit)).toNat)

/-- A response frame that has passed its check (R3, R208). -/
structure Response where
  source    : BitVec 4
  status    : Status
  attention : Bool
  echo      : BitVec 4
  data      : List Byte
deriving DecidableEq, Repr

/-- The data bytes that a response length code stands for; codes 5 to 7 for none (R208). -/
def responseLength? (c : BitVec 3) : Option Nat :=
  if c = 0#3 then some 0 else if c = 1#3 then some 1 else if c = 2#3 then some 2
  else if c = 3#3 then some 4 else if c = 4#3 then some 8 else none

/-- The data length that R4 requires of a response to a request with this operation and length. -/
def requiredData (op : LinkOp) (length : Nat) (st : Status) : Nat :=
  if st = .ok then
    match op with
    | .read => length
    | .joinQuery => 8
    | .descRead => 4
    | .attnFetch => 2
    | .write | .ping | .assign | .attnClear | .release | .linkReset => 0
  else 0

/-- The response that field bytes spell, or none where they fail the check of R1 as R208 gives it. -/
def parseResponse (op : LinkOp) (length : Nat) : List Byte → Option Response
  | b0 :: b1 :: rest =>
    match responseLength? (b1.extractLsb' 4 3) with
    | none => none
    | some n =>
      if rest.length = n + 2 ∧ leNat (rest.drop n) = (crc16 (b0 :: b1 :: rest.take n)).toNat
          ∧ b0.getLsbD 7 = false ∧ b1.getLsbD 7 = false
          ∧ n = requiredData op length (statusOf (b0.extractLsb' 4 2)) then
        some { source := b0.extractLsb' 0 4, status := statusOf (b0.extractLsb' 4 2), attention := b0.getLsbD 6,
               echo := b1.extractLsb' 0 4, data := rest.take n }
      else none
  | _ => none

/-- The field bytes of a response frame, as a module sends it (R208); the length code is that of the data. -/
def responseFields (r : Response) : List Byte :=
  let lenCode : BitVec 3 :=
    if r.data.length = 0 then 0 else if r.data.length = 1 then 1 else if r.data.length = 2 then 2
    else if r.data.length = 4 then 3 else 4
  let st : BitVec 2 := match r.status with
    | .ok => 0
    | .busy => 1
    | .refused => 2
    | .noRegister => 3
  let body : List Byte := [(0#1 ++ BitVec.ofBool r.attention) ++ (st ++ r.source), (0#1 ++ lenCode) ++ r.echo] ++ r.data
  body ++ leBytes 2 (crc16 body).toNat

/-- The characters of a response frame: the lead-in 0x55 and the field bytes (R206). -/
def responseFrame (r : Response) : List Byte := 0x55#8 :: responseFields r

/-! ### Characters on the line -/

/-- A bit on the span link (R1). The rule names the start and the stop bit and gives no level of theirs, so that they stand here by name
(log entry 42, the model's choice). -/
inductive LineBit where
  | start
  | data (b : Bool)
  | stop
deriving DecidableEq, Repr

/-- The character that a byte is sent as: a start bit, eight data bits with the least significant first, and a stop bit (R1). -/
def charBits (b : Byte) : List LineBit := .start :: (List.range 8).map (fun i => .data (b.getLsbD i)) ++ [.stop]

/-- A frame on the line: its bits, sent back to back, and their rate in kbit/s (R1). -/
structure Wire where
  rate : Nat
  bits : List LineBit
deriving DecidableEq, Repr

/-- The characters of a frame put on the line at a rate (R1). -/
def onWire (rate : Nat) (frame : List Byte) : Wire := ⟨rate, frame.flatMap charBits⟩

/-! ### Timing parameters -/

/-- The index of a timing parameter, 1 to 13 (R176). -/
def Param.index : Param → Nat
  | .linkRate => 1
  | .respTimeout => 2
  | .retryLimit => 3
  | .busyLimit => 4
  | .busyHoldoff => 5
  | .pollInterval => 6
  | .discoveryInterval => 7
  | .quarThreshold => 8
  | .departThreshold => 9
  | .quarPollInterval => 10
  | .hostHold => 11
  | .discardTime => 12
  | .settleTime => 13

/-- The thirteen parameters in index order. -/
def allParams : List Param :=
  [.linkRate, .respTimeout, .retryLimit, .busyLimit, .busyHoldoff, .pollInterval, .discoveryInterval, .quarThreshold,
   .departThreshold, .quarPollInterval, .hostHold, .discardTime, .settleTime]

/-- The parameter an index names, if it names one (R176, R179). -/
def paramOfIndex? (n : Nat) : Option Param := allParams.find? fun p => Param.index p = n

/-- Is a value in the range, and on the step, of the timing-parameter table (00_scope; R203)? -/
def paramAccepts (p : Param) (v : Nat) : Bool :=
  match p with
  | .linkRate => v = 250 ∨ v = 500 ∨ v = 1000
  | .respTimeout => 20 ≤ v ∧ v ≤ 2000 ∧ v % 10 = 0
  | .retryLimit => v ≤ 7
  | .busyLimit => v ≤ 15
  | .busyHoldoff => 50 ≤ v ∧ v ≤ 5000 ∧ v % 50 = 0
  | .pollInterval => 1 ≤ v ∧ v ≤ 255
  | .discoveryInterval => 1 ≤ v ∧ v ≤ 255
  | .quarThreshold => 1 ≤ v ∧ v ≤ 15
  | .departThreshold => 1 ≤ v ∧ v ≤ 15
  | .quarPollInterval => 10 ≤ v ∧ v ≤ 2550 ∧ v % 10 = 0
  | .hostHold => v ≤ 255
  | .discardTime => 1 ≤ v ∧ v ≤ 255
  | .settleTime => v ≤ 255

/-- A bit time in µs at a LINK_RATE in kbit/s (R1). -/
def bitTime (linkRate : Nat) : Nat := 1000 / linkRate

/-- A character time in µs: ten bit times (R1). -/
def charTime (linkRate : Nat) : Nat := 10 * bitTime linkRate

/-! ### Event kinds -/

/-- The number of an event kind (R154). -/
def kindNumber : Kind → Nat
  | .moduleJoined => 1
  | .moduleLeft => 2
  | .moduleQuarantined => 3
  | .moduleResponding => 4
  | .attention => 5
  | .writeFailed => 6
  | .delayedDiscard => 7
  | .mailboxDone => 8
  | .joinCollision => 9
  | .tableFull => 10
  | .bindingConflict => 11
  | .descriptorTruncated => 12
  | .decodeMiss => 13
  | .autoloadDone => 14
  | .wake => 15
  | .hostResetRetained => 16
  | .overflow => 17

/-- The seventeen kinds in number order. -/
def allKinds : List Kind :=
  [.moduleJoined, .moduleLeft, .moduleQuarantined, .moduleResponding, .attention, .writeFailed, .delayedDiscard,
   .mailboxDone, .joinCollision, .tableFull, .bindingConflict, .descriptorTruncated, .decodeMiss, .autoloadDone, .wake,
   .hostResetRetained, .overflow]

/-- The kind a number names, if it names one (R179). -/
def kindOfNumber? (n : Nat) : Option Kind := allKinds.find? fun k => kindNumber k = n

/-- The place of a kind in the route table (R165). -/
def kindIndex (k : Kind) : Fin 17 := Fin.ofNat 17 (kindNumber k - 1)

/-! ### The control register map (section 12.2) -/

/-- The control registers; a register of several words has one value for each word. -/
inductive Reg where
  | pwrCtrl
  | pwrStatus
  | autoloadStatus
  | linkStatus
  | discStatus
  | hrqLevel
  | cacheLines
  | attnMode
  | attnStatus
  | winFault
  | readFault
  | timing (p : Param)
  | mbxOp
  | mbxTarget
  | mbxOffset
  | mbxWidth
  | mbxData
  | mbxXdata
  | mbxFlags
  | mbxGo
  | mbxAbort
  | mbxStatus
  | mbxResult
  | evtW (i : Fin 4)
  | evtRelease
  | evtMode
  | evtLineEn
  | evtStatus
  | evtCount
  | evtOverflowCount
  | evtRoute (k : Kind)
  | slotView (i : Fin 4)
  | slotViewAddr (i : Fin 4)
  | bindSel
  | bindView
  | bindIdLo
  | bindIdHi
  | modSel
  | modState
  | modGen
  | modSupv
  | modDesc
  | modIdLo
  | modIdHi
  | modCap (k : Fin 8)
  | win (n : Fin 8) (f : WinField)
  | winEnable (n : Fin 8)
  | winView (n : Fin 8) (word : Fin 3)
deriving DecidableEq, Repr

/-- The registers of 0x000 to 0x03F (R201). -/
def statusRegAt (o : Nat) : Option Reg :=
  if o = 0x000 then some .pwrCtrl else if o = 0x004 then some .pwrStatus
  else if o = 0x008 then some .autoloadStatus else if o = 0x00C then some .linkStatus
  else if o = 0x010 then some .discStatus else if o = 0x014 then some .hrqLevel
  else if o = 0x018 then some .cacheLines else if o = 0x01C then some .attnMode
  else if o = 0x020 then some .attnStatus else if o = 0x024 then some .winFault
  else if o = 0x028 then some .readFault else none

/-- The mailbox registers, 0x080 to 0x0AB (R201). -/
def mailboxRegAt (o : Nat) : Option Reg :=
  if o = 0x080 then some .mbxOp else if o = 0x084 then some .mbxTarget
  else if o = 0x088 then some .mbxOffset else if o = 0x08C then some .mbxWidth
  else if o = 0x090 then some .mbxData else if o = 0x094 then some .mbxXdata
  else if o = 0x098 then some .mbxFlags else if o = 0x09C then some .mbxGo
  else if o = 0x0A0 then some .mbxAbort else if o = 0x0A4 then some .mbxStatus
  else if o = 0x0A8 then some .mbxResult else none

/-- The event registers, 0x0C0 to 0x0E7 (R201). -/
def eventRegAt (o : Nat) : Option Reg :=
  if o = 0x0C0 then some (.evtW 0) else if o = 0x0C4 then some (.evtW 1)
  else if o = 0x0C8 then some (.evtW 2) else if o = 0x0CC then some (.evtW 3)
  else if o = 0x0D0 then some .evtRelease else if o = 0x0D4 then some .evtMode
  else if o = 0x0D8 then some .evtLineEn else if o = 0x0DC then some .evtStatus
  else if o = 0x0E0 then some .evtCount else if o = 0x0E4 then some .evtOverflowCount else none

/-- The binding view and the module table view, 0x200 to 0x27F (R49, R204). 0x25C lies in the summary's range of the module table
view, and R204 gives no register there: the model takes it as unoccupied (log entry 32, DEDUCED). -/
def viewRegAt (o : Nat) : Option Reg :=
  if o = 0x200 then some .bindSel else if o = 0x204 then some .bindView
  else if o = 0x208 then some .bindIdLo else if o = 0x20C then some .bindIdHi
  else if o = 0x240 then some .modSel else if o = 0x244 then some .modState
  else if o = 0x248 then some .modGen else if o = 0x24C then some .modSupv
  else if o = 0x250 then some .modDesc else if o = 0x254 then some .modIdLo
  else if o = 0x258 then some .modIdHi
  else if 0x260 ≤ o ∧ o ≤ 0x27C then some (.modCap (Fin.ofNat 8 ((o - 0x260) / 4))) else none

/-- The registers of window n, at 0x400 + 0x20 × n (R61, R201); `o` is the offset from 0x400. -/
def windowRegAt (o : Nat) : Option Reg :=
  let n : Fin 8 := Fin.ofNat 8 (o / 0x20)
  let w := o % 0x20
  if w = 0x00 then some (.win n .range) else if w = 0x04 then some (.win n .target)
  else if w = 0x08 then some (.win n .remote) else if w = 0x0C then some (.win n .attr)
  else if w = 0x10 then some (.winEnable n) else if w = 0x14 then some (.winView n 0)
  else if w = 0x18 then some (.winView n 1) else some (.winView n 2)

/-- The register word at a control-space byte offset, if one stands there (R199, R201). -/
def regAt (offset : BitVec 12) : Option Reg :=
  let o := offset.toNat / 4 * 4
  if o < 0x040 then statusRegAt o
  else if o ≤ 0x070 then (paramOfIndex? ((o - 0x040) / 4 + 1)).map .timing
  else if 0x080 ≤ o ∧ o < 0x0C0 then mailboxRegAt o
  else if 0x0C0 ≤ o ∧ o < 0x100 then eventRegAt o
  else if 0x100 ≤ o ∧ o ≤ 0x140 then (kindOfNumber? ((o - 0x100) / 4 + 1)).map .evtRoute
  else if 0x180 ≤ o ∧ o < 0x1A0 then
    let i : Fin 4 := Fin.ofNat 4 ((o - 0x180) / 8)
    if (o - 0x180) % 8 = 0 then some (.slotView i) else some (.slotViewAddr i)
  else if 0x200 ≤ o ∧ o < 0x280 then viewRegAt o
  else if 0x400 ≤ o ∧ o < 0x500 then windowRegAt (o - 0x400)
  else none

/-- Has a write to this register a row of its own in the opcode table, whatever the value written? -/
def Reg.hasOwnRow : Reg → Bool
  | .pwrCtrl | .winFault | .readFault | .timing _ | .mbxGo | .mbxAbort | .mbxStatus | .evtRelease | .evtLineEn
  | .evtStatus | .evtMode | .evtRoute _ | .bindSel | .modSel | .win _ _ | .winEnable _ => true
  | .pwrStatus | .autoloadStatus | .linkStatus | .discStatus | .hrqLevel | .cacheLines | .attnMode | .attnStatus
  | .mbxOp | .mbxTarget | .mbxOffset | .mbxWidth | .mbxData | .mbxXdata | .mbxFlags | .mbxResult | .evtW _ | .evtCount
  | .evtOverflowCount | .slotView _ | .slotViewAddr _ | .bindView | .bindIdLo | .bindIdHi | .modState | .modGen
  | .modSupv | .modDesc | .modIdLo | .modIdHi | .modCap _ | .winView _ _ => false

/-- Is an access in window space (R199)? -/
def inWindowSpace (addr : BitVec 17) : Bool := addr.getLsbD 16

/-- Does an access reach no target (R199): the hole 0x01000 to 0x0FFFF, a control address no register occupies, or
enables that form no lane group in control space? -/
def noTarget (addr : BitVec 17) (lanes : BitVec 4) : Bool :=
  !inWindowSpace addr &&
    (0x01000 ≤ addr.toNat || (laneGroup? lanes).isNone || (regAt (addr.setWidth 12)).isNone)

end Sys2Proof.Machine
end

