-- ==== Sys2Proof/Machine/State.lean ====
section
/-! DEFINITION. The state of the SB2140, block by block (00_scope, "Block diagram in words"), as plain data, and its value
after a cold reset. Times and timers are in µs. -/

namespace Sys2Proof.Machine

/-! ### The module table, the management queue and discovery (chapter 2) -/

/-- The states of a module entry (section 2.1). -/
inductive ModState where
  | empty
  | joining
  | describing
  | online
  | quarantined
deriving DecidableEq, Repr

/-- How an entry's address was chosen at its join (R33, R53). -/
inductive Bound where
  | unbound
  | bound
  | fallback
deriving DecidableEq, Repr

/-- The attention states of a module entry (chapter 8). -/
inductive AttnState where
  | none
  | fetchDue
  | fetching
  | held
  | clearDue
deriving DecidableEq, Repr

/-- What a RELEASE due, queued or on the link for an entry is for: a FORGET (R44: "notes that the release is for FORGET"),
an ASSIGN failure (R34), a failed descriptor read or an ID mismatch (R37). -/
inductive ReleaseCause where
  | forget
  | assignFailed
  | describeFailed
  | idMismatch
deriving DecidableEq, Repr

/-- One capability record (section 2.1). -/
structure Capability where
  type   : Byte
  word   : Byte
  length : Byte
  value  : Byte
deriving DecidableEq, Repr

/-- One module table entry (section 2.1); `pacing` is in units of 10 µs, timers and times in µs. -/
structure Entry where
  state        : ModState := .empty
  generation   : Half := 0
  uniqueId     : Option UniqueId := none
  moduleClass  : Option Half := none
  revision     : Option Byte := none
  capabilities : List Capability := []
  truncated    : Bool := false
  widthLimit   : Width := .four
  pacing       : Byte := 0
  hasAttention : Bool := false
  bound        : Bound := .unbound
  seq          : BitVec 4 := 0
  failureRun   : Nat := 0
  departCount  : Nat := 0
  responding   : Bool := false
  attention    : AttnState := .none
  clearBits    : Option Half := none
  pingDue      : Bool := false
  releaseDue   : Bool := false
  releaseFor   : Option ReleaseCause := none
  pollTimer    : Option Nat := none
  lastResponse : Option Nat := none
deriving DecidableEq, Repr

/-- One management queue entry (section 2.2): its operation with the module entry it concerns and that entry's generation
when added. -/
inductive MgmtEntry where
  | joinQuery
  | assign (a : ModAddr) (gen : Half) (guard : Half)
  | descRead (a : ModAddr) (gen : Half) (word : Byte)
  | ping (a : ModAddr) (gen : Half)
  | attnFetch (a : ModAddr) (gen : Half)
  | attnClear (a : ModAddr) (gen : Half) (bits : Half)
  | release (a : ModAddr) (gen : Half)
deriving DecidableEq, Repr

/-- The states of discovery (section 2.3). -/
inductive DiscState where
  | disabled
  | idle
  | querying
  | joining
  | parkedFull
  | parkedConflict
deriving DecidableEq, Repr

/-- Discovery: its state, its waiting item (R27), the query timer and the interval that timer was started with (R30, R185). -/
structure Discovery where
  state         : DiscState := .disabled
  waiting       : Option MgmtEntry := none
  queryTimer    : Option Nat := none
  queryInterval : Nat := 0
deriving DecidableEq, Repr

/-! ### The binding table (chapter 3) -/

/-- The modes of a binding (R49). -/
inductive BindMode where
  | strict
  | preferred
deriving DecidableEq, Repr

/-- One binding; the address it names is its place in the table (R49). -/
structure Binding where
  id   : UniqueId
  mode : BindMode
deriving DecidableEq, Repr

/-! ### Windows and the host port (chapters 4 and 12) -/

/-- One window (R60). -/
structure Window where
  enabled       : Bool := false
  basePage      : Byte := 0
  limitPage     : Byte := 0
  target        : BitVec 4 := 0
  remoteBase    : Half := 0
  width         : Width := .one
  expectedClass : Half := 0
  readOnly      : Bool := false
  cacheable     : Bool := false
deriving DecidableEq, Repr

/-- The reasons of WIN_FAULT (R74). -/
inductive WinFaultReason where
  | none
  | lanes
  | unmapped
  | width
  | readOnly
  | notOnline
  | moduleClass
deriving DecidableEq, Repr

/-- WIN_FAULT (R74). -/
structure WinFault where
  reason  : WinFaultReason := .none
  dir     : Dir := .read
  address : BitVec 17 := 0
  window  : BitVec 4 := 0xF
deriving DecidableEq, Repr

/-- The outcomes of R19. -/
inductive LinkOutcome where
  | ok
  | refused
  | noRegister
  | noResponse
  | busyExhausted
  | stale
  | quarantined
  | width
  | cancelled
  | discarded
deriving DecidableEq, Repr

/-- READ_FAULT (R105); an absent outcome is NONE. R105 gives the outcome NONE after a cold reset and nothing for the other three
fields: that they are 0 then is the model's choice (log entry 36). -/
structure ReadFault where
  outcome  : Option LinkOutcome := none
  hostAddr : BitVec 17 := 0
  width    : BitVec 3 := 0
  slot     : BitVec 2 := 0
deriving DecidableEq, Repr

/-- The three responses of the host port (R199). -/
inductive Response3 where
  | ok
  | retry
  | error
deriving DecidableEq, Repr

/-- The answer to a host access: the response and, on a read answered OK or ERROR, the data (R199). -/
structure Answer where
  response : Response3
  data     : Option Word
deriving DecidableEq, Repr

/-- The origins of a host request queue entry (R76). -/
inductive Origin where
  | windowWrite
  | windowRead
  | mailbox
deriving DecidableEq, Repr

/-- The operations of a host request queue entry (R76). -/
inductive HostOp where
  | read
  | write
  | descRead
deriving DecidableEq, Repr

/-- One host request queue entry (R76). -/
structure HostEntry where
  origin     : Origin
  addr       : ModAddr
  gen        : Half
  op         : HostOp
  offset     : Half
  width      : Width
  data       : Option Word
  slot       : Option (Fin 4)
  cancelled  : Bool
  diagnostic : Bool
  cacheable  : Bool
deriving DecidableEq, Repr

/-- A window read that has passed decode and the window tests: the items of R71 and the cacheable attribute. -/
structure ReadAccess where
  hostAddr  : BitVec 17
  width     : Width
  window    : Fin 8
  target    : ModAddr
  gen       : Half
  offset    : Half
  cacheable : Bool
deriving DecidableEq, Repr

/-- What a held host access waits for (R200): a write or a read for a place in the queue, a read for its slot. -/
inductive HeldFor where
  | writePlace (e : HostEntry)
  | readPlace (acc : ReadAccess)
  | slot (i : Fin 4)
deriving DecidableEq, Repr

/-- The host access being held, with the period taken when it was taken (R200). -/
structure Held where
  what    : HeldFor
  period  : Nat
  elapsed : Nat
deriving DecidableEq, Repr

/-- The host port's registers, the access it holds and the last answer it gave. -/
structure HostPort where
  winFault  : WinFault := {}
  readFault : ReadFault := {}
  bindSel   : BitVec 4 := 1
  modSel    : BitVec 4 := 1
  held      : Option Held := none
  answer    : Option Answer := none
deriving DecidableEq, Repr

/-- The thirteen timing parameters with their defaults (00_scope, "Timing parameters"): LINK_RATE in kbit/s, the others in
the unit of the table, µs, ms or a count. -/
structure Timing where
  linkRate          : Nat := 1000
  respTimeout       : Nat := 200
  retryLimit        : Nat := 3
  busyLimit         : Nat := 8
  busyHoldoff       : Nat := 500
  pollInterval      : Nat := 10
  discoveryInterval : Nat := 20
  quarThreshold     : Nat := 4
  departThreshold   : Nat := 3
  quarPollInterval  : Nat := 100
  hostHold          : Nat := 20
  discardTime       : Nat := 50
  settleTime        : Nat := 5
deriving DecidableEq, Repr

/-! ### Delayed-read slots and the read cache (chapter 6) -/

/-- The fields a slot holds while PENDING or COMPLETE (R100). -/
structure SlotInfo where
  hostAddr : BitVec 17
  width    : Width
  window   : Fin 8
  target   : ModAddr
  offset   : Half
  noFill   : Bool
deriving DecidableEq, Repr

/-- A delayed-read slot: "A FREE slot has no fields but its state" (R100). -/
inductive Slot where
  | free
  | pending (i : SlotInfo)
  | complete (i : SlotInfo) (outcome : LinkOutcome) (data : Option Word) (timer : Nat)
deriving DecidableEq, Repr

/-- A valid read cache line (R111). -/
structure Line where
  addr   : ModAddr
  gen    : Half
  offset : Half
  width  : Width
  value  : Word
deriving DecidableEq, Repr

/-- The read cache: 32 lines, an absent one invalid, and the use order, least recently used first (R111). -/
structure Cache where
  lines    : Vector (Option Line) 32 := Vector.replicate 32 none
  useOrder : List (Fin 32) := []
deriving DecidableEq, Repr

/-! ### The command mailbox (chapter 7) -/

/-- The states of the mailbox (R122). -/
inductive MbxState where
  | idle
  | waiting
  | queued
  | active
  | done
  | failed
deriving DecidableEq, Repr

/-- The result codes (section 7.6, R202); the outcomes of R19 keep their names. -/
inductive Result where
  | none
  | outcome (o : LinkOutcome)
  | badAddress
  | badArgument
  | notPresent
  | wrongState
  | autoloadBusy
  | duplicateId
  | duplicateAddress
  | notBound
  | overtaken
  | joined
  | noneWaiting
  | collision
  | describeFailed
  | tableFull
  | bindingConflict
  | loaded
  | loadFailed
deriving DecidableEq, Repr

/-- The mailbox (R121). -/
structure Mailbox where
  op        : Byte := 0
  target    : BitVec 4 := 0
  offset    : Half := 0
  width     : Byte := 0
  data      : Word := 0
  xdata     : Word := 0
  flagMode  : BitVec 2 := 0
  replace   : Bool := false
  result    : Result := .none
  state     : MbxState := .idle
  refused   : Bool := false
  abortLate : Bool := false
deriving DecidableEq, Repr

/-! ### The link engine (chapter 1) -/

/-- The request's queue and the entry it carries (section 1.6). `discarded` marks a host-queue request whose outcome will
be DISCARDED (R12). -/
inductive Source where
  | broadcast
  | management (m : MgmtEntry)
  | host (e : HostEntry) (discarded : Bool)
deriving DecidableEq, Repr

/-- The parameter values a request takes at its start (R13). -/
structure LinkParams where
  linkRate    : Nat
  respTimeout : Nat
  retryLimit  : Nat
  busyLimit   : Nat
  busyHoldoff : Nat
deriving DecidableEq, Repr

/-- Where an attempt stands (R14, R16, R17): the frame going out; the response timer running; a response being received; an
attempt that has failed, with the retransmission still to be sent and the time since the failure; or a busy resend whose
holdoff is over and whose pacing interval may still run. -/
inductive Attempt where
  | sending
  | awaiting (elapsed : Nat)
  | receiving
  | gap (elapsed : Nat)
  | resend
deriving DecidableEq, Repr

/-- The current request record (section 1.6). -/
structure Request where
  source      : Source
  payload     : Payload
  seq         : BitVec 4
  retransUsed : Nat
  busyUsed    : Nat
  params      : LinkParams
  garbled     : Bool
  attempt     : Attempt
deriving DecidableEq, Repr

/-- The link (section 1.6). SETTLING holds the SETTLE_TIME taken when it began, in µs (R185). -/
inductive Link where
  | free
  | carrying (r : Request)
  | holdoff (r : Request) (elapsed : Nat)
  | settling (elapsed settle : Nat)
deriving DecidableEq, Repr

/-- Whose the previous turn was (R22). -/
inductive Turn where
  | management
  | host
deriving DecidableEq, Repr

/-- The link engine (section 1.6) and the characters of the frame it last put on the line (R206, R207). -/
structure LinkEngine where
  link         : Link := .free
  resetPending : Bool := true
  lastTurn     : Turn := .host
  joinCounter  : BitVec 4 := 0
  line         : List Byte := []
deriving DecidableEq, Repr

/-! ### The attention unit (chapter 8) -/

/-- The attention modes (R138). -/
inductive AttnMode where
  | auto
  | held
deriving DecidableEq, Repr

/-- A fetch record (section 8.1). -/
structure FetchRec where
  gen      : Half
  reserved : Bool
deriving DecidableEq, Repr

/-- The attention unit (section 8.1); `sweep` is the set of addresses still to answer, absent while no sweep is in
progress. -/
structure AttnUnit where
  level   : Bool := false
  mode    : AttnMode := .auto
  armed   : Bool := false
  sweep   : Option (List ModAddr) := none
  fetches : Vector (Option FetchRec) 14 := Vector.replicate 14 none
deriving DecidableEq, Repr

/-! ### The event unit (chapter 9) -/

/-- The routes (R165). -/
inductive Route where
  | none
  | line0
  | line1
  | suppress
deriving DecidableEq, Repr

/-- An event record (R153). -/
structure EventRec where
  seq     : Byte
  kind    : Kind
  address : Option ModAddr
  code    : Byte
  detailA : Word
  detailB : Word
  detailC : Word
  route   : Route
  held    : Bool
deriving DecidableEq, Repr

/-- The head-removal modes (R163). -/
inductive EvtMode where
  | pop
  | release
deriving DecidableEq, Repr

/-- The route of each kind after a cold reset (R165). -/
def coldRoutes : Vector Route 17 :=
  ⟨#[.line0, .line0, .line0, .line0, .line1, .line0, .line0, .line0, .line0, .line0, .line0, .line0, .none, .line0,
     .line0, .line0, .line0], rfl⟩

/-- The event unit (section 9.3): the list, oldest first, the reservations, the next seq, the routes and the registers. -/
structure EventUnit where
  list         : List EventRec := []
  reservations : Nat := 0
  nextSeq      : Byte := 0
  routes       : Vector Route 17 := coldRoutes
  mode         : EvtMode := .pop
  line0En      : Bool := false
  line1En      : Bool := false
  staleRelease : Bool := false
deriving DecidableEq, Repr

/-! ### The autoload unit (chapter 10) -/

/-- The phases of the autoload unit (section 10.1). -/
inductive Phase where
  | idle
  | reading
  | verifying
deriving DecidableEq, Repr

/-- The last outcomes (section 10.1). -/
inductive LoadOutcome where
  | none
  | loaded
  | absent
  | invalid
deriving DecidableEq, Repr

/-- The fault reasons (section 10.1). -/
inductive FaultReason where
  | none
  | version
  | count
  | length
  | type
  | recordLength
  | recordStructure
  | check
  | value
  | duplicate
deriving DecidableEq, Repr

/-- What a run was started by (R172, R173). -/
inductive StartedBy where
  | cold
  | reload
deriving DecidableEq, Repr

/-- The autoload unit (section 10.1). -/
structure Autoload where
  phase       : Phase := .idle
  lastOutcome : LoadOutcome := .none
  recordCount : Nat := 0
  faultReason : FaultReason := .none
  faultRecord : Nat := 0
  startedBy   : StartedBy := .cold
  staging     : List Byte := []
deriving DecidableEq, Repr

/-! ### Power control (chapter 11) -/

/-- The link power states (section 11.1). -/
inductive PowerState where
  | active
  | draining
  | asleep
  | waking
deriving DecidableEq, Repr

/-- The last wake reasons (R188). -/
inductive WakeReason where
  | none
  | host
  | attention
deriving DecidableEq, Repr

/-- Power control (section 11.1). -/
structure Power where
  state      : PowerState := .active
  sleepReq   : Bool := false
  retain     : Bool := false
  lastWake   : WakeReason := .none
  wakeTimer  : Option Nat := none
  wakeSettle : Option Nat := none
deriving DecidableEq, Repr

/-- The levels of the reset inputs, and whether a cold reset is in force (R197). -/
structure Pins where
  cold : Bool := true
  host : Bool := false
  hold : Bool := true
deriving DecidableEq, Repr

/-! ### The machine -/

/-- The state of the bridge. `pending` is the queue of commands waiting, first in, first out; `now` is the model's clock in
µs, against which last_response_time is a time. -/
structure State where
  pending    : List Instr := []
  now        : Nat := 0
  pins       : Pins := {}
  port       : HostPort := {}
  timing     : Timing := {}
  windows    : Vector Window 8 := Vector.replicate 8 {}
  hostQueue  : List HostEntry := []
  slots      : Vector Slot 4 := Vector.replicate 4 .free
  cache      : Cache := {}
  mbx        : Mailbox := {}
  engine     : LinkEngine := {}
  modules    : Vector Entry 14 := Vector.replicate 14 {}
  mgmtQueue  : List MgmtEntry := []
  disc       : Discovery := {}
  bindings   : Vector (Option Binding) 14 := Vector.replicate 14 none
  attn       : AttnUnit := {}
  events     : EventUnit := {}
  autoload   : Autoload := {}
  power      : Power := {}
deriving DecidableEq, Repr

/-- The faults of the machine: none. No rule of the spec stops the bridge: what goes wrong is an answer, an outcome, a
record or a result, each of them a next state. -/
inductive Fault where
deriving DecidableEq, Repr

/-- The refusals of the machine. -/
inductive Refusal where
  /-- Raised by an arm of exec whose command has no meaning yet; no arm raises it now. Safe: it claims nothing. -/
  | notModelled (mnemonic : String)
deriving DecidableEq, Repr

/-- The bridge after a cold reset, with COLD_RST still asserted (R197, and the "after cold reset" column of every chapter;
log entry 8). -/
def State.reset : State := {}

end Sys2Proof.Machine
end

