-- ==== Sys2Proof/Machine/Flags.lean ====
section
/-! DEFINITION. Conditions and status flags that the rules compute from the state: suspension of discovery, drain conditions,
pacing, the event queue's counts and lines, the tests of the window table, and the codes of R202 and R209. -/

namespace Sys2Proof.Machine

/-! ### Codes (R202, R209) -/

/-- The result code of an outcome (R202). -/
def outcomeCode : LinkOutcome → Byte
  | .ok => 1
  | .refused => 2
  | .noRegister => 3
  | .noResponse => 4
  | .busyExhausted => 5
  | .stale => 6
  | .quarantined => 7
  | .width => 8
  | .cancelled => 9
  | .discarded => 10

/-- The result code shown in MBX_RESULT and MAILBOX_DONE (R202). -/
def resultCode : Result → Byte
  | .none => 0
  | .outcome o => outcomeCode o
  | .badAddress => 16
  | .badArgument => 17
  | .notPresent => 18
  | .wrongState => 19
  | .autoloadBusy => 20
  | .duplicateId => 21
  | .duplicateAddress => 22
  | .notBound => 23
  | .overtaken => 24
  | .joined => 25
  | .noneWaiting => 26
  | .collision => 27
  | .describeFailed => 28
  | .tableFull => 29
  | .bindingConflict => 30
  | .loaded => 31
  | .loadFailed => 32

/-- The bound code (R202). -/
def boundCode : Bound → Byte
  | .unbound => 0
  | .bound => 1
  | .fallback => 2

/-- The code of an AUTOLOAD_DONE record and of the autoload last outcome (R202, R209). -/
def loadCode : LoadOutcome → Byte
  | .none => 0
  | .loaded => 1
  | .absent => 2
  | .invalid => 3

/-- The code of a wake reason (R202, R209). -/
def wakeCode : WakeReason → Byte
  | .none => 0
  | .host => 1
  | .attention => 2

/-- The code of the direction in a DECODE_MISS record (R209). -/
def dirCode : Dir → Byte
  | .read => 1
  | .write => 2

/-- The route that a written code names; 4 and above name none (R165, R202). -/
def routeOfCode? (c : Nat) : Option Route :=
  if c = 0 then some .none else if c = 1 then some .line0 else if c = 2 then some .line1
  else if c = 3 then some .suppress else none

/-- The code of a route (R202). -/
def routeCode : Route → Nat
  | .none => 0
  | .line0 => 1
  | .line1 => 2
  | .suppress => 3

/-! ### Accessors -/

/-- The module entry at an address. -/
def State.entry (s : State) (a : ModAddr) : Entry := vget s.modules a

/-- Does autoload run (section 10.1)? -/
def State.autoloadRuns (s : State) : Bool := s.autoload.phase ≠ .idle

/-- The value of a timing parameter. -/
def Timing.value (t : Timing) : Param → Nat
  | .linkRate => t.linkRate
  | .respTimeout => t.respTimeout
  | .retryLimit => t.retryLimit
  | .busyLimit => t.busyLimit
  | .busyHoldoff => t.busyHoldoff
  | .pollInterval => t.pollInterval
  | .discoveryInterval => t.discoveryInterval
  | .quarThreshold => t.quarThreshold
  | .departThreshold => t.departThreshold
  | .quarPollInterval => t.quarPollInterval
  | .hostHold => t.hostHold
  | .discardTime => t.discardTime
  | .settleTime => t.settleTime

/-- The current request, if any (section 1.6). -/
def Link.request? : Link → Option Request
  | .free => none
  | .carrying r => some r
  | .holdoff r _ => some r
  | .settling _ _ => none

/-- The management request on the link, if the current request is one. -/
def State.mgmtOnLink (s : State) : Option MgmtEntry :=
  match s.engine.link.request? with
  | some r => match r.source with
    | .management m => some m
    | .broadcast | .host _ _ => none
  | none => none

/-- Does a management request with this property stand in the queue or on the link (R27, R143)? -/
def State.mgmtHas (s : State) (p : MgmtEntry → Bool) : Bool :=
  s.mgmtQueue.any p || s.mgmtOnLink.any p

/-- Is an entry of the host request queue on the link, its outcome still to be delivered (R85, R89)? A request whose outcome
will be DISCARDED is no entry of the queue any more (R12; log entry 30). -/
def State.hostOnLink (s : State) : Bool :=
  match s.engine.link.request? with
  | some r => match r.source with
    | .host _ discarded => !discarded
    | .broadcast | .management _ => false
  | none => false

/-- Is the broadcast LINK_RESET being sent (R21)? -/
def State.broadcasting (s : State) : Bool :=
  match s.engine.link.request? with
  | some r => r.source = .broadcast
  | none => false

/-- The module entry a management request concerns, with the generation recorded (section 2.2). -/
def MgmtEntry.concerns : MgmtEntry → Option (ModAddr × Half)
  | .joinQuery => none
  | .assign a g _ => some (a, g)
  | .descRead a g _ => some (a, g)
  | .ping a g => some (a, g)
  | .attnFetch a g => some (a, g)
  | .attnClear a g _ => some (a, g)
  | .release a g => some (a, g)

/-- Does a management request concern this address? -/
def MgmtEntry.isFor (a : ModAddr) (m : MgmtEntry) : Bool := m.concerns.any fun c => c.1 = a

/-- Is a management request an ATTN_FETCH for this address? -/
def MgmtEntry.isFetchFor (a : ModAddr) : MgmtEntry → Bool
  | .attnFetch b _ => b = a
  | _ => false

/-- Is a management request an ATTN_CLEAR for this incarnation? -/
def MgmtEntry.isClearFor (a : ModAddr) (g : Half) : MgmtEntry → Bool
  | .attnClear b h _ => b = a ∧ h = g
  | _ => false

/-! ### The event queue (chapter 9) -/

/-- The ordinary records in the list (R155). -/
def EventUnit.ordinaryCount (u : EventUnit) : Nat := (u.list.filter fun r => r.kind ≠ .overflow).length

/-- Is overflow present (R155)? -/
def EventUnit.overflowPresent (u : EventUnit) : Bool := u.list.any fun r => r.kind = .overflow

/-- The OVERFLOW record's count, 0 while overflow is absent (R168). -/
def EventUnit.overflowCount (u : EventUnit) : Word :=
  match u.list.find? fun r => r.kind = .overflow with
  | some r => r.detailA
  | none => 0

/-- The route of a kind (R165). -/
def EventUnit.routeOf (u : EventUnit) (k : Kind) : Route := vget u.routes (kindIndex k)

/-- Is a place free for one more ordinary record or reservation, with overflow absent (R143, R156, R158)? -/
def EventUnit.hasPlace (u : EventUnit) : Bool :=
  !u.overflowPresent && u.ordinaryCount + u.reservations < Config.ordinaryPlaces

/-- Is a record with this route in the list (R166, R168)? -/
def EventUnit.routed (u : EventUnit) (r : Route) : Bool := u.list.any fun e => e.route = r

/-- Is either reset input asserted (R211)? -/
def State.resetAsserted (s : State) : Bool := s.pins.cold || s.pins.host || s.pins.hold

/-- LINE0 is active while its enable is set and a record routed LINE0 is in the list (R166), and not while a reset input is
asserted (R211). -/
def State.line0Active (s : State) : Bool := !s.resetAsserted && s.events.line0En && s.events.routed .line0

/-- LINE1, likewise (R166, R211). -/
def State.line1Active (s : State) : Bool := !s.resetAsserted && s.events.line1En && s.events.routed .line1

/-- BM_SEL is asserted for the whole of one run's read (R211). -/
def State.bootSelect (s : State) : Bool := s.autoload.phase = .reading

/-! ### Conditions of discovery, attention and power -/

/-- Discovery is suspended (R29): autoload runs, the power state is not ACTIVE, a link reset is pending, being sent (log
entry 7) or settling. -/
def State.suspended (s : State) : Bool :=
  s.autoloadRuns || s.power.state ≠ .active || s.engine.resetPending || s.broadcasting ||
    (match s.engine.link with
     | .settling _ _ => true
     | .free | .carrying _ | .holdoff _ _ => false)

/-- Do the poll timers run (R39)? -/
def State.pollsRun (s : State) : Bool := s.power.state = .active || s.power.state = .draining

/-- The attention unit permits a fetch for an address (R143). -/
def State.fetchPermitted (s : State) (a : ModAddr) : Bool :=
  !s.mgmtHas (MgmtEntry.isFetchFor a) && (s.attn.mode = .auto || s.events.hasPlace)

/-- An address is free when its entry is EMPTY (section 3.3). -/
def State.addrFree (s : State) (a : ModAddr) : Bool := (s.entry a).state = .empty

/-- An address is unnamed when no binding names it (section 3.3). -/
def State.addrUnnamed (s : State) (a : ModAddr) : Bool := (vget s.bindings a).isNone

/-- What of the pacing interval of a module is still to run, in µs; 0 when it has passed (R23, R48). -/
def State.pacingLeft (s : State) (a : ModAddr) : Nat :=
  match (s.entry a).lastResponse with
  | none => 0
  | some t => t + (s.entry a).pacing.toNat * 10 - s.now

/-- What of the pacing interval of a destination is still to run: frames to 0 and to 15 are not paced (R23). -/
def State.destPacingLeft (s : State) (d : BitVec 4) : Nat :=
  match modAddr? d with
  | some a => s.pacingLeft a
  | none => 0

/-- Is the mailbox WAITING, QUEUED or ACTIVE (R122)? -/
def Mailbox.busy (m : Mailbox) : Bool := m.state = .waiting || m.state = .queued || m.state = .active

/-- Is a slot PENDING? -/
def Slot.isPending : Slot → Bool
  | .pending _ => true
  | .free | .complete _ _ _ _ => false

/-- The drain condition "queues" holds (R190). -/
def State.drainQueues (s : State) : Bool := s.hostQueue.isEmpty && s.mgmtQueue.isEmpty

/-- The drain condition "link" holds (R190). -/
def State.drainLink (s : State) : Bool := s.engine.link = .free && !s.engine.resetPending

/-- The drain condition "join" holds (R190). -/
def State.drainJoin (s : State) : Bool :=
  allAddrs.all fun a => (s.entry a).state ≠ .joining && (s.entry a).state ≠ .describing

/-- The drain condition "reads" holds (R190). -/
def State.drainReads (s : State) : Bool := s.slots.toList.all fun x => !x.isPending

/-- The drain condition "mailbox" holds (R190). -/
def State.drainMailbox (s : State) : Bool := !s.mbx.busy

/-- The drain condition "autoload" holds (R190). -/
def State.drainAutoload (s : State) : Bool := !s.autoloadRuns

/-- Every drain condition of R190 holds. -/
def State.drained (s : State) : Bool :=
  s.drainQueues && s.drainLink && s.drainJoin && s.drainReads && s.drainMailbox && s.drainAutoload

/-- Does attention wake the link: ASLEEP, with ATTN ASSERTED and the sweep armed (R194)? -/
def State.attentionWakes (s : State) : Bool := s.power.state = .asleep && s.attn.level && s.attn.armed

/-- The host port can take an access: no reset input is asserted and no access is being held (R199, R200). -/
def State.portFree (s : State) : Bool := !s.resetAsserted && s.port.held.isNone

/-! ### Windows (chapter 4) -/

/-- The base of a window as a window-space offset (R60). -/
def Window.base (w : Window) : Nat := w.basePage.toNat * 256

/-- The limit of a window as a window-space offset, inclusive (R60). -/
def Window.limit (w : Window) : Nat := w.limitPage.toNat * 256 + 255

/-- The four tests of the enable write (R63). -/
def Window.enableTests (w : Window) : Bool :=
  w.basePage.toNat ≤ w.limitPage.toNat && (modAddr? w.target).isSome &&
    w.remoteBase.toNat + (w.limit - w.base) ≤ 0xFFFF && w.remoteBase.toNat % w.width.bytes = 0

/-- A window contains a window-space offset (R60). -/
def Window.contains (w : Window) (o : Nat) : Bool := w.base ≤ o && o ≤ w.limit

/-- The windows in the order the decoder tries them (R66). -/
def allWindows : List (Fin 8) := [0, 1, 2, 3, 4, 5, 6, 7]

/-- The slots in ascending order (R102, R108). -/
def allSlots : List (Fin 4) := [0, 1, 2, 3]

/-- The lines in ascending order (R111: "taken from line 0 upward"). -/
def allLines : List (Fin 32) :=
  [0, 1, 2, 3, 4, 5, 6, 7, 8, 9, 10, 11, 12, 13, 14, 15] ++ [16, 17, 18, 19, 20, 21, 22, 23, 24, 25, 26, 27, 28, 29, 30, 31]

/-- The window that decodes a window-space offset: the lowest-numbered enabled one that contains it (R66). -/
def State.selectWindow (s : State) (o : Nat) : Option (Fin 8) :=
  allWindows.find? fun n => (vget s.windows n).enabled && (vget s.windows n).contains o

end Sys2Proof.Machine
end

