-- ==== Sys2Proof/Machine/Ops.lean ====
section
/-! DEFINITION. The named operations that the meanings share: posting event records, the read cache, the delayed-read slots,
the mailbox's endings, leave handling, discovery, attention, due work, the head checks, and the passing of time. -/

namespace Sys2Proof.Machine

/-! ### Updating parts of the state -/

/-- The module entry at an address replaced. -/
def State.setEntry (s : State) (a : ModAddr) (e : Entry) : State := { s with modules := vset s.modules a e }

/-- A slot replaced. -/
def State.setSlot (s : State) (i : Fin 4) (x : Slot) : State := { s with slots := vset s.slots i x }

/-- The answer of the host port set, which ends the access (R199). -/
def State.reply (s : State) (r : Answer) : State := { s with port := { s.port with answer := some r } }

/-- A read answered OK with a word of data. -/
def okRead (data : Word) : Answer := ⟨.ok, some data⟩

/-- A write answered OK. -/
def okWrite : Answer := ⟨.ok, none⟩

/-- RETRY (R199). -/
def retryAnswer : Answer := ⟨.retry, none⟩

/-- ERROR: a read carries 0xFFFFFFFF (R199). -/
def errorAnswer : Dir → Answer
  | .read => ⟨.error, some 0xFFFFFFFF#32⟩
  | .write => ⟨.error, none⟩

/-! ### The event unit (chapter 9) -/

/-- A record as a block posts it: its fields but for seq, route and held (R153). -/
structure Posted where
  kind    : Kind
  address : Option ModAddr
  code    : Byte
  detailA : Word
  detailB : Word
  detailC : Word
deriving DecidableEq, Repr

/-- The record appended at the tail, with the next seq and the route its kind has now (R156, R158). -/
def EventUnit.append (u : EventUnit) (p : Posted) (held : Bool) : EventUnit :=
  { u with
    list := u.list ++ [{ seq := u.nextSeq, kind := p.kind, address := p.address, code := p.code, detailA := p.detailA,
                         detailB := p.detailB, detailC := p.detailC, route := u.routeOf p.kind, held := held }]
    nextSeq := u.nextSeq + 1 }

/-- One more record counted into the OVERFLOW record; the count stops at 0xFFFFFFFF (R157). -/
def EventUnit.countLost (u : EventUnit) : EventUnit :=
  { u with list := u.list.map fun r =>
      if r.kind = .overflow then
        { r with detailA := if r.detailA = 0xFFFFFFFF#32 then r.detailA else r.detailA + 1 }
      else r }

/-- An ordinary record taken in the event that posts it: suppressed, counted, appended, or the first to find no place
(R156, R157). -/
def EventUnit.post (u : EventUnit) (p : Posted) : EventUnit :=
  if u.routeOf p.kind = .suppress then u
  else if u.overflowPresent then u.countLost
  else if u.hasPlace then u.append p false
  else u.append ⟨.overflow, none, 0, 1, 0, 0⟩ false

/-- A reservation taken (R158); nothing is taken where the test fails. -/
def EventUnit.take (u : EventUnit) : EventUnit :=
  if u.hasPlace then { u with reservations := u.reservations + 1 } else u

/-- A reservation released (R158). -/
def EventUnit.release (u : EventUnit) : EventUnit := { u with reservations := u.reservations - 1 }

/-- A reserved place filled with an ATTENTION record, whether or not overflow is present (R158). -/
def EventUnit.fill (u : EventUnit) (a : ModAddr) (word : Half) (gen : Half) (held : Bool) : EventUnit :=
  if 0 < u.reservations then
    ({ u with reservations := u.reservations - 1 }).append
      ⟨.attention, some a, 0, word.setWidth 32, gen.setWidth 32, 0⟩ held
  else u

/-- The held flag cleared on an address's held ATTENTION record (R153). -/
def EventUnit.clearHeld (u : EventUnit) (a : ModAddr) : EventUnit :=
  { u with list := u.list.map fun r =>
      if r.kind = .attention ∧ r.address = some a ∧ r.held = true then { r with held := false } else r }

/-- A record posted by any block. -/
def post (p : Posted) (s : State) : State := { s with events := s.events.post p }

/-! ### The read cache (section 6.3) -/

/-- Every valid line with a property made invalid; the lines leave the use order and the others keep theirs (R111). -/
def Cache.drop (c : Cache) (p : Line → Bool) : Cache :=
  { lines := vmap (fun o => o.filter fun l => !p l) c.lines
    useOrder := c.useOrder.filter fun i => (vget c.lines i).any fun l => !p l }

/-- The line that a lookup hits (R113). -/
def Cache.hit (c : Cache) (a : ModAddr) (gen offset : Half) (w : Width) : Option (Fin 32) :=
  allLines.find? fun i => (vget c.lines i).any fun l => l.addr = a ∧ l.gen = gen ∧ l.offset = offset ∧ l.width = w

/-- A line moved to the most recent end of the use order (R111, R113). -/
def Cache.touch (c : Cache) (i : Fin 32) : Cache := { c with useOrder := c.useOrder.filter (· ≠ i) ++ [i] }

/-- The line a fill takes: the lowest-numbered free line, else the line at the least recent end (R115). -/
def Cache.victim (c : Cache) : Fin 32 :=
  match allLines.find? fun i => (vget c.lines i).isNone with
  | some i => i
  | none => c.useOrder.headD 0

/-- A fill placed in its three parts (R115). -/
def Cache.fill (c : Cache) (l : Line) : Cache :=
  let c1 := c.drop fun m => m.addr = l.addr ∧ bytesOverlap m.offset m.width l.offset l.width
  let i := c1.victim
  ({ c1 with lines := vset c1.lines i (some l) }).touch i

/-- The number of valid lines (CACHE_LINES, R111). -/
def Cache.count (c : Cache) : Nat := (c.lines.toList.filter Option.isSome).length

/-- Every valid line of one address removed (R117). -/
def dropLinesOf (a : ModAddr) (s : State) : State := { s with cache := s.cache.drop fun l => l.addr = a }

/-- Every line made invalid (R118). -/
def clearCache (s : State) : State := { s with cache := {} }

/-- A fill offered to the cache: taken only for an entry ONLINE at the fill's generation (R114). -/
def offerFill (l : Line) (s : State) : State :=
  if (s.entry l.addr).state = .online ∧ (s.entry l.addr).generation = l.gen then { s with cache := s.cache.fill l } else s

/-! ### The delayed-read slots (section 6.2) -/

/-- The fields of a slot that is PENDING or COMPLETE. -/
def Slot.info? : Slot → Option SlotInfo
  | .free => none
  | .pending i => some i
  | .complete i _ _ _ => some i

/-- The slot a read access matches: host address and width alone (R101). -/
def State.matchSlot (s : State) (hostAddr : BitVec 17) (w : Width) : Option (Fin 4) :=
  allSlots.find? fun i => (vget s.slots i).info?.any fun x => x.hostAddr = hostAddr ∧ x.width = w

/-- The lowest-numbered FREE slot (R102). -/
def State.freeSlot (s : State) : Option (Fin 4) := allSlots.find? fun i => vget s.slots i = .free

/-- The DELAYED_DISCARD of a slot: reason 1 TIMEOUT or 2 OVERWRITTEN (R107, R108, R154). -/
def discardRecord (i : Fin 4) (x : SlotInfo) (reason : Byte) : Posted :=
  ⟨.delayedDiscard, some x.target, reason, BitVec.ofNat 32 i.val, x.hostAddr.setWidth 32, BitVec.ofNat 32 x.width.bytes⟩

/-- The answer that collecting a slot gives (R105). -/
def slotAnswer (x : SlotInfo) (o : LinkOutcome) (data : Option Word) : Answer :=
  if o = .ok then okRead (toLanes (x.hostAddr.toNat % 4) x.width (data.getD 0)) else errorAnswer .read

/-- A completed read handed to the host: the access is answered, the slot becomes FREE, and an ERROR is recorded in
READ_FAULT (R105). -/
def collect (i : Fin 4) (x : SlotInfo) (o : LinkOutcome) (data : Option Word) (s : State) : State :=
  let s1 := (s.setSlot i .free).reply (slotAnswer x o data)
  if o = .ok then s1
  else { s1 with port := { s1.port with
          readFault := ⟨some o, x.hostAddr, BitVec.ofNat 3 x.width.bytes, BitVec.ofNat 2 i.val⟩ } }

/-- A WINDOW_READ's outcome delivered to its slot (R104): an access still held for it is answered at once (R103); else the
slot is COMPLETE with its discard timer from zero. An OK outcome of a cacheable read without no_fill offers a fill. -/
def completeSlot (i : Fin 4) (e : HostEntry) (o : LinkOutcome) (data : Option Word) (s : State) : State :=
  match vget s.slots i with
  | .pending x =>
    let kept : Option Word := if o = .ok then some ((data.getD 0) &&& x.width.mask) else none
    let s1 :=
      if s.port.held.any fun h => h.what = .slot i then
        collect i x o kept { s with port := { s.port with held := none } }
      else s.setSlot i (.complete x o kept 0)
    if o = .ok ∧ e.cacheable = true ∧ x.noFill = false then
      offerFill ⟨e.addr, e.gen, e.offset, e.width, kept.getD 0⟩ s1
    else s1
  | .free | .complete _ _ _ _ => s

/-- What a write does to one slot (R108): an overlapped COMPLETE slot is freed with DELAYED_DISCARD OVERWRITTEN, an
overlapped PENDING slot gets no_fill. -/
def overwriteSlot (a : ModAddr) (offset : Half) (w : Width) (s : State) (i : Fin 4) : State :=
  match vget s.slots i with
  | .free => s
  | .pending x =>
    if x.target = a ∧ bytesOverlap x.offset x.width offset w then s.setSlot i (.pending { x with noFill := true }) else s
  | .complete x _ _ _ =>
    if x.target = a ∧ bytesOverlap x.offset x.width offset w then post (discardRecord i x 2) (s.setSlot i .free) else s

/-- The write-side effects of a write added to the host request queue (R79, R108, R116). -/
def writeEffects (a : ModAddr) (offset : Half) (w : Width) (s : State) : State :=
  allSlots.foldl (overwriteSlot a offset w)
    { s with cache := s.cache.drop fun l => l.addr = a ∧ bytesOverlap l.offset l.width offset w }

/-- no_fill set on a PENDING slot whose target is an address (R109). -/
def noFillFor (a : ModAddr) : Slot → Slot
  | .free => .free
  | .pending x => if x.target = a then .pending { x with noFill := true } else .pending x
  | .complete x o d t => .complete x o d t

/-- A CONTENTS_CHANGED report for an address (R146, R109, R117). -/
def contentsChanged (a : ModAddr) (s : State) : State :=
  let s1 := dropLinesOf a s
  { s1 with slots := vmap (noFillFor a) s1.slots }

/-- A COMPLETE slot's discard timer runs out (R107). -/
def discardSlot (i : Fin 4) (s : State) : State :=
  match vget s.slots i with
  | .complete x _ _ _ => post (discardRecord i x 1) (s.setSlot i .free)
  | .free | .pending _ => s

/-! ### The mailbox (chapter 7) -/

/-- The codes of MBX_OP that the rules outside the mailbox name (R202). -/
def opForget : Byte := 6
/-- DISCOVER_NOW (R202). -/
def opDiscoverNow : Byte := 7
/-- LINK_RESET (R202). -/
def opLinkReset : Byte := 8
/-- RELOAD (R202). -/
def opReload : Byte := 10

/-- A command with this code is in progress as ACTIVE; the argument registers are held while it is (R121). -/
def Mailbox.runs (m : Mailbox) (op : Byte) : Bool := m.state = .active ∧ m.op = op

/-- A command ends in DONE or FAILED with a result, and posts MAILBOX_DONE (R136). -/
def endMailbox (st : MbxState) (r : Result) (addr : Option ModAddr) (detailB : Word) (s : State) : State :=
  post ⟨.mailboxDone, addr, resultCode r, s.mbx.op.setWidth 32, detailB, 0⟩
    { s with mbx := { s.mbx with state := st, result := r } }

/-- A mailbox link command ends with its entry's outcome (R93, R126): a READ or DESC_READ that ended OK puts its value in
MBX_DATA. -/
def endLinkCommand (e : HostEntry) (o : LinkOutcome) (data : Option Word) (s : State) : State :=
  if o = .ok then
    if e.op = .write then endMailbox .done (.outcome .ok) (modAddr? s.mbx.target) 0 s
    else
      let v := (data.getD 0) &&& e.width.mask
      endMailbox .done (.outcome .ok) (modAddr? s.mbx.target) v { s with mbx := { s.mbx with data := v } }
  else endMailbox .failed (.outcome o) (modAddr? s.mbx.target) 0 s

/-! ### The host request queue's completions and head checks (chapter 5) -/

/-- The WRITE_FAILED of a window write (R91). -/
def writeFailedRecord (e : HostEntry) (o : LinkOutcome) : Posted :=
  ⟨.writeFailed, some e.addr, outcomeCode o, e.offset.setWidth 32, BitVec.ofNat 32 e.width.bytes, e.data.getD 0⟩

/-- An outcome delivered by origin (R90). -/
def deliver (e : HostEntry) (o : LinkOutcome) (data : Option Word) (s : State) : State :=
  match e.origin with
  | .windowWrite => if o = .ok then s else post (writeFailedRecord e o) s
  | .windowRead =>
    match e.slot with
    | some i => completeSlot i e o data s
    | none => s
  | .mailbox => endLinkCommand e o data s

/-- The checks of an entry that is the head, in their order (R86, R88). -/
def headCheck (e : HostEntry) (s : State) : Option LinkOutcome :=
  let m := s.entry e.addr
  if e.cancelled then some .cancelled
  else if m.generation ≠ e.gen ∨ m.state = .empty ∨ m.state = .joining ∨ m.state = .describing then some .stale
  else if m.state = .quarantined ∧ e.diagnostic = false then some .quarantined
  else if e.op ≠ .descRead ∧ m.widthLimit.bytes < e.width.bytes then some .width
  else none

/-- Heads that fail a check completed fail-fast, one after another, at most `n` of them (R85, R86). -/
def failHeads : Nat → State → State
  | 0, s => s
  | n + 1, s =>
    match s.hostQueue with
    | [] => s
    | e :: rest =>
      match headCheck e s with
      | none => s
      | some o => failHeads n (deliver e o none { s with hostQueue := rest })

/-- The head checks made until the head passes or the queue is empty (R86, R87). While an earlier entry of the queue is on the
link no entry completes: completions are delivered in queue order (R85). -/
def headChecks (s : State) : State := if s.hostOnLink then s else failHeads s.hostQueue.length s

/-! ### Attention (chapter 8) -/

/-- The sweep-armed flag set (R139). -/
def armSweep (s : State) : State := { s with attn := { s.attn with armed := true } }

/-- An address leaves the sweep's set; when the set is empty the sweep has ended (R141). -/
def leaveSweep (a : ModAddr) (s : State) : State :=
  match s.attn.sweep with
  | none => s
  | some l =>
    let l1 := l.filter (· ≠ a)
    { s with attn := { s.attn with sweep := if l1.isEmpty then none else some l1 } }

/-- The fetch record of an address. -/
def State.fetchRec (s : State) (a : ModAddr) : Option FetchRec := vget s.attn.fetches a

/-- A fetch record dropped, a reserved one's reservation released (R144, R145, R151). -/
def dropFetch (a : ModAddr) (s : State) : State :=
  let s1 := { s with attn := { s.attn with fetches := vset s.attn.fetches a none } }
  if (s.fetchRec a).any fun f => f.reserved then { s1 with events := s1.events.release } else s1

/-- What the attention unit does when an entry leaves (R151, R141); the entry's own fields are set by leave handling. -/
def attnLeave (a : ModAddr) (s : State) : State :=
  leaveSweep a <|
    match (s.entry a).attention with
    | .none => s
    | .fetchDue => s
    | .fetching => dropFetch a s
    | .held => armSweep { s with events := s.events.clearHeld a }
    | .clearDue => armSweep s

/-! ### Discovery's state (section 2.3) -/

/-- A query falls due at once: discovery goes to QUERYING with a JOIN_QUERY as its waiting item (R30). -/
def queryNow (s : State) : State :=
  { s with disc := { s.disc with state := .querying, waiting := some .joinQuery, queryTimer := none } }

/-- Discovery goes to IDLE, its query timer from zero (R30). -/
def enterIdle (s : State) : State :=
  { s with disc := { s.disc with state := .idle, waiting := none, queryTimer := some 0,
                                 queryInterval := s.timing.discoveryInterval } }

/-- Discovery goes to DISABLED (R29). -/
def disableDiscovery (s : State) : State :=
  { s with disc := { s.disc with state := .disabled, waiting := none, queryTimer := none } }

/-- A query or join has ended: discovery goes to IDLE, with a query due at once or after DISCOVERY_INTERVAL, or to DISABLED
while suspended (R29, R30). The suspension is tested at this end alone: one that began and ended again while the query or join went on
(a drain begun and cancelled) leaves no trace, though R29 carries the query on 'and then goes to DISABLED instead of IDLE' without
saying what an ended suspension leaves (log entry 35, the model's choice). -/
def endDiscovery (dueNow : Bool) (s : State) : State :=
  if s.suspended then disableDiscovery s else if dueNow then queryNow s else enterIdle s

/-- Parked discovery unparks on an entry becoming EMPTY, a binding change or DISCOVER_NOW (R58). -/
def unpark (s : State) : State :=
  if s.disc.state = .parkedFull ∨ s.disc.state = .parkedConflict then endDiscovery true s else s

/-- The endings that discovery reports to a DISCOVER_NOW (R131). -/
inductive DiscEnd where
  | joined (a : ModAddr) (gen : Half)
  | noneWaiting
  | collision
  | describeFailed
  | tableFull
  | bindingConflict
deriving DecidableEq, Repr

/-- A DISCOVER_NOW in progress ends with the ending that discovery reports (R131). -/
def discoverReport (d : DiscEnd) (s : State) : State :=
  if s.mbx.runs opDiscoverNow then
    match d with
    | .joined a gen =>
      endMailbox .done .joined (some a) (gen.setWidth 32)
        { s with mbx := { s.mbx with data := (linkAddr a).setWidth 32, xdata := gen.setWidth 32 } }
    | .noneWaiting => endMailbox .done .noneWaiting none 0 s
    | .collision => endMailbox .failed .collision none 0 s
    | .describeFailed => endMailbox .failed .describeFailed none 0 s
    | .tableFull => endMailbox .failed .tableFull none 0 s
    | .bindingConflict => endMailbox .failed .bindingConflict none 0 s
  else s

/-! ### Leave handling (section 2.7) -/

/-- Why an entry returns to EMPTY (R45). -/
inductive LeaveCause where
  | silent
  | reappeared
  | forgotten (o : LinkOutcome)
  | linkReset
  | describeFailed
  | assignFailed
  | idMismatch
deriving DecidableEq, Repr

/-- The record a leave posts: JOIN_COLLISION for an ASSIGN failure or an ID mismatch, MODULE_LEFT for the others (R45). -/
def leaveRecord (c : LeaveCause) (a : ModAddr) (e : Entry) : Posted :=
  let left (reason : Byte) : Posted :=
    ⟨.moduleLeft, some a, reason, (e.uniqueId.getD 0).setWidth 32, ((e.uniqueId.getD 0) >>> 32).setWidth 32,
     e.generation.setWidth 32⟩
  match c with
  | .silent => left 1
  | .reappeared => left 2
  | .forgotten _ => left 3
  | .linkReset => left 4
  | .describeFailed => left 5
  | .assignFailed => ⟨.joinCollision, none, 0, 0, 0, 0⟩
  | .idMismatch => ⟨.joinCollision, none, 0, 0, 0, 0⟩

/-- The result of a FORGET whose entry leaves for a cause: the RELEASE's outcome, or OVERTAKEN (R130). -/
def forgetResult : LeaveCause → Result
  | .forgotten o => .outcome o
  | .silent | .reappeared | .linkReset | .describeFailed | .assignFailed | .idMismatch => .overtaken

/-- A FORGET waiting on an entry is told that the entry is EMPTY (R45 step 7, R130). Its MAILBOX_DONE so stands right behind the entry's
own MODULE_LEFT, and in the clearing of a link reset ahead of the MODULE_LEFT records of the addresses after it, which no rule orders
(log entry 4, the model's choice). -/
def forgetEnds (a : ModAddr) (c : LeaveCause) (s : State) : State :=
  if s.mbx.runs opForget ∧ modAddr? s.mbx.target = some a then endMailbox .done (forgetResult c) (some a) 0 s else s

/-- The management work that concerns an entry removed: its queue entries, and a waiting item for it (R45 step 1; log
entry 19). -/
def removeWork (a : ModAddr) (s : State) : State :=
  { s with mgmtQueue := s.mgmtQueue.filter fun m => !m.isFor a
           disc := { s.disc with waiting := s.disc.waiting.filter fun m => !m.isFor a } }

/-- Leave handling, steps 1 to 7 (R45). -/
def leave (a : ModAddr) (c : LeaveCause) (s : State) : State :=
  let e := s.entry a
  let s1 := attnLeave a (dropLinesOf a (removeWork a s))
  let s2 := post (leaveRecord c a e) (s1.setEntry a { generation := e.generation, seq := e.seq })
  forgetEnds a c (unpark s2)

/-! ### Due work and the sweep -/

/-- ping due set on an entry, unless a PING for it already stands in the queue or is on the link (R27). -/
def setPingDue (a : ModAddr) (s : State) : State :=
  let e := s.entry a
  if s.mgmtHas (fun m => m = .ping a e.generation) then s else s.setEntry a { e with pingDue := true }

/-- A sweep starts when its four conditions hold (R140): the set is the ONLINE entries with attention_state NONE. -/
def startSweep (s : State) : State :=
  if s.attn.armed ∧ s.attn.level ∧ s.power.state = .active ∧ s.attn.sweep = none then
    let set := allAddrs.filter fun a => (s.entry a).state = .online ∧ (s.entry a).attention = .none
    let s1 := { s with attn := { s.attn with armed := false, sweep := if set.isEmpty then none else some set } }
    set.foldl (fun t a => setPingDue a t) s1
  else s

/-- Is a place free in the management queue (R26)? -/
def State.mgmtRoom (s : State) : Bool := s.mgmtQueue.length < Config.mgmtQueueCapacity

/-- A request added to the management queue. -/
def pushMgmt (m : MgmtEntry) (s : State) : State := { s with mgmtQueue := s.mgmtQueue ++ [m] }

/-- Discovery's waiting item added (R27). -/
def addWaiting (s : State) : State :=
  match s.disc.waiting with
  | none => s
  | some m => if s.mgmtRoom then pushMgmt m { s with disc := { s.disc with waiting := none } } else s

/-- A RELEASE due added; adding it clears release due (R27). -/
def addRelease (a : ModAddr) (s : State) : State :=
  let e := s.entry a
  if e.releaseDue ∧ s.mgmtRoom then pushMgmt (.release a e.generation) (s.setEntry a { e with releaseDue := false }) else s

/-- An ATTN_CLEAR added for an entry in CLEAR_DUE that has none in the queue or on the link (R27, R148). -/
def addClear (a : ModAddr) (s : State) : State :=
  let e := s.entry a
  if e.attention = .clearDue ∧ !s.mgmtHas (MgmtEntry.isClearFor a e.generation) ∧ s.mgmtRoom then
    pushMgmt (.attnClear a e.generation (e.clearBits.getD 0)) s
  else s

/-- A permitted ATTN_FETCH added for an entry in FETCH_DUE, which becomes FETCHING; in HELD mode it takes a reservation
(R27, R143). -/
def addFetch (a : ModAddr) (s : State) : State :=
  let e := s.entry a
  if e.attention = .fetchDue ∧ s.fetchPermitted a ∧ s.mgmtRoom then
    let reserved : Bool := s.attn.mode = .held
    let s1 := pushMgmt (.attnFetch a e.generation) (s.setEntry a { e with attention := .fetching })
    { s1 with
      attn := { s1.attn with fetches := vset s1.attn.fetches a (some ⟨e.generation, reserved⟩) }
      events := if reserved then s1.events.take else s1.events }
  else s

/-- A PING due added; adding it clears ping due (R27). -/
def addPing (a : ModAddr) (s : State) : State :=
  let e := s.entry a
  if e.pingDue ∧ s.mgmtRoom then pushMgmt (.ping a e.generation) (s.setEntry a { e with pingDue := false }) else s

/-- The due work of one entry in the order of its kinds (R27). -/
def addWorkFor (s : State) (a : ModAddr) : State := addPing a (addFetch a (addClear a (addRelease a s)))

/-- Due work added while places are free: discovery's waiting item, then the entries in ascending address order (R27). -/
def addDueWork (s : State) : State := allAddrs.foldl addWorkFor (addWaiting s)

/-! ### Power (chapter 11) -/

/-- The WAKE record (R193, R194). -/
def wakeRecord (r : WakeReason) : Posted := ⟨.wake, none, wakeCode r, 0, 0, 0⟩

/-- ping due set on every ONLINE and QUARANTINED entry (R195). -/
def pingPresent (s : State) : State :=
  allAddrs.foldl
    (fun t a => if (t.entry a).state = .online ∨ (t.entry a).state = .quarantined then setPingDue a t else t) s

/-- The power state that follows WAKING: ACTIVE, or DRAINING where SLEEP_REQ was set meanwhile (R195). -/
def endWaking (s : State) : State :=
  { s with power := { s.power with state := if s.power.sleepReq then .draining else .active, wakeTimer := none
                                   wakeSettle := none } }

/-- The link leaves WAKING, with pings due on every ONLINE and QUARANTINED entry and the sweep armed (R195). -/
def leaveWaking (s : State) : State := armSweep (pingPresent (endWaking s))

/-- The link enters WAKING for a reason (R193, R194, R195); with SETTLE_TIME 0 it leaves WAKING at once. -/
def wakeLink (r : WakeReason) (s : State) : State :=
  let s1 := post (wakeRecord r)
    { s with power := { s.power with state := .waking, sleepReq := false, lastWake := r, wakeTimer := some 0,
                                     wakeSettle := some (s.timing.settleTime * 1000) } }
  if s.timing.settleTime = 0 then leaveWaking s1 else s1

/-- A host cause wakes a sleeping link (R193). -/
def hostWake (s : State) : State := if s.power.state = .asleep then wakeLink .host s else s

/-- ASLEEP with ATTN ASSERTED and the sweep armed wakes the link (R194). -/
def attentionWake (s : State) : State := if s.attentionWakes then wakeLink .attention s else s

/-- A DRAINING link returns to ACTIVE, SLEEP_REQ cleared, when a DISCOVER_NOW waits for discovery to leave DISABLED
(R191). -/
def cancelDrain (s : State) : State :=
  if s.power.state = .draining ∧ s.disc.state = .disabled ∧ s.mbx.runs opDiscoverNow then
    { s with power := { s.power with state := .active, sleepReq := false } }
  else s

/-! ### What every event closes with -/

/-- Suspension begins: discovery goes to DISABLED, or finishes its query or join first (R29). -/
def suspendDiscovery (s : State) : State :=
  match s.disc.state with
  | .idle => disableDiscovery s
  | .parkedFull => disableDiscovery s
  | .parkedConflict => disableDiscovery s
  | .querying =>
    if s.mgmtOnLink = some .joinQuery then s
    else disableDiscovery { s with mgmtQueue := s.mgmtQueue.filter fun m => m ≠ .joinQuery }
  | .joining => s
  | .disabled => s

/-- Discovery follows its suspension: it is suspended while a cause of R29 holds, and leaves DISABLED with a query due at
once when none does. -/
def updateDiscovery (s : State) : State :=
  if s.suspended then suspendDiscovery s
  else if s.disc.state = .disabled then queryNow s
  else s

/-- The link goes ASLEEP when it is DRAINING and every drain condition holds (R190). -/
def drainIfDone (s : State) : State :=
  if s.power.state = .draining ∧ s.drained then { s with power := { s.power with state := .asleep } } else s

/-- The work that a change of state makes in the same event: discovery's suspension or resumption (R29, R191), the start of a
sweep (R140), due work (R27), and the head checks (R86, R87). A held fetch takes its reservation (R143) behind the records that the
event's own blocks have posted, which stand in `s`, and ahead of the records of the head checks; the spec orders neither (log entry 4,
the model's choice). -/
def followChange (s : State) : State :=
  headChecks (addDueWork (startSweep (updateDiscovery (cancelDrain (updateDiscovery s)))))

/-- What closes every event that changes a condition: the work that follows (`followChange`), the end of a drain whose last
condition the event has fulfilled (R190; log entry 5), and a wake by attention, after which work follows again (R194, R195). -/
def settle (s : State) : State :=
  let t := drainIfDone (followChange s)
  if t.attentionWakes then followChange (attentionWake t) else t

/-! ### The passing of time -/

/-- The timer of an attempt, later (R14, R16). -/
def Attempt.later (d : Nat) : Attempt → Attempt
  | .sending => .sending
  | .awaiting e => .awaiting (e + d)
  | .receiving => .receiving
  | .gap e => .gap (e + d)
  | .resend => .resend

/-- The timers of the link, later (R14, R17, R21). A holdoff that has run its BUSY_HOLDOFF is over: the link is CARRYING again
and the busy resend waits for its pacing interval alone (R17). -/
def Link.later (d : Nat) : Link → Link
  | .free => .free
  | .carrying r => .carrying { r with attempt := r.attempt.later d }
  | .holdoff r e =>
    if r.params.busyHoldoff ≤ e + d then .carrying { r with attempt := .resend } else .holdoff r (e + d)
  | .settling e t => .settling (e + d) t

/-- A slot's discard timer, later: it runs while the slot is COMPLETE (R107). -/
def Slot.later (d : Nat) : Slot → Slot
  | .free => .free
  | .pending x => .pending x
  | .complete x o v t => .complete x o v (t + d)

/-- The state `d` µs later: each timer that runs has run on by `d`, and nothing else has changed. -/
def advance (d : Nat) (s : State) : State :=
  { s with
    now := s.now + d
    port := { s.port with held := s.port.held.map fun h => { h with elapsed := h.elapsed + d } }
    slots := vmap (Slot.later d) s.slots
    engine := { s.engine with link := s.engine.link.later d }
    modules := if s.pollsRun then vmap (fun e => { e with pollTimer := e.pollTimer.map (· + d) }) s.modules else s.modules
    disc := { s.disc with queryTimer := s.disc.queryTimer.map (· + d) }
    power := { s.power with wakeTimer := s.power.wakeTimer.map (· + d) } }

/-- The poll timers of the entries in `st` compared with their interval of `ms` milliseconds, which has just been set: an entry whose
timer is past it has ping due set, and its timer stops (R39). -/
def comparePolls (st : ModState) (ms : Nat) (s : State) : State :=
  if s.pollsRun then
    allAddrs.foldl (fun t a =>
      let e := t.entry a
      match e.pollTimer with
      | some n => if e.state = st ∧ ms * 1000 ≤ n then setPingDue a (t.setEntry a { e with pollTimer := none }) else t
      | none => t) s
  else s

/-- The discard timers compared with DISCARD_TIME now: a timer already past it runs out at once (R107, R185). Several that run
out so in one event are taken in ascending slot order (log entry 4, the model's choice). -/
def compareDiscards (s : State) : State :=
  allSlots.foldl (fun t i =>
    match vget t.slots i with
    | .complete _ _ _ n => if t.timing.discardTime * 1000 ≤ n then discardSlot i t else t
    | .free | .pending _ => t) s

/-! ### When an event can take place -/

/-- An event of a block that is not the host port: it takes place unless a cold reset is in force (R197: the blocks hold
their cold values while the reset input stays asserted). -/
def whenLive (f : State → State) (s : State) : State := if s.pins.hold then s else f s

/-- A host access: it takes place when the port takes accesses and holds none (R197, R198, R199). -/
def hostAccess (f : State → State) (s : State) : State := if s.portFree then f s else s

/-- A register write: every lane must be enabled (R201), else ERROR and no change. -/
def fullWrite (lanes : BitVec 4) (f : State → State) (s : State) : State :=
  if lanes = 0xF#4 then f s else s.reply (errorAnswer .write)

end Sys2Proof.Machine
end

