-- ==== Sys2Proof/Machine/Modules.lean ====
section
/-! DEFINITION. What the module manager, the binding table and the attention unit do with the end of a request (chapters 2,
3 and 8): failure-run reports, joins, descriptors, attention fetches and clears, releases. -/

namespace Sys2Proof.Machine

/-! ### Supervision (section 2.5) -/

/-- Is a request the RELEASE sent for a FORGET of the entry at an address (R40, R41)? -/
def forgetRelease (a : ModAddr) (m : Option MgmtEntry) (s : State) : Bool :=
  match m with
  | some (.release _ _) => (s.entry a).releaseFor = some .forget
  | _ => false

/-- A NO_RESPONSE report for an ONLINE entry (R40). -/
def silentOnline (a : ModAddr) (s : State) : State :=
  let e := s.entry a
  if s.timing.quarThreshold ≤ e.failureRun + 1 then
    post ⟨.moduleQuarantined, some a, outcomeCode .noResponse, e.generation.setWidth 32, 0, 0⟩
      (dropLinesOf a (s.setEntry a { e with state := .quarantined, failureRun := s.timing.quarThreshold,
                                            departCount := 0, responding := false, pollTimer := some 0 }))
  else s.setEntry a { e with failureRun := e.failureRun + 1, pollTimer := some 0 }

/-- A NO_RESPONSE report for a QUARANTINED entry (R41, R42). -/
def silentQuarantined (a : ModAddr) (s : State) : State :=
  let e := s.entry a
  let s1 := s.setEntry a { e with failureRun := s.timing.quarThreshold, departCount := e.departCount + 1,
                                  pollTimer := some 0 }
  if s.timing.departThreshold ≤ e.departCount + 1 then leave a .silent s1 else s1

/-- A report other than NO_RESPONSE for a QUARANTINED entry (R41). -/
def answeredQuarantined (a : ModAddr) (s : State) : State :=
  let e := s.entry a
  let s1 := s.setEntry a { e with failureRun := 0, departCount := 0, responding := true, pollTimer := some 0 }
  if e.responding then s1 else post ⟨.moduleResponding, some a, 0, e.generation.setWidth 32, 0, 0⟩ s1

/-- A failure-run report taken for an entry (R20, R39 to R42). -/
def takeReport (a : ModAddr) (o : LinkOutcome) (s : State) : State :=
  match (s.entry a).state with
  | .online =>
    if o = .noResponse then silentOnline a s
    else s.setEntry a { s.entry a with failureRun := 0, pollTimer := some 0 }
  | .quarantined => if o = .noResponse then silentQuarantined a s else answeredQuarantined a s
  | .empty => s
  | .joining => s
  | .describing => s

/-- The incarnation a request was made for: its address and generation; none for JOIN_QUERY, ASSIGN and the broadcast, which
make no failure-run report (R20). -/
def reportFor : Source → Option (ModAddr × Half)
  | .broadcast => none
  | .management .joinQuery => none
  | .management (.assign _ _ _) => none
  | .management (.descRead a g _) => some (a, g)
  | .management (.ping a g) => some (a, g)
  | .management (.attnFetch a g) => some (a, g)
  | .management (.attnClear a g _) => some (a, g)
  | .management (.release a g) => some (a, g)
  | .host e _ => some (e.addr, e.gen)

/-- The management request a request carries, if it carries one. -/
def Source.mgmt? : Source → Option MgmtEntry
  | .management m => some m
  | .broadcast => none
  | .host _ _ => none

/-- The failure-run report at a request's end (R20): dropped for another incarnation or an EMPTY entry (R28), and without
effect for the RELEASE of a FORGET (R40, R41). -/
def failureReport (src : Source) (o : LinkOutcome) (s : State) : State :=
  match reportFor src with
  | none => s
  | some (a, g) =>
    if (s.entry a).generation = g ∧ (s.entry a).state ≠ .empty ∧ forgetRelease a src.mgmt? s = false then takeReport a o s
    else s

/-! ### The address choice (section 3.3) -/

/-- What the choice gives. -/
inductive Choice where
  | address (a : ModAddr) (how : Bound)
  | conflict (a : ModAddr)
  | full
deriving DecidableEq, Repr

/-- The address that a binding gives a unique ID (R49). -/
def State.boundAddr (s : State) (id : UniqueId) : Option ModAddr :=
  allAddrs.find? fun a => (vget s.bindings a).any fun b => b.id = id

/-- The lowest address that is free and unnamed (section 3.3). -/
def State.lowestFree (s : State) : Option ModAddr := allAddrs.find? fun a => s.addrFree a && s.addrUnnamed a

/-- The lowest free and unnamed address with a bound value, or none for want of one (R54, R55). -/
def chooseLowest (how : Bound) (s : State) : Choice :=
  match s.lowestFree with
  | some a => .address a how
  | none => .full

/-- The address choice (R54, R55). -/
def choose (id : UniqueId) (returning : Option ModAddr) (s : State) : Choice :=
  match s.boundAddr id with
  | some a =>
    if s.addrFree a then .address a .bound
    else if (vget s.bindings a).any fun b => b.mode = .strict then .conflict a
    else chooseLowest .fallback s
  | none =>
    match returning with
    | some a => if s.addrFree a && s.addrUnnamed a then .address a .unbound else chooseLowest .unbound s
    | none => chooseLowest .unbound s

/-! ### Joins (section 2.3) -/

/-- Discovery's waiting item set (R27, R33 to R35). -/
def setWaiting (m : MgmtEntry) (s : State) : State := { s with disc := { s.disc with waiting := some m } }

/-- A join starts at an address (R25, R33). -/
def startJoin (a : ModAddr) (id : UniqueId) (how : Bound) (s : State) : State :=
  let gen := (s.entry a).generation + 1
  let s1 := s.setEntry a { state := .joining, generation := gen, seq := (s.entry a).seq, uniqueId := some id,
                           bound := how }
  { s1 with disc := { s1.disc with state := .joining, queryTimer := none,
                                   waiting := some (.assign a gen (id.setWidth 16)) } }

/-- Discovery parks (R56, R57). -/
def park (st : DiscState) (p : Posted) (d : DiscEnd) (s : State) : State :=
  discoverReport d (post p { s with disc := { s.disc with state := st, waiting := none, queryTimer := none } })

/-- The entry that a returned ID belongs to already (R32). -/
def State.holderOf (s : State) (id : UniqueId) : Option ModAddr :=
  allAddrs.find? fun a => (s.entry a).state ≠ .empty ∧ (s.entry a).uniqueId = some id

/-- What becomes of a choice (R33, R54 to R57). -/
def carryOutChoice (id : UniqueId) (c : Choice) (s : State) : State :=
  match c with
  | .address a how => startJoin a id how s
  | .conflict a =>
    park .parkedConflict ⟨.bindingConflict, some a, 0, id.setWidth 32, (id >>> 32).setWidth 32, 0⟩ .bindingConflict s
  | .full => park .parkedFull ⟨.tableFull, none, 0, 0, 0, 0⟩ .tableFull s

/-- A JOIN_QUERY that ended OK with an ID: the reappearance test, then the choice (R32, R33). Where the leave ends a FORGET and the choice
parks, the FORGET's MAILBOX_DONE so stands ahead of the BINDING_CONFLICT or TABLE_FULL, an order of two blocks that R159 leaves open (log
entry 4, the model's choice). -/
def idReturned (id : UniqueId) (s : State) : State :=
  match s.holderOf id with
  | none => carryOutChoice id (choose id none s) s
  | some a =>
    let s1 := leave a .reappeared s
    carryOutChoice id (choose id (some a) s1) s1

/-- JOIN_COLLISION posted for a query, which ends (R31). -/
def queryCollides (s : State) : State :=
  discoverReport .collision (endDiscovery false (post ⟨.joinCollision, none, 0, 0, 0, 0⟩ s))

/-- A JOIN_QUERY ends (R31). An ID that comes while a reset is pending is dropped (R29). -/
def joinQueryOutcome (o : LinkOutcome) (garbled : Bool) (data : List Byte) (s : State) : State :=
  match o with
  | .ok => if s.engine.resetPending then disableDiscovery s else idReturned (BitVec.ofNat 64 (leNat data)) s
  | .noResponse =>
    if garbled then queryCollides s else discoverReport .noneWaiting (endDiscovery false s)
  | .refused => queryCollides s
  | .noRegister => queryCollides s
  | .busyExhausted => queryCollides s
  | .stale | .quarantined | .width | .cancelled | .discarded => s

/-- A best-effort RELEASE made due on the entry of a join (R34, R37). -/
def releaseAfter (a : ModAddr) (c : ReleaseCause) (s : State) : State :=
  s.setEntry a { s.entry a with releaseDue := true, releaseFor := some c }

/-- The ASSIGN ends for an entry that is JOINING (R34); its seq has been set by the link engine (R13). -/
def assignOutcome (a : ModAddr) (gen : Half) (o : LinkOutcome) (s : State) : State :=
  if (s.entry a).state ≠ .joining then s
  else if o = .ok then setWaiting (.descRead a gen 0) (s.setEntry a { s.entry a with state := .describing })
  else releaseAfter a .assignFailed s

/-! ### Descriptors (section 2.4) -/

/-- The first record of a type in list order (R38). -/
def firstOfType (t : Byte) (l : List Capability) : Option Capability := l.find? fun c => c.type = t

/-- The width limit that a WIDTH record's value gives (R38). -/
def widthLimitOf (l : List Capability) : Width :=
  match firstOfType 2 l with
  | some c => (widthOfBytes? c.value.toNat).getD .four
  | none => .four

/-- An entry whose chain read has ended becomes ONLINE with the effects of its capability records (R38). -/
def onlineEntry (e : Entry) : Entry :=
  { e with
    state := .online
    hasAttention := (firstOfType 1 e.capabilities).isSome
    widthLimit := widthLimitOf e.capabilities
    pacing := match firstOfType 3 e.capabilities with
      | some c => c.value
      | none => 0
    failureRun := 0
    pollTimer := some 0 }

/-- The MODULE_JOINED of an entry (R38, R154). -/
def joinedRecord (a : ModAddr) (e : Entry) : Posted :=
  ⟨.moduleJoined, some a, boundCode e.bound, (e.uniqueId.getD 0).setWidth 32, ((e.uniqueId.getD 0) >>> 32).setWidth 32,
   e.generation.setWidth 32⟩

/-- The chain read ends: the entry is ONLINE, the sweep is armed, MODULE_JOINED is posted, and a query falls due (R38). -/
def becomeOnline (a : ModAddr) (s : State) : State :=
  let e := s.entry a
  discoverReport (.joined a e.generation)
    (endDiscovery true (post (joinedRecord a e) (armSweep (s.setEntry a (onlineEntry e)))))

/-- The chain is cut (R36); the join goes on under R38. -/
def truncateChain (a : ModAddr) (s : State) : State :=
  becomeOnline a (post ⟨.descriptorTruncated, some a, 0, (s.entry a).generation.setWidth 32, 0, 0⟩
    (s.setEntry a { s.entry a with truncated := true }))

/-- The next pointer tested and followed (R35, R36). -/
def followPointer (a : ModAddr) (gen : Half) (ptr : Byte) (s : State) : State :=
  let l := (s.entry a).capabilities
  if ptr = 0 then becomeOnline a s
  else if ptr = 1 ∨ ptr = 2 ∨ l.any (fun c => c.word = ptr) = true ∨ Config.capabilityCapacity ≤ l.length then
    truncateChain a s
  else setWaiting (.descRead a gen ptr) s

/-- Word 0 or 1 compared with a half of the unique ID; the next word is read, or the join ends as an ID mismatch (R35). -/
def compareId (a : ModAddr) (gen : Half) (w half : Word) (next : Byte) (s : State) : State :=
  if w = half then setWaiting (.descRead a gen next) s else releaseAfter a .idMismatch s

/-- A record word read OK (R36). -/
def recordWord (a : ModAddr) (gen : Half) (word : Byte) (w : Word) (s : State) : State :=
  let len : Byte := w.extractLsb' 8 8
  if len = 0 ∨ 15 < len.toNat then truncateChain a s
  else
    let e := s.entry a
    followPointer a gen (w.extractLsb' 16 8)
      (s.setEntry a { e with capabilities :=
        e.capabilities ++ [{ type := w.extractLsb' 0 8, word := word, length := len, value := w.extractLsb' 24 8 }] })

/-- Word 2: class, revision and the first pointer (R35). -/
def headerWord (a : ModAddr) (gen : Half) (w : Word) (s : State) : State :=
  followPointer a gen (w.extractLsb' 24 8)
    (s.setEntry a { s.entry a with moduleClass := some (w.extractLsb' 0 16), revision := some (w.extractLsb' 16 8) })

/-- A DESC_READ ends for an entry that is DESCRIBING (R35, R36, R37). -/
def descOutcome (a : ModAddr) (gen : Half) (word : Byte) (o : LinkOutcome) (w : Word) (s : State) : State :=
  let id := (s.entry a).uniqueId.getD 0
  if (s.entry a).state ≠ .describing then s
  else if o = .ok then
    if word = 0 then compareId a gen w (id.setWidth 32) 1 s
    else if word = 1 then compareId a gen w ((id >>> 32).setWidth 32) 2 s
    else if word = 2 then headerWord a gen w s
    else recordWord a gen word w s
  else if o = .noRegister ∧ word ≠ 0 ∧ word ≠ 1 ∧ word ≠ 2 then truncateChain a s
  else releaseAfter a .describeFailed s

/-! ### Attention (sections 8.4 and 8.5) -/

/-- The attention flag of a valid response (R142). -/
def takeFlag (a : ModAddr) (flag : Bool) (s : State) : State :=
  let e := s.entry a
  if flag ∧ e.hasAttention ∧ e.attention = .none then s.setEntry a { e with attention := .fetchDue } else s

/-- A non-zero word applied (R144); the fetch record is dropped. -/
def applyWord (a : ModAddr) (word : Half) (reserved : Bool) (s : State) : State :=
  let e := s.entry a
  let heldNow : Bool := reserved && (s.attn.mode = .held : Bool)
  let s1 := s.setEntry a { e with attention := if heldNow then .held else .clearDue, clearBits := some word }
  let s2 := { s1 with attn := { s1.attn with fetches := vset s1.attn.fetches a none } }
  if reserved then { s2 with events := s2.events.fill a word e.generation heldNow }
  else post ⟨.attention, some a, 0, word.setWidth 32, e.generation.setWidth 32, 0⟩ s2

/-- The fetch record dropped with its reservation, and the entry's attention NONE: a word of 0, or a failure (R144, R145). -/
def fetchEndsEmpty (a : ModAddr) (s : State) : State :=
  let s1 := dropFetch a s
  s1.setEntry a { s1.entry a with attention := .none }

/-- An ATTN_FETCH ends (R144, R145, R146). -/
def fetchOutcome (a : ModAddr) (o : LinkOutcome) (word : Half) (s : State) : State :=
  match s.fetchRec a with
  | none => s
  | some f =>
    if f.gen ≠ (s.entry a).generation then s
    else if o = .ok ∧ word ≠ 0 then
      let s1 := applyWord a word f.reserved s
      if word.getLsbD 15 then contentsChanged a s1 else s1
    else fetchEndsEmpty a s

/-- An ATTN_CLEAR ends (R148). -/
def clearOutcome (a : ModAddr) (s : State) : State :=
  let e := s.entry a
  if e.attention = .clearDue then armSweep (s.setEntry a { e with attention := .none, clearBits := none }) else s

/-! ### Releases and the outcomes of management requests -/

/-- A RELEASE ends, with any outcome: the entry leaves (R34, R37, R44). The MODULE_LEFT of an entry that leaves for a describe failure
stands ahead of the MAILBOX_DONE of a DISCOVER_NOW, though R131 does not name it among the join's own events (log entry 4, the model's
choice). -/
def releaseOutcome (a : ModAddr) (o : LinkOutcome) (s : State) : State :=
  match (s.entry a).releaseFor with
  | none => s
  | some .forget => leave a (.forgotten o) s
  | some .assignFailed => discoverReport .collision (endDiscovery false (leave a .assignFailed s))
  | some .describeFailed => discoverReport .describeFailed (endDiscovery false (leave a .describeFailed s))
  | some .idMismatch => discoverReport .collision (endDiscovery false (leave a .idMismatch s))

/-- The outcome of a management request applied to the entry it concerns. -/
def applyOutcome (m : MgmtEntry) (o : LinkOutcome) (data : List Byte) (s : State) : State :=
  match m with
  | .joinQuery => s
  | .assign a gen _ => assignOutcome a gen o s
  | .descRead a gen word => descOutcome a gen word o (BitVec.ofNat 32 (leNat data)) s
  | .ping a _ => leaveSweep a s
  | .attnFetch a _ => fetchOutcome a o (BitVec.ofNat 16 (leNat data)) s
  | .attnClear a _ _ => clearOutcome a s
  | .release a _ => releaseOutcome a o s

/-- The outcome of a management request handed over (R28): dropped where the entry is EMPTY or of another generation; a
JOIN_QUERY's always goes to discovery. -/
def mgmtOutcome (m : MgmtEntry) (o : LinkOutcome) (garbled : Bool) (data : List Byte) (s : State) : State :=
  match m.concerns with
  | none => joinQueryOutcome o garbled data s
  | some (a, g) =>
    if (s.entry a).generation = g ∧ (s.entry a).state ≠ .empty then applyOutcome m o data s else s

end Sys2Proof.Machine
end

