-- ==== Sys2Proof/Machine/LinkEngine.lean ====
section
/-! DEFINITION. The link engine and its arbiter (chapter 1): grants, attempts, responses, retransmission, holdoff, outcomes,
the broadcast and its settle. -/

namespace Sys2Proof.Machine

/-! ### What a request asks -/

/-- The request frame of a management request (R4; log entry 25 for the offsets the spec does not give). -/
def MgmtEntry.payload : MgmtEntry → Payload
  | .joinQuery => ⟨0, .joinQuery, 0, 0, []⟩
  | .assign a _ guard => ⟨0, .assign, guard, 1, [BitVec.ofNat 8 (a.val + 1)]⟩
  | .descRead a _ word => ⟨linkAddr a, .descRead, word.setWidth 16, 4, []⟩
  | .ping a _ => ⟨linkAddr a, .ping, 0, 0, []⟩
  | .attnFetch a _ => ⟨linkAddr a, .attnFetch, 0, 2, []⟩
  | .attnClear a _ bits => ⟨linkAddr a, .attnClear, 0, 2, leBytes 2 bits.toNat⟩
  | .release a _ => ⟨linkAddr a, .release, 0, 0, []⟩

/-- The request frame of a host request queue entry (R89). -/
def HostEntry.payload (e : HostEntry) : Payload :=
  match e.op with
  | .read => ⟨linkAddr e.addr, .read, e.offset, e.width.bytes, []⟩
  | .write => ⟨linkAddr e.addr, .write, e.offset, e.width.bytes, leBytes e.width.bytes (e.data.getD 0).toNat⟩
  | .descRead => ⟨linkAddr e.addr, .descRead, e.offset, 4, []⟩

/-- The broadcast LINK_RESET (R4, R21). -/
def broadcastPayload : Payload := ⟨15, .linkReset, 0, 0, []⟩

/-! ### Beginning a request (R13) -/

/-- The parameter values a request takes at its start (R13). -/
def Timing.linkParams (t : Timing) : LinkParams :=
  { linkRate := t.linkRate, respTimeout := t.respTimeout, retryLimit := t.retryLimit, busyLimit := t.busyLimit,
    busyHoldoff := t.busyHoldoff }

/-- The sequence number of a request that begins now (R13). -/
def nextSeq (dest : BitVec 4) (s : State) : BitVec 4 :=
  match modAddr? dest with
  | some a => (s.entry a).seq + 1
  | none => if dest = 0 then s.engine.joinCounter + 1 else 0

/-- The counter that the sequence number came from, advanced (R13). -/
def advanceSeq (dest : BitVec 4) (s : State) : State :=
  match modAddr? dest with
  | some a => s.setEntry a { s.entry a with seq := (s.entry a).seq + 1 }
  | none => if dest = 0 then { s with engine := { s.engine with joinCounter := s.engine.joinCounter + 1 } } else s

/-- The record of a request at its start (R13). -/
def newRequest (src : Source) (p : Payload) (s : State) : Request :=
  { source := src, payload := p, seq := nextSeq p.dest s, retransUsed := 0, busyUsed := 0, params := s.timing.linkParams,
    garbled := false, attempt := .sending }

/-- A request begins: its first attempt is being sent (R13, R14). -/
def beginRequest (src : Source) (p : Payload) (s : State) : State :=
  let r := newRequest src p s
  let s1 := advanceSeq p.dest s
  { s1 with engine := { s1.engine with link := .carrying r, line := requestFrame p r.seq false } }

/-- The management head granted (R22). -/
def grantMgmt (m : MgmtEntry) (rest : List MgmtEntry) (s : State) : State :=
  beginRequest (.management m) m.payload
    { s with mgmtQueue := rest, engine := { s.engine with lastTurn := .management } }

/-- The host head granted; a MAILBOX entry's mailbox is ACTIVE (R22, R89). -/
def grantHost (e : HostEntry) (rest : List HostEntry) (s : State) : State :=
  let s1 := beginRequest (.host e false) e.payload
    { s with hostQueue := rest, engine := { s.engine with lastTurn := .host } }
  if e.origin = .mailbox then { s1 with mbx := { s1.mbx with state := .active } } else s1

/-- The broadcast sent: reset pending is cleared (R21). -/
def sendBroadcast (s : State) : State :=
  beginRequest .broadcast broadcastPayload { s with engine := { s.engine with resetPending := false } }

/-! ### The arbiter (R22) -/

/-- The eligible management head with what stands behind it. -/
def State.mgmtHead (s : State) : Option (MgmtEntry × List MgmtEntry) :=
  match s.mgmtQueue with
  | [] => none
  | m :: rest => if s.destPacingLeft m.payload.dest = 0 then some (m, rest) else none

/-- The eligible host head with what stands behind it: it passes the head checks, which read the target entry once more,
and its target's pacing interval has passed. -/
def State.hostHead (s : State) : Option (HostEntry × List HostEntry) :=
  match s.hostQueue with
  | [] => none
  | e :: rest => if headCheck e s = none ∧ s.pacingLeft e.addr = 0 then some (e, rest) else none

/-- The turn table (R22). -/
def takeTurn (s : State) : State :=
  match s.mgmtHead, s.hostHead with
  | some (m, mrest), some (e, hrest) => if s.engine.lastTurn = .host then grantMgmt m mrest s else grantHost e hrest s
  | some (m, rest), none => grantMgmt m rest s
  | none, some (e, rest) => grantHost e rest s
  | none, none => s

/-- Does the arbiter act (R22, R192)? -/
def State.arbiterActs (s : State) : Bool :=
  s.engine.link = .free && (s.power.state = .active || s.power.state = .draining)

/-- The cold-reset sequence holds the pending broadcast back until autoload has ended (R12, R184). -/
def State.coldRunHolds (s : State) : Bool := s.autoloadRuns && s.autoload.startedBy = .cold

/-- The arbiter acts: a pending broadcast, else a turn, after the head checks (R22). A head that no longer passes is
completed fail-fast here, and the arbiter acts on the next. -/
def arbiterAct (s : State) : State :=
  if s.arbiterActs then
    if s.engine.resetPending then (if s.coldRunHolds then s else settle (sendBroadcast s))
    else settle (takeTurn (headChecks s))
  else s

/-- ARBITER_GRANT (R22). -/
def execArbiterGrant (s : State) : Host.Outcome State Fault Refusal := .next (whenLive arbiterAct s)

/-- A paced module's interval passes, and the arbiter acts again (R22, R23). -/
def pacingEnds (a : ModAddr) (s : State) : State :=
  if (s.entry a).lastResponse = none then s else arbiterAct (advance (s.pacingLeft a) s)

/-- PACING_INTERVAL_END (R22, R23). -/
def execPacingIntervalEnd (a : ModAddr) (s : State) : Host.Outcome State Fault Refusal := .next (whenLive (pacingEnds a) s)

/-! ### The end of a request (R18, R19, R20) -/

/-- The value that response data spells; absent where the response carries none. -/
def dataWord (data : List Byte) : Option Word := if data.isEmpty then none else some (BitVec.ofNat 32 (leNat data))

/-- The block that owns the request's entry takes its outcome (R19); a DISCARDED request's is taken by none (R12, R90). -/
def ownerTakes (r : Request) (o : LinkOutcome) (data : List Byte) (s : State) : State :=
  match r.source with
  | .broadcast => s
  | .management m => mgmtOutcome m o r.garbled data s
  | .host e discarded => if discarded then s else deliver e o (dataWord data) s

/-- The seq of a joining entry takes the sequence number of an ASSIGN that ended OK (R13). -/
def seqFromAssign (r : Request) (o : LinkOutcome) (s : State) : State :=
  match r.source with
  | .management (.assign a _ _) => if o = .ok then s.setEntry a { s.entry a with seq := r.seq } else s
  | _ => s

/-- A request ends: the link is FREE, the owner takes the outcome and the module manager the report, in either order (R18,
R90). What follows in the event comes after: a HELD fetch that the end makes due, or permits, takes its reservation (R143) behind the
records that the owner and the module manager post (WRITE_FAILED, MODULE_RESPONDING and the others), an order that the spec leaves open
(log entry 4, the model's choice). A sweep that the end starts begins after both, so that an entry which its failure-run report has just
quarantined is not in the sweep's set, whichever of the two comes first; R140 takes the entries 'at that moment' and no rule orders the
two (log entry 38, the model's choice). -/
def endRequest (order : PostOrder) (r : Request) (o : LinkOutcome) (data : List Byte) (s : State) : State :=
  let s1 := seqFromAssign r o { s with engine := { s.engine with link := .free } }
  settle <|
    match order with
    | .ownerFirst => failureReport r.source o (ownerTakes r o data s1)
    | .managerFirst => ownerTakes r o data (failureReport r.source o s1)

/-! ### Attempts -/

/-- The link carries a request in a new condition. -/
def carry (r : Request) (s : State) : State := { s with engine := { s.engine with link := .carrying r } }

/-- An attempt fails (R16): the frame will be sent again once the line has been idle, of which `idle` µs have passed, or the
request ends NO_RESPONSE. -/
def attemptFails (order : PostOrder) (r : Request) (idle : Nat) (s : State) : State :=
  if r.retransUsed < r.params.retryLimit then
    carry { r with retransUsed := r.retransUsed + 1, attempt := .gap idle } s
  else endRequest order r .noResponse [] s

/-- The frame sent again with the retransmit flag set (R14, R16, R17). -/
def sendAgain (r : Request) (s : State) : State :=
  { s with engine := { s.engine with link := .carrying { r with attempt := .sending }
                                     line := requestFrame r.payload r.seq true } }

/-- The source a valid response comes from (R15): the new address for an ASSIGN, else the destination. -/
def Request.expectedSource (r : Request) : BitVec 4 :=
  match r.source with
  | .management (.assign a _ _) => linkAddr a
  | _ => r.payload.dest

/-- The outcome of a final status (R18). -/
def statusOutcome : Status → LinkOutcome
  | .ok => .ok
  | .busy => .busyExhausted
  | .refused => .refused
  | .noRegister => .noRegister

/-- Each valid response sets last_response_time and hands over its attention flag (R20, R48, R142). -/
def noteResponse (p : Response) (s : State) : State :=
  match modAddr? p.source with
  | none => s
  | some a => takeFlag a p.attention (s.setEntry a { s.entry a with lastResponse := some s.now })

/-- A valid response handled by its status (R15, R17, R18). -/
def validResponse (order : PostOrder) (r : Request) (p : Response) (s : State) : State :=
  let s1 := noteResponse p s
  if p.status = .busy ∧ r.busyUsed < r.params.busyLimit then
    settle { s1 with engine := { s1.engine with link := .holdoff { r with busyUsed := r.busyUsed + 1 } 0 } }
  else endRequest order r (statusOutcome p.status) p.data s1

/-- A response received whole for the current request (R15). -/
def checkResponse (order : PostOrder) (r : Request) (frame : List Byte) (s : State) : State :=
  match parseResponse r.payload.op r.payload.length frame with
  | none => attemptFails order { r with garbled := true } 0 s
  | some p =>
    if p.source = r.expectedSource ∧ p.echo = r.seq then validResponse order r p s
    else attemptFails order r 0 s

/-- A response frame, where one can be received: the response timer runs or a frame is being received (R14); at any other
time its characters are discarded. -/
def takeResponse (order : PostOrder) (frame : List Byte) (s : State) : State :=
  match s.engine.link with
  | .carrying r =>
    match r.attempt with
    | .awaiting _ => checkResponse order r frame s
    | .receiving => checkResponse order r frame s
    | .sending => s
    | .gap _ => s
    | .resend => s
  | .free => s
  | .holdoff _ _ => s
  | .settling _ _ => s

/-- RESPONSE_RECEIVED (R14, R15, R208). -/
def execResponseReceived (frame : List Byte) (order : PostOrder) (s : State) : Host.Outcome State Fault Refusal :=
  .next (whenLive (takeResponse order frame) s)

/-- The response timer expires before a lead-in (R14, R16). -/
def timeoutExpires (order : PostOrder) (s : State) : State :=
  match s.engine.link with
  | .carrying r =>
    match r.attempt with
    | .awaiting elapsed =>
      attemptFails order r (max elapsed r.params.respTimeout) (advance (r.params.respTimeout - elapsed) s)
    | .sending => s
    | .receiving => s
    | .gap _ => s
    | .resend => s
  | .free => s
  | .holdoff _ _ => s
  | .settling _ _ => s

/-- RESPONSE_TIMEOUT (R14, R16). -/
def execResponseTimeout (order : PostOrder) (s : State) : Host.Outcome State Fault Refusal :=
  .next (whenLive (timeoutExpires order) s)

/-- The last character of a request frame to 0 to 14 has been sent: the response timer starts (R14). -/
def frameSent (s : State) : State :=
  match s.engine.link with
  | .carrying r => if r.attempt = .sending ∧ r.source ≠ .broadcast then carry { r with attempt := .awaiting 0 } s else s
  | .free => s
  | .holdoff _ _ => s
  | .settling _ _ => s

/-- REQUEST_FRAME_SENT (R14). -/
def execRequestFrameSent (s : State) : Host.Outcome State Fault Refusal := .next (whenLive frameSent s)

/-- A lead-in stops the response timer (R14). -/
def leadIn (s : State) : State :=
  match s.engine.link with
  | .carrying r =>
    match r.attempt with
    | .awaiting _ => carry { r with attempt := .receiving } s
    | .sending => s
    | .receiving => s
    | .gap _ => s
    | .resend => s
  | .free => s
  | .holdoff _ _ => s
  | .settling _ _ => s

/-- RESPONSE_LEAD_IN (R14). -/
def execResponseLeadIn (s : State) : Host.Outcome State Fault Refusal := .next (whenLive leadIn s)

/-- The retransmission goes once the line has been idle two character times and the pacing has passed (R16, R23). -/
def retransmit (s : State) : State :=
  match s.engine.link with
  | .carrying r =>
    match r.attempt with
    | .gap idle => sendAgain r (advance (max (2 * charTime r.params.linkRate - idle) (s.destPacingLeft r.payload.dest)) s)
    | .sending => s
    | .awaiting _ => s
    | .receiving => s
    | .resend => s
  | .free => s
  | .holdoff _ _ => s
  | .settling _ _ => s

/-- RETRANSMISSION (R16). -/
def execRetransmission (s : State) : Host.Outcome State Fault Refusal := .next (whenLive retransmit s)

/-- The busy resend goes when the holdoff and the pacing have both run out (R17, R23). Where the holdoff ends first, the link is
CARRYING from then on (`Link.later`) and the pacing interval alone is awaited (log entry 33). -/
def holdoffEnds (s : State) : State :=
  match s.engine.link with
  | .holdoff r elapsed =>
    sendAgain r (advance (max (r.params.busyHoldoff - elapsed) (s.destPacingLeft r.payload.dest)) s)
  | .carrying r =>
    match r.attempt with
    | .resend => sendAgain r (advance (s.destPacingLeft r.payload.dest) s)
    | .sending => s
    | .awaiting _ => s
    | .receiving => s
    | .gap _ => s
  | .free => s
  | .settling _ _ => s

/-- HOLDOFF_END (R17). -/
def execHoldoffEnd (s : State) : Host.Outcome State Fault Refusal := .next (whenLive holdoffEnds s)

/-! ### Broadcast and settling (R21, R46) -/

/-- The table cleared at a link reset (R46): every non-EMPTY entry leaves in ascending order, the management queue is
emptied, the sweep with it (R141), and every line goes. -/
def clearTable (s : State) : State :=
  let s1 := allAddrs.foldl (fun t a => if (t.entry a).state = .empty then t else leave a .linkReset t) s
  disableDiscovery (clearCache { s1 with mgmtQueue := [], attn := { s1.attn with sweep := none } })

/-- The link holds SETTLING for SETTLE_TIME, or is FREE at once (R21). -/
def beginSettle (s : State) : State :=
  { s with engine := { s.engine with
      link := if s.timing.settleTime = 0 then .free else .settling 0 (s.timing.settleTime * 1000) } }

/-- A LINK_RESET in progress ends when no further broadcast is pending (R132; log entry 13). -/
def linkResetEnds (s : State) : State :=
  if s.mbx.runs opLinkReset ∧ s.engine.resetPending = false then endMailbox .done (.outcome .ok) none 0 s else s

/-- The last character of the broadcast has been sent (R21, R46, R132). -/
def broadcastSent (s : State) : State :=
  if s.broadcasting then settle (linkResetEnds (clearTable (beginSettle s))) else s

/-- BROADCAST_SENT (R21, R46). -/
def execBroadcastSent (s : State) : Host.Outcome State Fault Refusal := .next (whenLive broadcastSent s)

/-- SETTLE_TIME runs out: the link is FREE and discovery may leave DISABLED (R21, R46). -/
def settledEnds (s : State) : State :=
  match s.engine.link with
  | .settling elapsed t =>
    let s1 := advance (t - elapsed) s
    settle { s1 with engine := { s1.engine with link := .free } }
  | .free => s
  | .carrying _ => s
  | .holdoff _ _ => s

/-- SETTLED (R21). -/
def execSettled (s : State) : Host.Outcome State Fault Refusal := .next (whenLive settledEnds s)

end Sys2Proof.Machine
end

