-- ==== Sys2Proof/Machine/Power.lean ====
section
/-! DEFINITION. Power control and the ATTN level (chapters 8 and 11): the writes of PWR_CTRL, draining, waking. -/

namespace Sys2Proof.Machine

/-- SLEEP_REQ changes from clear to set: ACTIVE becomes DRAINING; in WAKING the state that follows will be DRAINING (R189,
R195). -/
def setSleepReq (s : State) : State :=
  { s with power := { s.power with sleepReq := true
                                   state := if s.power.state = .active then .draining else s.power.state } }

/-- SLEEP_REQ changes from set to clear: DRAINING becomes ACTIVE, ASLEEP wakes, WAKING goes on to ACTIVE (R191, R193,
R195). -/
def clearSleepReq (s : State) : State :=
  if s.power.state = .asleep then wakeLink .host s
  else { s with power := { s.power with sleepReq := false
                                        state := if s.power.state = .draining then .active else s.power.state } }

/-- A write to PWR_CTRL: RETAIN as written, and SLEEP_REQ where it changes (R188). -/
def writePwr (sleepReq retain : Bool) (s : State) : State :=
  let s1 := { s with power := { s.power with retain := retain } }
  let s2 := if sleepReq = s.power.sleepReq then s1 else if sleepReq then setSleepReq s1 else clearSleepReq s1
  (settle s2).reply okWrite

/-- SLEEP_REQUEST (R188, R189, R195). -/
def execSleepRequest (retain : Bool) (lanes : BitVec 4) (s : State) : Host.Outcome State Fault Refusal :=
  .next (hostAccess (fullWrite lanes (writePwr true retain)) s)

/-- SLEEP_CANCEL (R188, R191, R193, R195). -/
def execSleepCancel (retain : Bool) (lanes : BitVec 4) (s : State) : Host.Outcome State Fault Refusal :=
  .next (hostAccess (fullWrite lanes (writePwr false retain)) s)

/-- RETAIN_WRITE (R188, R196): SLEEP_REQ is written as it stands. -/
def execRetainWrite (retain : Bool) (lanes : BitVec 4) (s : State) : Host.Outcome State Fault Refusal :=
  .next (hostAccess (fullWrite lanes (writePwr s.power.sleepReq retain)) s)

/-- The ATTN level changes to ASSERTED, which arms the sweep (R11, R139). -/
def attnRises (s : State) : State :=
  if s.attn.level then s else settle (armSweep { s with attn := { s.attn with level := true } })

/-- ATTN_ASSERTED (R11, R139). -/
def execAttnAsserted (s : State) : Host.Outcome State Fault Refusal := .next (whenLive attnRises s)

/-- The ATTN level changes to RELEASED, which leaves the flag untouched (R11, R139). -/
def attnFalls (s : State) : State := { s with attn := { s.attn with level := false } }

/-- ATTN_RELEASED (R11, R139). -/
def execAttnReleased (s : State) : Host.Outcome State Fault Refusal := .next (whenLive attnFalls s)

/-- The drain completes (R190), with the wake that attention may make at once (R194). -/
def drainEnds (s : State) : State :=
  if s.power.state = .draining ∧ s.drained then settle (drainIfDone s) else s

/-- DRAIN_COMPLETE (R190, R194). -/
def execDrainComplete (s : State) : Host.Outcome State Fault Refusal := .next (whenLive drainEnds s)

/-- The wake timer reaches the wake settle (R195). -/
def wakeSettles (s : State) : State :=
  match s.power.wakeTimer, s.power.wakeSettle with
  | some t, some w => if s.power.state = .waking then settle (leaveWaking (advance (w - t) s)) else s
  | _, _ => s

/-- WAKE_SETTLE_END (R195). -/
def execWakeSettleEnd (s : State) : Host.Outcome State Fault Refusal := .next (whenLive wakeSettles s)

end Sys2Proof.Machine
end

