-- ==== Sys2Proof/Machine/Autoload.lean ====
section
/-! DEFINITION. The autoload unit (chapter 10): the read of the boot memory, the three passes of verification, the
application of an image, and the end of a run. -/

namespace Sys2Proof.Machine

/-! ### Beginning and ending a run -/

/-- A run begins (R173). -/
def beginRun (by_ : StartedBy) (s : State) : State :=
  { s with autoload := { s.autoload with phase := .reading, faultReason := .none, faultRecord := 0, startedBy := by_,
                                         staging := [] } }

/-- What a run ends with (R182). -/
structure RunEnd where
  outcome : LoadOutcome
  count   : Nat
  reason  : FaultReason
  record  : Nat
  detail  : Nat
deriving DecidableEq, Repr

/-- ABSENT (R182). -/
def absentEnd : RunEnd := ⟨.absent, 0, .none, 0, 0⟩

/-- INVALID by a header fault (R175, R182). -/
def headerFault (r : FaultReason) : RunEnd := ⟨.invalid, 0, r, 0, 0⟩

/-- INVALID by a record fault (R177 to R180, R182). -/
def recordFault (count : Nat) (r : FaultReason) (n : Nat) : RunEnd := ⟨.invalid, count, r, n, n⟩

/-- LOADED (R182). -/
def loadedEnd (count : Nat) : RunEnd := ⟨.loaded, count, .none, 0, count⟩

/-- A RELOAD's mailbox command ends with the run (R134, R186). -/
def reloadEnds (o : LoadOutcome) (s : State) : State :=
  if s.mbx.runs opReload then
    if o = .loaded then endMailbox .done .loaded none 0 s
    else endMailbox .failed .loadFailed none 0 { s with mbx := { s.mbx with data := (loadCode o).setWidth 32 } }
  else s

/-- A run ends: the result items, IDLE, AUTOLOAD_DONE, then the mailbox (R172, R182), in one event with what follows from
autoload no longer running (R184, R186). -/
def endRun (e : RunEnd) (s : State) : State :=
  let a := s.autoload
  let s1 := { s with autoload := { phase := .idle, lastOutcome := e.outcome, recordCount := e.count,
                                   faultReason := e.reason, faultRecord := e.record, startedBy := a.startedBy,
                                   staging := [] } }
  let s2 := post ⟨.autoloadDone, none, loadCode e.outcome, BitVec.ofNat 32 e.detail, 0, 0⟩ s1
  settle (if a.startedBy = .reload then reloadEnds e.outcome s2 else s2)

/-! ### Reading (section 10.2) -/

/-- The bytes read join the staging buffer. -/
def stage (bs : List Byte) (s : State) : State :=
  { s with autoload := { s.autoload with staging := s.autoload.staging ++ bs } }

/-- The marker is tested when the second byte has been read (R174). -/
def markerRead (b1 b2 : Byte) (s : State) : State :=
  if s.autoload.phase = .reading ∧ s.autoload.staging = [] then
    if b1 = 0x5B ∧ b2 = 0xC3 then stage [b1, b2] s else endRun absentEnd s
  else s

/-- AUTOLOAD_MARKER_READ (R174). -/
def execAutoloadMarkerRead (b1 b2 : Byte) (s : State) : Host.Outcome State Fault Refusal :=
  .next (whenLive (markerRead b1 b2) s)

/-- The header tests, in their order (R175). -/
def headerTest (version count : Byte) (total : Nat) : Option FaultReason :=
  if version ≠ 1 then some .version
  else if count = 0 ∨ 40 < count.toNat then some .count
  else if total < 10 ∨ 2048 < total then some .length
  else none

/-- The six header bytes have been read (R175). -/
def headerRead (version count lenLow lenHigh : Byte) (s : State) : State :=
  if s.autoload.phase = .reading ∧ s.autoload.staging.length = 2 then
    match headerTest version count (leNat [lenLow, lenHigh]) with
    | some r => endRun (headerFault r) s
    | none => stage [version, count, lenLow, lenHigh] s
  else s

/-- AUTOLOAD_HEADER_READ (R174, R175). -/
def execAutoloadHeaderRead (version count lenLow lenHigh : Byte) (s : State) : Host.Outcome State Fault Refusal :=
  .next (whenLive (headerRead version count lenLow lenHigh) s)

/-- The record count of a staged header (R174). -/
def headerCount (staging : List Byte) : Nat := (staging.getD 3 0).toNat

/-- The total length of a staged header (R174). -/
def headerTotal (staging : List Byte) : Nat := leNat [staging.getD 4 0, staging.getD 5 0]

/-- Further bytes are staged; with total length bytes the read stops and the phase becomes VERIFYING (R175). Fewer bytes
leave the phase READING, and bytes beyond the image are not read (log entry 26). -/
def imageRead (bs : List Byte) (s : State) : State :=
  let a := s.autoload
  if a.phase = .reading ∧ 6 ≤ a.staging.length then
    let buf := (a.staging ++ bs).take (headerTotal a.staging)
    { s with autoload := { a with staging := buf
                                  phase := if buf.length = headerTotal a.staging then .verifying else .reading } }
  else s

/-- AUTOLOAD_IMAGE_READ (R175). -/
def execAutoloadImageRead (bs : List Byte) (s : State) : Host.Outcome State Fault Refusal :=
  .next (whenLive (imageRead bs) s)

/-! ### Verification (section 10.3) -/

/-- The record types (R176, R210). -/
inductive RecType where
  | window
  | binding
  | timing
  | route
  | end_
deriving DecidableEq, Repr

/-- The type a type byte names (R210). -/
def recType? (t : Byte) : Option RecType :=
  if t = 1 then some .window else if t = 2 then some .binding else if t = 3 then some .timing
  else if t = 4 then some .route else if t = 15 then some .end_ else none

/-- The fixed body length of a type (R176). -/
def RecType.bodyLength : RecType → Nat
  | .window => 11
  | .binding => 10
  | .timing => 3
  | .route => 2
  | .end_ => 2

/-- One record of an image. -/
structure ImageRec where
  type : RecType
  body : List Byte
deriving DecidableEq, Repr

/-- Byte n of a record's body, counted from 1 (R210). -/
def ImageRec.byte (r : ImageRec) (n : Nat) : Byte := r.body.getD (n - 1) 0

/-- A fault found in a pass: its reason and the record's number. -/
structure RecFault where
  reason : FaultReason
  number : Nat
deriving DecidableEq, Repr

/-- What the walk gives. -/
inductive Walked where
  | fault (f : RecFault)
  | records (l : List ImageRec)
deriving DecidableEq, Repr

/-- A record put before those a walk has found. -/
def Walked.cons (r : ImageRec) : Walked → Walked
  | .fault f => .fault f
  | .records l => .records (r :: l)

/-- The structure walk (R177): `left` records are still to come, the next is number `n`, and `rest` is what is left of the
image. A record whose type or length byte lies past total length fails the fit test (log entry 26). R177 gives its tests no
order within one record, as R175 does for the header: a record that fails two of them with different reasons gets the reason of
the first in the order type, length, fit, END placement, close (log entry 37, the model's choice). -/
def walk : Nat → Nat → List Byte → Walked
  | 0, n, _ => .fault ⟨.recordStructure, n⟩
  | left + 1, n, rest =>
    match rest with
    | [] => .fault ⟨.recordStructure, n⟩
    | t :: rest1 =>
      match recType? t with
      | none => .fault ⟨.type, n⟩
      | some ty =>
        match rest1 with
        | [] => .fault ⟨.recordStructure, n⟩
        | l :: body =>
          if l.toNat ≠ ty.bodyLength then .fault ⟨.recordLength, n⟩
          else if body.length < ty.bodyLength then .fault ⟨.recordStructure, n⟩
          else if ty = .end_ then
            if left = 0 ∧ body.length = ty.bodyLength then .records [⟨ty, body⟩] else .fault ⟨.recordStructure, n⟩
          else if left = 0 then .fault ⟨.recordStructure, n⟩
          else (walk left (n + 1) (body.drop ty.bodyLength)).cons ⟨ty, body.take ty.bodyLength⟩

/-- The check of an image: the CRC-16 of everything before the END record against the END record's check (R178, R210). -/
def checkPasses (staging : List Byte) : Bool :=
  (crc16 (staging.take (staging.length - 4))).toNat = leNat (staging.drop (staging.length - 2))

/-- The window a WINDOW record describes (R210). -/
def ImageRec.window (r : ImageRec) : Window :=
  { enabled := r.byte 2 = 1, basePage := r.byte 3, limitPage := r.byte 4, target := (r.byte 5).setWidth 4,
    width := (widthOfCode? (r.byte 6).toNat).getD .one, readOnly := (r.byte 7).getLsbD 0,
    cacheable := (r.byte 7).getLsbD 1, remoteBase := BitVec.ofNat 16 (leNat [r.byte 8, r.byte 9]),
    expectedClass := BitVec.ofNat 16 (leNat [r.byte 10, r.byte 11]) }

/-- The unique ID of a BINDING record (R210). -/
def ImageRec.id (r : ImageRec) : UniqueId := BitVec.ofNat 64 (leNat (r.body.take 8))

/-- The value of a TIMING record (R210). -/
def ImageRec.value (r : ImageRec) : Nat := leNat [r.byte 2, r.byte 3]

/-- May a kind be given a route (R165, R179)? -/
def routeAllowed (k : Kind) (r : Route) : Bool := !(r = .suppress && (k = .attention || k = .overflow))

/-- The content tests of one record (R179). -/
def contentPasses (r : ImageRec) : Bool :=
  match r.type with
  | .window =>
    (r.byte 1).toNat ≤ 7 && (r.byte 5).toNat ≤ 15 && (r.byte 2).toNat ≤ 1 && (r.byte 6).toNat ≤ 2 &&
      (r.byte 7).toNat ≤ 3 && (r.byte 2 = 0 || r.window.enableTests)
  | .binding => 1 ≤ (r.byte 9).toNat && (r.byte 9).toNat ≤ 14 && (r.byte 10).toNat ≤ 1
  | .timing =>
    match paramOfIndex? (r.byte 1).toNat with
    | some p => paramAccepts p r.value
    | none => false
  | .route =>
    match kindOfNumber? (r.byte 1).toNat, routeOfCode? (r.byte 2).toNat with
    | some k, some rt => routeAllowed k rt
    | _, _ => false
  | .end_ => true

/-- Does a record name what an earlier one names (R180)? -/
def duplicates (r earlier : ImageRec) : Bool :=
  r.type = earlier.type &&
    match r.type with
    | .window => r.byte 1 = earlier.byte 1
    | .binding => r.id = earlier.id || r.byte 9 = earlier.byte 9
    | .timing => r.byte 1 = earlier.byte 1
    | .route => r.byte 1 = earlier.byte 1
    | .end_ => false

/-- The content and duplicate tests of the records in order, number `n` first, after `earlier` (R179, R180). -/
def contentFault (earlier : List ImageRec) : Nat → List ImageRec → Option RecFault
  | _, [] => none
  | n, r :: rest =>
    if contentPasses r = false then some ⟨.value, n⟩
    else if earlier.any (duplicates r) then some ⟨.duplicate, n⟩
    else contentFault (earlier ++ [r]) (n + 1) rest

/-- The three passes over a staged image: a fault, or its records (R177 to R180). -/
def verify (staging : List Byte) : Walked :=
  match walk (headerCount staging) 1 (staging.drop 6) with
  | .fault f => .fault f
  | .records l =>
    if checkPasses staging then
      match contentFault [] 1 l with
      | some f => .fault f
      | none => .records l
    else .fault ⟨.check, headerCount staging⟩

/-! ### Application (section 10.4) -/

/-- A timing parameter set (R181, R203). -/
def Timing.set (t : Timing) (p : Param) (v : Nat) : Timing :=
  match p with
  | .linkRate => { t with linkRate := v }
  | .respTimeout => { t with respTimeout := v }
  | .retryLimit => { t with retryLimit := v }
  | .busyLimit => { t with busyLimit := v }
  | .busyHoldoff => { t with busyHoldoff := v }
  | .pollInterval => { t with pollInterval := v }
  | .discoveryInterval => { t with discoveryInterval := v }
  | .quarThreshold => { t with quarThreshold := v }
  | .departThreshold => { t with departThreshold := v }
  | .quarPollInterval => { t with quarPollInterval := v }
  | .hostHold => { t with hostHold := v }
  | .discardTime => { t with discardTime := v }
  | .settleTime => { t with settleTime := v }

/-- A route set (R165, R181). -/
def EventUnit.setRoute (u : EventUnit) (k : Kind) (r : Route) : EventUnit :=
  { u with routes := vset u.routes (kindIndex k) r }

/-- The binding of a BINDING record (R210). -/
def ImageRec.binding (r : ImageRec) : Binding := ⟨r.id, if r.byte 10 = 0 then .strict else .preferred⟩

/-- One record takes effect (R181); BINDING records are added to the table emptied for them. -/
def applyRecord (s : State) (r : ImageRec) : State :=
  match r.type with
  | .window => { s with windows := vset s.windows (Fin.ofNat 8 (r.byte 1).toNat) r.window }
  | .binding =>
    match modAddr? ((r.byte 9).setWidth 4) with
    | some a => { s with bindings := vset s.bindings a (some r.binding) }
    | none => s
  | .timing =>
    match paramOfIndex? (r.byte 1).toNat with
    | some p => { s with timing := s.timing.set p r.value }
    | none => s
  | .route =>
    match kindOfNumber? (r.byte 1).toNat, routeOfCode? (r.byte 2).toNat with
    | some k, some rt => { s with events := s.events.setRoute k rt }
    | _, _ => s
  | .end_ => s

/-- A timer already past a parameter that has just been set runs out at once; POLL_INTERVAL rules the timers of ONLINE entries and
QUAR_POLL_INTERVAL those of QUARANTINED ones (R39, R107, R185; log entry 2). -/
def compareAfter (p : Param) (s : State) : State :=
  match p with
  | .pollInterval => comparePolls .online s.timing.pollInterval s
  | .quarPollInterval => comparePolls .quarantined s.timing.quarPollInterval s
  | .discardTime => compareDiscards s
  | .linkRate | .respTimeout | .retryLimit | .busyLimit | .busyHoldoff | .discoveryInterval | .quarThreshold
  | .departThreshold | .hostHold | .settleTime => s

/-- The timers compared after one record (R185). -/
def compareRecord (s : State) (r : ImageRec) : State :=
  if r.type = .timing then
    match paramOfIndex? (r.byte 1).toNat with
    | some p => compareAfter p s
    | none => s
  else s

/-- The image applied whole (R181): a binding table it names is replaced, which is one binding change (R53); timers already
past a reduced value run out at once (R185). -/
def applyImage (l : List ImageRec) (s : State) : State :=
  let binds : Bool := l.any fun r => r.type = .binding
  let s1 := if binds then { s with bindings := Vector.replicate 14 none } else s
  let s3 := l.foldl compareRecord (l.foldl applyRecord s1)
  if binds then unpark s3 else s3

/-- Verification ends (R177 to R182). -/
def verifyEnds (s : State) : State :=
  if s.autoload.phase = .verifying then
    let count := headerCount s.autoload.staging
    match verify s.autoload.staging with
    | .fault f => endRun (recordFault count f.reason f.number) s
    | .records l => endRun (loadedEnd count) (applyImage l s)
  else s

/-- AUTOLOAD_VERIFY_END (R177 to R182). -/
def execAutoloadVerifyEnd (s : State) : Host.Outcome State Fault Refusal := .next (whenLive verifyEnds s)

end Sys2Proof.Machine
end

