-- ==== Sys2Proof/Machine/HostAccess.lean ====
section
/-! DEFINITION. Window accesses: decode, refusal and translation (chapter 4), the read path (section 6.1), posted writes and
the hold (sections 5.2 and 5.3), and the accesses that reach no target (R199). -/

namespace Sys2Proof.Machine

/-! ### Decode, tests and translation -/

/-- What the decoder makes of an access in window space. -/
inductive Decoded where
  | laneFault
  | unmapped (access : BitVec 17)
  | refused (n : Fin 8) (access : BitVec 17) (reason : WinFaultReason)
  | passed (n : Fin 8) (access : BitVec 17) (lane : Nat) (w : Width) (target : ModAddr) (gen : Half) (offset : Half)
deriving DecidableEq, Repr

/-- The four tests of a selected access, in their order (R68, R69, R70), and the translation of one that passes (R71). -/
def testAccess (s : State) (dir : Dir) (n : Fin 8) (access : BitVec 17) (lane : Nat) (w : Width) : Decoded :=
  let win := vget s.windows n
  if w ≠ win.width then .refused n access .width
  else if dir = .write ∧ win.readOnly = true then .refused n access .readOnly
  else
    match modAddr? win.target with
    | none => .refused n access .notOnline
    | some a =>
      if (s.entry a).state ≠ .online then .refused n access .notOnline
      else if win.expectedClass ≠ 0 ∧ (s.entry a).moduleClass ≠ some win.expectedClass then .refused n access .moduleClass
      else .passed n access lane w a (s.entry a).generation
        (win.remoteBase + BitVec.ofNat 16 ((access.setWidth 16).toNat - win.base))

/-- The decode of a window access, made once in the event that takes it (R65, R66, R67). -/
def decodeAccess (s : State) (dir : Dir) (addr : BitVec 17) (lanes : BitVec 4) : Decoded :=
  match laneGroup? lanes with
  | none => .laneFault
  | some (lane, w) =>
    let access := wordAddress addr + BitVec.ofNat 17 lane
    match s.selectWindow (access.setWidth 16).toNat with
    | none => .unmapped access
    | some n => testAccess s dir n access lane w

/-- WIN_FAULT captures a refusal (R74). -/
def captureFault (reason : WinFaultReason) (dir : Dir) (address : BitVec 17) (window : BitVec 4) (s : State) : State :=
  { s with port := { s.port with winFault := ⟨reason, dir, address, window⟩ } }

/-- A lane fault (R65, R74). -/
def refuseLanes (dir : Dir) (addr : BitVec 17) (s : State) : State :=
  (captureFault .lanes dir (wordAddress addr) 0xF s).reply (errorAnswer dir)

/-- An unmatched access: ERROR, WIN_FAULT and DECODE_MISS (R67). -/
def refuseUnmapped (dir : Dir) (access : BitVec 17) (s : State) : State :=
  post ⟨.decodeMiss, none, dirCode dir, access.setWidth 32, 0, 0⟩
    ((captureFault .unmapped dir access 0xF s).reply (errorAnswer dir))

/-- An access refused by a window test: ERROR and WIN_FAULT alone (R68). -/
def refuseTested (dir : Dir) (n : Fin 8) (access : BitVec 17) (reason : WinFaultReason) (s : State) : State :=
  (captureFault reason dir access (BitVec.ofNat 4 n.val) s).reply (errorAnswer dir)

/-! ### Enqueue -/

/-- Is a place free in the host request queue (R77)? -/
def State.hostRoom (s : State) : Bool := s.hostQueue.length < Config.hostQueueCapacity

/-- An entry added at the tail of the host request queue (R77). -/
def pushHost (e : HostEntry) (s : State) : State := { s with hostQueue := s.hostQueue ++ [e] }

/-- The access is held for a place or for its slot, with the HOST_HOLD taken when it was taken (R200). -/
def holdAccess (what : HeldFor) (s : State) : State :=
  { s with port := { s.port with held := some ⟨what, s.timing.hostHold, 0⟩, answer := none } }

/-- The hold ends (R200). -/
def endHold (s : State) : State := { s with port := { s.port with held := none } }

/-- The WINDOW_WRITE entry of a write (R72, R76). -/
def writeEntry (target : ModAddr) (gen offset : Half) (w : Width) (data : Word) : HostEntry :=
  { origin := .windowWrite, addr := target, gen := gen, op := .write, offset := offset, width := w, data := some data,
    slot := none, cancelled := false, diagnostic := false, cacheable := false }

/-- The WINDOW_READ entry of a read given a slot (R80). -/
def readEntry (acc : ReadAccess) (i : Fin 4) : HostEntry :=
  { origin := .windowRead, addr := acc.target, gen := acc.gen, op := .read, offset := acc.offset, width := acc.width,
    data := none, slot := some i, cancelled := false, diagnostic := false, cacheable := acc.cacheable }

/-- The slot of a read, PENDING with no_fill clear (R102). -/
def pendingSlot (acc : ReadAccess) : Slot :=
  .pending { hostAddr := acc.hostAddr, width := acc.width, window := acc.window, target := acc.target,
             offset := acc.offset, noFill := false }

/-- A window write added to the queue and answered OK (R78, R79); a sleeping link is woken first (R193). -/
def postWrite (e : HostEntry) (s : State) : State :=
  settle ((writeEffects e.addr e.offset e.width (pushHost e (hostWake s))).reply okWrite)

/-- A window write handed on (R72): posted, or held for a place, or refused with HOST_HOLD 0 (R78, R82). -/
def takeWrite (e : HostEntry) (s : State) : State :=
  if s.hostRoom then postWrite e s
  else if s.timing.hostHold = 0 then s.reply (errorAnswer .write)
  else holdAccess (.writePlace e) s

/-! ### The read path (R99) -/

/-- A slot given to a read: it becomes PENDING, and its WINDOW_READ entry is added (R80, R102). -/
def allocate (acc : ReadAccess) (i : Fin 4) (s : State) : State :=
  pushHost (readEntry acc i) (s.setSlot i (pendingSlot acc))

/-- Step 6: the read is given a slot and held for what remains of its period, or answered RETRY with HOST_HOLD 0 (R102,
R103); a sleeping link is woken first (R193). -/
def takeSlot (acc : ReadAccess) (i : Fin 4) (s : State) : State :=
  let s1 := allocate acc i (hostWake s)
  settle (if s.timing.hostHold = 0 then s1.reply retryAnswer else holdAccess (.slot i) s1)

/-- A COMPLETE slot that a cache hit collects as well: nothing is posted and READ_FAULT is not touched (R113). -/
def hitCollects (acc : ReadAccess) (s : State) : State :=
  match s.matchSlot acc.hostAddr acc.width with
  | none => s
  | some i =>
    match vget s.slots i with
    | .complete _ _ _ _ => s.setSlot i .free
    | .free | .pending _ => s

/-- Step 1: the line that a cacheable read hits (R113). -/
def cacheLookup (acc : ReadAccess) (s : State) : Option (Fin 32) :=
  if acc.cacheable then s.cache.hit acc.target acc.gen acc.offset acc.width else none

/-- The value of a line; 0 for an invalid one, which no lookup hits. -/
def Cache.valueAt (c : Cache) (i : Fin 32) : Word :=
  match vget c.lines i with
  | some l => l.value
  | none => 0

/-- A read answered from a line (R113). -/
def readHit (acc : ReadAccess) (i : Fin 32) (s : State) : State :=
  (hitCollects acc { s with cache := s.cache.touch i }).reply
    (okRead (toLanes (acc.hostAddr.toNat % 4) acc.width (s.cache.valueAt i)))

/-- Steps 4 to 6, for a read that matches no slot (R99). -/
def readFresh (acc : ReadAccess) (s : State) : State :=
  match s.freeSlot with
  | none => s.reply retryAnswer
  | some i =>
    if s.hostRoom then takeSlot acc i s
    else if s.timing.hostHold = 0 then s.reply retryAnswer
    else holdAccess (.readPlace acc) s

/-- The read path, in the order of its steps (R99). -/
def readPath (acc : ReadAccess) (s : State) : State :=
  match cacheLookup acc s with
  | some i => readHit acc i s
  | none =>
    match s.matchSlot acc.hostAddr acc.width with
    | some i =>
      match vget s.slots i with
      | .complete x o data _ => collect i x o data s
      | .pending _ => s.reply retryAnswer
      | .free => readFresh acc s
    | none => readFresh acc s

/-! ### The commands -/

/-- A host read in window space. -/
def windowReadAccess (addr : BitVec 17) (lanes : BitVec 4) (s : State) : State :=
  match decodeAccess s .read addr lanes with
  | .laneFault => refuseLanes .read addr s
  | .unmapped access => refuseUnmapped .read access s
  | .refused n access reason => refuseTested .read n access reason s
  | .passed n access _ w a gen offset =>
    readPath { hostAddr := access, width := w, window := n, target := a, gen := gen, offset := offset,
               cacheable := (vget s.windows n).cacheable } s

/-- A host write in window space. -/
def windowWriteAccess (addr : BitVec 17) (lanes : BitVec 4) (data : Word) (s : State) : State :=
  match decodeAccess s .write addr lanes with
  | .laneFault => refuseLanes .write addr s
  | .unmapped access => refuseUnmapped .write access s
  | .refused n access reason => refuseTested .write n access reason s
  | .passed _ _ lane w a gen offset => takeWrite (writeEntry a gen offset w (fromLanes lane w data)) s

/-- WINDOW_READ (R65 to R71, R73, R99). -/
def execWindowRead (addr : BitVec 17) (lanes : BitVec 4) (s : State) : Host.Outcome State Fault Refusal :=
  .next (if inWindowSpace addr then hostAccess (windowReadAccess addr lanes) s else s)

/-- WINDOW_WRITE (R65 to R72, R78). -/
def execWindowWrite (addr : BitVec 17) (lanes : BitVec 4) (data : Word) (s : State) :
    Host.Outcome State Fault Refusal :=
  .next (if inWindowSpace addr then hostAccess (windowWriteAccess addr lanes data) s else s)

/-- The held access added when a place frees (R82): a write under R78, a read under R80 with the lowest FREE slot, or
RETRY where no slot is FREE (R102). -/
def heldEnqueue (s : State) : State :=
  if s.hostRoom then
    match s.port.held with
    | none => s
    | some h =>
      match h.what with
      | .writePlace e => postWrite e (endHold s)
      | .readPlace acc =>
        match s.freeSlot with
        | none => (endHold s).reply retryAnswer
        | some i =>
          let s1 := allocate acc i (hostWake s)
          settle { s1 with port := { s1.port with held := some { h with what := .slot i } } }
      | .slot _ => s
  else s

/-- HELD_ACCESS_ENQUEUE (R82, R102). -/
def execHeldAccessEnqueue (s : State) : Host.Outcome State Fault Refusal := .next (whenLive heldEnqueue s)

/-- The hold period runs out (R82, R103): a write gets ERROR, a read RETRY; a slot that was given stays PENDING. -/
def holdExpires (s : State) : State :=
  match s.port.held with
  | none => s
  | some h =>
    let s1 := endHold (advance (h.period - h.elapsed) s)
    match h.what with
    | .writePlace _ => s1.reply (errorAnswer .write)
    | .readPlace _ => s1.reply retryAnswer
    | .slot _ => s1.reply retryAnswer

/-- HOST_HOLD_EXPIRY (R82, R103, R200). -/
def execHostHoldExpiry (s : State) : Host.Outcome State Fault Refusal := .next (whenLive holdExpires s)

/-- NO_TARGET_ACCESS: ERROR, with no event and WIN_FAULT untouched (R199). -/
def execNoTargetAccess (dir : Dir) (addr : BitVec 17) (lanes : BitVec 4) (s : State) :
    Host.Outcome State Fault Refusal :=
  .next (if noTarget addr lanes then hostAccess (fun t => t.reply (errorAnswer dir)) s else s)

end Sys2Proof.Machine
end

