-- ==== Sys2Proof/Machine/Mailbox.lean ====
section
/-! DEFINITION. The command mailbox (chapter 7): GO, the link commands, the table commands, ABORT, and the waiting command;
with the binding table's tests (R50 to R52) and the module manager's part of READMIT and FORGET (R43, R44). -/

namespace Sys2Proof.Machine

/-! ### What GO reads -/

/-- The commands of MBX_OP (R121, R202). -/
inductive MbxCmd where
  | read
  | write
  | descRead
  | bind
  | unbind
  | readmit
  | forget
  | discoverNow
  | linkReset
  | flushCache
  | reload
deriving DecidableEq, Repr

/-- The eleven commands in the order of their codes 0 to 10 (R202). -/
def allCmds : List MbxCmd :=
  [.read, .write, .descRead, .bind, .unbind, .readmit, .forget, .discoverNow, .linkReset, .flushCache, .reload]

/-- The command that an MBX_OP value names; 11 to 255 name none (R202). -/
def cmdOf? (op : Byte) : Option MbxCmd := allCmds[op.toNat]?

/-- Does a command need the span link (R123)? -/
def MbxCmd.needsLink : MbxCmd → Bool
  | .read | .write | .descRead | .forget | .discoverNow | .linkReset => true
  | .bind | .unbind | .readmit | .flushCache | .reload => false

/-- The address a command's MAILBOX_DONE carries: MBX_TARGET for the commands that name one (R136; log entry 10). -/
def Mailbox.doneAddress (m : Mailbox) : Option ModAddr :=
  match cmdOf? m.op with
  | some .read | some .write | some .descRead | some .readmit | some .forget => modAddr? m.target
  | some .bind | some .unbind | some .discoverNow | some .linkReset | some .flushCache | some .reload | none => none

/-- A command ends FAILED with a result, without detail (R136). -/
def failCommand (r : Result) (s : State) : State := endMailbox .failed r s.mbx.doneAddress 0 s

/-- A command ends DONE with result OK, without detail (R136). -/
def completeCommand (s : State) : State := endMailbox .done (.outcome .ok) s.mbx.doneAddress 0 s

/-- The mailbox goes to a state. -/
def setMbxState (st : MbxState) (s : State) : State := { s with mbx := { s.mbx with state := st } }

/-! ### Link commands (section 7.3) -/

/-- The operation, width and offset test of a link command (R124, order 2): none where the test fails. -/
def linkArgs (m : Mailbox) : HostOp → Option Width
  | .descRead => if m.offset.toNat ≤ 255 then some .four else none
  | .read | .write =>
    match widthOfBytes? m.width.toNat with
    | some w => if m.offset.toNat % w.bytes = 0 then some w else none
    | none => none

/-- The MAILBOX entry of a link command, its generation read now (R81). -/
def mailboxEntry (op : HostOp) (a : ModAddr) (w : Width) (s : State) : HostEntry :=
  { origin := .mailbox, addr := a, gen := (s.entry a).generation, op := op, offset := s.mbx.offset, width := w,
    data := if op = .write then some (s.mbx.data &&& w.mask) else none, slot := none, cancelled := false,
    diagnostic := true, cacheable := false }

/-- A MAILBOX entry added, and the mailbox QUEUED; a WRITE has its write-side effects (R79, R81, R125). -/
def enqueueMailbox (op : HostOp) (a : ModAddr) (w : Width) (s : State) : State :=
  let s1 := setMbxState .queued (pushHost (mailboxEntry op a w s) s)
  if op = .write then writeEffects a s.mbx.offset w s1 else s1

/-- A link command tested, then added or left WAITING (R124, R125). -/
def linkCommand (op : HostOp) (s : State) : State :=
  match modAddr? s.mbx.target with
  | none => failCommand .badAddress s
  | some a =>
    match linkArgs s.mbx op with
    | none => failCommand .badArgument s
    | some w =>
      if (s.entry a).state = .online ∨ (s.entry a).state = .quarantined then
        if s.hostRoom then enqueueMailbox op a w s else setMbxState .waiting s
      else failCommand .notPresent s

/-! ### BIND and UNBIND (section 3.2) -/

/-- The unique ID in MBX_DATA and MBX_XDATA (R128). -/
def Mailbox.id (m : Mailbox) : UniqueId := m.xdata ++ m.data

/-- The mode in MBX_FLAGS; 2 and 3 name none (R201). -/
def Mailbox.mode? (m : Mailbox) : Option BindMode :=
  if m.flagMode = 0 then some .strict else if m.flagMode = 1 then some .preferred else none

/-- A table with one binding and no other for its ID. -/
def rebind (a : ModAddr) (b : Binding) (t : Vector (Option Binding) 14) : Vector (Option Binding) 14 :=
  vset (vmap (fun o => o.filter fun x => x.id ≠ b.id) t) a (some b)

/-- The tests of BIND, in their order (R50, R51): the result of a refusal, or the binding and its address. -/
def bindTests (s : State) : Result ⊕ (ModAddr × Binding) :=
  match modAddr? s.mbx.target with
  | none => .inl .badAddress
  | some a =>
    match s.mbx.mode? with
    | none => .inl .badArgument
    | some mode =>
      let named : Bool := (vget s.bindings a).isSome
      let otherHolds : Bool := (vget s.bindings a).any fun b => b.id ≠ s.mbx.id
      let exists_ : Bool := allAddrs.any fun x => (vget s.bindings x).any fun b => b.id = s.mbx.id
      if s.mbx.replace && exists_ then
        if otherHolds then .inl .duplicateAddress else .inr (a, ⟨s.mbx.id, mode⟩)
      else if exists_ then .inl .duplicateId
      else if named then .inl .duplicateAddress
      else .inr (a, ⟨s.mbx.id, mode⟩)

/-- BIND (R50, R51, R128): the table is changed, which is a binding change, or the command is refused. -/
def bindCommand (s : State) : State :=
  match bindTests s with
  | .inl r => failCommand r s
  | .inr (a, b) => completeCommand (unpark { s with bindings := rebind a b s.bindings })

/-- UNBIND (R52, R128). -/
def unbindCommand (s : State) : State :=
  if allAddrs.any fun x => (vget s.bindings x).any fun b => b.id = s.mbx.id then
    completeCommand (unpark { s with bindings := vmap (fun o => o.filter fun x => x.id ≠ s.mbx.id) s.bindings })
  else failCommand .notBound s

/-! ### The other table commands (section 7.4) -/

/-- READMIT (R43, R129). -/
def readmitCommand (s : State) : State :=
  match modAddr? s.mbx.target with
  | none => failCommand .badAddress s
  | some a =>
    let e := s.entry a
    if e.state = .quarantined then
      completeCommand (armSweep (s.setEntry a { e with state := .online, failureRun := 0, departCount := 0,
                                                       responding := false, pollTimer := some 0 }))
    else failCommand .wrongState s

/-- Does a RELEASE for an address stand in the management queue or is it on the link (R130)? -/
def MgmtEntry.isReleaseFor (a : ModAddr) (g : Half) : MgmtEntry → Bool
  | .release b h => b = a ∧ h = g
  | _ => false

/-- FORGET (R44, R130): release due, noted as for FORGET, unless the entry's one release is already under way. -/
def forgetCommand (s : State) : State :=
  match modAddr? s.mbx.target with
  | none => failCommand .badAddress s
  | some a =>
    let e := s.entry a
    if e.state = .online ∨ e.state = .quarantined then
      setMbxState .active (s.setEntry a { e with
        releaseDue := !s.mgmtHas (MgmtEntry.isReleaseFor a e.generation), releaseFor := some .forget })
    else failCommand .wrongState s

/-- DISCOVER_NOW (R30, R58, R131): a query at once in IDLE or a PARKED state; a query or join in progress is joined; in
DISABLED the command waits. -/
def discoverNowCommand (s : State) : State :=
  let s1 := setMbxState .active s
  if s.disc.state = .idle ∨ s.disc.state = .parkedFull ∨ s.disc.state = .parkedConflict then queryNow s1 else s1

/-- LINK_RESET (R21, R132). -/
def linkResetCommand (s : State) : State :=
  let s1 := setMbxState .active s
  { s1 with engine := { s1.engine with resetPending := true } }

/-- FLUSH_CACHE (R118, R133). -/
def flushCommand (s : State) : State := completeCommand (clearCache s)

/-- RELOAD (R134, R173). -/
def reloadCommand (s : State) : State := setMbxState .active (beginRun .reload s)

/-! ### GO (section 7.2) -/

/-- A command started under the rule for its kind. -/
def startCommand (c : MbxCmd) (s : State) : State :=
  match c with
  | .read => linkCommand .read s
  | .write => linkCommand .write s
  | .descRead => linkCommand .descRead s
  | .bind => bindCommand s
  | .unbind => unbindCommand s
  | .readmit => readmitCommand s
  | .forget => forgetCommand s
  | .discoverNow => discoverNowCommand s
  | .linkReset => linkResetCommand s
  | .flushCache => flushCommand s
  | .reload => reloadCommand s

/-- An accepted GO (R123): MBX_RESULT is NONE, and the command named by MBX_OP is taken; a command that needs the link wakes
a sleeping one (R193). -/
def acceptGo (s : State) : State :=
  let s1 := { s with mbx := { s.mbx with result := .none } }
  match cmdOf? s.mbx.op with
  | none => failCommand .badArgument s1
  | some c => startCommand c (if c.needsLink then hostWake s1 else s1)

/-- A write of MBX_GO taken by the mailbox's state (R123, R183). -/
def takeGo (s : State) : State :=
  if s.mbx.busy then { s with mbx := { s.mbx with refused := true } }
  else if s.autoloadRuns then failCommand .autoloadBusy s
  else acceptGo s

/-- A write of MBX_GO, answered OK in every case (R123). -/
def writeGo (s : State) : State := (settle (takeGo s)).reply okWrite

/-- A host write of MBX_GO with its enabled lanes. The command it takes is the one MBX_OP names (log entry 9). -/
def goAccess (lanes : BitVec 4) (s : State) : State := hostAccess (fullWrite lanes writeGo) s

/-- MBX_READ (R123 to R126). -/
def execMbxRead (lanes : BitVec 4) (s : State) : Host.Outcome State Fault Refusal := .next (goAccess lanes s)

/-- MBX_WRITE (R123 to R126). -/
def execMbxWrite (lanes : BitVec 4) (s : State) : Host.Outcome State Fault Refusal := .next (goAccess lanes s)

/-- MBX_DESC_READ (R123 to R126). -/
def execMbxDescRead (lanes : BitVec 4) (s : State) : Host.Outcome State Fault Refusal := .next (goAccess lanes s)

/-- BIND (R50, R51, R128). -/
def execBind (lanes : BitVec 4) (s : State) : Host.Outcome State Fault Refusal := .next (goAccess lanes s)

/-- UNBIND (R52, R128). -/
def execUnbind (lanes : BitVec 4) (s : State) : Host.Outcome State Fault Refusal := .next (goAccess lanes s)

/-- READMIT (R43, R129). -/
def execReadmit (lanes : BitVec 4) (s : State) : Host.Outcome State Fault Refusal := .next (goAccess lanes s)

/-- FORGET (R44, R130). -/
def execForget (lanes : BitVec 4) (s : State) : Host.Outcome State Fault Refusal := .next (goAccess lanes s)

/-- DISCOVER_NOW (R30, R131). -/
def execDiscoverNow (lanes : BitVec 4) (s : State) : Host.Outcome State Fault Refusal := .next (goAccess lanes s)

/-- LINK_RESET (R21, R132). -/
def execLinkReset (lanes : BitVec 4) (s : State) : Host.Outcome State Fault Refusal := .next (goAccess lanes s)

/-- FLUSH_CACHE (R118, R133). -/
def execFlushCache (lanes : BitVec 4) (s : State) : Host.Outcome State Fault Refusal := .next (goAccess lanes s)

/-- RELOAD (R134, R173). -/
def execReload (lanes : BitVec 4) (s : State) : Host.Outcome State Fault Refusal := .next (goAccess lanes s)

/-- MBX_GO_NO_COMMAND (R123). -/
def execMbxGoNoCommand (lanes : BitVec 4) (s : State) : Host.Outcome State Fault Refusal := .next (goAccess lanes s)

/-! ### The waiting command and ABORT -/

/-- The operation of the link command in MBX_OP. -/
def linkOp? (m : Mailbox) : Option HostOp :=
  match cmdOf? m.op with
  | some .read => some .read
  | some .write => some .write
  | some .descRead => some .descRead
  | _ => none

/-- A WAITING command is added when a place frees (R81, R83, R125). -/
def addWaitingCommand (s : State) : State :=
  if s.mbx.state = .waiting ∧ s.hostRoom then
    match linkOp? s.mbx, modAddr? s.mbx.target with
    | some op, some a =>
      match linkArgs s.mbx op with
      | some w => settle (enqueueMailbox op a w s)
      | none => s
    | _, _ => s
  else s

/-- MBX_WAITING_ENQUEUE (R83, R125). -/
def execMbxWaitingEnqueue (s : State) : Host.Outcome State Fault Refusal := .next (whenLive addWaitingCommand s)

/-- The mailbox's entry marked cancelled (R87). -/
def cancelEntry (e : HostEntry) : HostEntry := if e.origin = .mailbox then { e with cancelled := true } else e

/-- A write of MBX_ABORT taken by the mailbox's state (R135). -/
def takeAbort (s : State) : State :=
  match s.mbx.state with
  | .waiting => failCommand (.outcome .cancelled) s
  | .queued => { s with hostQueue := s.hostQueue.map cancelEntry }
  | .active => { s with mbx := { s.mbx with abortLate := true } }
  | .idle => s
  | .done => s
  | .failed => s

/-- A write of MBX_ABORT, answered OK in every case (R135). -/
def writeAbort (s : State) : State := (settle (takeAbort s)).reply okWrite

/-- MBX_ABORT (R135). -/
def execMbxAbort (lanes : BitVec 4) (s : State) : Host.Outcome State Fault Refusal :=
  .next (hostAccess (fullWrite lanes writeAbort) s)

end Sys2Proof.Machine
end

