-- ==== Sys2Proof/Machine/View.lean ====
section
/-! DEFINITION. What the control registers read (sections 12.2 and 12.4), and what the pins carry. A read of a register changes
no state but for EVT_W3 in POP mode (R201), which is the command EVT_POP. -/

namespace Sys2Proof.Machine

/-! ### Fields of a word -/

/-- A field placed at a bit position. -/
def field (pos v : Nat) : Nat := v * 2 ^ pos

/-- A flag at a bit position. -/
def flag (pos : Nat) (b : Bool) : Nat := if b then 2 ^ pos else 0

/-- A register word from its fields, which do not overlap. -/
def word (fields : List Nat) : Word := BitVec.ofNat 32 fields.sum

/-- A link address as a number; 0 for an absent one. -/
def addressCode : Option ModAddr → Nat
  | some a => a.val + 1
  | none => 0

/-! ### Codes (R202) -/

/-- The link power state (R202). -/
def powerCode : PowerState → Nat
  | .active => 0
  | .draining => 1
  | .asleep => 2
  | .waking => 3

/-- The autoload phase (R202). -/
def phaseCode : Phase → Nat
  | .idle => 0
  | .reading => 1
  | .verifying => 2

/-- The autoload fault reason (R202). -/
def faultCode : FaultReason → Nat
  | .none => 0
  | .version => 1
  | .count => 2
  | .length => 3
  | .type => 4
  | .recordLength => 5
  | .recordStructure => 6
  | .check => 7
  | .value => 8
  | .duplicate => 9

/-- The WIN_FAULT reason (R202). -/
def winFaultCode : WinFaultReason → Nat
  | .none => 0
  | .lanes => 1
  | .unmapped => 2
  | .width => 3
  | .readOnly => 4
  | .notOnline => 5
  | .moduleClass => 6

/-- The mailbox state (R202). -/
def mbxStateCode : MbxState → Nat
  | .idle => 0
  | .waiting => 1
  | .queued => 2
  | .active => 3
  | .done => 4
  | .failed => 5

/-- The module state (R202). -/
def modStateCode : ModState → Nat
  | .empty => 0
  | .joining => 1
  | .describing => 2
  | .online => 3
  | .quarantined => 4

/-- The attention_state (R202). -/
def attnCode : AttnState → Nat
  | .none => 0
  | .fetchDue => 1
  | .fetching => 2
  | .held => 3
  | .clearDue => 4

/-- The discovery state (R202). -/
def discCode : DiscState → Nat
  | .disabled => 0
  | .idle => 1
  | .querying => 2
  | .joining => 3
  | .parkedFull => 4
  | .parkedConflict => 5

/-- The outcome field of READ_FAULT and the slot views (R202). -/
def outcomeField : Option LinkOutcome → Nat
  | some o => (outcomeCode o).toNat
  | none => 0

/-! ### The words of the blocks -/

/-- PWR_STATUS (R188, R201). -/
def pwrStatusWord (s : State) : Word :=
  let drain := if s.power.state = .draining then
      flag 8 (!s.drainQueues) + flag 9 (!s.drainLink) + flag 10 (!s.drainJoin) + flag 11 (!s.drainReads) +
        flag 12 (!s.drainMailbox) + flag 13 (!s.drainAutoload)
    else 0
  word [powerCode s.power.state, flag 2 s.power.sleepReq, field 4 (wakeCode s.power.lastWake).toNat, drain]

/-- AUTOLOAD_STATUS (R172, R201). -/
def autoloadStatusWord (a : Autoload) : Word :=
  word [phaseCode a.phase, field 4 (loadCode a.lastOutcome).toNat, field 8 a.recordCount, field 16 (faultCode a.faultReason),
        field 24 a.faultRecord]

/-- The source of the current request (R205). -/
def Link.sourceCode (l : Link) : Nat :=
  match l.request? with
  | none => 0
  | some r => match r.source with
    | .broadcast => 0
    | .management _ => 1
    | .host _ _ => 2

/-- The link code (R205). -/
def Link.code : Link → Nat
  | .free => 0
  | .carrying _ => 1
  | .holdoff _ _ => 2
  | .settling _ _ => 3

/-- LINK_STATUS (R205). -/
def linkStatusWord (e : LinkEngine) : Word :=
  word [e.link.code, flag 4 e.resetPending, flag 5 (e.lastTurn = .host), field 8 e.joinCounter.toNat,
        field 12 e.link.sourceCode]

/-- The address of the entry being joined (R205). -/
def State.joiningAddr (s : State) : Option ModAddr :=
  if s.disc.state = .joining then
    allAddrs.find? fun a => (s.entry a).state = .joining ∨ (s.entry a).state = .describing
  else none

/-- WIN_FAULT (R74, R201). -/
def winFaultWord (f : WinFault) : Word :=
  word [winFaultCode f.reason, flag 3 (f.dir = .write), field 4 f.window.toNat, field 8 f.address.toNat]

/-- READ_FAULT (R105, R201). -/
def readFaultWord (f : ReadFault) : Word :=
  word [outcomeField f.outcome, field 4 f.width.toNat, field 8 f.slot.toNat, field 12 f.hostAddr.toNat]

/-- ATTN_STATUS (R138, R201). -/
def attnStatusWord (s : State) : Word :=
  word [flag 0 s.attn.level, flag 1 s.attn.armed, flag 2 s.attn.sweep.isSome,
        field 8 (allAddrs.filter fun a => (s.entry a).attention = .fetching).length]

/-- EVT_W0 (R160, R209). -/
def headWord (u : EventUnit) : Word :=
  match u.list with
  | [] => 0
  | r :: _ =>
    word [r.seq.toNat, field 8 (kindNumber r.kind), flag 13 r.address.isSome, flag 14 r.held, field 16 (addressCode r.address),
          field 20 (routeCode r.route), field 24 r.code.toNat]

/-- EVT_W1 to EVT_W3 (R160, R209). -/
def headDetail (u : EventUnit) (f : EventRec → Word) : Word :=
  match u.list with
  | [] => 0
  | r :: _ => f r

/-- EVT_STATUS (R168, R201). -/
def evtStatusWord (s : State) : Word :=
  word [flag 0 s.events.staleRelease, field 8 s.events.nextSeq.toNat, flag 16 (s.events.routed .line0),
        flag 17 s.line0Active, flag 18 (s.events.routed .line1), flag 19 s.line1Active]

/-- The first word of EVT_COUNT (R168, R201). -/
def evtCountWord (u : EventUnit) : Word :=
  word [u.list.length, field 8 u.ordinaryCount, field 16 u.reservations, flag 24 u.overflowPresent]

/-- The fields of a slot's first view word but for its state (R100, R201). -/
def slotFields (i : SlotInfo) : List Nat :=
  [flag 2 i.noFill, field 4 i.width.bytes, field 8 i.window.val, field 12 (i.target.val + 1), field 16 i.offset.toNat]

/-- The first word of a slot view (R100, R201). -/
def slotWord : Slot → Word
  | .free => 0
  | .pending i => word (1 :: slotFields i)
  | .complete i _ _ _ => word (2 :: slotFields i)

/-- The second word of a slot view (R100, R201). -/
def slotAddrWord : Slot → Word
  | .free => 0
  | .pending i => word [i.hostAddr.toNat]
  | .complete i o _ _ => word [i.hostAddr.toNat, field 24 (outcomeCode o).toNat]

/-- The binding that BIND_SEL selects (R49). -/
def State.selectedBinding (s : State) : Option Binding :=
  match modAddr? s.port.bindSel with
  | some a => vget s.bindings a
  | none => none

/-- The module entry that MOD_SEL selects (R204). -/
def State.selectedEntry (s : State) : Entry :=
  match modAddr? s.port.modSel with
  | some a => s.entry a
  | none => {}

/-- MOD_STATE (R204). -/
def modStateWord (e : Entry) : Word :=
  word [modStateCode e.state, field 4 (boundCode e.bound).toNat, field 8 (attnCode e.attention), flag 12 e.pingDue,
        flag 13 e.releaseDue, field 16 e.seq.toNat]

/-- MOD_SUPV (R204). -/
def modSupvWord (e : Entry) : Word :=
  word [e.failureRun, field 8 e.departCount, flag 16 e.responding, flag 17 e.hasAttention, flag 18 e.truncated,
        field 20 e.widthLimit.bytes, field 24 e.capabilities.length]

/-- MOD_DESC (R204). -/
def modDescWord (e : Entry) : Word :=
  word [(e.moduleClass.getD 0).toNat, field 16 (e.revision.getD 0).toNat, field 24 e.pacing.toNat]

/-- MOD_CAPk (R204). -/
def capWord : Option Capability → Word
  | none => 0
  | some c => word [c.type.toNat, field 8 c.length.toNat, field 16 c.word.toNat, field 24 c.value.toNat]

/-- The field registers of a window (R61, R201). -/
def winFieldWord (w : Window) : WinField → Word
  | .range => word [w.basePage.toNat, field 8 w.limitPage.toNat]
  | .target => word [w.target.toNat, field 16 w.expectedClass.toNat]
  | .remote => word [w.remoteBase.toNat]
  | .attr => word [w.width.code, flag 4 w.readOnly, flag 5 w.cacheable]

/-- WINn_VIEW (R61, R201). The remote offset of the last byte is that of the first plus limit − base. For a disabled window
whose fields fail R63 (base above limit, or a range past 0xFFFF) that sum is no 16-bit offset, and the spec gives the field no
value: the model shows it mod 0x10000 (log entry 31, the model's choice). -/
def winViewWord (w : Window) (i : Fin 3) : Word :=
  if i = 0 then word [flag 0 w.enabled]
  else if i = 1 then word [w.base, field 16 w.limit]
  else word [w.remoteBase.toNat, field 16 ((w.remoteBase.toNat + 0x10000 + w.limit - w.base) % 0x10000)]

/-! ### Every register (R201) -/

/-- The word a register shows as it stands at the read; a write-only register reads 0 (R201). HRQ_LEVEL's bit 8 stays set for a host
request that is on the link when a retaining reset discards it, as R77 and R201 read, though R98 has HRQ_LEVEL read 0 after that reset:
that 0 is taken as the number of entries (log entry 40, deduced). -/
def readWord (r : Reg) (s : State) : Word :=
  match r with
  | .pwrCtrl => word [flag 0 s.power.sleepReq, flag 1 s.power.retain]
  | .pwrStatus => pwrStatusWord s
  | .autoloadStatus => autoloadStatusWord s.autoload
  | .linkStatus => linkStatusWord s.engine
  | .discStatus => word [discCode s.disc.state, field 8 (addressCode s.joiningAddr)]
  | .hrqLevel => word [s.hostQueue.length, flag 8 (s.engine.link.sourceCode = 2)]
  | .cacheLines => word [s.cache.count]
  | .attnMode => word [flag 0 (s.attn.mode = .held)]
  | .attnStatus => attnStatusWord s
  | .winFault => winFaultWord s.port.winFault
  | .readFault => readFaultWord s.port.readFault
  | .timing p => word [s.timing.value p]
  | .mbxOp => word [s.mbx.op.toNat]
  | .mbxTarget => word [s.mbx.target.toNat]
  | .mbxOffset => word [s.mbx.offset.toNat]
  | .mbxWidth => word [s.mbx.width.toNat]
  | .mbxData => s.mbx.data
  | .mbxXdata => s.mbx.xdata
  | .mbxFlags => word [s.mbx.flagMode.toNat, flag 4 s.mbx.replace]
  | .mbxGo => 0
  | .mbxAbort => 0
  | .mbxStatus => word [mbxStateCode s.mbx.state, flag 8 s.mbx.refused, flag 9 s.mbx.abortLate]
  | .mbxResult => word [(resultCode s.mbx.result).toNat]
  | .evtW i =>
    if i = 0 then headWord s.events
    else if i = 1 then headDetail s.events EventRec.detailA
    else if i = 2 then headDetail s.events EventRec.detailB
    else headDetail s.events EventRec.detailC
  | .evtRelease => 0
  | .evtMode => word [flag 0 (s.events.mode = .release)]
  | .evtLineEn => word [flag 0 s.events.line0En, flag 1 s.events.line1En]
  | .evtStatus => evtStatusWord s
  | .evtCount => evtCountWord s.events
  | .evtOverflowCount => s.events.overflowCount
  | .evtRoute k => word [routeCode (s.events.routeOf k)]
  | .slotView i => slotWord (vget s.slots i)
  | .slotViewAddr i => slotAddrWord (vget s.slots i)
  | .bindSel => word [s.port.bindSel.toNat]
  | .bindView =>
    word [flag 0 s.selectedBinding.isSome, flag 1 (s.selectedBinding.any fun b => b.mode = .preferred)]
  | .bindIdLo => (s.selectedBinding.map fun b : Binding => b.id.setWidth 32).getD 0
  | .bindIdHi => (s.selectedBinding.map fun b : Binding => (b.id >>> 32).setWidth 32).getD 0
  | .modSel => word [s.port.modSel.toNat]
  | .modState => modStateWord s.selectedEntry
  | .modGen => word [s.selectedEntry.generation.toNat, field 16 (s.selectedEntry.clearBits.getD 0).toNat]
  | .modSupv => modSupvWord s.selectedEntry
  | .modDesc => modDescWord s.selectedEntry
  | .modIdLo => (s.selectedEntry.uniqueId.getD 0).setWidth 32
  | .modIdHi => ((s.selectedEntry.uniqueId.getD 0) >>> 32).setWidth 32
  | .modCap k => capWord s.selectedEntry.capabilities[k.val]?
  | .win n f => winFieldWord (vget s.windows n) f
  | .winEnable n => word [flag 0 (vget s.windows n).enabled]
  | .winView n i => winViewWord (vget s.windows n) i

/-- What a host read of control space is answered (R199, R201): the enabled lanes of the word, or ERROR. -/
def readRegister (offset : BitVec 12) (lanes : BitVec 4) (s : State) : Answer :=
  match laneGroup? lanes, regAt offset with
  | some (lane, w), some r => okRead (enabledLanes lane w (readWord r s))
  | _, _ => errorAnswer .read

/-! ### Pins (section 12.6) -/

/-- HRSP1 and HRSP0 (R211). -/
def responseCode : Response3 → BitVec 2
  | .ok => 0
  | .retry => 1
  | .error => 2

/-- HRDY: the response is valid, and no access is held (R200, R211). After an answer it stays asserted until the next hold or a reset,
though R211 gives no level for the time in which no access is in progress (log entry 41, the model's choice). -/
def State.ready (s : State) : Bool := s.port.held.isNone && s.port.answer.isSome

/-- The level on the LINE0 pin: low while the line is active (R211). -/
def State.line0Pin (s : State) : Bool := !s.line0Active

/-- The level on the LINE1 pin (R211). -/
def State.line1Pin (s : State) : Bool := !s.line1Active

/-- What the bridge sends on SPAN_P and SPAN_N, while it sends a frame: the characters of the frame on the line, each as its ten bits, at
the LINK_RATE that the request began with (R1, R13, R211). Which of the bits stands on the line at a moment is not counted (log entry
17). -/
def State.spanFrame (s : State) : Option Wire :=
  match s.engine.link with
  | .carrying r => if r.attempt = .sending then some (onWire r.params.linkRate s.engine.line) else none
  | .free => none
  | .holdoff _ _ => none
  | .settling _ _ => none

/-- Does the bridge drive SPAN_P and SPAN_N: only while it sends a frame (R211)? -/
def State.drivesSpan (s : State) : Bool := s.spanFrame.isSome

end Sys2Proof.Machine
end

