-- ==== Sys2Proof/Machine/Registers.lean ====
section
/-! DEFINITION. Writes of the control registers (R201) and the rules their blocks make of them: windows, faults, selections,
timing, routes, the event registers, the attention mode and the mailbox's arguments and flags. -/

namespace Sys2Proof.Machine

/-- A write answered ERROR, with no effect (R199). -/
def refuseWrite (s : State) : State := s.reply (errorAnswer .write)

/-- A write answered OK. -/
def acceptWrite (s : State) : State := s.reply okWrite

/-! ### Windows (section 4.2) -/

/-- The fields a window field register carries replaced; none where the value is refused (R61, R62). -/
def setWinField (f : WinField) (data : Word) (w : Window) : Option Window :=
  match f with
  | .range => some { w with basePage := data.extractLsb' 0 8, limitPage := data.extractLsb' 8 8 }
  | .target => some { w with target := data.extractLsb' 0 4, expectedClass := data.extractLsb' 16 16 }
  | .remote => some { w with remoteBase := data.extractLsb' 0 16 }
  | .attr =>
    match widthOfCode? (data.extractLsb' 0 2).toNat with
    | some wd => some { w with width := wd, readOnly := data.getLsbD 4, cacheable := data.getLsbD 5 }
    | none => none

/-- A window replaced. -/
def State.setWindow (s : State) (n : Fin 8) (w : Window) : State := { s with windows := vset s.windows n w }

/-- A 4-byte write to a window field register (R61, R62, R183). -/
def writeWinField (n : Fin 8) (f : WinField) (data : Word) (s : State) : State :=
  if s.autoloadRuns ∨ (vget s.windows n).enabled = true then refuseWrite s
  else
    match setWinField f data (vget s.windows n) with
    | some w => acceptWrite (s.setWindow n w)
    | none => refuseWrite s

/-- WIN_FIELD_WRITE (R61, R62). -/
def execWinFieldWrite (n : Fin 8) (f : WinField) (lanes : BitVec 4) (data : Word) (s : State) :
    Host.Outcome State Fault Refusal :=
  .next (hostAccess (fullWrite lanes (writeWinField n f data)) s)

/-- A write of 1 to WINn_ENABLE (R63, R183). -/
def enableWindow (n : Fin 8) (s : State) : State :=
  let w := vget s.windows n
  if s.autoloadRuns then refuseWrite s
  else if w.enabled then acceptWrite s
  else if w.enableTests then acceptWrite (s.setWindow n { w with enabled := true })
  else refuseWrite s

/-- WIN_ENABLE (R63). -/
def execWinEnable (n : Fin 8) (lanes : BitVec 4) (s : State) : Host.Outcome State Fault Refusal :=
  .next (hostAccess (fullWrite lanes (enableWindow n)) s)

/-- A write of 0 to WINn_ENABLE (R64, R183). -/
def disableWindow (n : Fin 8) (s : State) : State :=
  if s.autoloadRuns then refuseWrite s else acceptWrite (s.setWindow n { vget s.windows n with enabled := false })

/-- WIN_DISABLE (R64). -/
def execWinDisable (n : Fin 8) (lanes : BitVec 4) (s : State) : Host.Outcome State Fault Refusal :=
  .next (hostAccess (fullWrite lanes (disableWindow n)) s)

/-! ### Faults and selections -/

/-- A write to WIN_FAULT (R74). -/
def resetWinFault (s : State) : State := acceptWrite { s with port := { s.port with winFault := {} } }

/-- WIN_FAULT_RESET (R74). -/
def execWinFaultReset (lanes : BitVec 4) (s : State) : Host.Outcome State Fault Refusal :=
  .next (hostAccess (fullWrite lanes resetWinFault) s)

/-- A write to READ_FAULT (R105). -/
def resetReadFault (s : State) : State := acceptWrite { s with port := { s.port with readFault := {} } }

/-- READ_FAULT_RESET (R105). -/
def execReadFaultReset (lanes : BitVec 4) (s : State) : Host.Outcome State Fault Refusal :=
  .next (hostAccess (fullWrite lanes resetReadFault) s)

/-- A write to BIND_SEL (R49). -/
def writeBindSel (data : Word) (s : State) : State :=
  if (modAddr? (data.extractLsb' 0 4)).isSome then
    acceptWrite { s with port := { s.port with bindSel := data.extractLsb' 0 4 } }
  else refuseWrite s

/-- BIND_SEL_WRITE (R49). -/
def execBindSelWrite (lanes : BitVec 4) (data : Word) (s : State) : Host.Outcome State Fault Refusal :=
  .next (hostAccess (fullWrite lanes (writeBindSel data)) s)

/-- A write to MOD_SEL (R204). -/
def writeModSel (data : Word) (s : State) : State :=
  if (modAddr? (data.extractLsb' 0 4)).isSome then
    acceptWrite { s with port := { s.port with modSel := data.extractLsb' 0 4 } }
  else refuseWrite s

/-- MOD_SEL_WRITE (R204). -/
def execModSelWrite (lanes : BitVec 4) (data : Word) (s : State) : Host.Outcome State Fault Refusal :=
  .next (hostAccess (fullWrite lanes (writeModSel data)) s)

/-! ### Timing and routes -/

/-- A write to a timing register (R183, R203), with the comparisons that a reduced value brings about at once (R39, R107). -/
def writeTiming (p : Param) (data : Word) (s : State) : State :=
  if s.autoloadRuns ∨ paramAccepts p data.toNat = false then refuseWrite s
  else acceptWrite (settle (compareAfter p { s with timing := s.timing.set p data.toNat }))

/-- TIMING_WRITE (R203). -/
def execTimingWrite (p : Param) (lanes : BitVec 4) (data : Word) (s : State) : Host.Outcome State Fault Refusal :=
  .next (hostAccess (fullWrite lanes (writeTiming p data)) s)

/-- A write to a route register: the whole written value is tested (R165, R183, R201; log entry 11). -/
def writeRoute (k : Kind) (data : Word) (s : State) : State :=
  match routeOfCode? data.toNat with
  | none => refuseWrite s
  | some r =>
    if s.autoloadRuns ∨ routeAllowed k r = false then refuseWrite s
    else acceptWrite { s with events := s.events.setRoute k r }

/-- ROUTE_WRITE (R165). -/
def execRouteWrite (k : Kind) (lanes : BitVec 4) (data : Word) (s : State) : Host.Outcome State Fault Refusal :=
  .next (hostAccess (fullWrite lanes (writeRoute k data)) s)

/-! ### The event registers (sections 9.4 to 9.7) -/

/-- A write to EVT_MODE: the whole written value is tested (R163, R201). -/
def writeEvtMode (data : Word) (s : State) : State :=
  if data = 0 then acceptWrite { s with events := { s.events with mode := .pop } }
  else if data = 1 then acceptWrite { s with events := { s.events with mode := .release } }
  else refuseWrite s

/-- EVT_MODE_WRITE (R163). -/
def execEvtModeWrite (lanes : BitVec 4) (data : Word) (s : State) : Host.Outcome State Fault Refusal :=
  .next (hostAccess (fullWrite lanes (writeEvtMode data)) s)

/-- A write to EVT_LINE_EN (R167). -/
def writeLineEn (data : Word) (s : State) : State :=
  acceptWrite { s with events := { s.events with line0En := data.getLsbD 0, line1En := data.getLsbD 1 } }

/-- EVT_LINE_EN_WRITE (R167). -/
def execEvtLineEnWrite (lanes : BitVec 4) (data : Word) (s : State) : Host.Outcome State Fault Refusal :=
  .next (hostAccess (fullWrite lanes (writeLineEn data)) s)

/-- A write to EVT_STATUS (R168). -/
def writeEvtStatus (data : Word) (s : State) : State :=
  acceptWrite { s with events := { s.events with staleRelease := s.events.staleRelease && !data.getLsbD 0 } }

/-- EVT_STATUS_CLEAR (R168). -/
def execEvtStatusClear (lanes : BitVec 4) (data : Word) (s : State) : Host.Outcome State Fault Refusal :=
  .next (hostAccess (fullWrite lanes (writeEvtStatus data)) s)

/-- The removal of a held ATTENTION record moves its entry from HELD to CLEAR_DUE (R147). -/
def heldRemoved (a : ModAddr) (s : State) : State :=
  let e := s.entry a
  if e.attention = .held then s.setEntry a { e with attention := .clearDue } else s

/-- The head removed (R164). -/
def removeHead (s : State) : State :=
  match s.events.list with
  | [] => s
  | r :: rest =>
    let s1 := { s with events := { s.events with list := rest } }
    if r.kind = .attention ∧ r.held = true then
      match r.address with
      | some a => heldRemoved a s1
      | none => s1
    else s1

/-- A read of EVT_W3: detail C of the head, which is removed in POP mode (R161). -/
def popRead (lane : Nat) (w : Width) (s : State) : State :=
  let answer := okRead (enabledLanes lane w (headDetail s.events EventRec.detailC))
  (if s.events.mode = .pop then settle (removeHead s) else s).reply answer

/-- A read of EVT_W3 with its enabled lanes; enables that form no lane group get ERROR (R199, R201). -/
def popAccess (lanes : BitVec 4) (s : State) : State :=
  match laneGroup? lanes with
  | some (lane, w) => popRead lane w s
  | none => s.reply (errorAnswer .read)

/-- EVT_POP (R161). -/
def execEvtPop (lanes : BitVec 4) (s : State) : Host.Outcome State Fault Refusal := .next (hostAccess (popAccess lanes) s)

/-- A 4-byte write to EVT_RELEASE (R161, R162). -/
def writeRelease (data : Word) (s : State) : State :=
  if s.events.mode = .pop then refuseWrite s
  else if s.events.list.head?.any fun r => data = r.seq.setWidth 32 then acceptWrite (settle (removeHead s))
  else acceptWrite { s with events := { s.events with staleRelease := true } }

/-- EVT_RELEASE (R162). -/
def execEvtRelease (lanes : BitVec 4) (data : Word) (s : State) : Host.Outcome State Fault Refusal :=
  .next (hostAccess (fullWrite lanes (writeRelease data)) s)

/-! ### The attention mode (section 8.6) -/

/-- An entry in HELD goes to CLEAR_DUE, and its record's held flag is cleared (R149, R153). -/
def unholdEntry (s : State) (a : ModAddr) : State :=
  if (s.entry a).attention = .held then
    { s.setEntry a { s.entry a with attention := .clearDue } with events := s.events.clearHeld a }
  else s

/-- A write of AUTO (R149). -/
def writeAuto (s : State) : State :=
  if s.attn.mode = .auto then acceptWrite s
  else acceptWrite (settle { allAddrs.foldl unholdEntry s with attn := { s.attn with mode := .auto } })

/-- ATTN_MODE_AUTO (R149). -/
def execAttnModeAuto (lanes : BitVec 4) (s : State) : Host.Outcome State Fault Refusal :=
  .next (hostAccess (fullWrite lanes writeAuto) s)

/-- A write of HELD (R150). -/
def writeHeld (s : State) : State := acceptWrite (settle { s with attn := { s.attn with mode := .held } })

/-- ATTN_MODE_HELD (R150). -/
def execAttnModeHeld (lanes : BitVec 4) (s : State) : Host.Outcome State Fault Refusal :=
  .next (hostAccess (fullWrite lanes writeHeld) s)

/-- A write to ATTN_MODE: the whole written value is tested (R138, R201). -/
def writeAttnMode (data : Word) (s : State) : State :=
  if data = 0 then writeAuto s else if data = 1 then writeHeld s else refuseWrite s

/-! ### The mailbox's registers (section 7.1) -/

/-- A write to MBX_STATUS (R122). -/
def writeMbxStatus (data : Word) (s : State) : State :=
  acceptWrite { s with mbx := { s.mbx with refused := s.mbx.refused && !data.getLsbD 8
                                           abortLate := s.mbx.abortLate && !data.getLsbD 9 } }

/-- MBX_STATUS_CLEAR (R122). -/
def execMbxStatusClear (lanes : BitVec 4) (data : Word) (s : State) : Host.Outcome State Fault Refusal :=
  .next (hostAccess (fullWrite lanes (writeMbxStatus data)) s)

/-- A write to an argument register: taken while no command is in progress (R121). -/
def writeArg (f : Mailbox → Mailbox) (s : State) : State :=
  if s.mbx.busy then refuseWrite s else acceptWrite { s with mbx := f s.mbx }

/-! ### Every register (R201) -/

/-- A 4-byte write to a register, taken or refused by the block that owns it; a read-only register refuses it (R201). -/
def writeReg (r : Reg) (data : Word) (s : State) : State :=
  match r with
  | .pwrCtrl => writePwr (data.getLsbD 0) (data.getLsbD 1) s
  | .attnMode => writeAttnMode data s
  | .winFault => resetWinFault s
  | .readFault => resetReadFault s
  | .timing p => writeTiming p data s
  | .mbxOp => writeArg (fun m => { m with op := data.extractLsb' 0 8 }) s
  | .mbxTarget => writeArg (fun m => { m with target := data.extractLsb' 0 4 }) s
  | .mbxOffset => writeArg (fun m => { m with offset := data.extractLsb' 0 16 }) s
  | .mbxWidth => writeArg (fun m => { m with width := data.extractLsb' 0 8 }) s
  | .mbxData => writeArg (fun m => { m with data := data }) s
  | .mbxXdata => writeArg (fun m => { m with xdata := data }) s
  | .mbxFlags => writeArg (fun m => { m with flagMode := data.extractLsb' 0 2, replace := data.getLsbD 4 }) s
  | .mbxGo => writeGo s
  | .mbxAbort => writeAbort s
  | .mbxStatus => writeMbxStatus data s
  | .evtRelease => writeRelease data s
  | .evtMode => writeEvtMode data s
  | .evtLineEn => writeLineEn data s
  | .evtStatus => writeEvtStatus data s
  | .evtRoute k => writeRoute k data s
  | .bindSel => writeBindSel data s
  | .modSel => writeModSel data s
  | .win n f => writeWinField n f data s
  | .winEnable n => if data.getLsbD 0 then enableWindow n s else disableWindow n s
  | .pwrStatus | .autoloadStatus | .linkStatus | .discStatus | .hrqLevel | .cacheLines | .attnStatus | .mbxResult | .evtW _
  | .evtCount | .evtOverflowCount | .slotView _ | .slotViewAddr _ | .bindView | .bindIdLo | .bindIdHi | .modState | .modGen
  | .modSupv | .modDesc | .modIdLo | .modIdHi | .modCap _ | .winView _ _ => refuseWrite s

/-- A host write in control space: to a register, or to no target (R199, R201). -/
def registerAccess (offset : BitVec 12) (lanes : BitVec 4) (data : Word) (s : State) : State :=
  match regAt offset with
  | some r => fullWrite lanes (writeReg r data) s
  | none => refuseWrite s

/-- REGISTER_WRITE (R201). -/
def execRegisterWrite (offset : BitVec 12) (lanes : BitVec 4) (data : Word) (s : State) :
    Host.Outcome State Fault Refusal :=
  .next (hostAccess (registerAccess offset lanes data) s)

end Sys2Proof.Machine
end

