-- ==== Sys2Proof/Machine/Reset.lean ====
section
/-! DEFINITION. The two resets (section 11.5): the cold reset and its release, and the host-port reset with RETAIN set, with
each block's part of it (the table of section 11.6). -/

namespace Sys2Proof.Machine

/-! ### The cold reset (R197) -/

/-- Every block at its cold values, the reset in force; the commands waiting, the clock and the levels of the reset inputs are
no part of the blocks. -/
def coldState (s : State) : State :=
  { pending := s.pending, now := s.now, pins := { s.pins with hold := true } }

/-- COLD_RST is asserted (R197). -/
def assertCold (s : State) : State :=
  if s.pins.cold then s else coldState { s with pins := { s.pins with cold := true } }

/-! ### The host-port reset with RETAIN set (R198) -/

/-- An entry's attention at the reset: HELD and FETCHING go to NONE (R24, R152). -/
def retainEntry (e : Entry) : Entry :=
  if e.attention = .held ∨ e.attention = .fetching then { e with attention := .none, clearBits := none } else e

/-- The current request's outcome will be DISCARDED if it came from the host request queue (R12). -/
def Request.discard (r : Request) : Request :=
  match r.source with
  | .host e _ => { r with source := .host e true }
  | .broadcast => r
  | .management _ => r

/-- The link goes on with its request (R12). -/
def Link.retain : Link → Link
  | .free => .free
  | .carrying r => .carrying r.discard
  | .holdoff r e => .holdoff r.discard e
  | .settling e t => .settling e t

/-- The mailbox forgets its command (R137). -/
def Mailbox.retain (m : Mailbox) : Mailbox :=
  { m with state := .idle, result := .none, refused := false, abortLate := false }

/-- The event unit is cleared but for its routes (R170). -/
def EventUnit.retain (u : EventUnit) : EventUnit := { routes := u.routes }

/-- Each block clears or keeps its own state (R98, R100, R118, R137, R12, R24, R152, R170). -/
def retainBlocks (s : State) : State :=
  { s with
    port := { s.port with held := none, answer := none }
    hostQueue := []
    slots := Vector.replicate 4 .free
    cache := {}
    mbx := s.mbx.retain
    engine := { s.engine with link := s.engine.link.retain }
    modules := vmap retainEntry s.modules
    attn := { s.attn with mode := .auto, armed := true, fetches := Vector.replicate 14 none }
    events := s.events.retain }

/-- The retaining reset: the blocks, HOST_RESET_RETAINED, and what follows in the same event: due work, a drain that the
discarded work completes, and a wake by attention (R170, R190, R198). -/
def retainingReset (s : State) : State := settle (post ⟨.hostResetRetained, none, 0, 0, 0, 0⟩ (retainBlocks s))

/-- HOST_RST is asserted: RETAIN is read in that event (R196). -/
def assertHost (s : State) : State :=
  if s.pins.host then s
  else
    let s1 := { s with pins := { s.pins with host := true } }
    if s.power.retain then retainingReset s1 else coldState s1

/-- COLD_RESET (R197): COLD_RST, or HOST_RST while RETAIN is clear (log entry 14). -/
def execColdReset (pin : ResetPin) (s : State) : Host.Outcome State Fault Refusal :=
  match pin with
  | .coldRst => .next (assertCold s)
  | .hostRst => .next (assertHost s)

/-- HOST_PORT_RESET (R196, R198; log entry 14). -/
def execHostPortReset (s : State) : Host.Outcome State Fault Refusal := .next (assertHost s)

/-! ### Release -/

/-- The level of a reset input after its release. -/
def Pins.release (p : Pins) : ResetPin → Pins
  | .coldRst => { p with cold := false }
  | .hostRst => { p with host := false }

/-- A reset input is released: when both are, a cold reset in force ends, and the cold-reset sequence begins with an autoload
run (R172, R197). -/
def releasePin (pin : ResetPin) (s : State) : State :=
  let p := s.pins.release pin
  if p.hold ∧ p.cold = false ∧ p.host = false then beginRun .cold { s with pins := { p with hold := false } }
  else { s with pins := p }

/-- RESET_RELEASE (R172, R197). -/
def execResetRelease (pin : ResetPin) (s : State) : Host.Outcome State Fault Refusal := .next (releasePin pin s)

/-- HOST_RST_RELEASE (R198): the host port takes accesses again. -/
def execHostRstRelease (s : State) : Host.Outcome State Fault Refusal := .next (releasePin .hostRst s)

end Sys2Proof.Machine
end

