-- ==== Sys2Proof/Machine/Timers.lean ====
section
/-! DEFINITION. The three timers that make work fall due: the query timer (R30), the poll timers (R39) and the discard timers
(R107). Each event is the moment at which the timer reaches its limit. -/

namespace Sys2Proof.Machine

/-- The query timer reaches its interval (R30). -/
def queryTimerExpires (s : State) : State :=
  match s.disc.queryTimer with
  | some n =>
    if s.disc.state = .idle then settle (queryNow (advance (s.disc.queryInterval * 1000 - n) s)) else s
  | none => s

/-- DISCOVERY_TIMER_EXPIRY (R30). -/
def execDiscoveryTimerExpiry (s : State) : Host.Outcome State Fault Refusal := .next (whenLive queryTimerExpires s)

/-- The interval that an entry's poll timer runs to, in µs (R39). -/
def State.pollLimit (s : State) (a : ModAddr) : Option Nat :=
  match (s.entry a).state with
  | .online => some (s.timing.pollInterval * 1000)
  | .quarantined => some (s.timing.quarPollInterval * 1000)
  | .empty => none
  | .joining => none
  | .describing => none

/-- An entry's poll timer reaches its interval: ping due is set and the timer stops (R39). -/
def pollTimerExpires (a : ModAddr) (s : State) : State :=
  match s.pollLimit a, (s.entry a).pollTimer with
  | some l, some n =>
    if s.pollsRun then
      let s1 := advance (l - n) s
      settle (setPingDue a (s1.setEntry a { s1.entry a with pollTimer := none }))
    else s
  | _, _ => s

/-- POLL_TIMER_EXPIRY (R39). -/
def execPollTimerExpiry (a : ModAddr) (s : State) : Host.Outcome State Fault Refusal := .next (whenLive (pollTimerExpires a) s)

/-- A COMPLETE slot's discard timer reaches DISCARD_TIME (R107). -/
def discardTimerExpires (i : Fin 4) (s : State) : State :=
  match vget s.slots i with
  | .complete _ _ _ n => settle (discardSlot i (advance (s.timing.discardTime * 1000 - n) s))
  | .free => s
  | .pending _ => s

/-- DISCARD_TIMER_EXPIRY (R107). -/
def execDiscardTimerExpiry (i : Fin 4) (s : State) : Host.Outcome State Fault Refusal := .next (whenLive (discardTimerExpires i) s)

end Sys2Proof.Machine
end

