-- ==== Sys2Proof/Machine/Dispatch.lean ====
section
/-! DEFINITION. One arm for each command: its meaning. -/

namespace Sys2Proof.Machine

def exec (i : Instr) (s : State) : Host.Outcome State Fault Refusal :=
  match i with
  | .coldReset pin => Sys2Proof.Machine.execColdReset pin s
  | .hostPortReset => Sys2Proof.Machine.execHostPortReset s
  | .resetRelease pin => Sys2Proof.Machine.execResetRelease pin s
  | .attnAsserted => Sys2Proof.Machine.execAttnAsserted s
  | .attnReleased => Sys2Proof.Machine.execAttnReleased s
  | .windowRead addr lanes => Sys2Proof.Machine.execWindowRead addr lanes s
  | .windowWrite addr lanes data => Sys2Proof.Machine.execWindowWrite addr lanes data s
  | .heldAccessEnqueue => Sys2Proof.Machine.execHeldAccessEnqueue s
  | .hostHoldExpiry => Sys2Proof.Machine.execHostHoldExpiry s
  | .noTargetAccess dir addr lanes => Sys2Proof.Machine.execNoTargetAccess dir addr lanes s
  | .registerWrite offset lanes data => Sys2Proof.Machine.execRegisterWrite offset lanes data s
  | .winFieldWrite n field lanes data => Sys2Proof.Machine.execWinFieldWrite n field lanes data s
  | .winEnable n lanes => Sys2Proof.Machine.execWinEnable n lanes s
  | .winDisable n lanes => Sys2Proof.Machine.execWinDisable n lanes s
  | .winFaultReset lanes => Sys2Proof.Machine.execWinFaultReset lanes s
  | .readFaultReset lanes => Sys2Proof.Machine.execReadFaultReset lanes s
  | .bindSelWrite lanes data => Sys2Proof.Machine.execBindSelWrite lanes data s
  | .modSelWrite lanes data => Sys2Proof.Machine.execModSelWrite lanes data s
  | .timingWrite p lanes data => Sys2Proof.Machine.execTimingWrite p lanes data s
  | .routeWrite k lanes data => Sys2Proof.Machine.execRouteWrite k lanes data s
  | .evtModeWrite lanes data => Sys2Proof.Machine.execEvtModeWrite lanes data s
  | .evtLineEnWrite lanes data => Sys2Proof.Machine.execEvtLineEnWrite lanes data s
  | .evtStatusClear lanes data => Sys2Proof.Machine.execEvtStatusClear lanes data s
  | .evtPop lanes => Sys2Proof.Machine.execEvtPop lanes s
  | .evtRelease lanes data => Sys2Proof.Machine.execEvtRelease lanes data s
  | .attnModeAuto lanes => Sys2Proof.Machine.execAttnModeAuto lanes s
  | .attnModeHeld lanes => Sys2Proof.Machine.execAttnModeHeld lanes s
  | .sleepRequest retain lanes => Sys2Proof.Machine.execSleepRequest retain lanes s
  | .sleepCancel retain lanes => Sys2Proof.Machine.execSleepCancel retain lanes s
  | .retainWrite retain lanes => Sys2Proof.Machine.execRetainWrite retain lanes s
  | .mbxStatusClear lanes data => Sys2Proof.Machine.execMbxStatusClear lanes data s
  | .mbxRead lanes => Sys2Proof.Machine.execMbxRead lanes s
  | .mbxWrite lanes => Sys2Proof.Machine.execMbxWrite lanes s
  | .mbxDescRead lanes => Sys2Proof.Machine.execMbxDescRead lanes s
  | .mbxWaitingEnqueue => Sys2Proof.Machine.execMbxWaitingEnqueue s
  | .bind lanes => Sys2Proof.Machine.execBind lanes s
  | .unbind lanes => Sys2Proof.Machine.execUnbind lanes s
  | .readmit lanes => Sys2Proof.Machine.execReadmit lanes s
  | .forget lanes => Sys2Proof.Machine.execForget lanes s
  | .discoverNow lanes => Sys2Proof.Machine.execDiscoverNow lanes s
  | .linkReset lanes => Sys2Proof.Machine.execLinkReset lanes s
  | .flushCache lanes => Sys2Proof.Machine.execFlushCache lanes s
  | .reload lanes => Sys2Proof.Machine.execReload lanes s
  | .mbxAbort lanes => Sys2Proof.Machine.execMbxAbort lanes s
  | .arbiterGrant => Sys2Proof.Machine.execArbiterGrant s
  | .broadcastSent => Sys2Proof.Machine.execBroadcastSent s
  | .settled => Sys2Proof.Machine.execSettled s
  | .responseReceived frame order => Sys2Proof.Machine.execResponseReceived frame order s
  | .responseTimeout order => Sys2Proof.Machine.execResponseTimeout order s
  | .retransmission => Sys2Proof.Machine.execRetransmission s
  | .holdoffEnd => Sys2Proof.Machine.execHoldoffEnd s
  | .pacingIntervalEnd a => Sys2Proof.Machine.execPacingIntervalEnd a s
  | .discoveryTimerExpiry => Sys2Proof.Machine.execDiscoveryTimerExpiry s
  | .pollTimerExpiry a => Sys2Proof.Machine.execPollTimerExpiry a s
  | .discardTimerExpiry slot => Sys2Proof.Machine.execDiscardTimerExpiry slot s
  | .autoloadMarkerRead b1 b2 => Sys2Proof.Machine.execAutoloadMarkerRead b1 b2 s
  | .autoloadHeaderRead version count lenLow lenHigh => Sys2Proof.Machine.execAutoloadHeaderRead version count lenLow lenHigh s
  | .autoloadImageRead bytes => Sys2Proof.Machine.execAutoloadImageRead bytes s
  | .autoloadVerifyEnd => Sys2Proof.Machine.execAutoloadVerifyEnd s
  | .drainComplete => Sys2Proof.Machine.execDrainComplete s
  | .wakeSettleEnd => Sys2Proof.Machine.execWakeSettleEnd s
  | .hostRstRelease => Sys2Proof.Machine.execHostRstRelease s
  | .requestFrameSent => Sys2Proof.Machine.execRequestFrameSent s
  | .responseLeadIn => Sys2Proof.Machine.execResponseLeadIn s
  | .mbxGoNoCommand lanes => Sys2Proof.Machine.execMbxGoNoCommand lanes s

end Sys2Proof.Machine
end

