-- ==== Sys2Proof/Safety.lean ====
section
/-! DEFINITION. The laws that the spec says its blocks keep, as predicates of a state, and what it means that every step keeps
one. -/

namespace Sys2Proof.Machine

/-- Every step from a state that satisfies `P` leads to one that does. -/
def KeptByStep (P : State → Prop) : Prop := ∀ s t : State, P s → step s = .next t → P t

/-- The law of the event queue (R155): at most 32 records, at most one of them OVERFLOW, and ordinary records plus
reservations at most 31. -/
def EventLaw (s : State) : Prop :=
  s.events.list.length ≤ 32 ∧ (s.events.list.filter fun r => r.kind = .overflow).length ≤ 1 ∧
    s.events.ordinaryCount + s.events.reservations ≤ Config.ordinaryPlaces

/-- The records in the list carry consecutive seq values from head to tail, the next seq following the last (R156). -/
def SeqLaw (s : State) : Prop :=
  ∀ i r, s.events.list[i]? = some r → r.seq + BitVec.ofNat 8 (s.events.list.length - i) = s.events.nextSeq

/-- No record's route is SUPPRESS (R153), and neither ATTENTION nor OVERFLOW is routed SUPPRESS (R165). -/
def RouteLaw (s : State) : Prop :=
  (∀ r ∈ s.events.list, r.route ≠ .suppress) ∧ s.events.routeOf .attention ≠ .suppress ∧
    s.events.routeOf .overflow ≠ .suppress

/-- The host request queue never holds more than 16 entries (R77), the management queue never more than eight (R26). -/
def QueueLaw (s : State) : Prop :=
  s.hostQueue.length ≤ Config.hostQueueCapacity ∧ s.mgmtQueue.length ≤ Config.mgmtQueueCapacity

/-- The law of the window table (R63): every enabled window has base ≤ limit, a target in 1 to 14, a remote range that fits,
and a remote base aligned to its width. -/
def WindowLaw (s : State) : Prop :=
  ∀ n : Fin 8, (vget s.windows n).enabled = true →
    (vget s.windows n).base ≤ (vget s.windows n).limit ∧
    1 ≤ (vget s.windows n).target.toNat ∧ (vget s.windows n).target.toNat ≤ 14 ∧
    (vget s.windows n).remoteBase.toNat + ((vget s.windows n).limit - (vget s.windows n).base) ≤ 0xFFFF ∧
    (vget s.windows n).width.bytes ∣ (vget s.windows n).remoteBase.toNat

/-- The law of the binding table (R49): no two bindings have the same unique ID; that no two name the same address follows
from the table's indexing. -/
def BindingLaw (s : State) : Prop :=
  ∀ a b : ModAddr, ∀ x y : Binding, vget s.bindings a = some x → vget s.bindings b = some y → x.id = y.id → a = b

/-- The law of the module table (R25): no two non-EMPTY entries have the same unique ID. -/
def ModuleLaw (s : State) : Prop :=
  ∀ a b : ModAddr, ∀ id : UniqueId, (s.entry a).state ≠ .empty → (s.entry b).state ≠ .empty →
    (s.entry a).uniqueId = some id → (s.entry b).uniqueId = some id → a = b

/-- The law of the read cache (R112): every valid line names an ONLINE entry at the line's generation, and no two valid lines
cover an overlapping byte of the same module. -/
def CacheLaw (s : State) : Prop :=
  (∀ i l, vget s.cache.lines i = some l → (s.entry l.addr).state = .online ∧ (s.entry l.addr).generation = l.gen) ∧
    ∀ i j l m, vget s.cache.lines i = some l → vget s.cache.lines j = some m → i ≠ j → l.addr = m.addr →
      bytesOverlap l.offset l.width m.offset m.width = false

/-- The selections name addresses 1 to 14 (R49, R204). -/
def SelectLaw (s : State) : Prop := (modAddr? s.port.bindSel).isSome = true ∧ (modAddr? s.port.modSel).isSome = true

/-- The values that the timing-parameter table gives a parameter, in the units of section 10.3: the lowest, the highest and the step of
each, and for LINK_RATE three values alone (00_scope, R203). -/
def InTimingTable (p : Param) (v : Nat) : Prop :=
  p = .linkRate ∧ (v = 250 ∨ v = 500 ∨ v = 1000) ∨
  ∃ low high step : Nat, (p, low, high, step) ∈ [(Param.respTimeout, 20, 2000, 10), (.retryLimit, 0, 7, 1), (.busyLimit, 0, 15, 1),
      (.busyHoldoff, 50, 5000, 50), (.pollInterval, 1, 255, 1), (.discoveryInterval, 1, 255, 1), (.quarThreshold, 1, 15, 1),
      (.departThreshold, 1, 15, 1), (.quarPollInterval, 10, 2550, 10), (.hostHold, 0, 255, 1), (.discardTime, 1, 255, 1),
      (.settleTime, 0, 255, 1)] ∧
    low ≤ v ∧ v ≤ high ∧ step ∣ v

/-- Every timing parameter is in its range and on its step (R203). -/
def TimingLaw (s : State) : Prop := ∀ p : Param, InTimingTable p (s.timing.value p)

/-- The mailbox has at most one entry in the host request queue, and only while it is QUEUED; a request of the mailbox on the
link means that it is ACTIVE; in both, MBX_OP names a link command (R122, R125, R126). -/
def MailboxLaw (s : State) : Prop :=
  (s.hostQueue.filter fun e => e.origin = .mailbox).length ≤ 1 ∧
  (∀ e ∈ s.hostQueue, e.origin = .mailbox → s.mbx.state = .queued ∧ s.mbx.op.toNat ≤ 2) ∧
  ∀ r e, s.engine.link.request? = some r → r.source = .host e false → e.origin = .mailbox →
    s.mbx.state = .active ∧ s.mbx.op.toNat ≤ 2

/-- A write held for a place in the host request queue is a window write (R82). -/
def HeldWriteLaw (s : State) : Prop := ∀ h e, s.port.held = some h → h.what = .writePlace e → e.origin = .windowWrite

/-- Between events the head of the host request queue, if there is one, has passed its checks (R86, R87), unless an earlier
entry is still on the link: the queue's first entry is checked when that one has completed (R85). A request whose outcome will be
DISCARDED is no earlier entry (log entry 30). -/
def HeadLaw (s : State) : Prop := s.hostOnLink = false → ∀ e rest, s.hostQueue = e :: rest → headCheck e s = none

/-- Between events, while the management queue has a free place, no work of section 2.2 is due (R27): discovery has no waiting
item, no PING or RELEASE is due, no entry is in CLEAR_DUE without its ATTN_CLEAR in the queue or on the link (R148), and none is
in FETCH_DUE whose fetch is permitted (R143). -/
def DueLaw (s : State) : Prop :=
  s.mgmtRoom = true → s.disc.waiting = none ∧ ∀ a, (s.entry a).pingDue = false ∧ (s.entry a).releaseDue = false ∧
    ((s.entry a).attention = .clearDue → s.mgmtHas (MgmtEntry.isClearFor a (s.entry a).generation) = true) ∧
    ((s.entry a).attention = .fetchDue → s.fetchPermitted a = false)

/-- The link sleeps only when drained of everything but what may come in its sleep: no request is on the link (R190, R192). -/
def SleepLaw (s : State) : Prop :=
  s.power.state = .asleep ∨ s.power.state = .waking → s.engine.link = .free

/-- The blocks hold their cold values while a cold reset is in force (R197). -/
def HoldLaw (s : State) : Prop :=
  s.pins.hold = true → s = { pending := s.pending, now := s.now, pins := s.pins }

/-- A sleeping link with ATTN asserted and the sweep armed does not stay asleep (R194). -/
def WakeLaw (s : State) : Prop := ¬(s.power.state = .asleep ∧ s.attn.level = true ∧ s.attn.armed = true)

/-- A draining link whose drain conditions all hold does not stay DRAINING (R190). -/
def DrainLaw (s : State) : Prop := ¬(s.power.state = .draining ∧ s.drained = true)

/-- Discovery is DISABLED while it is suspended, but for a query on the link and a join in progress, which are carried to
their end; while it is not suspended it is not DISABLED (R29). It is suspended while the broadcast is being sent too (log
entry 7). -/
def DiscLaw (s : State) : Prop :=
  (s.suspended = true →
    s.disc.state = .disabled ∨ s.disc.state = .joining ∨ s.disc.state = .querying ∧ s.mgmtOnLink = some .joinQuery) ∧
  (s.suspended = false → s.disc.state ≠ .disabled)

/-- Between events nothing is left that would complete a head, wake the link, end a drain or move discovery (R29, R85 to R87,
R190, R194). -/
structure QuietLaw (s : State) : Prop where
  head  : HeadLaw s
  wake  : WakeLaw s
  drain : DrainLaw s
  disc  : DiscLaw s

/-- An EMPTY entry holds the EMPTY column of section 2.1: its generation, its seq and, where a late response has come, the
time of that response (R24, R45; log entry 18). -/
def EmptyLaw (s : State) : Prop :=
  ∀ a, (s.entry a).state = .empty →
    s.entry a = { generation := (s.entry a).generation, seq := (s.entry a).seq, lastResponse := (s.entry a).lastResponse }

/-- A fetch record stands exactly for the entries in FETCHING, and the event unit's reservations are those that reserved
fetches hold (section 8.1, R143, R158). -/
def AttnLaw (s : State) : Prop :=
  (∀ a, (s.fetchRec a).isSome = true ↔ (s.entry a).attention = .fetching) ∧
    (allAddrs.filter fun a => (s.fetchRec a).any fun f => f.reserved).length = s.events.reservations

/-! ### The words of the statements -/

/-- The JOIN_QUERY of a query that has just fallen due: waiting, or in the management queue (R27, R30). -/
def QueryUnderWay (s : State) : Prop := s.disc.waiting = some .joinQuery ∨ .joinQuery ∈ s.mgmtQueue

/-- The set a sweep starts with: the ONLINE entries with attention_state NONE (R140). -/
def sweepSet (s : State) : List ModAddr :=
  allAddrs.filter fun a => (s.entry a).state = .online ∧ (s.entry a).attention = .none

/-- The place of a request in the order in which the due work of the entries is added (R27): in ascending address order, and
within one entry RELEASE, ATTN_CLEAR, ATTN_FETCH, PING. -/
def MgmtEntry.dueRank : MgmtEntry → Nat
  | .joinQuery => 0
  | .assign _ _ _ => 0
  | .descRead _ _ _ => 0
  | .release a _ => 4 * a.val + 1
  | .attnClear a _ _ => 4 * a.val + 2
  | .attnFetch a _ => 4 * a.val + 3
  | .ping a _ => 4 * a.val + 4

/-- Is a management request an ATTN_FETCH? -/
def MgmtEntry.isFetch : MgmtEntry → Bool
  | .attnFetch _ _ => true
  | .joinQuery => false
  | .assign _ _ _ => false
  | .descRead _ _ _ => false
  | .ping _ _ => false
  | .attnClear _ _ _ => false
  | .release _ _ => false

/-- Is a PING due for the entry at `a` in the event that leads from `s` to `t`? It was due already, or a sweep has just started with
the entry in its set and no PING for it stood in the queue or was on the link (R27, R140). -/
def pingFallsDue (s t : State) (a : ModAddr) : Bool :=
  (s.entry a).pingDue || (s.attn.armed && !t.attn.armed && decide (a ∈ sweepSet s) &&
    !s.mgmtHas fun m => m = .ping a (s.entry a).generation)

/-- Why a request of the entries' due work is added in the event that leads from `s` to `t`, with `q` the management queue that it
finds (R27): release due is set; the entry is in CLEAR_DUE with no ATTN_CLEAR for it in the queue or on the link; it is in FETCH_DUE
and its fetch is permitted; a PING is due. Each names the entry's generation. -/
def DueFor (q : List MgmtEntry) (s t : State) : MgmtEntry → Prop
  | .release a g => g = (s.entry a).generation ∧ (s.entry a).releaseDue = true
  | .attnClear a g w => g = (s.entry a).generation ∧ (s.entry a).attention = .clearDue ∧
      w = (s.entry a).clearBits.getD 0 ∧ ({ s with mgmtQueue := q } : State).mgmtHas (MgmtEntry.isClearFor a g) = false
  | .attnFetch a g => g = (s.entry a).generation ∧ (s.entry a).attention = .fetchDue ∧
      ({ s with mgmtQueue := q } : State).fetchPermitted a = true
  | .ping a g => g = (s.entry a).generation ∧ pingFallsDue s t a = true
  | .joinQuery => False
  | .assign _ _ _ => False
  | .descRead _ _ _ => False

/-- The requests of the due work `added` that R27's order puts before `m`. -/
def addedBefore (added : List MgmtEntry) (m : MgmtEntry) : List MgmtEntry := added.filter fun n => n.dueRank < m.dueRank

/-- A request `m` of the due work finds its place behind the requests of `added` that R27 puts before it: one in the management
queue, which was `q` (R26), and for a fetch in HELD mode one in the event queue besides the reservations that the fetches before it
take (R143, R158). -/
def FindsPlace (q : List MgmtEntry) (s : State) (added : List MgmtEntry) (m : MgmtEntry) : Prop :=
  q.length + (addedBefore added m).length < Config.mgmtQueueCapacity ∧
  (m.isFetch = true → s.attn.mode = .held → s.events.ordinaryCount + s.events.reservations +
    ((addedBefore added m).filter MgmtEntry.isFetch).length < Config.ordinaryPlaces)

/-- The due work of the entries added to the management queue `q` in the event that leads from `s` to `t`, and what adding it does
(R27, R143, R158): exactly the requests that are due and find their place, in the order of R27; a RELEASE and a PING clear their
marks, and an ATTN_FETCH makes its entry FETCHING with a fetch record, which in HELD mode takes one reservation. -/
structure WorkAdded (q : List MgmtEntry) (s t : State) (added : List MgmtEntry) : Prop where
  chosen : ∀ m, m ∈ added ↔ DueFor q s t m ∧ FindsPlace q s added m
  order  : added.Pairwise fun m n => m.dueRank < n.dueRank
  entry  : ∀ a, t.entry a = { s.entry a with
             attention := if .attnFetch a (s.entry a).generation ∈ added then .fetching else (s.entry a).attention
             pingDue := pingFallsDue s t a && !decide (.ping a (s.entry a).generation ∈ added)
             releaseDue := (s.entry a).releaseDue && !decide (.release a (s.entry a).generation ∈ added) }
  fetch  : ∀ a, t.fetchRec a = if .attnFetch a (s.entry a).generation ∈ added then
             some ⟨(s.entry a).generation, s.attn.mode = .held⟩ else s.fetchRec a
  events : t.events = { s.events with reservations := s.events.reservations +
             if s.attn.mode = .held then (added.filter MgmtEntry.isFetch).length else 0 }

/-- Discovery is carried on although it is suspended: a join is in progress, or the query is on the link (R29). -/
def DiscCarried (s : State) : Prop := s.disc.state = .joining ∨ s.disc.state = .querying ∧ s.mgmtOnLink = some .joinQuery

/-- How discovery follows its suspension in the event that leads from `s` to `t`, before its waiting item is added: `d` is
discovery and `kept` what is left of the management queue (R29, R30, R191). Discovery stays as it is where it is carried on or in
step with its suspension; else it drops a JOIN_QUERY not yet granted and is DISABLED while suspended, or has a query due at once where
the suspension has ended. -/
def DiscMoves (s t : State) (d : Discovery) (kept : List MgmtEntry) : Prop :=
  (DiscCarried s ∨ s.suspended = true ∧ t.suspended = true ∧ s.disc.state = .disabled ∨
      s.suspended = false ∧ t.suspended = false ∧ s.disc.state ≠ .disabled) ∧ d = s.disc ∧ kept = s.mgmtQueue ∨
  ¬DiscCarried s ∧
    kept = (if s.disc.state = .querying then s.mgmtQueue.filter (· ≠ .joinQuery) else s.mgmtQueue) ∧
    (s.suspended = true ∧ t.suspended = true ∧ s.disc.state ≠ .disabled ∧
        d = { s.disc with state := .disabled, waiting := none, queryTimer := none } ∨
      (s.suspended = true ∨ s.disc.state = .disabled) ∧ t.suspended = false ∧
        d = { s.disc with state := .querying, waiting := some .joinQuery, queryTimer := none })

/-- A sweep starts in the event that leads from `s` to `t`: the flag is armed, ATTN ASSERTED, no sweep in progress, and the power
state, as the event leaves it, ACTIVE (R140). -/
def SweepStarts (s t : State) : Prop :=
  s.attn.armed = true ∧ s.attn.level = true ∧ s.attn.sweep = none ∧ t.power.state = .active

/-- The drain is given up: the link is DRAINING while a DISCOVER_NOW waits for discovery, which is DISABLED, or will be as its query
is dropped, to leave DISABLED (R191; log entry 23). -/
def DrainGivenUp (s : State) : Prop :=
  s.power.state = .draining ∧ s.mbx.runs opDiscoverNow = true ∧ ¬DiscCarried s

/-- `t` differs from `s` by nothing but follow-up work: discovery follows its suspension (R29); a drain is given up exactly where a
DISCOVER_NOW waits for discovery (R191; log entry 23); a sweep starts, and clears the armed flag, exactly where the four conditions
hold (R140); and due work joins the management queue while it has a free place, discovery's waiting item first and then the entries'
(R27). No work that is due is left while a place is free. These clauses leave `t` no choice (`WorkFollows.unique`). -/
structure WorkFollows (s t : State) : Prop where
  rest  : t = { s with modules := t.modules, mgmtQueue := t.mgmtQueue, disc := t.disc, attn := t.attn,
                       events := t.events, power := t.power }
  attn  : t.attn = { s.attn with armed := t.attn.armed, sweep := t.attn.sweep, fetches := t.attn.fetches }
  sweep : ¬SweepStarts s t ∧ t.attn.armed = s.attn.armed ∧ t.attn.sweep = s.attn.sweep ∨
          SweepStarts s t ∧ t.attn.armed = false ∧ t.attn.sweep = if sweepSet s = [] then none else some (sweepSet s)
  power : ¬DrainGivenUp s ∧ t.power = s.power ∨
          DrainGivenUp s ∧ t.power = { s.power with state := .active, sleepReq := false }
  work  : ∃ d kept item added, DiscMoves s t d kept ∧
            item = (if kept.length < Config.mgmtQueueCapacity then d.waiting else none) ∧
            t.disc = { d with waiting := if item = none then d.waiting else none } ∧
            t.mgmtQueue = kept ++ item.toList ++ added ∧ WorkAdded (kept ++ item.toList) s t added
  disc  : DiscLaw t
  due   : DueLaw t

/-- `t` is `s`, in which the event's work is done, as the event closes: a draining link that is drained is ASLEEP (R190; log entry 5);
then, where a link is ASLEEP with ATTN ASSERTED and the sweep armed, the wake by attention and the follow-up work of the wake (R194,
R195). -/
def ClosesAs (s t : State) : Prop :=
  ∃ v, v = (if s.power.state = .draining ∧ s.drained = true then { s with power := { s.power with state := .asleep } } else s) ∧
    if v.power.state = .asleep ∧ v.attn.level = true ∧ v.attn.armed = true then WorkFollows (wakeLink .attention v) t
    else t = v

/-- `t` is `s` with what follows in the same event where no head fails: follow-up work, then the event's close. The records of the
event's own blocks stand in `s`, so that a HELD fetch takes its reservation behind them (log entry 4, the model's choice). No choice is
left (`FollowUp.unique`). -/
def FollowUp (s t : State) : Prop := ∃ u, WorkFollows s u ∧ ClosesAs u t

/-- `t` is `s` with what follows in the same event where the one entry of the host request queue, `e`, fails its checks at once: follow-up
work; then the queue empty, the mailbox `m` and the record `p` of the failure; then the event's close (R86). The record so comes behind
the reservations of the follow-up work (log entry 4, the model's choice). -/
def HeadFailsAlone (e : HostEntry) (m : Mailbox) (p : Posted) (s t : State) : Prop :=
  ∃ u, WorkFollows { s with hostQueue := [e] } u ∧
    ClosesAs { u with hostQueue := [], mbx := m, events := u.events.post p } t

/-- `t` is `s` with what follows in the same event where heads may fail: follow-up work; then the heads that fail, completed in their
order (`HeadsChecked`); then the event's close. -/
def FollowUpOfHeads (s t : State) : Prop := ∃ u, WorkFollows s u ∧ ClosesAs (headChecks u) t

/-- A host access in window space. -/
def windowAccess (dir : Dir) (addr : BitVec 17) (lanes : BitVec 4) (data : Word) : Instr :=
  match dir with
  | .read => .windowRead addr lanes
  | .write => .windowWrite addr lanes data

/-- The access address of a window access whose first lane is `lane`, and its window-space offset (R65, R60). -/
def accessAddr (addr : BitVec 17) (lane : Nat) : BitVec 17 := wordAddress addr + BitVec.ofNat 17 lane

/-- The window-space offset of an access address (R60). -/
def winOffset (access : BitVec 17) : Nat := (access.setWidth 16).toNat

/-- The enabled window `n` contains an offset, and no lower-numbered enabled window does (R66). -/
def Selected (s : State) (o : Nat) (n : Fin 8) : Prop :=
  (vget s.windows n).enabled = true ∧ (vget s.windows n).base ≤ o ∧ o ≤ (vget s.windows n).limit ∧
    ∀ m < n, (vget s.windows m).enabled = true → ¬((vget s.windows m).base ≤ o ∧ o ≤ (vget s.windows m).limit)

/-- The remote offset that a window gives an offset it contains (R71). -/
def remoteOffset (w : Window) (o : Nat) : Half := w.remoteBase + BitVec.ofNat 16 (o - w.base)

/-- A window access with a lane group, selected by window `n`, that passes the window's four tests for the module at `a`
(R65 to R70). -/
structure Passes (s : State) (dir : Dir) (addr : BitVec 17) (lanes : BitVec 4) (n : Fin 8) (a : ModAddr) (lane : Nat)
    (w : Width) : Prop where
  space    : inWindowSpace addr = true
  group    : laneGroup? lanes = some (lane, w)
  selected : Selected s (winOffset (accessAddr addr lane)) n
  width    : (vget s.windows n).width = w
  writable : dir = .write → (vget s.windows n).readOnly = false
  target   : modAddr? (vget s.windows n).target = some a
  online   : (s.entry a).state = .online
  same     : (vget s.windows n).expectedClass = 0 ∨ (s.entry a).moduleClass = some (vget s.windows n).expectedClass

/-- No valid line answers a read of `w` bytes at a remote offset of the module at `a`, or the window is not cacheable
(R113). -/
def Misses (s : State) (n : Fin 8) (a : ModAddr) (offset : Half) (w : Width) : Prop :=
  (vget s.windows n).cacheable = true → ∀ i l, vget s.cache.lines i = some l →
    ¬(l.addr = a ∧ l.gen = (s.entry a).generation ∧ l.offset = offset ∧ l.width = w)

/-- A slot matches an access by host address and width (R101). -/
def Matches (x : Slot) (access : BitVec 17) (w : Width) : Prop := ∃ i, x.info? = some i ∧ i.hostAddr = access ∧ i.width = w

/-- The lanes of a register write, for the commands that are one. -/
def writeLanes : Instr → Option (BitVec 4)
  | .registerWrite _ l _ | .winFieldWrite _ _ l _ | .winEnable _ l | .winDisable _ l | .winFaultReset l | .readFaultReset l
  | .bindSelWrite l _ | .modSelWrite l _ | .timingWrite _ l _ | .routeWrite _ l _ | .evtModeWrite l _ | .evtLineEnWrite l _
  | .evtStatusClear l _ | .evtRelease l _ | .attnModeAuto l | .attnModeHeld l | .sleepRequest _ l | .sleepCancel _ l
  | .retainWrite _ l | .mbxStatusClear l _ | .mbxRead l | .mbxWrite l | .mbxDescRead l | .bind l | .unbind l | .readmit l
  | .forget l | .discoverNow l | .linkReset l | .flushCache l | .reload l | .mbxAbort l | .mbxGoNoCommand l => some l
  | _ => none

/-- The twelve rows that are a 4-byte write of MBX_GO. -/
def goCommands : List Instr :=
  [.mbxRead 0xF#4, .mbxWrite 0xF#4, .mbxDescRead 0xF#4, .bind 0xF#4, .unbind 0xF#4, .readmit 0xF#4, .forget 0xF#4, .discoverNow 0xF#4,
   .linkReset 0xF#4, .flushCache 0xF#4, .reload 0xF#4, .mbxGoNoCommand 0xF#4]

/-- An accepted GO can be taken: the host port takes an access, no command is in progress, and autoload does not run
(R123). -/
def GoTaken (s : State) : Prop := s.portFree = true ∧ s.mbx.busy = false ∧ s.autoloadRuns = false

/-- The state in which a mailbox command has just ended: MBX_RESULT and the mailbox's state, the MAILBOX_DONE record, and the
write of MBX_GO answered OK (R123, R136). -/
def mailboxEnded (s : State) (st : MbxState) (r : Result) (addr : Option ModAddr) : State :=
  { s with
    mbx := { s.mbx with state := st, result := r }
    events := s.events.post ⟨.mailboxDone, addr, resultCode r, s.mbx.op.setWidth 32, 0, 0⟩
    port := { s.port with answer := some ⟨.ok, none⟩ } }

/-- The entry at `a` when its PING is called for: ping due is set, unless a PING for it already stands in the management queue or is on
the link (R27). -/
def pingCalled (s : State) (a : ModAddr) : Entry :=
  { s.entry a with pingDue := (s.entry a).pingDue || !s.mgmtHas fun m => m = .ping a (s.entry a).generation }

/-- The entry at `a` as a poll interval of `ms` milliseconds that rules its timer takes effect: a timer that runs and is past the interval
stops, and calls for a PING (R39). -/
def pollTaken (ms : Nat) (s : State) (a : ModAddr) : Entry :=
  if (s.power.state = .active ∨ s.power.state = .draining) ∧ (s.entry a).pollTimer.any (fun n => ms * 1000 ≤ n) = true then
    { pingCalled s a with pollTimer := none }
  else s.entry a

/-- The slots as a DISCARD_TIME of `ms` milliseconds takes effect: each COMPLETE slot whose timer is past it is FREE (R107). -/
def discardsTaken (ms : Nat) (s : State) (i : Fin 4) : Slot :=
  match vget s.slots i with
  | .free => .free
  | .pending x => .pending x
  | .complete x o d m => if ms * 1000 ≤ m then .free else .complete x o d m

/-- The event unit `u` with the DELAYED_DISCARD records of those slots, with reason TIMEOUT, in ascending slot order (R107; log entry
4 for the order). -/
def discardRecords (ms : Nat) (s : State) (u : EventUnit) : EventUnit :=
  allSlots.foldl (fun u i => match vget s.slots i with
    | .complete x _ _ m =>
      if ms * 1000 ≤ m then
        u.post ⟨.delayedDiscard, some x.target, 1, BitVec.ofNat 32 i.val, x.hostAddr.setWidth 32, BitVec.ofNat 32 x.width.bytes⟩
      else u
    | .free => u
    | .pending _ => u) u

/-- The ways a PING may be under way for an entry: due, in the management queue, or on the link (R27). -/
def PingUnderWay (s : State) (a : ModAddr) : Prop :=
  (s.entry a).pingDue = true ∨ .ping a (s.entry a).generation ∈ s.mgmtQueue ∨
    s.mgmtOnLink = some (.ping a (s.entry a).generation)

/-- The entry's RELEASE is under way: due, in the management queue, or on the link (R27, R44). -/
def ReleaseUnderWay (s : State) (a : ModAddr) : Prop :=
  (s.entry a).releaseDue = true ∨ .release a (s.entry a).generation ∈ s.mgmtQueue ∨
    s.mgmtOnLink = some (.release a (s.entry a).generation)

/-- `d` microseconds have passed: the clock, the host hold, the discard timers, the timers of the link, the poll timers while
they run, the query timer and the wake timer have gone on by `d`, and nothing else has changed. -/
structure OnlyTimePasses (d : Nat) (s t : State) : Prop where
  rest    : t = { s with
    now := s.now + d
    port := { s.port with held := s.port.held.map fun h => { h with elapsed := h.elapsed + d } }
    slots := t.slots
    engine := { s.engine with link := s.engine.link.later d }
    modules := t.modules
    disc := { s.disc with queryTimer := s.disc.queryTimer.map (· + d) }
    power := { s.power with wakeTimer := s.power.wakeTimer.map (· + d) } }
  slots   : ∀ i, vget t.slots i = match vget s.slots i with
    | .free => .free
    | .pending x => .pending x
    | .complete x o v n => .complete x o v (n + d)
  modules : ∀ a, t.entry a = { s.entry a with pollTimer :=
    if s.power.state = .active ∨ s.power.state = .draining then (s.entry a).pollTimer.map (· + d) else (s.entry a).pollTimer }

/-- What a write of `w` bytes at a remote offset of the module at `a` does as it joins the host request queue (R79): the
overlapped lines go (R116); each overlapped COMPLETE slot is FREE, with DELAYED_DISCARD OVERWRITTEN in ascending slot order, and
each overlapped PENDING slot has no_fill set (R108). -/
structure WriteTakesEffect (a : ModAddr) (offset : Half) (w : Width) (s t : State) : Prop where
  rest   : t = { s with cache := t.cache, slots := t.slots, events := t.events }
  lines  : ∀ i, vget t.cache.lines i =
    (vget s.cache.lines i).filter fun l => !(l.addr = a ∧ bytesOverlap l.offset l.width offset w = true)
  order  : t.cache.useOrder = s.cache.useOrder.filter fun i => (vget t.cache.lines i).isSome
  slots  : ∀ i, vget t.slots i = match vget s.slots i with
    | .free => .free
    | .pending x => if x.target = a ∧ bytesOverlap x.offset x.width offset w = true then .pending { x with noFill := true }
                    else .pending x
    | .complete x o d m => if x.target = a ∧ bytesOverlap x.offset x.width offset w = true then .free
                           else .complete x o d m
  events : t.events = allSlots.foldl (fun u i => match vget s.slots i with
    | .complete x _ _ _ =>
      if x.target = a ∧ bytesOverlap x.offset x.width offset w = true then
        u.post ⟨.delayedDiscard, some x.target, 2, BitVec.ofNat 32 i.val, x.hostAddr.setWidth 32,
                BitVec.ofNat 32 x.width.bytes⟩
      else u
    | .free => u
    | .pending _ => u) s.events

/-! ### The words about outcomes: joins, leaves, reports, attention and host requests -/

/-- The `n` bits of a word from bit `p` up, as a number. -/
def bits (w : Word) (p n : Nat) : Nat := w.toNat / 2 ^ p % 2 ^ n

/-- An address that is free and unnamed: its entry EMPTY, and no binding naming it (section 3.3). -/
def FreeUnnamed (s : State) (a : ModAddr) : Prop := (s.entry a).state = .empty ∧ vget s.bindings a = none

/-- The lowest address that is free and unnamed (section 3.3). -/
def LowestFree (s : State) (a : ModAddr) : Prop := FreeUnnamed s a ∧ ∀ b < a, ¬FreeUnnamed s b

/-- Discovery as the end of a query or join leaves it: DISABLED while it is suspended; else with a query due at once, or IDLE with
its query timer from zero (R29, R30). -/
def discoveryEnded (dueNow : Bool) (s : State) : Discovery :=
  if s.suspended = true then { s.disc with state := .disabled, waiting := none, queryTimer := none }
  else if dueNow = true then { s.disc with state := .querying, waiting := some .joinQuery, queryTimer := none }
  else { s.disc with state := .idle, waiting := none, queryTimer := some 0, queryInterval := s.timing.discoveryInterval }

/-- The state `s` with a DISCOVER_NOW in progress ended in a result other than JOINED, where there is one (R131, R136). -/
def discoverEnded (st : MbxState) (r : Result) (s : State) : State :=
  if s.mbx.state = .active ∧ s.mbx.op = 7 then
    { s with mbx := { s.mbx with state := st, result := r }
             events := s.events.post ⟨.mailboxDone, none, resultCode r, 7, 0, 0⟩ }
  else s

/-- The state in which the chain read of the module at `a` has just ended (R38): its entry ONLINE with the effect of the first
record of each acting type, the sweep armed, MODULE_JOINED posted, a query due at once, and a DISCOVER_NOW in progress ended
JOINED (R131). -/
def moduleJoined (a : ModAddr) (s : State) : State :=
  let e := s.entry a
  let first (t : Byte) : Option Capability := e.capabilities.find? fun c => c.type = t
  let u : State := { s with
    modules := vset s.modules a { e with
      state := .online
      hasAttention := (first 1).isSome
      widthLimit := match first 2 with
        | some c => if c.value = 1 then .one else if c.value = 2 then .two else .four
        | none => .four
      pacing := match first 3 with
        | some c => c.value
        | none => 0
      failureRun := 0
      pollTimer := some 0 }
    attn := { s.attn with armed := true }
    events := s.events.post ⟨.moduleJoined, some a, boundCode e.bound, (e.uniqueId.getD 0).setWidth 32,
                             ((e.uniqueId.getD 0) >>> 32).setWidth 32, e.generation.setWidth 32⟩
    disc := discoveryEnded true s }
  if s.mbx.state = .active ∧ s.mbx.op = 7 then
    { u with mbx := { s.mbx with state := .done, result := .joined, data := BitVec.ofNat 32 (a.val + 1)
                                 xdata := e.generation.setWidth 32 }
             events := u.events.post ⟨.mailboxDone, some a, 25, 7, e.generation.setWidth 32, 0⟩ }
  else u

/-- The state in which the chain of the module at `a` has just been cut: truncated set, DESCRIPTOR_TRUNCATED posted, and the join
gone on (R36). -/
def chainCut (a : ModAddr) (s : State) : State :=
  moduleJoined a { s with
    modules := vset s.modules a { s.entry a with truncated := true }
    events := s.events.post ⟨.descriptorTruncated, some a, 0, (s.entry a).generation.setWidth 32, 0, 0⟩ }

/-- The state in which a pointer of the chain has just been tested (R35, R36): 0 ends the chain; 1, 2, a word already read, and
any pointer past eight records cut it; another word is read next. -/
def pointerTaken (a : ModAddr) (ptr : Byte) (s : State) : State :=
  let l := (s.entry a).capabilities
  if ptr = 0 then moduleJoined a s
  else if ptr = 1 ∨ ptr = 2 ∨ (∃ c ∈ l, c.word = ptr) ∨ 8 ≤ l.length then chainCut a s
  else { s with disc := { s.disc with waiting := some (.descRead a (s.entry a).generation ptr) } }

/-- The state in which the entry at `a` has just left, its cause's record `p` posted and a FORGET waiting on it ended with the
result `r` (R45, R58, R130, R141, R151). -/
def entryLeft (a : ModAddr) (p : Posted) (r : Result) (s : State) : State :=
  let e := s.entry a
  let u : State := { s with
    modules := vset s.modules a { generation := e.generation, seq := e.seq }
    mgmtQueue := s.mgmtQueue.filter fun m => !m.isFor a
    cache := { lines := vmap (fun l => l.filter fun l => l.addr ≠ a) s.cache.lines
               useOrder := s.cache.useOrder.filter fun i => (vget s.cache.lines i).any fun l => l.addr ≠ a }
    disc := if s.disc.state = .parkedFull ∨ s.disc.state = .parkedConflict then discoveryEnded true s
            else { s.disc with waiting := s.disc.waiting.filter fun m => !m.isFor a }
    attn := { s.attn with
      armed := if e.attention = .held ∨ e.attention = .clearDue then true else s.attn.armed
      sweep := s.attn.sweep.bind fun l => if l.filter (· ≠ a) = [] then none else some (l.filter (· ≠ a))
      fetches := if e.attention = .fetching then vset s.attn.fetches a none else s.attn.fetches }
    events := (if e.attention = .fetching ∧ (s.fetchRec a).any (·.reserved) = true then s.events.release
               else if e.attention = .held then
                 { s.events with list := s.events.list.map fun r =>
                     if r.kind = .attention ∧ r.address = some a ∧ r.held = true then { r with held := false } else r }
               else s.events).post p }
  if s.mbx.state = .active ∧ s.mbx.op = 6 ∧ modAddr? s.mbx.target = some a then
    { u with mbx := { s.mbx with state := .done, result := r }
             events := u.events.post ⟨.mailboxDone, some a, resultCode r, 6, 0, 0⟩ }
  else u

/-- The MODULE_LEFT of the entry at `a` with a reason (R45, R154). -/
def moduleLeft (s : State) (a : ModAddr) (reason : Byte) : Posted :=
  ⟨.moduleLeft, some a, reason, ((s.entry a).uniqueId.getD 0).setWidth 32, (((s.entry a).uniqueId.getD 0) >>> 32).setWidth 32,
   (s.entry a).generation.setWidth 32⟩

/-- JOIN_COLLISION (R31, R34, R37, R154). -/
def joinCollision : Posted := ⟨.joinCollision, none, 0, 0, 0, 0⟩

/-- What each outcome of a JOIN_QUERY does (R29, R31 to R33). -/
structure QueryEnds (s : State) (garbled : Bool) (data : List Byte) : Prop where
  quiet      : mgmtOutcome .joinQuery .noResponse false data s =
                 discoverEnded .done .noneWaiting { s with disc := discoveryEnded false s }
  collision  : ∀ o, o = .noResponse ∧ garbled = true ∨ o = .refused ∨ o = .noRegister ∨ o = .busyExhausted →
                 mgmtOutcome .joinQuery o garbled data s = discoverEnded .failed .collision
                   { s with disc := discoveryEnded false s, events := s.events.post joinCollision }
  dropped    : s.engine.resetPending = true → mgmtOutcome .joinQuery .ok garbled data s =
                 { s with disc := { s.disc with state := .disabled, waiting := none, queryTimer := none } }
  newModule  : s.engine.resetPending = false →
                 (∀ a, (s.entry a).state ≠ .empty → (s.entry a).uniqueId ≠ some (BitVec.ofNat 64 (leNat data))) →
                 mgmtOutcome .joinQuery .ok garbled data s =
                   carryOutChoice (BitVec.ofNat 64 (leNat data)) (choose (BitVec.ofNat 64 (leNat data)) none s) s
  reappeared : ∀ a u, s.engine.resetPending = false → ModuleLaw s → (s.entry a).state ≠ .empty →
                 (s.entry a).uniqueId = some (BitVec.ofNat 64 (leNat data)) → u = leave a .reappeared s →
                 mgmtOutcome .joinQuery .ok garbled data s =
                   carryOutChoice (BitVec.ofNat 64 (leNat data)) (choose (BitVec.ofNat 64 (leNat data)) (some a) u) u

/-- The address choice for an ID, with a returning address or none (R54, R55). -/
structure AddressChoice (s : State) (id : UniqueId) (returning : Option ModAddr) : Prop where
  bound     : ∀ a b, vget s.bindings a = some b → b.id = id → (s.entry a).state = .empty →
                choose id returning s = .address a .bound
  conflict  : ∀ a b, vget s.bindings a = some b → b.id = id → (s.entry a).state ≠ .empty → b.mode = .strict →
                choose id returning s = .conflict a
  fallback  : ∀ a b c, vget s.bindings a = some b → b.id = id → (s.entry a).state ≠ .empty → b.mode = .preferred →
                LowestFree s c → choose id returning s = .address c .fallback
  noneLeft  : ∀ a b, vget s.bindings a = some b → b.id = id → (s.entry a).state ≠ .empty → b.mode = .preferred →
                (∀ c, ¬FreeUnnamed s c) → choose id returning s = .full
  returned  : ∀ a, (∀ c b, vget s.bindings c = some b → b.id ≠ id) → returning = some a → FreeUnnamed s a →
                choose id returning s = .address a .unbound
  lowest    : ∀ c, (∀ c b, vget s.bindings c = some b → b.id ≠ id) → (∀ a, returning = some a → ¬FreeUnnamed s a) →
                LowestFree s c → choose id returning s = .address c .unbound
  full      : (∀ c b, vget s.bindings c = some b → b.id ≠ id) → (∀ c, ¬FreeUnnamed s c) → choose id returning s = .full

/-- What becomes of a choice: a join at the address given, under the next generation and with the ASSIGN as the waiting item, or
parked discovery (R25, R33, R56, R57). -/
structure ChoiceCarriedOut (s : State) (id : UniqueId) : Prop where
  address  : ∀ a how, carryOutChoice id (.address a how) s = { s with
               modules := vset s.modules a { state := .joining, generation := (s.entry a).generation + 1
                                             seq := (s.entry a).seq, uniqueId := some id, bound := how }
               disc := { s.disc with state := .joining, queryTimer := none
                                     waiting := some (.assign a ((s.entry a).generation + 1) (id.setWidth 16)) } }
  conflict : ∀ a, carryOutChoice id (.conflict a) s = discoverEnded .failed .bindingConflict { s with
               disc := { s.disc with state := .parkedConflict, waiting := none, queryTimer := none }
               events := s.events.post ⟨.bindingConflict, some a, 0, id.setWidth 32, (id >>> 32).setWidth 32, 0⟩ }
  full     : carryOutChoice id .full s = discoverEnded .failed .tableFull { s with
               disc := { s.disc with state := .parkedFull, waiting := none, queryTimer := none }
               events := s.events.post ⟨.tableFull, none, 0, 0, 0, 0⟩ }

/-- What the end of an ASSIGN and of a DESC_READ does for the entry at `a` that the request was made for (R34 to R37). -/
structure JoinGoesOn (s : State) (a : ModAddr) (garbled : Bool) (data : List Byte) : Prop where
  assigned  : ∀ guard, (s.entry a).state = .joining →
                mgmtOutcome (.assign a (s.entry a).generation guard) .ok garbled data s =
                  { s with modules := vset s.modules a { s.entry a with state := .describing }
                           disc := { s.disc with waiting := some (.descRead a (s.entry a).generation 0) } }
  unassigned : ∀ guard o, (s.entry a).state = .joining → o ≠ .ok →
                mgmtOutcome (.assign a (s.entry a).generation guard) o garbled data s =
                  { s with modules := vset s.modules a { s.entry a with releaseDue := true
                                                                        releaseFor := some .assignFailed } }
  sameId    : ∀ word : Byte, ∀ half : Word, (s.entry a).state = .describing →
                word = 0 ∧ half = ((s.entry a).uniqueId.getD 0).setWidth 32 ∨
                word = 1 ∧ half = (((s.entry a).uniqueId.getD 0) >>> 32).setWidth 32 →
                mgmtOutcome (.descRead a (s.entry a).generation word) .ok garbled data s =
                  if BitVec.ofNat 32 (leNat data) = half then
                    { s with disc := { s.disc with waiting := some (.descRead a (s.entry a).generation (word + 1)) } }
                  else { s with modules := vset s.modules a { s.entry a with releaseDue := true
                                                                             releaseFor := some .idMismatch } }
  header    : ∀ w : Word, (s.entry a).state = .describing → w = BitVec.ofNat 32 (leNat data) →
                mgmtOutcome (.descRead a (s.entry a).generation 2) .ok garbled data s =
                  pointerTaken a (w.extractLsb' 24 8) { s with modules := vset s.modules a { s.entry a with
                    moduleClass := some (w.extractLsb' 0 16), revision := some (w.extractLsb' 16 8) } }
  badRecord : ∀ (word : Byte) (w : Word), (s.entry a).state = .describing → 2 < word.toNat →
                w = BitVec.ofNat 32 (leNat data) → bits w 8 8 = 0 ∨ 15 < bits w 8 8 →
                mgmtOutcome (.descRead a (s.entry a).generation word) .ok garbled data s = chainCut a s
  record    : ∀ (word : Byte) (w : Word), (s.entry a).state = .describing → 2 < word.toNat →
                w = BitVec.ofNat 32 (leNat data) → 1 ≤ bits w 8 8 → bits w 8 8 ≤ 15 →
                mgmtOutcome (.descRead a (s.entry a).generation word) .ok garbled data s =
                  pointerTaken a (w.extractLsb' 16 8) { s with modules := vset s.modules a { s.entry a with
                    capabilities := (s.entry a).capabilities ++ [⟨w.extractLsb' 0 8, word, w.extractLsb' 8 8,
                                                                  w.extractLsb' 24 8⟩] } }
  noWord    : ∀ word : Byte, (s.entry a).state = .describing → 2 < word.toNat →
                mgmtOutcome (.descRead a (s.entry a).generation word) .noRegister garbled data s = chainCut a s
  failed    : ∀ (word : Byte) o, (s.entry a).state = .describing → o ≠ .ok → word.toNat ≤ 2 ∨ o ≠ .noRegister →
                mgmtOutcome (.descRead a (s.entry a).generation word) o garbled data s =
                  { s with modules := vset s.modules a { s.entry a with releaseDue := true
                                                                        releaseFor := some .describeFailed } }

/-- What the end of a RELEASE does for the entry at `a` that it was sent for, by what it was sent for (R34, R37, R44, R130), and
what a leave of each cause posts (R32, R42, R45, R46). -/
structure ReleaseEnds (s : State) (a : ModAddr) (o : LinkOutcome) (garbled : Bool) (data : List Byte) : Prop where
  forget         : (s.entry a).state ≠ .empty → (s.entry a).releaseFor = some .forget →
                     mgmtOutcome (.release a (s.entry a).generation) o garbled data s =
                       entryLeft a (moduleLeft s a 3) (.outcome o) s
  assignFailed   : ∀ u, (s.entry a).state ≠ .empty → (s.entry a).releaseFor = some .assignFailed →
                     u = entryLeft a joinCollision .overtaken s →
                     mgmtOutcome (.release a (s.entry a).generation) o garbled data s =
                       discoverEnded .failed .collision { u with disc := discoveryEnded false u }
  idMismatch     : ∀ u, (s.entry a).state ≠ .empty → (s.entry a).releaseFor = some .idMismatch →
                     u = entryLeft a joinCollision .overtaken s →
                     mgmtOutcome (.release a (s.entry a).generation) o garbled data s =
                       discoverEnded .failed .collision { u with disc := discoveryEnded false u }
  describeFailed : ∀ u, (s.entry a).state ≠ .empty → (s.entry a).releaseFor = some .describeFailed →
                     u = entryLeft a (moduleLeft s a 5) .overtaken s →
                     mgmtOutcome (.release a (s.entry a).generation) o garbled data s =
                       discoverEnded .failed .describeFailed { u with disc := discoveryEnded false u }
  silent         : leave a .silent s = entryLeft a (moduleLeft s a 1) .overtaken s
  reappeared     : leave a .reappeared s = entryLeft a (moduleLeft s a 2) .overtaken s
  linkReset      : leave a .linkReset s = entryLeft a (moduleLeft s a 4) .overtaken s

/-- What a failure-run report for the entry at `a` does (R20, R28, R39 to R42), for a request made for it that is no RELEASE of a
FORGET. -/
structure ReportTaken (s : State) (a : ModAddr) (src : Source) : Prop where
  answered : ∀ o, o ≠ .noResponse → (s.entry a).state = .online →
    failureReport src o s = { s with modules := vset s.modules a { s.entry a with failureRun := 0, pollTimer := some 0 } }
  silent : (s.entry a).state = .online → (s.entry a).failureRun + 1 < s.timing.quarThreshold →
    failureReport src .noResponse s = { s with
      modules := vset s.modules a { s.entry a with failureRun := (s.entry a).failureRun + 1, pollTimer := some 0 } }
  quarantined : (s.entry a).state = .online → s.timing.quarThreshold ≤ (s.entry a).failureRun + 1 →
    failureReport src .noResponse s = { s with
      modules := vset s.modules a { s.entry a with state := .quarantined, failureRun := s.timing.quarThreshold
                                                   departCount := 0, responding := false, pollTimer := some 0 }
      cache := { lines := vmap (fun l => l.filter fun l => l.addr ≠ a) s.cache.lines
                 useOrder := s.cache.useOrder.filter fun i => (vget s.cache.lines i).any fun l => l.addr ≠ a }
      events := s.events.post ⟨.moduleQuarantined, some a, 4, (s.entry a).generation.setWidth 32, 0, 0⟩ }
  quarAnswered : ∀ o, o ≠ .noResponse → (s.entry a).state = .quarantined →
    failureReport src o s = { s with
      modules := vset s.modules a { s.entry a with failureRun := 0, departCount := 0, responding := true, pollTimer := some 0 }
      events := if (s.entry a).responding = true then s.events
                else s.events.post ⟨.moduleResponding, some a, 0, (s.entry a).generation.setWidth 32, 0, 0⟩ }
  quarSilent : (s.entry a).state = .quarantined → (s.entry a).departCount + 1 < s.timing.departThreshold →
    failureReport src .noResponse s = { s with
      modules := vset s.modules a { s.entry a with failureRun := s.timing.quarThreshold
                                                   departCount := (s.entry a).departCount + 1, pollTimer := some 0 } }
  departed : (s.entry a).state = .quarantined → s.timing.departThreshold ≤ (s.entry a).departCount + 1 →
    failureReport src .noResponse s = entryLeft a (moduleLeft s a 1) .overtaken s
  untouched : ∀ o, (s.entry a).state = .empty ∨ (s.entry a).state = .joining ∨ (s.entry a).state = .describing →
    failureReport src o s = s

/-- What the outcome of an ATTN_FETCH does for the entry at `a`, whose fetch record is `f` (R109, R117, R144 to R146, R158): a
non-zero word is recorded, in a reserved place or as an ordinary record, and waits to be cleared or released; bit 15 also reports
CONTENTS_CHANGED; a word of 0 or a failure drops the fetch with its reservation. -/
structure FetchEnds (s : State) (a : ModAddr) (f : FetchRec) (garbled : Bool) (data : List Byte) : Prop where
  word : ∀ w : Half, ∀ u, w = BitVec.ofNat 16 (leNat data) → w ≠ 0 →
    u = { s with
      modules := vset s.modules a { s.entry a with
        attention := if f.reserved = true ∧ s.attn.mode = .held then .held else .clearDue, clearBits := some w }
      attn := { s.attn with fetches := vset s.attn.fetches a none }
      events := if f.reserved = true then
                  s.events.fill a w (s.entry a).generation (decide (f.reserved = true ∧ s.attn.mode = .held))
                else s.events.post ⟨.attention, some a, 0, w.setWidth 32, (s.entry a).generation.setWidth 32, 0⟩ } →
    mgmtOutcome (.attnFetch a (s.entry a).generation) .ok garbled data s =
      if w.getLsbD 15 = true then { u with
        cache := { lines := vmap (fun l => l.filter fun l => l.addr ≠ a) s.cache.lines
                   useOrder := s.cache.useOrder.filter fun i => (vget s.cache.lines i).any fun l => l.addr ≠ a }
        slots := vmap (noFillFor a) s.slots }
      else u
  empty : ∀ o, o ≠ .ok ∨ BitVec.ofNat 16 (leNat data) = 0 →
    mgmtOutcome (.attnFetch a (s.entry a).generation) o garbled data s = { s with
      modules := vset s.modules a { s.entry a with attention := .none }
      attn := { s.attn with fetches := vset s.attn.fetches a none }
      events := if f.reserved = true then s.events.release else s.events }

/-- The state in which a valid response has just come: it sets its source's last_response_time, and its attention flag makes a fetch
due where the module has attention and attention_state NONE (R20, R48, R142). -/
def responseNoted (p : Response) (s : State) : State :=
  { s with modules := match modAddr? p.source with
      | some a => vset s.modules a { s.entry a with
          lastResponse := some s.now
          attention := if p.attention = true ∧ (s.entry a).hasAttention = true ∧ (s.entry a).attention = .none then .fetchDue
                       else (s.entry a).attention }
      | none => s.modules }

/-- The two parts of a request's end, the outcome taken by its owner and the failure-run report, in the order given (R18,
R90). -/
def outcomeTaken (order : PostOrder) (r : Request) (o : LinkOutcome) (data : List Byte) (s : State) : State :=
  match order with
  | .ownerFirst => failureReport r.source o (ownerTakes r o data s)
  | .managerFirst => ownerTakes r o data (failureReport r.source o s)

/-- What a host entry's outcome does, by the entry's origin (R90, R91, R93, R103 to R105, R114, R126): a write that failed posts
WRITE_FAILED; a read completes its slot, or answers the access held for it, and offers its data to the cache; a mailbox command
ends. -/
structure Delivered (s : State) (e : HostEntry) (o : LinkOutcome) (data : Option Word) : Prop where
  write : e.origin = .windowWrite → deliver e o data s =
    if o = .ok then s
    else { s with events := s.events.post ⟨.writeFailed, some e.addr, outcomeCode o, e.offset.setWidth 32,
                                           BitVec.ofNat 32 e.width.bytes, e.data.getD 0⟩ }
  read : ∀ i x v u, e.origin = .windowRead → e.slot = some i → vget s.slots i = .pending x →
    v = (if o = .ok then some (data.getD 0 &&& x.width.mask) else none) →
    u = (if s.port.held.any (fun h => h.what = .slot i) = true then
           { s with slots := vset s.slots i .free
                    port := { s.port with
                      held := none
                      answer := if o = .ok then some ⟨.ok, some (toLanes (x.hostAddr.toNat % 4) x.width (v.getD 0))⟩
                                else some ⟨.error, some 0xFFFFFFFF#32⟩
                      readFault := if o = .ok then s.port.readFault
                                   else ⟨some o, x.hostAddr, BitVec.ofNat 3 x.width.bytes, BitVec.ofNat 2 i.val⟩ } }
         else { s with slots := vset s.slots i (.complete x o v 0) }) →
    deliver e o data s =
      if o = .ok ∧ e.cacheable = true ∧ x.noFill = false ∧ (s.entry e.addr).state = .online ∧
          (s.entry e.addr).generation = e.gen then
        { u with cache := s.cache.fill ⟨e.addr, e.gen, e.offset, e.width, v.getD 0⟩ }
      else u
  mailbox : ∀ v, e.origin = .mailbox → v = (data.getD 0) &&& e.width.mask → deliver e o data s =
    if o = .ok then
      { s with mbx := { s.mbx with state := .done, result := .outcome .ok, data := if e.op = .write then s.mbx.data else v }
               events := s.events.post ⟨.mailboxDone, modAddr? s.mbx.target, 1, s.mbx.op.setWidth 32,
                                        if e.op = .write then 0 else v, 0⟩ }
    else
      { s with mbx := { s.mbx with state := .failed, result := .outcome o }
               events := s.events.post ⟨.mailboxDone, modAddr? s.mbx.target, outcomeCode o, s.mbx.op.setWidth 32, 0, 0⟩ }

/-- What a fill does to the cache (R112, R115): the overlapped lines of the same module go, and the fill takes the lowest-numbered
free line, or the least recently used one where none is free, as the most recently used. -/
def Filled (c : Cache) (l : Line) : Prop :=
  let kept (j : Fin 32) : Option Line :=
    (vget c.lines j).filter fun m => !(m.addr = l.addr && bytesOverlap m.offset m.width l.offset l.width)
  ∃ i, vget (c.fill l).lines i = some l ∧ (∀ j, j ≠ i → vget (c.fill l).lines j = kept j) ∧
    ((∃ j, kept j = none) → kept i = none ∧ ∀ j < i, kept j ≠ none) ∧
    ((∀ j, kept j ≠ none) → ∀ k rest, c.useOrder = k :: rest → i = k) ∧
    (c.fill l).useOrder = (c.useOrder.filter fun j => (kept j).isSome && j ≠ i) ++ [i]

/-- What the head checks do (R85 to R88): while an earlier entry is on the link nothing; a head that passes stays; a head that fails
is completed with the outcome of its first failing check, and the next head is checked. -/
structure HeadsChecked (s : State) : Prop where
  onLink : s.hostOnLink = true → headChecks s = s
  empty  : s.hostQueue = [] → headChecks s = s
  passes : ∀ e rest, s.hostQueue = e :: rest → headCheck e s = none → headChecks s = s
  fails  : ∀ e rest o, s.hostOnLink = false → s.hostQueue = e :: rest → headCheck e s = some o →
             headChecks s = headChecks (deliver e o none { s with hostQueue := rest })
  check  : ∀ e, headCheck e s =
             if e.cancelled = true then some .cancelled
             else if (s.entry e.addr).generation ≠ e.gen ∨
                 ¬((s.entry e.addr).state = .online ∨ (s.entry e.addr).state = .quarantined) then some .stale
             else if (s.entry e.addr).state = .quarantined ∧ e.diagnostic = false then some .quarantined
             else if e.op ≠ .descRead ∧ (s.entry e.addr).widthLimit.bytes < e.width.bytes then some .width
             else none

/-! ### The check of frames and images -/

/-- The bits of a byte, most significant first (R1). -/
def bitsOf (b : Byte) : List Bool := (List.range 8).map fun i => b.getLsbD (7 - i)

/-- The CRC-16 of R1, taken one bit at a time: the register starts at 0xFFFF, and where the bit that leaves it differs from the
message's bit the generator 0x1021 is added. -/
def crcOf (bs : List Byte) : Half :=
  (bs.flatMap bitsOf).foldl (fun c b => if c.msb = b then c <<< 1 else (c <<< 1) ^^^ 0x1021#16) 0xFFFF#16

/-! ### The words about the boot image -/

/-- The code of a record type and the fixed length of its body (R176, R210). -/
def recordForm : RecType → Nat × Nat
  | .window => (1, 11)
  | .binding => (2, 10)
  | .timing => (3, 3)
  | .route => (4, 2)
  | .end_ => (15, 2)

/-- The bytes of a record: its type, the length of its body, and the body (R176, R210). -/
def recordBytes (r : ImageRec) : List Byte :=
  [BitVec.ofNat 8 (recordForm r.type).1, BitVec.ofNat 8 r.body.length] ++ r.body

/-- The image in the staging buffer reads, behind its header, as the records `l`, whole and none of them END, fewer than the header's
record count, and then `rest` (R174, R177). -/
def ReadsAs (staging : List Byte) (l : List ImageRec) (rest : List Byte) : Prop :=
  staging.drop 6 = l.flatMap recordBytes ++ rest ∧ l.length < (staging.getD 3 0).toNat ∧
    ∀ r ∈ l, r.type ≠ .end_ ∧ r.body.length = (recordForm r.type).2

/-- The image reads as the records `l` and an END record that carries the check `lo`, `hi`, closes the image and has the number that
the header's record count gives (R177). -/
def EndsAs (staging : List Byte) (l : List ImageRec) (lo hi : Byte) : Prop :=
  ReadsAs staging l (recordBytes ⟨.end_, [lo, hi]⟩) ∧ l.length + 1 = (staging.getD 3 0).toNat

/-- The check covers every byte from the first marker byte up to the END record (R178, R210). -/
def CheckHolds (staging : List Byte) (l : List ImageRec) (lo hi : Byte) : Prop :=
  hi ++ lo = crcOf (staging.take 6 ++ l.flatMap recordBytes)

/-- A record passes the content tests, in numbers (R49, R63, R165, R179). -/
def RecordValid (r : ImageRec) : Prop :=
  let b (n : Nat) : Nat := (r.byte n).toNat
  let remote := b 8 + 256 * b 9
  match r.type with
  | .window => b 1 ≤ 7 ∧ b 2 ≤ 1 ∧ b 5 ≤ 15 ∧ b 6 ≤ 2 ∧ b 7 ≤ 3 ∧
      (b 2 = 1 → 256 * b 3 ≤ 256 * b 4 + 255 ∧ 1 ≤ b 5 ∧ b 5 ≤ 14 ∧ remote + (256 * b 4 + 255 - 256 * b 3) ≤ 0xFFFF ∧
        2 ^ b 6 ∣ remote)
  | .binding => 1 ≤ b 9 ∧ b 9 ≤ 14 ∧ b 10 ≤ 1
  | .timing => ∃ p : Param, Param.index p = b 1 ∧ InTimingTable p (b 2 + 256 * b 3)
  | .route => 1 ≤ b 1 ∧ b 1 ≤ 17 ∧ b 2 ≤ 3 ∧ ¬(b 2 = 3 ∧ (b 1 = 5 ∨ b 1 = 17))
  | .end_ => True

/-- Two records name the same thing: a window, a unique ID or an address, a parameter, or a kind (R180). -/
def NamesTheSame (r q : ImageRec) : Prop :=
  r.type = q.type ∧
    match r.type with
    | .window => r.byte 1 = q.byte 1
    | .binding => r.id = q.id ∨ r.byte 9 = q.byte 9
    | .timing => r.byte 1 = q.byte 1
    | .route => r.byte 1 = q.byte 1
    | .end_ => False

/-- Records that pass the content and duplicate tests (R179, R180). -/
def AllPass (l : List ImageRec) : Prop := (∀ r ∈ l, RecordValid r) ∧ l.Pairwise fun q r => ¬NamesTheSame r q

/-- What verification answers for an image in the staging buffer (R177 to R180, R210): the first failure of the walk, with the number
of its record, then of the check, then of the content and duplicate tests; and the records exactly where every test passes. A record
that fails two tests of the walk gets the reason of the first in the order type, length, fit (log entry 37), and one whose type or
length byte lies past the end fails the fit (log entry 26). -/
structure ImageVerified (staging : List Byte) : Prop where
  cut       : ∀ l, ReadsAs staging l [] → verify staging = .fault ⟨.recordStructure, l.length + 1⟩
  type      : ∀ l t rest, ReadsAs staging l (t :: rest) → (∀ ty, t.toNat ≠ (recordForm ty).1) →
                verify staging = .fault ⟨.type, l.length + 1⟩
  typeAlone : ∀ l t ty, ReadsAs staging l [t] → t.toNat = (recordForm ty).1 →
                verify staging = .fault ⟨.recordStructure, l.length + 1⟩
  length    : ∀ l t ty n rest, ReadsAs staging l (t :: n :: rest) → t.toNat = (recordForm ty).1 →
                n.toNat ≠ (recordForm ty).2 → verify staging = .fault ⟨.recordLength, l.length + 1⟩
  fit       : ∀ l t ty n rest, ReadsAs staging l (t :: n :: rest) → t.toNat = (recordForm ty).1 →
                n.toNat = (recordForm ty).2 → rest.length < (recordForm ty).2 →
                verify staging = .fault ⟨.recordStructure, l.length + 1⟩
  placement : ∀ l q rest, ReadsAs staging l (recordBytes q ++ rest) → q.body.length = (recordForm q.type).2 →
                (q.type = .end_ ∧ (l.length + 1 ≠ (staging.getD 3 0).toNat ∨ rest ≠ []) ∨
                  q.type ≠ .end_ ∧ l.length + 1 = (staging.getD 3 0).toNat) →
                verify staging = .fault ⟨.recordStructure, l.length + 1⟩
  check     : ∀ l lo hi, EndsAs staging l lo hi → ¬CheckHolds staging l lo hi →
                verify staging = .fault ⟨.check, (staging.getD 3 0).toNat⟩
  content   : ∀ l r rest lo hi, EndsAs staging (l ++ r :: rest) lo hi → CheckHolds staging (l ++ r :: rest) lo hi →
                AllPass l → ¬RecordValid r → verify staging = .fault ⟨.value, l.length + 1⟩
  duplicate : ∀ l r rest lo hi, EndsAs staging (l ++ r :: rest) lo hi → CheckHolds staging (l ++ r :: rest) lo hi →
                AllPass l → RecordValid r → (∃ q ∈ l, NamesTheSame r q) →
                verify staging = .fault ⟨.duplicate, l.length + 1⟩
  passes    : ∀ l lo hi, EndsAs staging l lo hi → CheckHolds staging l lo hi → AllPass l →
                verify staging = .records (l ++ [⟨.end_, [lo, hi]⟩])
  only      : ∀ k, verify staging = .records k → ∃ l lo hi, k = l ++ [⟨.end_, [lo, hi]⟩] ∧ EndsAs staging l lo hi ∧
                CheckHolds staging l lo hi ∧ AllPass l

/-- What the fields of a record say, in numbers (R210). -/
structure RecordSays (r : ImageRec) : Prop where
  value   : r.value = (r.byte 2).toNat + 256 * (r.byte 3).toNat
  id      : ∀ k, 1 ≤ k → k ≤ 8 → r.body.length = 10 → r.id.extractLsb' (8 * (k - 1)) 8 = r.byte k
  enabled : r.window.enabled = true ↔ r.byte 2 = 1
  pages   : r.window.basePage = r.byte 3 ∧ r.window.limitPage = r.byte 4
  target  : (r.byte 5).toNat ≤ 15 → r.window.target.toNat = (r.byte 5).toNat
  width   : (r.byte 6).toNat ≤ 2 → r.window.width.bytes = 2 ^ (r.byte 6).toNat
  flags   : r.window.readOnly = (r.byte 7).getLsbD 0 ∧ r.window.cacheable = (r.byte 7).getLsbD 1
  remote  : r.window.remoteBase.toNat = (r.byte 8).toNat + 256 * (r.byte 9).toNat
  ofClass : r.window.expectedClass.toNat = (r.byte 10).toNat + 256 * (r.byte 11).toNat

/-! ### The words about frames and registers -/

/-- What stands on the span link (R1): a byte is a character of ten bits, the start bit, the eight data bits with the least significant
first, and the stop bit, all named and given no level (log entry 42); a character takes ten bit times, and the bridge sends the bits of its
frame's characters one after another at the rate its request began with. A module's response frame has the lead-in too (R206). -/
structure CharactersLaidOut : Prop where
  bits     : ∀ b : Byte, charBits b = [.start, .data (b.getLsbD 0), .data (b.getLsbD 1), .data (b.getLsbD 2), .data (b.getLsbD 3),
               .data (b.getLsbD 4), .data (b.getLsbD 5), .data (b.getLsbD 6), .data (b.getLsbD 7), .stop]
  times    : ∀ rate us, (rate, us) ∈ [(250, 40), (500, 20), (1000, 10)] → charTime rate = us ∧
               ∀ b, (charBits b).length * bitTime rate = us
  sent     : ∀ (s : State) (r : Request), s.engine.link = .carrying r → r.attempt = .sending →
               s.spanFrame = some ⟨r.params.linkRate, s.engine.line.flatMap charBits⟩
  released : ∀ s : State, (∀ r, s.engine.link = .carrying r → r.attempt ≠ .sending) → s.spanFrame = none
  response : ∀ r : Response, responseFrame r = [0x55#8] ++ responseFields r

/-- The characters of a request frame (R1, R206, R207): the lead-in, the destination and operation code, the sequence, retransmit
flag and length code, the offset and the data, and the check of all but the lead-in, low byte first. -/
structure RequestLaidOut (p : Payload) (seq : BitVec 4) (retransmit : Bool) : Prop where
  bytes  : ∃ b0 b1 : Byte, ∃ fields : List Byte,
             fields = [b0, b1, p.offset.extractLsb' 0 8, p.offset.extractLsb' 8 8] ++ p.data ∧
             requestFrame p seq retransmit =
               [0x55#8] ++ fields ++ [(crcOf fields).extractLsb' 0 8, (crcOf fields).extractLsb' 8 8] ∧
             b0.extractLsb' 0 4 = p.dest ∧ b0.extractLsb' 4 4 = p.op.code ∧
             b1.extractLsb' 0 4 = seq ∧ b1.getLsbD 4 = retransmit ∧ b1.getLsbD 7 = false ∧
             ∀ n c, (n, c) ∈ [(0, 0#2), (1, 1#2), (2, 2#2), (4, 3#2)] → p.length = n → b1.extractLsb' 5 2 = c
  check  : ∀ bs, crc16 bs = crcOf bs
  codes  : [LinkOp.read, .write, .ping, .joinQuery, .assign, .descRead, .attnFetch, .attnClear, .release, .linkReset].map
             LinkOp.code = [1, 2, 3, 4, 5, 6, 7, 8, 9, 10]

/-- The bytes of data that R4 requires of a response to an operation with a length. -/
def dataOwed (op : LinkOp) (length : Nat) : Status → Nat
  | .ok => if op = .read then length else if op = .joinQuery then 8 else if op = .descRead then 4
           else if op = .attnFetch then 2 else 0
  | .busy => 0
  | .refused => 0
  | .noRegister => 0

/-- The field bytes of a response frame that passes its check, and what they say (R1, R3, R4, R208): bit 7 of both bytes clear, a
length code that agrees with the data, the data that the operation and the status require, and the check, low byte first. -/
structure ResponseLaidOut (op : LinkOp) (length : Nat) (frame : List Byte) (r : Response) : Prop where
  bytes  : ∃ b0 b1 lo hi : Byte, frame = [b0, b1] ++ r.data ++ [lo, hi] ∧ hi ++ lo = crcOf ([b0, b1] ++ r.data) ∧
             b0.extractLsb' 0 4 = r.source ∧ (b0.extractLsb' 4 2, r.status) ∈ [(0#2, Status.ok), (1#2, .busy), (2#2, .refused),
               (3#2, .noRegister)] ∧ b0.getLsbD 6 = r.attention ∧ b0.getLsbD 7 = false ∧
             b1.extractLsb' 0 4 = r.echo ∧ b1.getLsbD 7 = false ∧
             (b1.extractLsb' 4 3, r.data.length) ∈ [(0#3, 0), (1#3, 1), (2#3, 2), (3#3, 4), (4#3, 8)]
  length : r.data.length = dataOwed op length r.status

/-- What a host request queue entry's frame asks (R2, R4, R89). -/
structure HostFrames (e : HostEntry) : Prop where
  read     : e.op = .read → e.payload = ⟨linkAddr e.addr, .read, e.offset, e.width.bytes, []⟩
  write    : e.op = .write → ∃ bs, e.payload = ⟨linkAddr e.addr, .write, e.offset, e.width.bytes, bs⟩ ∧
               bs.length = e.width.bytes ∧ ∀ k, k < e.width.bytes → bs[k]? = some ((e.data.getD 0).extractLsb' (8 * k) 8)
  descRead : e.op = .descRead → e.payload = ⟨linkAddr e.addr, .descRead, e.offset, 4, []⟩

/-- What a management request's frame asks (R2, R4). The offset 0 of JOIN_QUERY, PING, ATTN_CLEAR and RELEASE is the model's choice
(log entry 25). -/
structure MgmtFrames (a : ModAddr) (g : Half) : Prop where
  joinQuery : MgmtEntry.payload .joinQuery = ⟨0, .joinQuery, 0, 0, []⟩
  assign    : ∀ guard, (MgmtEntry.assign a g guard).payload = ⟨0, .assign, guard, 1, [BitVec.ofNat 8 (a.val + 1)]⟩
  descRead  : ∀ word, (MgmtEntry.descRead a g word).payload = ⟨linkAddr a, .descRead, word.setWidth 16, 4, []⟩
  ping      : (MgmtEntry.ping a g).payload = ⟨linkAddr a, .ping, 0, 0, []⟩
  attnFetch : (MgmtEntry.attnFetch a g).payload = ⟨linkAddr a, .attnFetch, 0, 2, []⟩
  attnClear : ∀ w : Half, (MgmtEntry.attnClear a g w).payload =
                ⟨linkAddr a, .attnClear, 0, 2, [w.extractLsb' 0 8, w.extractLsb' 8 8]⟩
  release   : (MgmtEntry.release a g).payload = ⟨linkAddr a, .release, 0, 0, []⟩
  address   : (linkAddr a).toNat = a.val + 1

/-- A full read of a register is answered OK with the fields given, each as its lowest bit, its number of bits and a value that
fits, and 0 in every other bit (R201). -/
def Shows (s : State) (o : BitVec 12) (fields : List (Nat × Nat × Nat)) : Prop :=
  (∀ f ∈ fields, f.2.2 < 2 ^ f.2.1) ∧
    readRegister o 0xF#4 s = ⟨.ok, some (BitVec.ofNat 32 (fields.map fun f => 2 ^ f.1 * f.2.2).sum)⟩

/-- What the registers show that hold modes, faults, counts, arguments, timing values, routes and selections (section 12.2: R49,
R61, R74, R100, R105, R111, R121, R122, R138, R163, R165, R167, R168, R172, R188, R201, R203). -/
structure BlockViews (s : State) : Prop where
  pwrCtrl    : Shows s 0x000#12 [(0, 1, s.power.sleepReq.toNat), (1, 1, s.power.retain.toNat)]
  autoload   : s.autoload.recordCount < 64 → s.autoload.faultRecord < 64 → Shows s 0x008#12
                 [(0, 2, phaseCode s.autoload.phase), (4, 2, (loadCode s.autoload.lastOutcome).toNat),
                  (8, 6, s.autoload.recordCount), (16, 4, faultCode s.autoload.faultReason), (24, 6, s.autoload.faultRecord)]
  cacheLines : Shows s 0x018#12 [(0, 6, (allLines.filter fun i => (vget s.cache.lines i).isSome).length)]
  attnMode   : Shows s 0x01C#12 [(0, 1, if s.attn.mode = .held then 1 else 0)]
  winFault   : Shows s 0x024#12 [(0, 3, winFaultCode s.port.winFault.reason),
                 (3, 1, if s.port.winFault.dir = .write then 1 else 0), (4, 4, s.port.winFault.window.toNat),
                 (8, 17, s.port.winFault.address.toNat)]
  readFault  : Shows s 0x028#12 [(0, 4, (match s.port.readFault.outcome with | some o => (outcomeCode o).toNat | none => 0)),
                 (4, 3, s.port.readFault.width.toNat), (8, 2, s.port.readFault.slot.toNat),
                 (12, 17, s.port.readFault.hostAddr.toNat)]
  timing     : TimingLaw s → ∀ p : Param, Shows s (0x040#12 + BitVec.ofNat 12 (4 * (Param.index p - 1)))
                 [(0, 16, s.timing.value p)]
  mbxOp      : Shows s 0x080#12 [(0, 8, s.mbx.op.toNat)]
  mbxTarget  : Shows s 0x084#12 [(0, 4, s.mbx.target.toNat)]
  mbxOffset  : Shows s 0x088#12 [(0, 16, s.mbx.offset.toNat)]
  mbxWidth   : Shows s 0x08C#12 [(0, 8, s.mbx.width.toNat)]
  mbxData    : Shows s 0x090#12 [(0, 32, s.mbx.data.toNat)]
  mbxXdata   : Shows s 0x094#12 [(0, 32, s.mbx.xdata.toNat)]
  mbxFlags   : Shows s 0x098#12 [(0, 2, s.mbx.flagMode.toNat), (4, 1, s.mbx.replace.toNat)]
  writeOnly  : ∀ o ∈ [0x09C#12, 0x0A0#12, 0x0D0#12], Shows s o []
  mbxStatus  : Shows s 0x0A4#12 [(0, 3, mbxStateCode s.mbx.state), (8, 1, s.mbx.refused.toNat), (9, 1, s.mbx.abortLate.toNat)]
  mbxResult  : Shows s 0x0A8#12 [(0, 8, (resultCode s.mbx.result).toNat)]
  evtMode    : Shows s 0x0D4#12 [(0, 1, if s.events.mode = .release then 1 else 0)]
  evtLineEn  : Shows s 0x0D8#12 [(0, 1, s.events.line0En.toNat), (1, 1, s.events.line1En.toNat)]
  noOverflow : (∀ r ∈ s.events.list, r.kind ≠ .overflow) → Shows s 0x0E4#12 []
  overflow   : ∀ r ∈ s.events.list, r.kind = .overflow → EventLaw s → Shows s 0x0E4#12 [(0, 32, r.detailA.toNat)]
  routes     : ∀ k : Kind, Shows s (0x100#12 + BitVec.ofNat 12 (4 * (kindNumber k - 1))) [(0, 3, routeCode (s.events.routeOf k))]
  pending    : ∀ i x, vget s.slots i = .pending x →
                 Shows s (0x180#12 + BitVec.ofNat 12 (8 * i.val)) [(0, 2, 1), (2, 1, x.noFill.toNat), (4, 3, x.width.bytes),
                   (8, 3, x.window.val), (12, 4, x.target.val + 1), (16, 16, x.offset.toNat)] ∧
                 Shows s (0x184#12 + BitVec.ofNat 12 (8 * i.val)) [(0, 17, x.hostAddr.toNat)]
  freeSlot   : ∀ i, vget s.slots i = .free → Shows s (0x184#12 + BitVec.ofNat 12 (8 * i.val)) []
  bindSel    : Shows s 0x200#12 [(0, 4, s.port.bindSel.toNat)]
  bound      : ∀ a b, modAddr? s.port.bindSel = some a → vget s.bindings a = some b →
                 Shows s 0x204#12 [(0, 1, 1), (1, 1, if b.mode = .preferred then 1 else 0)] ∧
                 Shows s 0x208#12 [(0, 32, (b.id.extractLsb' 0 32).toNat)] ∧
                 Shows s 0x20C#12 [(0, 32, (b.id.extractLsb' 32 32).toNat)]
  unbound    : ∀ a, modAddr? s.port.bindSel = some a → vget s.bindings a = none →
                 Shows s 0x204#12 [] ∧ Shows s 0x208#12 [] ∧ Shows s 0x20C#12 []
  modSel     : Shows s 0x240#12 [(0, 4, s.port.modSel.toNat)]
  window     : ∀ n w, w = vget s.windows n →
                 Shows s (0x400#12 + BitVec.ofNat 12 (0x20 * n.val)) [(0, 8, w.basePage.toNat), (8, 8, w.limitPage.toNat)] ∧
                 Shows s (0x404#12 + BitVec.ofNat 12 (0x20 * n.val)) [(0, 4, w.target.toNat), (16, 16, w.expectedClass.toNat)] ∧
                 Shows s (0x408#12 + BitVec.ofNat 12 (0x20 * n.val)) [(0, 16, w.remoteBase.toNat)] ∧
                 Shows s (0x40C#12 + BitVec.ofNat 12 (0x20 * n.val)) [(0, 2, w.width.code), (4, 1, w.readOnly.toNat),
                   (5, 1, w.cacheable.toNat)] ∧
                 Shows s (0x410#12 + BitVec.ofNat 12 (0x20 * n.val)) [(0, 1, w.enabled.toNat)] ∧
                 Shows s (0x414#12 + BitVec.ofNat 12 (0x20 * n.val)) [(0, 1, w.enabled.toNat)] ∧
                 Shows s (0x418#12 + BitVec.ofNat 12 (0x20 * n.val)) [(0, 16, 256 * w.basePage.toNat),
                   (16, 16, 256 * w.limitPage.toNat + 255)]

/-- What the pins show (R211). HRDY is deasserted during a hold (R200); that it stays asserted after an answer, with no access in progress,
is the model's choice (log entry 41). The bridge drives the span link only while it sends a frame, so not while the link sleeps or wakes,
nor while a cold reset is in force; the boot memory is selected while a run reads it (R174, R175). -/
structure PinsShow (s : State) : Prop where
  held    : ∀ h, s.port.held = some h → s.ready = false
  ready   : s.port.held = none → (s.ready = true ↔ ∃ a, s.port.answer = some a)
  span    : s.drivesSpan = true ↔ ∃ r, s.engine.link = .carrying r ∧ r.attempt = .sending
  asleep  : SleepLaw s → s.power.state = .asleep ∨ s.power.state = .waking → s.drivesSpan = false
  boot    : s.bootSelect = true ↔ s.autoload.phase = .reading
  inReset : HoldLaw s → s.pins.hold = true → s.ready = false ∧ s.drivesSpan = false ∧ s.bootSelect = false
  line0   : s.line0Active = true ↔ s.pins.cold = false ∧ s.pins.host = false ∧ s.pins.hold = false ∧ s.events.line0En = true ∧
              ∃ r ∈ s.events.list, r.route = .line0
  line1   : s.line1Active = true ↔ s.pins.cold = false ∧ s.pins.host = false ∧ s.pins.hold = false ∧ s.events.line1En = true ∧
              ∃ r ∈ s.events.list, r.route = .line1
  levels  : s.line0Pin = !s.line0Active ∧ s.line1Pin = !s.line1Active

/-- The codes that registers, records, views and the response pins show, each list in the order of its table (R202, R211). -/
structure CodeTables : Prop where
  power    : [PowerState.active, .draining, .asleep, .waking].map powerCode = [0, 1, 2, 3]
  wake     : [WakeReason.none, .host, .attention].map wakeCode = [0, 1, 2]
  phase    : [Phase.idle, .reading, .verifying].map phaseCode = [0, 1, 2]
  outcome  : [LoadOutcome.none, .loaded, .absent, .invalid].map loadCode = [0, 1, 2, 3]
  fault    : [FaultReason.none, .version, .count, .length, .type, .recordLength, .recordStructure, .check, .value,
              .duplicate].map faultCode = [0, 1, 2, 3, 4, 5, 6, 7, 8, 9]
  winFault : [WinFaultReason.none, .lanes, .unmapped, .width, .readOnly, .notOnline, .moduleClass].map winFaultCode =
               [0, 1, 2, 3, 4, 5, 6]
  mailbox  : [MbxState.idle, .waiting, .queued, .active, .done, .failed].map mbxStateCode = [0, 1, 2, 3, 4, 5]
  route    : [Route.none, .line0, .line1, .suppress].map routeCode = [0, 1, 2, 3]
  modules  : [ModState.empty, .joining, .describing, .online, .quarantined].map modStateCode = [0, 1, 2, 3, 4]
  attn     : [AttnState.none, .fetchDue, .fetching, .held, .clearDue].map attnCode = [0, 1, 2, 3, 4]
  bound    : [Bound.unbound, .bound, .fallback].map boundCode = [0, 1, 2]
  disc     : [DiscState.disabled, .idle, .querying, .joining, .parkedFull, .parkedConflict].map discCode = [0, 1, 2, 3, 4, 5]
  links    : [LinkOutcome.ok, .refused, .noRegister, .noResponse, .busyExhausted, .stale, .quarantined, .width, .cancelled,
              .discarded].map outcomeCode = [1, 2, 3, 4, 5, 6, 7, 8, 9, 10]
  results  : (∀ o, resultCode (.outcome o) = outcomeCode o) ∧
             [Result.none, .badAddress, .badArgument, .notPresent, .wrongState, .autoloadBusy, .duplicateId,
              .duplicateAddress, .notBound, .overtaken, .joined, .noneWaiting, .collision, .describeFailed, .tableFull,
              .bindingConflict, .loaded, .loadFailed].map resultCode =
               [0, 16, 17, 18, 19, 20, 21, 22, 23, 24, 25, 26, 27, 28, 29, 30, 31, 32]
  kinds    : allKinds.map kindNumber = (List.range 17).map (· + 1)
  answers  : [Response3.ok, .retry, .error].map responseCode = [0, 1, 2]

end Sys2Proof.Machine
end

