-- ==== Sys2Proof/Certificates/Slice0/Obligations.lean ====
section
/-! DEFINITION. The statements for the provers. Every statement about a command concludes that `exec` answers a next state and
says what that state holds, and every statement about a block's operation what that operation answers; `FollowUp`, `QuietLaw`
and the other words of the statements are in Safety.lean. `FollowUp` rests on log entries 5, 7 and 23 of the model, and, where a
record posted in the event and a reservation of the follow-up work compete for the last place of the event queue, on log entry 4. -/

section

open Sys2Proof Sys2Proof.Machine

/-! ### The machine -/

/-- A step with a command at the front of the queue is that command on the state with the queue's rest. -/
def Obligations.StepRunsFrontCommand : Prop :=
  ∀ (c : Instr) (s : State), step { s with pending := c :: s.pending } = exec c s

/-- On an empty queue one microsecond passes: the clock and every timer that runs go on by one, a holdoff that has run its
BUSY_HOLDOFF is over, and nothing else changes (R17; log entry 2, the model's choice). -/
def Obligations.EmptyQueueLetsAMicrosecondPass : Prop :=
  ∀ s : State, s.pending = [] → ∃ t, step s = .next t ∧ OnlyTimePasses 1 s t ∧ t.now = s.now + 1 ∧
    (∀ n, s.disc.queryTimer = some n → t.disc.queryTimer = some (n + 1)) ∧
    (∀ n, s.power.wakeTimer = some n → t.power.wakeTimer = some (n + 1)) ∧
    (∀ a n, (s.entry a).pollTimer = some n →
      (t.entry a).pollTimer = some (if s.power.state = .active ∨ s.power.state = .draining then n + 1 else n)) ∧
    (∀ i x o d n, vget s.slots i = .complete x o d n → vget t.slots i = .complete x o d (n + 1)) ∧
    (∀ h, s.port.held = some h → t.port.held = some { h with elapsed := h.elapsed + 1 }) ∧
    (s.engine.link = .free → t.engine = s.engine) ∧
    (∀ r, s.engine.link = .carrying r → r.attempt = .sending ∨ r.attempt = .receiving ∨ r.attempt = .resend →
      t.engine = s.engine) ∧
    (∀ r n, s.engine.link = .carrying r → r.attempt = .awaiting n →
      t.engine.link = .carrying { r with attempt := .awaiting (n + 1) }) ∧
    (∀ r n, s.engine.link = .carrying r → r.attempt = .gap n →
      t.engine.link = .carrying { r with attempt := .gap (n + 1) }) ∧
    (∀ r n, s.engine.link = .holdoff r n → t.engine.link =
      if r.params.busyHoldoff ≤ n + 1 then .carrying { r with attempt := .resend } else .holdoff r (n + 1)) ∧
    (∀ e w, s.engine.link = .settling e w → t.engine.link = .settling (e + 1) w)

/-- No command stops the block: each of the 65 answers a next state, whatever the state. -/
def Obligations.CommandsNeverStop : Prop := ∀ (c : Instr) (s : State), ∃ t, exec c s = .next t

/-- No command touches the queue of commands. -/
def Obligations.CommandsLeaveTheQueueAlone : Prop := ∀ (c : Instr) (s t : State), exec c s = .next t → t.pending = s.pending

/-- What the spec gives for a cold reset: the defaults of the timing table, empty queues, and the initial modes, routes,
selections and results. That READ_FAULT's host address, width and slot are 0 beside its outcome NONE is the model's choice (log
entry 36). -/
def Obligations.ResetValues : Prop :=
  let s := State.reset
  allParams.map s.timing.value = [1000, 200, 3, 8, 500, 10, 20, 4, 3, 100, 20, 50, 5] ∧
  s.hostQueue = [] ∧ s.mgmtQueue = [] ∧ s.events.list = [] ∧ s.events.reservations = 0 ∧ s.events.nextSeq = 0 ∧
  (∀ k, s.events.routeOf k = if k = .attention then .line1 else if k = .decodeMiss then .none else .line0) ∧
  s.events.mode = .pop ∧ s.events.line0En = false ∧ s.events.line1En = false ∧ s.events.staleRelease = false ∧
  s.attn.mode = .auto ∧ s.attn.armed = false ∧ s.attn.level = false ∧
  s.power.state = .active ∧ s.power.sleepReq = false ∧ s.power.retain = false ∧ s.power.lastWake = .none ∧
  s.mbx.state = .idle ∧ s.mbx.result = .none ∧ s.mbx.refused = false ∧ s.mbx.abortLate = false ∧
  s.port.winFault = ⟨.none, .read, 0, 0xF#4⟩ ∧ s.port.readFault = ⟨none, 0, 0, 0⟩ ∧ s.port.bindSel = 1 ∧ s.port.modSel = 1 ∧
  s.engine.link = .free ∧ s.engine.resetPending = true ∧ s.engine.lastTurn = .host ∧ s.engine.joinCounter = 0 ∧
  s.disc.state = .disabled ∧ s.autoload.phase = .idle ∧ s.autoload.lastOutcome = .none ∧
  (∀ a, (s.entry a).state = .empty ∧ (s.entry a).generation = 0 ∧ (s.entry a).seq = 0 ∧ vget s.bindings a = none) ∧
  (∀ n, (vget s.windows n).enabled = false) ∧ (∀ i, vget s.slots i = .free) ∧ ∀ i, vget s.cache.lines i = none

/-- Every law of the statements below holds right after reset. -/
def Obligations.ResetKeepsEveryLaw : Prop :=
  let s := State.reset
  EventLaw s ∧ SeqLaw s ∧ RouteLaw s ∧ QueueLaw s ∧ WindowLaw s ∧ BindingLaw s ∧ TimingLaw s ∧ SelectLaw s ∧ ModuleLaw s ∧
    EmptyLaw s ∧ CacheLaw s ∧ MailboxLaw s ∧ HeldWriteLaw s ∧ QuietLaw s ∧ DueLaw s ∧ SleepLaw s ∧ HoldLaw s ∧ AttnLaw s

/-! ### Laws that every step keeps -/

/-- The capacity of the event queue (R155); no record in it is routed SUPPRESS, and ATTENTION and OVERFLOW cannot be (R153,
R165). -/
def Obligations.EventLawKept : Prop := KeptByStep fun s => EventLaw s ∧ RouteLaw s

/-- The records in the event queue carry consecutive seq values (R156). -/
def Obligations.SeqLawKept : Prop := KeptByStep SeqLaw

/-- The capacities of the host request queue and the management queue (R26, R77). -/
def Obligations.QueueLawKept : Prop := KeptByStep QueueLaw

/-- The configuration stays legal: the window table (R63), the binding table (R49), the timing parameters, each inside its range and
on its step in the numbers of the timing table (R203), and the two selections (R49, R204). -/
def Obligations.ConfigurationLawKept : Prop :=
  KeptByStep fun s => WindowLaw s ∧ BindingLaw s ∧ TimingLaw s ∧ SelectLaw s

/-- No two non-EMPTY entries have the same unique ID, and an EMPTY entry holds the EMPTY column (R24, R25). -/
def Obligations.ModuleTableLawKept : Prop := KeptByStep fun s => ModuleLaw s ∧ EmptyLaw s

/-- Every valid line names an ONLINE entry at its generation, and no two cover a byte twice (R112). -/
def Obligations.CacheLawKept : Prop := KeptByStep CacheLaw

/-- The mailbox has at most one request under way, and its state says where it stands (R122, R125, R126); a write held for a place in
the host request queue is a window write (R82). -/
def Obligations.MailboxLawKept : Prop := KeptByStep fun s => MailboxLaw s ∧ HeldWriteLaw s

/-- Between events the head of the host request queue passes its checks unless an earlier entry is on the link, no drained link
is still DRAINING, no wake is outstanding, and discovery follows its suspension (R29, R85 to R87, R190, R194). The model's choices:
that the sending of the broadcast suspends discovery too (log entry 7), and that a DISCARDED request on the link is no earlier entry
(log entry 30). -/
def Obligations.QuietLawKept : Prop := KeptByStep fun s => QuietLaw s ∧ HoldLaw s

/-- Between events no work is due while the management queue has a free place: discovery's waiting item, PINGs, RELEASEs,
ATTN_CLEARs and permitted ATTN_FETCHes (R27, R143, R148). -/
def Obligations.DueLawKept : Prop := KeptByStep DueLaw

/-- A sleeping or waking link carries nothing (R190, R192, R195). -/
def Obligations.SleepLawKept : Prop := KeptByStep SleepLaw

/-- While a cold reset is in force every block holds its cold values (R197). -/
def Obligations.HoldLawKept : Prop := KeptByStep HoldLaw

/-- Fetch records and reservations agree with the entries in FETCHING (R143, R158). -/
def Obligations.AttentionLawKept : Prop := KeptByStep fun s => AttnLaw s ∧ EmptyLaw s

/-! ### Resets and the ATTN level -/

/-- COLD_RESET and RESET_RELEASE: every block takes its cold value and holds it until both inputs are released, when an
autoload run begins; HOST_RST with RETAIN clear is a cold reset whichever row names it (R172, R196, R197; log entry 14). -/
def Obligations.ColdResetAndRelease : Prop :=
  ∀ s : State,
    (s.pins.cold = false → exec (.coldReset .coldRst) s = .next { State.reset with
      pending := s.pending, now := s.now, pins := { cold := true, host := s.pins.host, hold := true } }) ∧
    (∀ c : Instr, c = .coldReset .hostRst ∨ c = .hostPortReset → s.pins.host = false → s.power.retain = false →
      exec c s = .next { State.reset with
        pending := s.pending, now := s.now, pins := { cold := s.pins.cold, host := true, hold := true } }) ∧
    (s.pins.hold = true → s.pins.host = false → exec (.resetRelease .coldRst) s = .next { s with
      pins := { cold := false, host := false, hold := false }
      autoload := { s.autoload with phase := .reading, faultReason := .none, faultRecord := 0, startedBy := .cold,
                                    staging := [] } }) ∧
    (s.pins.hold = true → s.pins.cold = false → exec (.resetRelease .hostRst) s = .next { s with
      pins := { cold := false, host := false, hold := false }
      autoload := { s.autoload with phase := .reading, faultReason := .none, faultRecord := 0, startedBy := .cold,
                                    staging := [] } }) ∧
    (s.pins.host = true → exec (.resetRelease .coldRst) s = .next { s with pins := { s.pins with cold := false } }) ∧
    (s.pins.cold = true → exec (.resetRelease .hostRst) s = .next { s with pins := { s.pins with host := false } })

/-- HOST_PORT_RESET and HOST_RST_RELEASE with RETAIN set: what each block keeps and clears, with HOST_RESET_RETAINED first in
the cleared event queue, and the release that only gives the port back (R12, R24, R98, R100, R118, R137, R152, R170, R198,
section 11.6). But for the blocks' parts, which it gives one by one, nothing changes save by follow-up work. -/
def Obligations.HostPortResetRetains : Prop :=
  ∀ s : State,
    (s.pins.host = false → s.power.retain = true → ∃ t, exec .hostPortReset s = .next t ∧
      exec (.coldReset .hostRst) s = .next t ∧
      t = { s with pins := { s.pins with host := true }, port := { s.port with held := none, answer := none },
                   hostQueue := [], slots := Vector.replicate 4 .free, cache := {}, mbx := t.mbx, engine := t.engine,
                   modules := t.modules, mgmtQueue := t.mgmtQueue, disc := t.disc, attn := t.attn, events := t.events,
                   power := t.power } ∧
      t.mbx = { s.mbx with state := .idle, result := .none, refused := false, abortLate := false } ∧
      t.power.retain = true ∧ t.attn.mode = .auto ∧ t.attn.level = s.attn.level ∧
      t.events.routes = s.events.routes ∧ t.events.mode = .pop ∧ t.events.line0En = false ∧ t.events.line1En = false ∧
      t.events.staleRelease = false ∧
      (s.events.routeOf .hostResetRetained ≠ .suppress → ∃ rest, t.events.list =
        ⟨0, .hostResetRetained, none, 0, 0, 0, 0, s.events.routeOf .hostResetRetained, false⟩ :: rest) ∧
      (∀ a, (t.entry a).state = (s.entry a).state ∧ (t.entry a).generation = (s.entry a).generation ∧
        (t.entry a).uniqueId = (s.entry a).uniqueId ∧ (t.entry a).attention ≠ .held) ∧
      (s.engine.link = .free → t.engine = s.engine) ∧
      (∀ r e d, s.engine.link = .carrying r → r.source = .host e d →
        t.engine = { s.engine with link := .carrying { r with source := .host e true } }) ∧
      (∀ r m, s.engine.link = .carrying r → r.source = .management m → t.engine = s.engine) ∧
      (∀ r n e d, s.engine.link = .holdoff r n → r.source = .host e d →
        t.engine = { s.engine with link := .holdoff { r with source := .host e true } n }) ∧
      (∀ r, s.engine.link.request? = some r → (∀ e d, r.source ≠ .host e d) → t.engine = s.engine) ∧
      (∀ n w, s.engine.link = .settling n w → t.engine = s.engine) ∧
      (s.power.state ≠ .asleep → s.power.state ≠ .draining → t.power = s.power) ∧
      ∃ u, FollowUp u t ∧
        u = { s with
          pins := { s.pins with host := true }
          port := { s.port with held := none, answer := none }
          hostQueue := []
          slots := Vector.replicate 4 .free
          cache := {}
          mbx := { s.mbx with state := .idle, result := .none, refused := false, abortLate := false }
          engine := t.engine
          modules := u.modules
          attn := { s.attn with mode := .auto, armed := true, fetches := Vector.replicate 14 none }
          events := ({ routes := s.events.routes } : EventUnit).post ⟨.hostResetRetained, none, 0, 0, 0, 0⟩ } ∧
        ∀ a, u.entry a =
          if (s.entry a).attention = .held ∨ (s.entry a).attention = .fetching then
            { s.entry a with attention := .none, clearBits := none }
          else s.entry a) ∧
    (s.pins.hold = false → exec .hostRstRelease s = .next { s with pins := { s.pins with host := false } })

/-- ATTN_ASSERTED arms the sweep, which starts in an ACTIVE link and wakes a sleeping one; ATTN_RELEASED leaves the flag
(R139, R140, R194). -/
def Obligations.AttnLevelChanges : Prop :=
  ∀ s : State, s.pins.hold = false →
    exec .attnReleased s = .next { s with attn := { s.attn with level := false } } ∧
    (s.attn.level = false → QuietLaw s → ∃ t, exec .attnAsserted s = .next t ∧ t.attn.level = true ∧
      FollowUp { s with attn := { s.attn with level := true, armed := true } } t ∧
      (s.power.state = .active → s.attn.sweep = none → t.attn.armed = false ∧
        t.attn.sweep =
          if (allAddrs.filter fun a => (s.entry a).state = .online ∧ (s.entry a).attention = .none) = [] then none
          else some (allAddrs.filter fun a => (s.entry a).state = .online ∧ (s.entry a).attention = .none)) ∧
      (s.power.state = .active → s.attn.sweep ≠ none → t.attn.armed = true ∧ t.attn.sweep = s.attn.sweep) ∧
      (s.power.state = .waking → t.attn.armed = true) ∧
      (s.power.state = .asleep → t.power.state ≠ .asleep ∧ t.power.lastWake = .attention ∧ t.power.sleepReq = false))

/-! ### Window accesses -/

/-- The seven lane groups (R65). A window access whose enables form no lane group, or that no enabled window contains, gets ERROR and
is captured in WIN_FAULT, the second with DECODE_MISS; an access that reaches no target gets ERROR and nothing else happens (R65, R67,
R74, R199). -/
def Obligations.UndecodedAccessGetsError : Prop :=
  ∀ (s : State) (addr : BitVec 17) (lanes : BitVec 4) (data : Word), s.portFree = true →
    (∀ lane w, laneGroup? lanes = some (lane, w) ↔ (lanes, lane, w) ∈ [(0x1#4, 0, Width.one), (0x2#4, 1, .one), (0x4#4, 2, .one),
      (0x8#4, 3, .one), (0x3#4, 0, .two), (0xC#4, 2, .two), (0xF#4, 0, .four)]) ∧
    (∀ dir, noTarget addr lanes = true → exec (.noTargetAccess dir addr lanes) s = .next { s with port := { s.port with
      answer := some ⟨.error, if dir = .read then some 0xFFFFFFFF#32 else none⟩ } }) ∧
    (inWindowSpace addr = true → laneGroup? lanes = none →
      exec (.windowRead addr lanes) s = .next { s with port := { s.port with
        winFault := ⟨.lanes, .read, wordAddress addr, 0xF#4⟩, answer := some ⟨.error, some 0xFFFFFFFF#32⟩ } } ∧
      exec (.windowWrite addr lanes data) s = .next { s with port := { s.port with
        winFault := ⟨.lanes, .write, wordAddress addr, 0xF#4⟩, answer := some ⟨.error, none⟩ } }) ∧
    (∀ lane w, inWindowSpace addr = true → laneGroup? lanes = some (lane, w) →
      (∀ n, (vget s.windows n).enabled = true →
        ¬((vget s.windows n).base ≤ winOffset (accessAddr addr lane) ∧
          winOffset (accessAddr addr lane) ≤ (vget s.windows n).limit)) →
      exec (.windowRead addr lanes) s = .next { s with
        port := { s.port with winFault := ⟨.unmapped, .read, accessAddr addr lane, 0xF#4⟩
                              answer := some ⟨.error, some 0xFFFFFFFF#32⟩ }
        events := s.events.post ⟨.decodeMiss, none, 1, (accessAddr addr lane).setWidth 32, 0, 0⟩ } ∧
      exec (.windowWrite addr lanes data) s = .next { s with
        port := { s.port with winFault := ⟨.unmapped, .write, accessAddr addr lane, 0xF#4⟩, answer := some ⟨.error, none⟩ }
        events := s.events.post ⟨.decodeMiss, none, 2, (accessAddr addr lane).setWidth 32, 0, 0⟩ })

/-- The four tests of a selected access, in their order, each refusing with ERROR and WIN_FAULT and nothing else
(R68, R69, R70, R74). -/
def Obligations.WindowTestsRefuse : Prop :=
  ∀ (s : State) (dir : Dir) (addr : BitVec 17) (lanes : BitVec 4) (data : Word) (lane : Nat) (w : Width) (n : Fin 8),
    s.portFree = true → inWindowSpace addr = true → laneGroup? lanes = some (lane, w) →
    Selected s (winOffset (accessAddr addr lane)) n →
    let refused (reason : WinFaultReason) : Prop :=
      exec (windowAccess dir addr lanes data) s = .next { s with port := { s.port with
        winFault := ⟨reason, dir, accessAddr addr lane, BitVec.ofNat 4 n.val⟩
        answer := some ⟨.error, if dir = .read then some 0xFFFFFFFF#32 else none⟩ } }
    let writable : Prop := dir = .write → (vget s.windows n).readOnly = false
    (w ≠ (vget s.windows n).width → refused .width) ∧
    (w = (vget s.windows n).width → ¬writable → refused .readOnly) ∧
    (w = (vget s.windows n).width → writable →
      (∀ a, modAddr? (vget s.windows n).target = some a → (s.entry a).state ≠ .online) → refused .notOnline) ∧
    (∀ a, w = (vget s.windows n).width → writable → modAddr? (vget s.windows n).target = some a →
      (s.entry a).state = .online → (vget s.windows n).expectedClass ≠ 0 →
      (s.entry a).moduleClass ≠ some (vget s.windows n).expectedClass → refused .moduleClass)

/-- A window write that passes is posted: answered OK, added at the tail with the entry's generation, the translated offset
and the lanes' data, its overlapped lines and COMPLETE slots removed and overlapped PENDING slots marked no_fill; a sleeping
link is woken; a write wider than its target takes fails WIDTH with WRITE_FAILED at once where it is the head and no earlier
entry is on the link. In either case, and in every power state, nothing else changes but by the wake and follow-up work (R71, R72,
R78, R79, R85, R88, R90, R91, R108, R116, R193). The model's choices: the order of the WAKE, the DELAYED_DISCARD and the WRITE_FAILED
records (log entry 4), and that a DISCARDED request on the link is no earlier entry (log entry 30). -/
def Obligations.WindowWriteIsPosted : Prop :=
  ∀ (s : State) (addr : BitVec 17) (lanes : BitVec 4) (data : Word) (n : Fin 8) (a : ModAddr) (lane : Nat) (w : Width),
    s.portFree = true → QuietLaw s → Passes s .write addr lanes n a lane w → s.hostQueue.length < 16 →
    let off := remoteOffset (vget s.windows n) (winOffset (accessAddr addr lane))
    let e : HostEntry := { origin := .windowWrite, addr := a, gen := (s.entry a).generation, op := .write, offset := off,
                           width := w, data := some (fromLanes lane w data), slot := none, cancelled := false,
                           diagnostic := false, cacheable := false }
    ∃ t, exec (.windowWrite addr lanes data) s = .next t ∧
      t = { s with port := { s.port with answer := some ⟨.ok, none⟩ }, hostQueue := t.hostQueue, slots := t.slots,
                   cache := t.cache, modules := t.modules, mgmtQueue := t.mgmtQueue, disc := t.disc, attn := t.attn,
                   events := t.events, power := t.power } ∧
      (s.hostQueue ≠ [] ∨ s.hostOnLink = true ∨ w.bytes ≤ (s.entry a).widthLimit.bytes →
        t.hostQueue = s.hostQueue ++ [e]) ∧
      (s.hostQueue = [] → s.hostOnLink = false → (s.entry a).widthLimit.bytes < w.bytes → t.hostQueue = []) ∧
      (∀ i, vget t.cache.lines i =
        (vget s.cache.lines i).filter fun l => !(l.addr = a ∧ bytesOverlap l.offset l.width off w = true)) ∧
      (∀ i, vget t.slots i = match vget s.slots i with
        | .free => .free
        | .pending x => if x.target = a ∧ bytesOverlap x.offset x.width off w = true then .pending { x with noFill := true }
                        else .pending x
        | .complete x o d m => if x.target = a ∧ bytesOverlap x.offset x.width off w = true then .free
                               else .complete x o d m) ∧
      (s.power.state = .asleep → t.power.state ≠ .asleep ∧ t.power.lastWake = .host ∧ t.power.sleepReq = false) ∧
      (s.power.state = .active → t.power = s.power) ∧
      (∃ u, WriteTakesEffect a off w (hostWake s) u ∧
        (s.hostQueue ≠ [] ∨ s.hostOnLink = true ∨ w.bytes ≤ (s.entry a).widthLimit.bytes →
          FollowUp { u with hostQueue := s.hostQueue ++ [e], port := { s.port with answer := some ⟨.ok, none⟩ } } t) ∧
        (s.hostQueue = [] → s.hostOnLink = false → (s.entry a).widthLimit.bytes < w.bytes →
          HeadFailsAlone e s.mbx ⟨.writeFailed, some a, 8, off.setWidth 32, BitVec.ofNat 32 w.bytes, fromLanes lane w data⟩
            { u with port := { s.port with answer := some ⟨.ok, none⟩ } } t)) ∧
      ∃ u, WriteTakesEffect a off w s u ∧
        (s.power.state ≠ .asleep →
          s.hostQueue ≠ [] ∨ s.hostOnLink = true ∨ w.bytes ≤ (s.entry a).widthLimit.bytes →
          FollowUp { u with hostQueue := s.hostQueue ++ [e], port := { s.port with answer := some ⟨.ok, none⟩ } } t) ∧
        (s.power.state ≠ .asleep → DueLaw s → s.hostQueue = [] → s.hostOnLink = false →
          (s.entry a).widthLimit.bytes < w.bytes →
          t.events.list = (u.events.post ⟨.writeFailed, some a, 8, off.setWidth 32, BitVec.ofNat 32 w.bytes,
                                          fromLanes lane w data⟩).list)

/-- A window access that meets a full host request queue is held for HOST_HOLD with the decode it was taken with, or with
HOST_HOLD 0 refused at once: a write with ERROR, a read with RETRY (R82, R200). -/
def Obligations.FullQueueHoldsOrRefuses : Prop :=
  ∀ (s : State) (addr : BitVec 17) (lanes : BitVec 4) (data : Word) (n : Fin 8) (a : ModAddr) (lane : Nat) (w : Width),
    s.portFree = true → 16 ≤ s.hostQueue.length →
    let off := remoteOffset (vget s.windows n) (winOffset (accessAddr addr lane))
    (Passes s .write addr lanes n a lane w → s.timing.hostHold = 0 →
      exec (.windowWrite addr lanes data) s = .next { s with port := { s.port with answer := some ⟨.error, none⟩ } }) ∧
    (Passes s .write addr lanes n a lane w → s.timing.hostHold ≠ 0 →
      exec (.windowWrite addr lanes data) s = .next { s with port := { s.port with
        answer := none
        held := some ⟨.writePlace { origin := .windowWrite, addr := a, gen := (s.entry a).generation, op := .write,
                                    offset := off, width := w, data := some (fromLanes lane w data), slot := none,
                                    cancelled := false, diagnostic := false, cacheable := false },
                      s.timing.hostHold, 0⟩ } }) ∧
    (∀ i, Passes s .read addr lanes n a lane w → Misses s n a off w →
      (∀ j, ¬Matches (vget s.slots j) (accessAddr addr lane) w) → vget s.slots i = .free →
      exec (.windowRead addr lanes) s = .next { s with port := { s.port with
        answer := if s.timing.hostHold = 0 then some ⟨.retry, none⟩ else none
        held := if s.timing.hostHold = 0 then s.port.held else
          some ⟨.readPlace { hostAddr := accessAddr addr lane, width := w, window := n, target := a,
                             gen := (s.entry a).generation, offset := off, cacheable := (vget s.windows n).cacheable },
                s.timing.hostHold, 0⟩ } })

/-- A cacheable read that hits a line is answered OK with the line's value on its lanes; the line becomes the most recently
used, and a COMPLETE slot that matches the access is freed (R113). -/
def Obligations.CachedReadHits : Prop :=
  ∀ (s : State) (addr : BitVec 17) (lanes : BitVec 4) (n : Fin 8) (a : ModAddr) (lane : Nat) (w : Width) (i : Fin 32)
    (l : Line), s.portFree = true → CacheLaw s → Passes s .read addr lanes n a lane w →
    (vget s.windows n).cacheable = true → vget s.cache.lines i = some l → l.addr = a → l.gen = (s.entry a).generation →
    l.offset = remoteOffset (vget s.windows n) (winOffset (accessAddr addr lane)) → l.width = w →
    ∃ t, exec (.windowRead addr lanes) s = .next t ∧
      t = { s with
        port := { s.port with answer := some ⟨.ok, some (toLanes ((accessAddr addr lane).toNat % 4) w l.value)⟩ }
        cache := { s.cache with useOrder := s.cache.useOrder.filter (· ≠ i) ++ [i] }
        slots := t.slots } ∧
      (∀ j, vget t.slots j = vget s.slots j ∨
        vget t.slots j = .free ∧ Matches (vget s.slots j) (accessAddr addr lane) w ∧ (vget s.slots j).isPending = false) ∧
      (∀ j x o d m, vget s.slots j = .complete x o d m → Matches (vget s.slots j) (accessAddr addr lane) w →
        (∀ k < j, ¬Matches (vget s.slots k) (accessAddr addr lane) w) → vget t.slots j = .free)

/-- A read that matches a COMPLETE slot collects it: OK with its data, or ERROR with READ_FAULT, and the slot is FREE
(R105). -/
def Obligations.CompleteSlotIsCollected : Prop :=
  ∀ (s : State) (addr : BitVec 17) (lanes : BitVec 4) (n : Fin 8) (a : ModAddr) (lane : Nat) (w : Width) (j : Fin 4)
    (x : SlotInfo) (o : LinkOutcome) (d : Option Word) (m : Nat), s.portFree = true → Passes s .read addr lanes n a lane w →
    Misses s n a (remoteOffset (vget s.windows n) (winOffset (accessAddr addr lane))) w →
    vget s.slots j = .complete x o d m → x.hostAddr = accessAddr addr lane → x.width = w →
    (∀ k < j, ¬Matches (vget s.slots k) (accessAddr addr lane) w) →
    exec (.windowRead addr lanes) s = .next { s with
      slots := vset s.slots j .free
      port := { s.port with
        answer := some (if o = .ok then ⟨.ok, some (toLanes ((accessAddr addr lane).toNat % 4) w (d.getD 0))⟩
                        else ⟨.error, some 0xFFFFFFFF#32⟩)
        readFault := if o = .ok then s.port.readFault
                     else ⟨some o, accessAddr addr lane, BitVec.ofNat 3 w.bytes, BitVec.ofNat 2 j.val⟩ } }

/-- A read that matches a PENDING slot is answered RETRY and changes nothing (R106). -/
def Obligations.PendingSlotGivesRetry : Prop :=
  ∀ (s : State) (addr : BitVec 17) (lanes : BitVec 4) (n : Fin 8) (a : ModAddr) (lane : Nat) (w : Width) (j : Fin 4)
    (x : SlotInfo), s.portFree = true → Passes s .read addr lanes n a lane w →
    Misses s n a (remoteOffset (vget s.windows n) (winOffset (accessAddr addr lane))) w →
    vget s.slots j = .pending x → x.hostAddr = accessAddr addr lane → x.width = w →
    (∀ k < j, ¬Matches (vget s.slots k) (accessAddr addr lane) w) →
    exec (.windowRead addr lanes) s = .next { s with port := { s.port with answer := some ⟨.retry, none⟩ } }

/-- A read that matches no slot is given the lowest-numbered FREE one and its entry joins the queue; the access is held, or
with HOST_HOLD 0 answered RETRY; a sleeping link is woken; with no slot FREE the answer is RETRY. A read wider than its
target takes completes its slot WIDTH at once where it is the head and no earlier entry is on the link: ERROR with READ_FAULT for
the access held for it. Nothing else changes but by the wake and follow-up work (R80, R85, R88, R90, R99, R102, R103, R105, R193;
that a DISCARDED request on the link is no earlier entry is the model's choice, log entry 30). -/
def Obligations.ReadIsGivenASlot : Prop :=
  ∀ (s : State) (addr : BitVec 17) (lanes : BitVec 4) (n : Fin 8) (a : ModAddr) (lane : Nat) (w : Width),
    s.portFree = true → QuietLaw s → Passes s .read addr lanes n a lane w →
    let off := remoteOffset (vget s.windows n) (winOffset (accessAddr addr lane))
    Misses s n a off w → (∀ k, ¬Matches (vget s.slots k) (accessAddr addr lane) w) →
    ((∀ k, vget s.slots k ≠ .free) →
      exec (.windowRead addr lanes) s = .next { s with port := { s.port with answer := some ⟨.retry, none⟩ } }) ∧
    (∀ i, vget s.slots i = .free → (∀ k < i, vget s.slots k ≠ .free) → s.hostQueue.length < 16 →
      (s.hostQueue ≠ [] ∨ s.hostOnLink = true ∨ w.bytes ≤ (s.entry a).widthLimit.bytes) →
      ∃ t, exec (.windowRead addr lanes) s = .next t ∧
        t = { s with
          port := { s.port with
            answer := if s.timing.hostHold = 0 then some ⟨.retry, none⟩ else none
            held := if s.timing.hostHold = 0 then s.port.held else some ⟨.slot i, s.timing.hostHold, 0⟩ }
          hostQueue := s.hostQueue ++ [{ origin := .windowRead, addr := a, gen := (s.entry a).generation, op := .read,
                                         offset := off, width := w, data := none, slot := some i, cancelled := false,
                                         diagnostic := false, cacheable := (vget s.windows n).cacheable }]
          slots := vset s.slots i (.pending ⟨accessAddr addr lane, w, n, a, off, false⟩)
          modules := t.modules, mgmtQueue := t.mgmtQueue, disc := t.disc, attn := t.attn, events := t.events,
          power := t.power } ∧
        (s.power.state = .asleep → t.power.state ≠ .asleep ∧ t.power.lastWake = .host ∧ t.power.sleepReq = false) ∧
        (s.power.state = .active → t.power = s.power) ∧
        FollowUp { hostWake s with port := t.port, hostQueue := t.hostQueue, slots := t.slots } t) ∧
    (∀ i, vget s.slots i = .free → (∀ k < i, vget s.slots k ≠ .free) → s.hostQueue = [] → s.hostOnLink = false →
      (s.entry a).widthLimit.bytes < w.bytes →
      ∃ t, exec (.windowRead addr lanes) s = .next t ∧ t.hostQueue = [] ∧ t.port.held = none ∧
        (s.timing.hostHold ≠ 0 → t.slots = s.slots ∧ t.port.answer = some ⟨.error, some 0xFFFFFFFF#32⟩ ∧
          t.port.readFault = ⟨some .width, accessAddr addr lane, BitVec.ofNat 3 w.bytes, BitVec.ofNat 2 i.val⟩) ∧
        (s.timing.hostHold = 0 → t.port = { s.port with answer := some ⟨.retry, none⟩ } ∧
          t.slots = vset s.slots i (.complete ⟨accessAddr addr lane, w, n, a, off, false⟩ .width none 0)) ∧
        t.port = { s.port with answer := t.port.answer, readFault := t.port.readFault } ∧
        FollowUp { hostWake s with port := t.port, slots := t.slots } t)

/-- HELD_ACCESS_ENQUEUE: a held write is added with its write-side effects and answered OK; a held read is given a slot and stays
held for it, or gets RETRY where none is FREE; a sleeping link is woken. An entry that is the head at once, with no earlier entry on the
link, and fails a check completes in the same event: a write posts WRITE_FAILED, a read gets ERROR with READ_FAULT and its slot is FREE
again. Nothing else changes but by the wake and follow-up work. HOST_HOLD_EXPIRY: a write gets ERROR and a read RETRY, with nothing
added or removed (R79, R80, R82, R85 to R91, R102, R103, R105, R193, R200). The model's choices: the order of the WAKE, the
DELAYED_DISCARD and the WRITE_FAILED records (log entry 4), and that a DISCARDED request on the link is no earlier entry (log entry
30). -/
def Obligations.HeldAccessEnds : Prop :=
  ∀ (s : State) (h : Held), s.pins.hold = false → s.port.held = some h →
    (∃ t, exec .hostHoldExpiry s = .next { t with port := { t.port with
        held := none
        answer := some (match h.what with
          | .writePlace _ => ⟨.error, none⟩
          | .readPlace _ => ⟨.retry, none⟩
          | .slot _ => ⟨.retry, none⟩) } } ∧ OnlyTimePasses (h.period - h.elapsed) s t) ∧
    (∀ e, h.what = .writePlace e → QuietLaw s → s.hostQueue.length < 16 →
      s.hostQueue ≠ [] ∨ s.hostOnLink = true ∨ headCheck e s = none →
      ∃ t, exec .heldAccessEnqueue s = .next t ∧ t.hostQueue = s.hostQueue ++ [e] ∧
        t = { s with port := { s.port with held := none, answer := some ⟨.ok, none⟩ }, hostQueue := t.hostQueue,
                     slots := t.slots, cache := t.cache, modules := t.modules, mgmtQueue := t.mgmtQueue, disc := t.disc,
                     attn := t.attn, events := t.events, power := t.power } ∧
        (s.power.state = .asleep → t.power.state ≠ .asleep ∧ t.power.lastWake = .host ∧ t.power.sleepReq = false) ∧
        (∃ u, WriteTakesEffect e.addr e.offset e.width s u ∧ t.cache = u.cache ∧ t.slots = u.slots ∧
          (s.power.state ≠ .asleep → FollowUp { u with
            hostQueue := s.hostQueue ++ [e], port := { s.port with held := none, answer := some ⟨.ok, none⟩ } } t)) ∧
        ∃ u, WriteTakesEffect e.addr e.offset e.width (hostWake s) u ∧ FollowUp { u with
          hostQueue := s.hostQueue ++ [e], port := { s.port with held := none, answer := some ⟨.ok, none⟩ } } t) ∧
    (∀ e o, h.what = .writePlace e → e.origin = .windowWrite → s.hostQueue = [] → s.hostOnLink = false →
      headCheck e s = some o →
      ∃ t u, exec .heldAccessEnqueue s = .next t ∧ WriteTakesEffect e.addr e.offset e.width (hostWake s) u ∧ t.hostQueue = [] ∧
        t.port = { s.port with held := none, answer := some ⟨.ok, none⟩ } ∧ t.slots = u.slots ∧ t.cache = u.cache ∧
        HeadFailsAlone e s.mbx ⟨.writeFailed, some e.addr, outcomeCode o, e.offset.setWidth 32, BitVec.ofNat 32 e.width.bytes,
                                e.data.getD 0⟩ { u with port := t.port } t) ∧
    (∀ acc, h.what = .readPlace acc → s.hostQueue.length < 16 → (∀ k, vget s.slots k ≠ .free) →
      exec .heldAccessEnqueue s = .next { s with port := { s.port with held := none, answer := some ⟨.retry, none⟩ } }) ∧
    ∀ (acc : ReadAccess) (i : Fin 4) (e : HostEntry), h.what = .readPlace acc → QuietLaw s → s.hostQueue.length < 16 →
      vget s.slots i = .free → (∀ k < i, vget s.slots k ≠ .free) →
      e = { origin := .windowRead, addr := acc.target, gen := acc.gen, op := .read, offset := acc.offset, width := acc.width,
            data := none, slot := some i, cancelled := false, diagnostic := false, cacheable := acc.cacheable } →
      (s.hostQueue ≠ [] ∨ s.hostOnLink = true ∨ headCheck e s = none →
        ∃ t, exec .heldAccessEnqueue s = .next t ∧
          t = { s with
            port := { s.port with held := some { h with what := .slot i } }
            hostQueue := s.hostQueue ++ [e]
            slots := vset s.slots i (.pending ⟨acc.hostAddr, acc.width, acc.window, acc.target, acc.offset, false⟩)
            modules := t.modules, mgmtQueue := t.mgmtQueue, disc := t.disc, attn := t.attn, events := t.events,
            power := t.power } ∧
          (s.power.state = .asleep → t.power.state ≠ .asleep ∧ t.power.lastWake = .host ∧ t.power.sleepReq = false) ∧
          FollowUp { hostWake s with port := t.port, hostQueue := t.hostQueue, slots := t.slots } t) ∧
      (∀ o, s.hostQueue = [] → s.hostOnLink = false → headCheck e s = some o →
        ∃ t, exec .heldAccessEnqueue s = .next t ∧ t.hostQueue = [] ∧ t.slots = s.slots ∧
          t.port = { s.port with
            held := none
            answer := some ⟨.error, some 0xFFFFFFFF#32⟩
            readFault := ⟨some o, acc.hostAddr, BitVec.ofNat 3 acc.width.bytes, BitVec.ofNat 2 i.val⟩ } ∧
          FollowUp { hostWake s with port := t.port } t)

/-! ### Register writes -/

/-- A write of any width but four bytes to a register gets ERROR and changes nothing, whichever command it would have been
(R201). -/
def Obligations.PartialRegisterWriteGetsError : Prop :=
  ∀ (s : State) (c : Instr) (lanes : BitVec 4), s.portFree = true → writeLanes c = some lanes → lanes ≠ 0xF#4 →
    exec c s = .next { s with port := { s.port with answer := some ⟨.error, none⟩ } }

/-- Window registers: a field is replaced while the window is disabled and autoload does not run, and the write refused otherwise
or for a width code of 3; a window is enabled when its four tests pass, and disabled at any time while autoload does not run
(R61, R62, R63, R64, R183). -/
def Obligations.WindowRegisterWrites : Prop :=
  ∀ (s : State) (n : Fin 8) (data : Word), s.portFree = true →
    let w := vget s.windows n
    let taken (w' : Window) : State :=
      { s with windows := vset s.windows n w', port := { s.port with answer := some ⟨.ok, none⟩ } }
    let refused : State := { s with port := { s.port with answer := some ⟨.error, none⟩ } }
    let tests : Prop := w.base ≤ w.limit ∧ 1 ≤ w.target.toNat ∧ w.target.toNat ≤ 14 ∧
      w.remoteBase.toNat + (w.limit - w.base) ≤ 0xFFFF ∧ w.width.bytes ∣ w.remoteBase.toNat
    (s.autoloadRuns = true ∨ w.enabled = true → ∀ f, exec (.winFieldWrite n f 0xF#4 data) s = .next refused) ∧
    (s.autoloadRuns = false → w.enabled = false →
      exec (.winFieldWrite n .range 0xF#4 data) s =
        .next (taken { w with basePage := data.extractLsb' 0 8, limitPage := data.extractLsb' 8 8 }) ∧
      exec (.winFieldWrite n .target 0xF#4 data) s =
        .next (taken { w with target := data.extractLsb' 0 4, expectedClass := data.extractLsb' 16 16 }) ∧
      exec (.winFieldWrite n .remote 0xF#4 data) s = .next (taken { w with remoteBase := data.extractLsb' 0 16 }) ∧
      (data.extractLsb' 0 2 = 3#2 → exec (.winFieldWrite n .attr 0xF#4 data) s = .next refused) ∧
      (∀ wd : Width, data.extractLsb' 0 2 = BitVec.ofNat 2 wd.code → exec (.winFieldWrite n .attr 0xF#4 data) s =
        .next (taken { w with width := wd, readOnly := data.getLsbD 4, cacheable := data.getLsbD 5 })) ∧
      (tests → exec (.winEnable n 0xF#4) s = .next (taken { w with enabled := true })) ∧
      (¬tests → exec (.winEnable n 0xF#4) s = .next refused)) ∧
    (s.autoloadRuns = true →
      exec (.winEnable n 0xF#4) s = .next refused ∧ exec (.winDisable n 0xF#4) s = .next refused) ∧
    (s.autoloadRuns = false → exec (.winDisable n 0xF#4) s = .next (taken { w with enabled := false })) ∧
    (s.autoloadRuns = false → w.enabled = true →
      exec (.winEnable n 0xF#4) s = .next { s with port := { s.port with answer := some ⟨.ok, none⟩ } })

/-- Writes to WIN_FAULT, READ_FAULT, BIND_SEL and MOD_SEL (R49, R74, R105, R204). -/
def Obligations.FaultAndSelectionWrites : Prop :=
  ∀ (s : State) (data : Word), s.portFree = true →
    let refused : State := { s with port := { s.port with answer := some ⟨.error, none⟩ } }
    let names : Prop := 1 ≤ (data.extractLsb' 0 4).toNat ∧ (data.extractLsb' 0 4).toNat ≤ 14
    exec (.winFaultReset 0xF#4) s = .next { s with port := { s.port with
      winFault := ⟨.none, .read, 0, 0xF#4⟩, answer := some ⟨.ok, none⟩ } } ∧
    exec (.readFaultReset 0xF#4) s = .next { s with port := { s.port with
      readFault := ⟨none, 0, 0, 0⟩, answer := some ⟨.ok, none⟩ } } ∧
    (names → exec (.bindSelWrite 0xF#4 data) s = .next { s with port := { s.port with
      bindSel := data.extractLsb' 0 4, answer := some ⟨.ok, none⟩ } }) ∧
    (¬names → exec (.bindSelWrite 0xF#4 data) s = .next refused) ∧
    (names → exec (.modSelWrite 0xF#4 data) s = .next { s with port := { s.port with
      modSel := data.extractLsb' 0 4, answer := some ⟨.ok, none⟩ } }) ∧
    (¬names → exec (.modSelWrite 0xF#4 data) s = .next refused)

/-- A timing write: a value in the range and on the step that the timing table gives its parameter, in numbers, is taken, and
compared with the timers of the interval it sets and with no others: a poll timer already past it makes its PING due and stops, and a
discard timer already past it frees its slot with DELAYED_DISCARD TIMEOUT; any other value, and any write while autoload runs, gets
ERROR. Nothing else changes but by follow-up work (R39, R107, R185, R203). The model's choices: that a write is compared with the
timers of its own interval alone (log entry 2), and the order of several DELAYED_DISCARDs (log entry 4). -/
def Obligations.TimingWrites : Prop :=
  ∀ (s : State) (p : Param) (data : Word), s.portFree = true →
    (s.autoloadRuns = true ∨ ¬InTimingTable p data.toNat →
      exec (.timingWrite p 0xF#4 data) s = .next { s with port := { s.port with answer := some ⟨.error, none⟩ } }) ∧
    (s.autoloadRuns = false → InTimingTable p data.toNat → QuietLaw s →
      ∃ t, exec (.timingWrite p 0xF#4 data) s = .next t ∧
        (∀ q, t.timing.value q = if q = p then data.toNat else s.timing.value q) ∧
        t = { s with timing := t.timing, port := { s.port with answer := some ⟨.ok, none⟩ }, slots := t.slots,
                     modules := t.modules, mgmtQueue := t.mgmtQueue, disc := t.disc, attn := t.attn, events := t.events,
                     power := t.power } ∧
        (p ≠ .discardTime → t.slots = s.slots ∧ t.events.list = s.events.list) ∧
        (p = .discardTime → (∀ i, vget t.slots i = discardsTaken data.toNat s i) ∧
          t.events.list = (discardRecords data.toNat s s.events).list) ∧
        (∀ a m, (s.entry a).pollTimer = some m → s.power.state = .active ∨ s.power.state = .draining →
          p = .pollInterval ∧ (s.entry a).state = .online ∨ p = .quarPollInterval ∧ (s.entry a).state = .quarantined →
          ((t.entry a).pollTimer = if data.toNat * 1000 ≤ m then none else some m) ∧
            (data.toNat * 1000 ≤ m → PingUnderWay t a)) ∧
        ∃ u, FollowUp u t ∧
          u = { s with timing := t.timing, port := t.port, slots := t.slots, modules := u.modules
                       events := if p = .discardTime then discardRecords data.toNat s s.events else s.events } ∧
          ∀ a, u.entry a =
            if p = .pollInterval ∧ (s.entry a).state = .online ∨ p = .quarPollInterval ∧ (s.entry a).state = .quarantined then
              pollTaken data.toNat s a
            else s.entry a)

/-- Writes to the route registers, EVT_MODE, EVT_LINE_EN and EVT_STATUS (R163, R165, R167, R168; for a route value above 3,
log entry 11). -/
def Obligations.EventRegisterWrites : Prop :=
  ∀ (s : State) (data : Word), s.portFree = true →
    let taken (u : EventUnit) : State := { s with events := u, port := { s.port with answer := some ⟨.ok, none⟩ } }
    let refused : State := { s with port := { s.port with answer := some ⟨.error, none⟩ } }
    (∀ (k : Kind) (r : Route), data.toNat = routeCode r → s.autoloadRuns = false →
      ¬(r = .suppress ∧ (k = .attention ∨ k = .overflow)) →
      ∃ u, exec (.routeWrite k 0xF#4 data) s = .next (taken u) ∧ u = { s.events with routes := u.routes } ∧
        ∀ j, u.routeOf j = if j = k then r else s.events.routeOf j) ∧
    (∀ k : Kind, s.autoloadRuns = true ∨ 3 < data.toNat ∨ data.toNat = 3 ∧ (k = .attention ∨ k = .overflow) →
      exec (.routeWrite k 0xF#4 data) s = .next refused) ∧
    (data = 0 → exec (.evtModeWrite 0xF#4 data) s = .next (taken { s.events with mode := .pop })) ∧
    (data = 1 → exec (.evtModeWrite 0xF#4 data) s = .next (taken { s.events with mode := .release })) ∧
    (data ≠ 0 → data ≠ 1 → exec (.evtModeWrite 0xF#4 data) s = .next refused) ∧
    exec (.evtLineEnWrite 0xF#4 data) s =
      .next (taken { s.events with line0En := data.getLsbD 0, line1En := data.getLsbD 1 }) ∧
    exec (.evtStatusClear 0xF#4 data) s =
      .next (taken { s.events with staleRelease := s.events.staleRelease && !data.getLsbD 0 })

/-- A read of EVT_W3 at any width returns detail C of the head, and in POP mode removes the head, a held ATTENTION record's
entry going from HELD to CLEAR_DUE; on an empty queue it returns 0 and removes nothing; in RELEASE mode it removes nothing, and with
enables that form no lane group it gets ERROR and removes nothing. In POP mode a write to EVT_RELEASE gets ERROR. Nothing else
changes but by follow-up work (R161, R164, R199, R201). -/
def Obligations.PopRemovesTheHead : Prop :=
  ∀ (s : State) (lanes : BitVec 4), s.portFree = true →
    (laneGroup? lanes = none → exec (.evtPop lanes) s =
      .next { s with port := { s.port with answer := some ⟨.error, some 0xFFFFFFFF#32⟩ } }) ∧
    (∀ lane w, QuietLaw s → laneGroup? lanes = some (lane, w) → s.events.list = [] → s.events.mode = .pop →
      ∃ t, exec (.evtPop lanes) s = .next t ∧ FollowUp { s with port := { s.port with answer := some ⟨.ok, some 0⟩ } } t) ∧
    (∀ lane w, laneGroup? lanes = some (lane, w) → s.events.list = [] → s.events.mode = .release →
      exec (.evtPop lanes) s = .next { s with port := { s.port with answer := some ⟨.ok, some 0⟩ } }) ∧
    (∀ lane w r rest, laneGroup? lanes = some (lane, w) → s.events.list = r :: rest → s.events.mode = .release →
      exec (.evtPop lanes) s =
        .next { s with port := { s.port with answer := some ⟨.ok, some (enabledLanes lane w r.detailC)⟩ } }) ∧
    (∀ lane w r rest, QuietLaw s → laneGroup? lanes = some (lane, w) → s.events.list = r :: rest → s.events.mode = .pop →
      ∃ t u, exec (.evtPop lanes) s = .next t ∧ FollowUp u t ∧
      u = { s with port := { s.port with answer := some ⟨.ok, some (enabledLanes lane w r.detailC)⟩ }
                   events := { s.events with list := rest }
                   modules := u.modules } ∧
      ∀ a, u.entry a = { s.entry a with attention :=
        if r.kind = .attention ∧ r.held = true ∧ r.address = some a ∧ (s.entry a).attention = .held then .clearDue
        else (s.entry a).attention }) ∧
    (s.events.mode = .pop → ∀ data, exec (.evtRelease 0xF#4 data) s =
      .next { s with port := { s.port with answer := some ⟨.error, none⟩ } })

/-- In RELEASE mode a 4-byte write to EVT_RELEASE removes the head if the value is its seq, and otherwise removes nothing and
sets STALE_RELEASE; both end OK (R162). -/
def Obligations.ReleaseNamesTheHead : Prop :=
  ∀ (s : State) (data : Word), s.portFree = true → QuietLaw s → s.events.mode = .release →
    (∀ lanes : BitVec 4, lanes ≠ 0xF#4 → exec (.evtRelease lanes data) s =
      .next { s with port := { s.port with answer := some ⟨.error, none⟩ } }) ∧
    (∀ r rest, s.events.list = r :: rest → data.toNat = r.seq.toNat → ∃ t u, exec (.evtRelease 0xF#4 data) s = .next t ∧
      FollowUp u t ∧
      u = { s with port := { s.port with answer := some ⟨.ok, none⟩ }, events := { s.events with list := rest }
                   modules := u.modules } ∧
      ∀ a, u.entry a = { s.entry a with attention :=
        if r.kind = .attention ∧ r.held = true ∧ r.address = some a ∧ (s.entry a).attention = .held then .clearDue
        else (s.entry a).attention }) ∧
    (∀ r rest, s.events.list = r :: rest → data.toNat ≠ r.seq.toNat → exec (.evtRelease 0xF#4 data) s =
      .next { s with port := { s.port with answer := some ⟨.ok, none⟩ }
                     events := { s.events with staleRelease := true } }) ∧
    (s.events.list = [] → exec (.evtRelease 0xF#4 data) s =
      .next { s with port := { s.port with answer := some ⟨.ok, none⟩ }
                     events := { s.events with staleRelease := true } }) ∧
    exec (.evtStatusClear 0xF#4 1) s = .next { s with port := { s.port with answer := some ⟨.ok, none⟩ }
                                                      events := { s.events with staleRelease := false } }

/-- The mode writes of the attention unit: HELD takes effect for later fetches; AUTO moves every entry in HELD to CLEAR_DUE with
its clear_bits kept and clears those records' held flags, and changes nothing where the mode is AUTO already (R149, R150). -/
def Obligations.AttentionModeWrites : Prop :=
  ∀ s : State, s.portFree = true → QuietLaw s →
    let s1 : State := { s with port := { s.port with answer := some ⟨.ok, none⟩ } }
    (∃ t, exec (.attnModeHeld 0xF#4) s = .next t ∧ FollowUp { s1 with attn := { s.attn with mode := .held } } t) ∧
    (s.attn.mode = .auto → exec (.attnModeAuto 0xF#4) s = .next s1) ∧
    (s.attn.mode = .held → ∃ t u, exec (.attnModeAuto 0xF#4) s = .next t ∧ FollowUp u t ∧
      u = { s1 with attn := { s.attn with mode := .auto }, events := u.events, modules := u.modules } ∧
      (∀ a, u.entry a = { s.entry a with attention :=
        if (s.entry a).attention = .held then .clearDue else (s.entry a).attention }) ∧
      u.events = { s.events with list := s.events.list.map fun r =>
        if r.kind = .attention ∧ r.held = true ∧ r.address.any (fun a => (s.entry a).attention = .held) = true then
          { r with held := false } else r })

/-- Writes of PWR_CTRL: RETAIN as written; SLEEP_REQ set in ACTIVE begins to drain and in WAKING is noted; SLEEP_REQ cleared
ends a drain, and wakes a sleeping link with WAKE HOST, which with SETTLE_TIME 0 leaves WAKING at once. A drain that ends starts an
armed sweep while ATTN is ASSERTED, and one that begins while a DISCOVER_NOW waits for discovery is given up at once (R140, R188, R189,
R191, R193, R195; log entry 23 for a DISCOVER_NOW whose query the drain drops). -/
def Obligations.PowerControlWrites : Prop :=
  ∀ (s : State) (retain : Bool), s.portFree = true → QuietLaw s →
    let s1 : State := { s with port := { s.port with answer := some ⟨.ok, none⟩ }, power := { s.power with retain := retain } }
    (∃ t, exec (.retainWrite retain 0xF#4) s = .next t ∧ FollowUp s1 t) ∧
    (s.power.sleepReq = true → ∃ t, exec (.sleepRequest retain 0xF#4) s = .next t ∧ FollowUp s1 t) ∧
    (s.power.sleepReq = false → s.power.state = .active → ∃ t, exec (.sleepRequest retain 0xF#4) s = .next t ∧
      FollowUp { s1 with power := { s1.power with sleepReq := true, state := .draining } } t) ∧
    (s.power.sleepReq = false → s.power.state = .active → s.mbx.runs opDiscoverNow = true → ¬DiscCarried s →
      ∃ t, exec (.sleepRequest retain 0xF#4) s = .next t ∧ t.power = { s.power with retain := retain }) ∧
    (s.power.sleepReq = false → s.power.state = .waking → ∃ t, exec (.sleepRequest retain 0xF#4) s = .next t ∧
      FollowUp { s1 with power := { s1.power with sleepReq := true } } t) ∧
    (s.power.sleepReq = false → ∃ t, exec (.sleepCancel retain 0xF#4) s = .next t ∧ FollowUp s1 t) ∧
    (s.power.sleepReq = true → s.power.state = .draining → ∃ t, exec (.sleepCancel retain 0xF#4) s = .next t ∧
      FollowUp { s1 with power := { s1.power with sleepReq := false, state := .active } } t ∧
      (s.attn.armed = true → s.attn.level = true → s.attn.sweep = none →
        t.attn.armed = false ∧ t.attn.sweep = if sweepSet s = [] then none else some (sweepSet s))) ∧
    (s.power.sleepReq = true → s.power.state = .waking → ∃ t, exec (.sleepCancel retain 0xF#4) s = .next t ∧
      FollowUp { s1 with power := { s1.power with sleepReq := false } } t) ∧
    (s.power.sleepReq = true → s.power.state = .asleep → s.timing.settleTime ≠ 0 →
      ∃ t, exec (.sleepCancel retain 0xF#4) s = .next t ∧
        FollowUp { s1 with power := { s1.power with state := .waking, sleepReq := false, lastWake := .host, wakeTimer := some 0
                                                    wakeSettle := some (s.timing.settleTime * 1000) }
                           events := s.events.post ⟨.wake, none, 1, 0, 0, 0⟩ } t) ∧
    (s.power.sleepReq = true → s.power.state = .asleep → s.timing.settleTime = 0 →
      ∃ t u, exec (.sleepCancel retain 0xF#4) s = .next t ∧ FollowUp u t ∧
        u = { s1 with power := { s1.power with state := .active, sleepReq := false, lastWake := .host, wakeTimer := none
                                               wakeSettle := none }
                      events := s.events.post ⟨.wake, none, 1, 0, 0, 0⟩
                      attn := { s.attn with armed := true }
                      modules := u.modules } ∧
        ∀ a, u.entry a = { s.entry a with pingDue := (s.entry a).pingDue ||
          (decide ((s.entry a).state = .online ∨ (s.entry a).state = .quarantined) &&
            !s.mgmtHas fun m => m = .ping a (s.entry a).generation) })

/-- Writes to the mailbox's argument registers and to MBX_STATUS (R121, R122). -/
def Obligations.MailboxRegisterWrites : Prop :=
  ∀ (s : State) (data : Word), s.portFree = true →
    let taken (m : Mailbox) : State := { s with mbx := m, port := { s.port with answer := some ⟨.ok, none⟩ } }
    exec (.mbxStatusClear 0xF#4 data) s = .next (taken { s.mbx with refused := s.mbx.refused && !data.getLsbD 8
                                                                    abortLate := s.mbx.abortLate && !data.getLsbD 9 }) ∧
    (s.mbx.busy = true →
      ∀ o ∈ [0x080#12, 0x084#12, 0x088#12, 0x08C#12, 0x090#12, 0x094#12, 0x098#12], exec (.registerWrite o 0xF#4 data) s =
        .next { s with port := { s.port with answer := some ⟨.error, none⟩ } }) ∧
    (s.mbx.busy = false →
      exec (.registerWrite 0x080#12 0xF#4 data) s = .next (taken { s.mbx with op := data.extractLsb' 0 8 }) ∧
      exec (.registerWrite 0x084#12 0xF#4 data) s = .next (taken { s.mbx with target := data.extractLsb' 0 4 }) ∧
      exec (.registerWrite 0x088#12 0xF#4 data) s = .next (taken { s.mbx with offset := data.extractLsb' 0 16 }) ∧
      exec (.registerWrite 0x08C#12 0xF#4 data) s = .next (taken { s.mbx with width := data.extractLsb' 0 8 }) ∧
      exec (.registerWrite 0x090#12 0xF#4 data) s = .next (taken { s.mbx with data := data }) ∧
      exec (.registerWrite 0x094#12 0xF#4 data) s = .next (taken { s.mbx with xdata := data }) ∧
      exec (.registerWrite 0x098#12 0xF#4 data) s =
        .next (taken { s.mbx with flagMode := data.extractLsb' 0 2, replace := data.getLsbD 4 }))

/-- A REGISTER_WRITE that reaches a read-only register gets ERROR; one that reaches ATTN_MODE acts as the mode write that its
value names, or gets ERROR where it names none (R138, R201). What every register of section 12.2 reads: the status registers, the
modes, faults and counts, the mailbox words, the timing and route registers, the head record, the slot views, the binding and the
module table view and the window registers with their views, and the codes they show. What the pins show: the response code, HRDY, the
span link, BM_SEL and the interrupt lines (R49, R61, R77, R100, R160, R166, R168, R200 to R205, R209, R211). Of a disabled window's third
view word nothing is said (log entry 31). The model's choices: that no register stands at 0x25C (log entry 32), that bit 8 of HRQ_LEVEL
stays set for a DISCARDED request on the link (log entry 40), and that HRDY stays asserted while no access is in progress (log entry
41). -/
def Obligations.OtherRegisterWrites : Prop :=
  (∀ (s : State) (data : Word), s.portFree = true →
    let refused : State := { s with port := { s.port with answer := some ⟨.error, none⟩ } }
    (∀ o ∈ [0x004#12, 0x008#12, 0x00C#12, 0x010#12, 0x014#12, 0x018#12, 0x020#12, 0x0A8#12, 0x0C0#12, 0x0C4#12, 0x0C8#12,
            0x0CC#12, 0x0E0#12, 0x0E4#12, 0x180#12, 0x184#12, 0x198#12, 0x19C#12, 0x204#12, 0x208#12, 0x20C#12, 0x244#12,
            0x248#12, 0x24C#12, 0x250#12, 0x254#12, 0x258#12, 0x260#12, 0x27C#12, 0x414#12, 0x418#12, 0x41C#12, 0x4FC#12],
      exec (.registerWrite o 0xF#4 data) s = .next refused) ∧
    (data = 0 → exec (.registerWrite 0x01C#12 0xF#4 data) s = exec (.attnModeAuto 0xF#4) s) ∧
    (data = 1 → exec (.registerWrite 0x01C#12 0xF#4 data) s = exec (.attnModeHeld 0xF#4) s) ∧
    (data ≠ 0 → data ≠ 1 → exec (.registerWrite 0x01C#12 0xF#4 data) s = .next refused)) ∧
  (∀ (s : State) (o : BitVec 12) (lanes : BitVec 4),
    (laneGroup? lanes = none → readRegister o lanes s = ⟨.error, some 0xFFFFFFFF#32⟩) ∧
    (o ∈ [0x02C#12, 0x034#12, 0x074#12, 0x0AC#12, 0x0E8#12, 0x144#12, 0x1A0#12, 0x210#12, 0x25C#12, 0x280#12, 0x500#12, 0x7FC#12] →
      readRegister o lanes s = ⟨.error, some 0xFFFFFFFF#32⟩) ∧
    (∀ lane w v, laneGroup? lanes = some (lane, w) → readRegister o 0xF#4 s = ⟨.ok, some v⟩ →
      readRegister o lanes s = ⟨.ok, some (v &&& (w.mask <<< (8 * lane)))⟩)) ∧
  (∀ s : State, QueueLaw s → EventLaw s →
    (∃ v, readRegister 0x004#12 0xF#4 s = ⟨.ok, some v⟩ ∧ bits v 0 2 = powerCode s.power.state ∧
      bits v 2 1 = s.power.sleepReq.toNat ∧ bits v 4 2 = (wakeCode s.power.lastWake).toNat ∧
      (s.power.state ≠ .draining → bits v 8 6 = 0) ∧
      (s.power.state = .draining → bits v 8 1 = (!s.drainQueues).toNat ∧ bits v 9 1 = (!s.drainLink).toNat ∧
        bits v 10 1 = (!s.drainJoin).toNat ∧ bits v 11 1 = (!s.drainReads).toNat ∧ bits v 12 1 = (!s.drainMailbox).toNat ∧
        bits v 13 1 = (!s.drainAutoload).toNat)) ∧
    (∃ v, readRegister 0x00C#12 0xF#4 s = ⟨.ok, some v⟩ ∧
      bits v 0 2 = (match s.engine.link with | .free => 0 | .carrying _ => 1 | .holdoff _ _ => 2 | .settling _ _ => 3) ∧
      bits v 4 1 = s.engine.resetPending.toNat ∧ bits v 5 1 = (if s.engine.lastTurn = .host then 1 else 0) ∧
      bits v 8 4 = s.engine.joinCounter.toNat ∧
      bits v 12 2 = (match s.engine.link.request?.map Request.source with
        | none => 0 | some .broadcast => 0 | some (.management _) => 1 | some (.host _ _) => 2)) ∧
    (∃ v, readRegister 0x010#12 0xF#4 s = ⟨.ok, some v⟩ ∧ bits v 0 3 = discCode s.disc.state ∧
      (s.disc.state ≠ .joining → bits v 8 4 = 0) ∧
      ∀ a, s.disc.state = .joining → (s.entry a).state = .joining ∨ (s.entry a).state = .describing →
        (∀ b, (s.entry b).state = .joining ∨ (s.entry b).state = .describing → b = a) → bits v 8 4 = a.val + 1) ∧
    (∃ v, readRegister 0x014#12 0xF#4 s = ⟨.ok, some v⟩ ∧ bits v 0 5 = s.hostQueue.length ∧
      (bits v 8 1 = 1 ↔ ∃ r e d, s.engine.link.request? = some r ∧ r.source = .host e d)) ∧
    (∃ v, readRegister 0x020#12 0xF#4 s = ⟨.ok, some v⟩ ∧ bits v 0 1 = s.attn.level.toNat ∧
      bits v 1 1 = s.attn.armed.toNat ∧ bits v 2 1 = s.attn.sweep.isSome.toNat ∧
      bits v 8 4 = (allAddrs.filter fun a => (s.entry a).attention = .fetching).length) ∧
    (s.events.list = [] → ∀ o ∈ [0x0C0#12, 0x0C4#12, 0x0C8#12, 0x0CC#12], readRegister o 0xF#4 s = ⟨.ok, some 0⟩) ∧
    (∀ r rest, s.events.list = r :: rest → r.route ≠ .suppress →
      (∃ v, readRegister 0x0C0#12 0xF#4 s = ⟨.ok, some v⟩ ∧ bits v 0 8 = r.seq.toNat ∧ bits v 8 5 = kindNumber r.kind ∧
        bits v 13 1 = r.address.isSome.toNat ∧ bits v 14 1 = r.held.toNat ∧ bits v 16 4 = addressCode r.address ∧
        bits v 20 2 = routeCode r.route ∧ bits v 24 8 = r.code.toNat) ∧
      readRegister 0x0C4#12 0xF#4 s = ⟨.ok, some r.detailA⟩ ∧ readRegister 0x0C8#12 0xF#4 s = ⟨.ok, some r.detailB⟩ ∧
      readRegister 0x0CC#12 0xF#4 s = ⟨.ok, some r.detailC⟩) ∧
    (∃ v, readRegister 0x0DC#12 0xF#4 s = ⟨.ok, some v⟩ ∧ bits v 0 1 = s.events.staleRelease.toNat ∧
      bits v 8 8 = s.events.nextSeq.toNat ∧ bits v 16 1 = (s.events.list.any fun r => r.route = .line0).toNat ∧
      bits v 17 1 = s.line0Active.toNat ∧ bits v 18 1 = (s.events.list.any fun r => r.route = .line1).toNat ∧
      bits v 19 1 = s.line1Active.toNat) ∧
    (∃ v, readRegister 0x0E0#12 0xF#4 s = ⟨.ok, some v⟩ ∧ bits v 0 6 = s.events.list.length ∧
      bits v 8 6 = s.events.ordinaryCount ∧ bits v 16 6 = s.events.reservations ∧
      bits v 24 1 = s.events.overflowPresent.toNat) ∧
    (∀ i, vget s.slots i = .free → readRegister (0x180#12 + BitVec.ofNat 12 (8 * i.val)) 0xF#4 s = ⟨.ok, some 0⟩) ∧
    (∀ i x o d m, vget s.slots i = .complete x o d m →
      (∃ v, readRegister (0x180#12 + BitVec.ofNat 12 (8 * i.val)) 0xF#4 s = ⟨.ok, some v⟩ ∧ bits v 0 2 = 2 ∧
        bits v 2 1 = x.noFill.toNat ∧ bits v 4 3 = x.width.bytes ∧ bits v 8 3 = x.window.val ∧
        bits v 12 4 = x.target.val + 1 ∧ bits v 16 16 = x.offset.toNat) ∧
      ∃ v, readRegister (0x184#12 + BitVec.ofNat 12 (8 * i.val)) 0xF#4 s = ⟨.ok, some v⟩ ∧
        bits v 0 17 = x.hostAddr.toNat ∧ bits v 24 4 = (outcomeCode o).toNat) ∧
    (∀ a, modAddr? s.port.modSel = some a → (s.entry a).failureRun ≤ 15 → (s.entry a).departCount ≤ 15 →
      (s.entry a).capabilities.length ≤ 8 →
      (∃ v, readRegister 0x244#12 0xF#4 s = ⟨.ok, some v⟩ ∧ bits v 0 3 = modStateCode (s.entry a).state ∧
        bits v 4 2 = (boundCode (s.entry a).bound).toNat ∧ bits v 8 3 = attnCode (s.entry a).attention ∧
        bits v 12 1 = (s.entry a).pingDue.toNat ∧ bits v 13 1 = (s.entry a).releaseDue.toNat ∧
        bits v 16 4 = (s.entry a).seq.toNat) ∧
      (∃ v, readRegister 0x248#12 0xF#4 s = ⟨.ok, some v⟩ ∧ bits v 0 16 = (s.entry a).generation.toNat ∧
        bits v 16 16 = ((s.entry a).clearBits.getD 0).toNat) ∧
      (∃ v, readRegister 0x24C#12 0xF#4 s = ⟨.ok, some v⟩ ∧ bits v 0 4 = (s.entry a).failureRun ∧
        bits v 8 4 = (s.entry a).departCount ∧ bits v 16 1 = (s.entry a).responding.toNat ∧
        bits v 17 1 = (s.entry a).hasAttention.toNat ∧ bits v 18 1 = (s.entry a).truncated.toNat ∧
        bits v 20 3 = (s.entry a).widthLimit.bytes ∧ bits v 24 4 = (s.entry a).capabilities.length) ∧
      (∃ v, readRegister 0x250#12 0xF#4 s = ⟨.ok, some v⟩ ∧ bits v 0 16 = ((s.entry a).moduleClass.getD 0).toNat ∧
        bits v 16 8 = ((s.entry a).revision.getD 0).toNat ∧ bits v 24 8 = (s.entry a).pacing.toNat) ∧
      readRegister 0x254#12 0xF#4 s = ⟨.ok, some (((s.entry a).uniqueId.getD 0).extractLsb' 0 32)⟩ ∧
      readRegister 0x258#12 0xF#4 s = ⟨.ok, some (((s.entry a).uniqueId.getD 0).extractLsb' 32 32)⟩ ∧
      ∀ k : Fin 8, ((s.entry a).capabilities[k.val]? = none →
          readRegister (0x260#12 + BitVec.ofNat 12 (4 * k.val)) 0xF#4 s = ⟨.ok, some 0⟩) ∧
        ∀ c, (s.entry a).capabilities[k.val]? = some c →
          ∃ v, readRegister (0x260#12 + BitVec.ofNat 12 (4 * k.val)) 0xF#4 s = ⟨.ok, some v⟩ ∧ bits v 0 8 = c.type.toNat ∧
            bits v 8 8 = c.length.toNat ∧ bits v 16 8 = c.word.toNat ∧ bits v 24 8 = c.value.toNat) ∧
    (∀ n, (vget s.windows n).enabled = true → WindowLaw s →
      ∃ v, readRegister (0x41C#12 + BitVec.ofNat 12 (0x20 * n.val)) 0xF#4 s = ⟨.ok, some v⟩ ∧
        bits v 0 16 = (vget s.windows n).remoteBase.toNat ∧
        bits v 16 16 = (vget s.windows n).remoteBase.toNat + ((vget s.windows n).limit - (vget s.windows n).base))) ∧
  (∀ s : State, BlockViews s) ∧ (∀ s : State, PinsShow s) ∧ CodeTables

/-! ### The command mailbox -/

/-- A GO while a command is in progress is refused with REFUSED set; a GO while autoload runs ends FAILED with AUTOLOAD_BUSY; a
GO whose MBX_OP names no command ends FAILED with BAD_ARGUMENT; each is answered OK (R123, R136). -/
def Obligations.GoWithoutACommand : Prop :=
  ∀ (s : State) (c : Instr), c ∈ goCommands → s.portFree = true → QuietLaw s →
    (s.mbx.busy = true → ∃ t, exec c s = .next t ∧
      FollowUp { s with mbx := { s.mbx with refused := true }, port := { s.port with answer := some ⟨.ok, none⟩ } } t) ∧
    (s.mbx.busy = false → s.autoloadRuns = true → ∃ t, exec c s = .next t ∧
      FollowUp (mailboxEnded s .failed .autoloadBusy s.mbx.doneAddress) t) ∧
    (s.mbx.busy = false → s.autoloadRuns = true → 10 < s.mbx.op.toNat → ∃ t, exec c s = .next t ∧
      FollowUp (mailboxEnded s .failed .autoloadBusy none) t) ∧
    (s.mbx.busy = false → s.autoloadRuns = true → s.mbx.op = 0 → ∃ t, exec c s = .next t ∧
      FollowUp (mailboxEnded s .failed .autoloadBusy (modAddr? s.mbx.target)) t) ∧
    (s.mbx.busy = false → s.autoloadRuns = false → 10 < s.mbx.op.toNat → ∃ t, exec c s = .next t ∧
      FollowUp (mailboxEnded s .failed .badArgument none) t)

/-- MBX_READ, MBX_WRITE and MBX_DESC_READ: the tests in their order; then the entry joins the queue with diagnostic set, a WRITE
with its write-side effects, and the mailbox is QUEUED, or with a full queue WAITING. A sleeping link is woken first, and the command
goes the same way; that its WAKE record stands before the records of the command is the model's choice (log entry 4), and so is
which address MAILBOX_DONE carries (log entry 10). A command wider than its target takes fails WIDTH at once where it is the head and
no earlier entry is on the link, and nothing else changes then but by the wake and follow-up work (R79, R81, R85, R88, R93, R124,
R125, R193; log entry 30 for a DISCARDED request). -/
def Obligations.LinkCommandsAreQueued : Prop :=
  ∀ (s : State) (c : Instr) (op : HostOp),
    (c = .mbxRead 0xF#4 ∧ op = .read ∧ s.mbx.op = 0) ∨ (c = .mbxWrite 0xF#4 ∧ op = .write ∧ s.mbx.op = 1) ∨
      (c = .mbxDescRead 0xF#4 ∧ op = .descRead ∧ s.mbx.op = 2) →
    GoTaken s → QuietLaw s →
    let awake : State := hostWake s
    let argsBad : Prop :=
      if op = .descRead then 255 < s.mbx.offset.toNat
      else ¬(s.mbx.width.toNat = 1 ∨ s.mbx.width.toNat = 2 ∨ s.mbx.width.toNat = 4) ∨
        s.mbx.offset.toNat % s.mbx.width.toNat ≠ 0
    (s.power.state = .asleep → ∃ t, exec c s = .next t ∧ t.power.state ≠ .asleep ∧ t.power.lastWake = .host) ∧
    (modAddr? s.mbx.target = none → ∃ t, exec c s = .next t ∧ FollowUp (mailboxEnded awake .failed .badAddress none) t) ∧
    (∀ a, modAddr? s.mbx.target = some a → argsBad → ∃ t, exec c s = .next t ∧
      FollowUp (mailboxEnded awake .failed .badArgument (some a)) t) ∧
    (∀ a, modAddr? s.mbx.target = some a → ¬argsBad → (s.entry a).state ≠ .online → (s.entry a).state ≠ .quarantined →
      ∃ t, exec c s = .next t ∧ FollowUp (mailboxEnded awake .failed .notPresent (some a)) t) ∧
    (∀ a, modAddr? s.mbx.target = some a → ¬argsBad → (s.entry a).state = .online ∨ (s.entry a).state = .quarantined →
      16 ≤ s.hostQueue.length →
      ∃ t, exec c s = .next t ∧ FollowUp { awake with mbx := { s.mbx with result := .none, state := .waiting }
                                                      port := { s.port with answer := some ⟨.ok, none⟩ } } t) ∧
    (∀ a w, modAddr? s.mbx.target = some a → ¬argsBad →
      (op = .descRead → w = .four) → (op ≠ .descRead → w.bytes = s.mbx.width.toNat) →
      (s.entry a).state = .online ∨ (s.entry a).state = .quarantined → s.hostQueue.length < 16 →
      s.hostQueue ≠ [] ∨ s.hostOnLink = true ∨ op = .descRead ∨ w.bytes ≤ (s.entry a).widthLimit.bytes →
      ∃ t, exec c s = .next t ∧
        t = { s with
          mbx := { s.mbx with result := .none, state := .queued }
          port := { s.port with answer := some ⟨.ok, none⟩ }
          hostQueue := s.hostQueue ++ [{ origin := .mailbox, addr := a, gen := (s.entry a).generation, op := op,
                                         offset := s.mbx.offset, width := w,
                                         data := if op = .write then some (s.mbx.data &&& w.mask) else none, slot := none,
                                         cancelled := false, diagnostic := true, cacheable := false }]
          slots := t.slots, cache := t.cache, modules := t.modules, mgmtQueue := t.mgmtQueue, disc := t.disc,
          attn := t.attn, events := t.events, power := t.power } ∧
        (op ≠ .write → t.slots = s.slots ∧ t.cache = s.cache ∧ t.events.list = awake.events.list) ∧
        ∃ u, (op ≠ .write → u = awake) ∧ (op = .write → WriteTakesEffect a s.mbx.offset w awake u) ∧
          FollowUp { u with mbx := t.mbx, port := t.port, hostQueue := t.hostQueue } t) ∧
    (∀ a w, modAddr? s.mbx.target = some a → ¬argsBad → op ≠ .descRead → w.bytes = s.mbx.width.toNat →
      (s.entry a).state = .online ∨ (s.entry a).state = .quarantined → s.hostQueue = [] → s.hostOnLink = false →
      (s.entry a).widthLimit.bytes < w.bytes →
      ∃ t u, exec c s = .next t ∧ t.hostQueue = [] ∧
        t.mbx = { s.mbx with result := .outcome .width, state := .failed } ∧
        (op = .read → u = awake) ∧ (op = .write → WriteTakesEffect a s.mbx.offset w awake u) ∧
        t.slots = u.slots ∧ t.cache = u.cache ∧
        HeadFailsAlone { origin := .mailbox, addr := a, gen := (s.entry a).generation, op := op, offset := s.mbx.offset, width := w,
                         data := if op = .write then some (s.mbx.data &&& w.mask) else none, slot := none,
                         cancelled := false, diagnostic := true, cacheable := false }
          t.mbx ⟨.mailboxDone, some a, 8, s.mbx.op.setWidth 32, 0, 0⟩
          { u with mbx := { s.mbx with result := .none, state := .queued }
                   port := { s.port with answer := some ⟨.ok, none⟩ } } t ∧
        (DueLaw s → s.power.state ≠ .asleep → t.events.list = (u.events.post
          ⟨.mailboxDone, some a, 8, s.mbx.op.setWidth 32, 0, 0⟩).list))

/-- BIND: the tests in their order, then the table holds the binding at its address and no other for its ID, and a changed table
unparks discovery with a query due at once (R50, R51, R53, R58, R128; log entry 10 for the address of MAILBOX_DONE). -/
def Obligations.BindChangesTheTable : Prop :=
  ∀ s : State, GoTaken s → QuietLaw s → s.mbx.op = 3 →
    let id : UniqueId := s.mbx.xdata ++ s.mbx.data
    let exists_ : Prop := ∃ x b, vget s.bindings x = some b ∧ b.id = id
    (modAddr? s.mbx.target = none → ∃ t, exec (.bind 0xF#4) s = .next t ∧
      FollowUp (mailboxEnded s .failed .badAddress none) t) ∧
    (∀ a, modAddr? s.mbx.target = some a →
      (2 ≤ s.mbx.flagMode.toNat → ∃ t, exec (.bind 0xF#4) s = .next t ∧
        FollowUp (mailboxEnded s .failed .badArgument none) t) ∧
      (s.mbx.flagMode.toNat < 2 → s.mbx.replace = false → exists_ → ∃ t, exec (.bind 0xF#4) s = .next t ∧
        FollowUp (mailboxEnded s .failed .duplicateId none) t) ∧
      (s.mbx.flagMode.toNat < 2 → ¬(exists_ ∧ s.mbx.replace = false) →
        (∃ b, vget s.bindings a = some b ∧ b.id ≠ id) → ∃ t, exec (.bind 0xF#4) s = .next t ∧
        FollowUp (mailboxEnded s .failed .duplicateAddress none) t) ∧
      (s.mbx.flagMode.toNat < 2 → ¬(exists_ ∧ s.mbx.replace = false) →
        (∀ b, vget s.bindings a = some b → b.id = id) → ∃ t u, exec (.bind 0xF#4) s = .next t ∧ FollowUp u t ∧
        u = { mailboxEnded s .done (.outcome .ok) none with
          bindings := u.bindings
          disc := if s.disc.state = .parkedFull ∨ s.disc.state = .parkedConflict then discoveryEnded true s else s.disc } ∧
        (∀ x, vget u.bindings x =
          if x = a then some ⟨id, if s.mbx.flagMode = 0 then .strict else .preferred⟩
          else (vget s.bindings x).filter fun b => b.id ≠ id) ∧
        (s.disc.state = .parkedFull ∨ s.disc.state = .parkedConflict → t.disc.state = .querying ∧ QueryUnderWay t)))

/-- UNBIND removes the ID's binding, which unparks discovery with a query due at once, or ends NOT_BOUND; the module table keeps its
entries (R52, R53, R58, R128; log entry 10 for the address of MAILBOX_DONE). -/
def Obligations.UnbindChangesTheTable : Prop :=
  ∀ s : State, GoTaken s → QuietLaw s → s.mbx.op = 4 →
    let id : UniqueId := s.mbx.xdata ++ s.mbx.data
    ((∀ x b, vget s.bindings x = some b → b.id ≠ id) → ∃ t, exec (.unbind 0xF#4) s = .next t ∧
      FollowUp (mailboxEnded s .failed .notBound none) t) ∧
    (∀ y c, vget s.bindings y = some c → c.id = id → ∃ t u, exec (.unbind 0xF#4) s = .next t ∧ FollowUp u t ∧
      u = { mailboxEnded s .done (.outcome .ok) none with
        bindings := u.bindings
        disc := if s.disc.state = .parkedFull ∨ s.disc.state = .parkedConflict then discoveryEnded true s else s.disc } ∧
      (∀ x, vget u.bindings x = (vget s.bindings x).filter fun b => b.id ≠ id) ∧
      (s.disc.state = .parkedFull ∨ s.disc.state = .parkedConflict → t.disc.state = .querying ∧ QueryUnderWay t))

/-- Joins and leaves. A JOIN_QUERY's outcome goes to discovery: nothing found, a collision, a new ID, or a reappearance; the choice
gives a join its address or parks discovery; the ASSIGN and the descriptor's words take the join up to ONLINE with the effects of
its capability records; a failure makes a RELEASE due, whose end lets the entry leave. The outcome of a request for another
incarnation is dropped (R28 to R38, R42, R44, R45, R54 to R58, R130, R131, R151). Six points are the model's choices: an ASSIGN's
outcome on an entry not JOINING and a DESC_READ's on one not DESCRIBING do nothing (log entry 24), the waiting item of an entry that
leaves goes with it (log entry 19), the query interval is taken as the timer starts (log entry 12), a suspension that ended before the
end of the query or join it met leaves no trace, so that discovery is IDLE then (log entry 35), the MODULE_LEFT of a failed description
comes before the MAILBOX_DONE of a DISCOVER_NOW, and the MAILBOX_DONE of a FORGET that a reappearance ends before the BINDING_CONFLICT or
TABLE_FULL of the same event (both log entry 4). -/
def Obligations.JoinsAndLeaves : Prop :=
  ∀ (s : State) (garbled : Bool) (data : List Byte),
    QueryEnds s garbled data ∧
    (BindingLaw s → ∀ id returning, AddressChoice s id returning) ∧
    (∀ id, ChoiceCarriedOut s id) ∧
    (∀ a, JoinGoesOn s a garbled data) ∧
    (∀ a o, ReleaseEnds s a o garbled data) ∧
    (∀ m a g o, m.concerns = some (a, g) → (s.entry a).generation ≠ g ∨ (s.entry a).state = .empty →
      mgmtOutcome m o garbled data s = s) ∧
    (∀ a g guard o, (s.entry a).state ≠ .joining → mgmtOutcome (.assign a g guard) o garbled data s = s) ∧
    (∀ a g word o, (s.entry a).state ≠ .describing → mgmtOutcome (.descRead a g word) o garbled data s = s)

/-- DISCOVER_NOW starts a query at once, joins the one in progress, or ends a drain it would wait for; LINK_RESET sets reset
pending; RELOAD starts the autoload unit; FORGET makes its entry's release due. Each leaves the mailbox ACTIVE. READMIT makes a
QUARANTINED entry ONLINE, arms the sweep and ends DONE. FORGET and READMIT refuse an address outside 1 to 14 and an entry in
another state. FORGET, DISCOVER_NOW and LINK_RESET wake a sleeping link first (R21, R30, R43, R44, R129 to R132, R134, R139, R140,
R191, R193). Which address MAILBOX_DONE carries (log entry 10) and its order with the WAKE record, before it for READMIT and after it
for FORGET (log entry 4), are the model's choices. -/
def Obligations.CommandsThatTakeTime : Prop :=
  ∀ s : State, GoTaken s → QuietLaw s →
    let started (v : State) : State := { v with mbx := { s.mbx with result := .none, state := .active }
                                                port := { s.port with answer := some ⟨.ok, none⟩ } }
    let woken (c : Instr) : Prop := s.power.state = .asleep →
      ∃ t, exec c s = .next t ∧ t.power.state ≠ .asleep ∧ t.power.lastWake = .host ∧ t.power.sleepReq = false
    (∀ c v, c = .readmit 0xF#4 ∧ s.mbx.op = 5 ∧ v = s ∨ c = .forget 0xF#4 ∧ s.mbx.op = 6 ∧ v = hostWake s →
      (modAddr? s.mbx.target = none → ∃ t, exec c s = .next t ∧ FollowUp (mailboxEnded v .failed .badAddress none) t) ∧
      ∀ a, modAddr? s.mbx.target = some a → (s.entry a).state ≠ .quarantined →
        (s.entry a).state ≠ .online ∨ s.mbx.op = 5 →
        ∃ t, exec c s = .next t ∧ FollowUp (mailboxEnded v .failed .wrongState (some a)) t) ∧
    (∀ a, s.mbx.op = 5 → modAddr? s.mbx.target = some a → (s.entry a).state = .quarantined →
      let u : State := { mailboxEnded s .done (.outcome .ok) (some a) with
        modules := vset s.modules a { s.entry a with state := .online, failureRun := 0, departCount := 0
                                                     responding := false, pollTimer := some 0 }
        attn := { s.attn with armed := true } }
      ∃ t, exec (.readmit 0xF#4) s = .next t ∧ FollowUp u t ∧
        (s.power.state = .active → s.attn.level = true → s.attn.sweep = none →
          t.attn.armed = false ∧ t.attn.sweep = if sweepSet u = [] then none else some (sweepSet u)) ∧
        (s.power.state = .waking ∨ s.power.state = .active ∧ ¬(s.attn.level = true ∧ s.attn.sweep = none) →
          t.attn.armed = true ∧ t.attn.sweep = s.attn.sweep)) ∧
    (s.mbx.op = 6 → woken (.forget 0xF#4)) ∧
    (∀ a, s.mbx.op = 6 → modAddr? s.mbx.target = some a →
      (s.entry a).state = .online ∨ (s.entry a).state = .quarantined →
      ∃ t u, exec (.forget 0xF#4) s = .next t ∧ FollowUp u t ∧ ReleaseUnderWay t a ∧ (t.entry a).releaseFor = some .forget ∧
        u = { started (hostWake s) with modules := u.modules } ∧
        ∀ b, u.entry b = { (hostWake s).entry b with
            releaseDue := (u.entry b).releaseDue, releaseFor := (u.entry b).releaseFor } ∧
          (b ≠ a → u.entry b = (hostWake s).entry b)) ∧
    (s.mbx.op = 7 → woken (.discoverNow 0xF#4) ∧ ∃ t, exec (.discoverNow 0xF#4) s = .next t ∧
      FollowUp { started (hostWake s) with disc :=
        if s.disc.state = .idle ∨ s.disc.state = .parkedFull ∨ s.disc.state = .parkedConflict then
          { s.disc with state := .querying, waiting := some .joinQuery, queryTimer := none }
        else s.disc } t ∧
      (s.suspended = false → s.disc.state = .idle ∨ s.disc.state = .parkedFull ∨ s.disc.state = .parkedConflict →
        t.disc.state = .querying ∧ QueryUnderWay t) ∧
      (s.suspended = false → s.disc.state = .querying ∨ s.disc.state = .joining → t.disc.state = s.disc.state) ∧
      (s.power.state = .draining → s.disc.state = .disabled → t.power.state = .active ∧ t.power.sleepReq = false)) ∧
    (s.mbx.op = 8 → woken (.linkReset 0xF#4) ∧ ∃ t, exec (.linkReset 0xF#4) s = .next t ∧
      FollowUp { started (hostWake s) with engine := { s.engine with resetPending := true } } t) ∧
    (s.mbx.op = 10 → ∃ t, exec (.reload 0xF#4) s = .next t ∧
      FollowUp { started s with autoload := { s.autoload with phase := .reading, faultReason := .none, faultRecord := 0
                                                              startedBy := .reload, staging := [] } } t)

/-- FLUSH_CACHE makes every line invalid and ends in DONE with result OK in the event of the GO; the slots are untouched
(R133). -/
def Obligations.FlushCacheEmptiesTheCache : Prop :=
  ∀ s : State, GoTaken s → QuietLaw s → s.mbx.op = 9 → ∃ t, exec (.flushCache 0xF#4) s = .next t ∧
    FollowUp { mailboxEnded s .done (.outcome .ok) none with cache := {} } t ∧ t.slots = s.slots ∧
    (∀ i, vget t.cache.lines i = none) ∧ t.mbx.state = .done ∧ t.mbx.result = .outcome .ok

/-- A WAITING link command joins the queue when a place is free, a WRITE with its write-side effects; ABORT ends a WAITING command
CANCELLED, marks a QUEUED one's entry, which completes CANCELLED at once where it is the head and no earlier entry is on the link,
and is late for an ACTIVE one. A WAITING command whose entry is the head at once and fails a check, as after a link reset has emptied
the queue and the table, ends with that outcome in the same event. Nothing else changes but by follow-up work and, behind a QUEUED
command that ends, by the heads that then fail their checks (R79, R81, R83, R85 to R88, R93, R96, R125, R135). The model's choices:
the address that MAILBOX_DONE carries (log entry 10), that a DISCARDED request on the link is no earlier entry (log entry 30), and
that the record of the head's failure comes after the other records and the reservations of the event (log entry 4). -/
def Obligations.WaitingCommandAndAbort : Prop :=
  ∀ s : State, QuietLaw s →
    let s1 : State := { s with port := { s.port with answer := some ⟨.ok, none⟩ } }
    (∀ (op : HostOp) (a : ModAddr) (w : Width) (e : HostEntry), s.pins.hold = false → s.mbx.state = .waiting →
      s.hostQueue.length < 16 →
      modAddr? s.mbx.target = some a → s.mbx.op = (match op with | .read => 0 | .write => 1 | .descRead => 2) →
      (op = .descRead → w = .four ∧ s.mbx.offset.toNat ≤ 255) →
      (op ≠ .descRead → w.bytes = s.mbx.width.toNat ∧ s.mbx.offset.toNat % w.bytes = 0) →
      e = { origin := .mailbox, addr := a, gen := (s.entry a).generation, op := op, offset := s.mbx.offset, width := w,
            data := if op = .write then some (s.mbx.data &&& w.mask) else none, slot := none, cancelled := false,
            diagnostic := true, cacheable := false } →
      (s.hostQueue ≠ [] ∨ s.hostOnLink = true ∨ headCheck e s = none →
        ∃ t, exec .mbxWaitingEnqueue s = .next t ∧
          t = { s with
            mbx := { s.mbx with state := .queued }
            hostQueue := s.hostQueue ++ [e]
            slots := t.slots, cache := t.cache, modules := t.modules, mgmtQueue := t.mgmtQueue, disc := t.disc,
            attn := t.attn, events := t.events, power := t.power } ∧
          ∃ u, (op ≠ .write → u = s) ∧ (op = .write → WriteTakesEffect a s.mbx.offset w s u) ∧
            FollowUp { u with mbx := t.mbx, hostQueue := t.hostQueue } t) ∧
      (∀ o, s.hostQueue = [] → s.hostOnLink = false → headCheck e s = some o →
        ∃ t u, exec .mbxWaitingEnqueue s = .next t ∧ (op ≠ .write → u = s) ∧
          (op = .write → WriteTakesEffect a s.mbx.offset w s u) ∧ t.hostQueue = [] ∧
          t.mbx = { s.mbx with state := .failed, result := .outcome o } ∧ t.slots = u.slots ∧ t.cache = u.cache ∧
          t.port = s.port ∧ t.engine = s.engine ∧
          HeadFailsAlone e t.mbx ⟨.mailboxDone, some a, outcomeCode o, s.mbx.op.setWidth 32, 0, 0⟩
            { u with mbx := { s.mbx with state := .queued } } t)) ∧
    (s.portFree = true → s.mbx.state = .waiting → s.mbx.op.toNat ≤ 2 → ∃ t, exec (.mbxAbort 0xF#4) s = .next t ∧
      FollowUp (mailboxEnded s .failed (.outcome .cancelled) (modAddr? s.mbx.target)) t) ∧
    (s.portFree = true → s.mbx.state = .queued →
      s.hostOnLink = true ∨ (∀ e rest, s.hostQueue = e :: rest → e.origin ≠ .mailbox) →
      ∃ t, exec (.mbxAbort 0xF#4) s = .next t ∧
        FollowUp { s1 with hostQueue := s.hostQueue.map fun e =>
          if e.origin = .mailbox then { e with cancelled := true } else e } t) ∧
    (∀ e rest, s.portFree = true → s.mbx.state = .queued → s.hostOnLink = false → s.hostQueue = e :: rest →
      e.origin = .mailbox →
      ∃ t, exec (.mbxAbort 0xF#4) s = .next t ∧ (MailboxLaw s → t.mbx = { s.mbx with
          state := .failed, result := .outcome .cancelled }) ∧ t.mbx.state = .failed ∧ t.mbx.result = .outcome .cancelled ∧
        FollowUpOfHeads { s1 with hostQueue := s.hostQueue.map fun e =>
          if e.origin = .mailbox then { e with cancelled := true } else e } t ∧
        (rest = [] → t.hostQueue = [] ∧ HeadFailsAlone { e with cancelled := true } t.mbx
          ⟨.mailboxDone, modAddr? s.mbx.target, 9, s.mbx.op.setWidth 32, 0, 0⟩ s1 t) ∧
        (rest = [] → DueLaw s → s.power.state = .active → t.events.list = (s.events.post
          ⟨.mailboxDone, modAddr? s.mbx.target, 9, s.mbx.op.setWidth 32, 0, 0⟩).list)) ∧
    (s.portFree = true → s.mbx.state = .active → ∃ t, exec (.mbxAbort 0xF#4) s = .next t ∧
      FollowUp { s1 with mbx := { s.mbx with abortLate := true } } t) ∧
    (s.portFree = true → s.mbx.state = .idle ∨ s.mbx.state = .done ∨ s.mbx.state = .failed →
      ∃ t, exec (.mbxAbort 0xF#4) s = .next t ∧ FollowUp s1 t)

/-! ### The span link -/

/-- ARBITER_GRANT: a pending broadcast goes first; else the turn table gives the management head or the host head, whose request
takes the next sequence number and the parameters in force and whose frame is put on the line. A head is eligible when its target's
pacing interval has passed. Nothing is granted while the link is not FREE, while it sleeps or wakes, while the cold autoload run holds
a pending broadcast back, or where neither head is eligible (R12, R13, R21, R22, R23, R89, R184). The model's choices: the offset 0 of
the broadcast's frame, and of the management frames to which the spec gives none (log entry 25), and that a grant row where nothing
can be granted changes nothing (log entry 1); that no other row but a pacing end grants is log entry 6. -/
def Obligations.ArbiterGrants : Prop :=
  ∀ s : State, s.pins.hold = false →
    (s.engine.link ≠ .free ∨ s.power.state = .asleep ∨ s.power.state = .waking ∨
      s.engine.resetPending = true ∧ s.autoload.phase ≠ .idle ∧ s.autoload.startedBy = .cold →
      exec .arbiterGrant s = .next s) ∧
    (QuietLaw s → s.engine.link = .free → s.power.state = .active ∨ s.power.state = .draining →
    let params : LinkParams := ⟨s.timing.linkRate, s.timing.respTimeout, s.timing.retryLimit, s.timing.busyLimit,
                                s.timing.busyHoldoff⟩
    let started (src : Source) (p : Payload) (seq : BitVec 4) : Link := .carrying ⟨src, p, seq, 0, 0, params, false, .sending⟩
    let passed (a : ModAddr) : Prop := ∀ n, (s.entry a).lastResponse = some n → n + 10 * (s.entry a).pacing.toNat ≤ s.now
    let hostReady (e : HostEntry) : Prop := passed e.addr
    let mgmtReady (m : MgmtEntry) : Prop := ∀ a, modAddr? m.payload.dest = some a → passed a
    (s.engine.resetPending = false → (∀ m mrest, s.mgmtQueue = m :: mrest → ¬mgmtReady m) →
      (∀ e rest, s.hostQueue = e :: rest → ¬hostReady e) →
      ∃ t, exec .arbiterGrant s = .next t ∧ FollowUp s t ∧ t.engine = s.engine ∧ t.hostQueue = s.hostQueue) ∧
    (s.engine.resetPending = true → s.autoload.phase = .idle ∨ s.autoload.startedBy = .reload → ∃ t, exec .arbiterGrant s = .next t ∧
      FollowUp { s with engine := { s.engine with
        resetPending := false, link := started .broadcast ⟨15, .linkReset, 0, 0, []⟩ 0
        line := requestFrame ⟨15, .linkReset, 0, 0, []⟩ 0 false } } t) ∧
    (∀ e rest, s.engine.resetPending = false → s.hostQueue = e :: rest → hostReady e →
      (∀ m mrest, s.mgmtQueue = m :: mrest → mgmtReady m → s.engine.lastTurn = .management) →
      ∃ t, exec .arbiterGrant s = .next t ∧
        FollowUp { s with
          hostQueue := rest
          mbx := if e.origin = .mailbox then { s.mbx with state := .active } else s.mbx
          modules := vset s.modules e.addr { s.entry e.addr with seq := (s.entry e.addr).seq + 1 }
          engine := { s.engine with lastTurn := .host
                                    link := started (.host e false) e.payload ((s.entry e.addr).seq + 1)
                                    line := requestFrame e.payload ((s.entry e.addr).seq + 1) false } } t) ∧
    (∀ m mrest, s.engine.resetPending = false → s.mgmtQueue = m :: mrest → mgmtReady m →
      (∀ e rest, s.hostQueue = e :: rest → hostReady e → s.engine.lastTurn = .host) →
      (s.suspended = true → .joinQuery ∉ mrest) →
      ∃ t more, exec .arbiterGrant s = .next t ∧ t.mgmtQueue = mrest ++ more ∧ t.hostQueue = s.hostQueue ∧
        t.engine = { s.engine with lastTurn := .management, link := t.engine.link, joinCounter := t.engine.joinCounter
                                   line := t.engine.line } ∧
        (m.payload.dest = 0 → t.engine.joinCounter = s.engine.joinCounter + 1 ∧
          t.engine.link = started (.management m) m.payload (s.engine.joinCounter + 1) ∧
          t.engine.line = requestFrame m.payload (s.engine.joinCounter + 1) false) ∧
        (∀ a, modAddr? m.payload.dest = some a → t.engine.joinCounter = s.engine.joinCounter ∧
          (t.entry a).seq = (s.entry a).seq + 1 ∧
          t.engine.link = started (.management m) m.payload ((s.entry a).seq + 1) ∧
          t.engine.line = requestFrame m.payload ((s.entry a).seq + 1) false) ∧
        FollowUp { s with mgmtQueue := mrest, engine := t.engine, modules := match modAddr? m.payload.dest with
          | some a => vset s.modules a { s.entry a with seq := (s.entry a).seq + 1 }
          | none => s.modules } t))

/-- BROADCAST_SENT: every module leaves, with generations and seqs kept; the queues, the sweep and the cache are emptied, the
MODULE_LEFT records standing in ascending address order and each posted write failing STALE in queue order; the link settles; a
LINK_RESET in progress ends DONE (R21, R46, R86, R90, R91, R96, R132). SETTLED: the link is FREE again. -/
def Obligations.BroadcastClearsTheTable : Prop :=
  ∀ s : State, s.pins.hold = false →
    (s.broadcasting = true → EmptyLaw s → MailboxLaw s → ∃ t, exec .broadcastSent s = .next t ∧
      (∀ a, (t.entry a).state = .empty ∧ (t.entry a).generation = (s.entry a).generation ∧ (t.entry a).seq = (s.entry a).seq) ∧
      t.cache = {} ∧ t.hostQueue = [] ∧ t.attn.sweep = none ∧ (t.mgmtQueue = [] ∨ t.mgmtQueue = [.joinQuery]) ∧
      t.engine = { s.engine with
        link := if s.timing.settleTime = 0 then .free else .settling 0 (s.timing.settleTime * 1000) } ∧
      t.windows = s.windows ∧ t.bindings = s.bindings ∧ t.timing = s.timing ∧
      (s.mbx.state = .active → s.mbx.op = 8 → s.engine.resetPending = false →
        t.mbx.state = .done ∧ t.mbx.result = .outcome .ok) ∧
      (s.power.state = .active → (∀ e ∈ s.hostQueue, e.origin = .windowWrite ∧ e.cancelled = false) →
        let left := allAddrs.foldl (fun v a => if (v.entry a).state = .empty then v
                                               else entryLeft a (moduleLeft v a 4) .overtaken v) s
        let u := if s.mbx.state = .active ∧ s.mbx.op = 8 ∧ s.engine.resetPending = false then
                   left.events.post ⟨.mailboxDone, none, 1, 8, 0, 0⟩
                 else left.events
        t.events.list = (s.hostQueue.foldl (fun v e => v.post
          ⟨.writeFailed, some e.addr, 6, e.offset.setWidth 32, BitVec.ofNat 32 e.width.bytes, e.data.getD 0⟩) u).list)) ∧
    (∀ e w, s.engine.link = .settling e w → QuietLaw s → ∃ t, exec .settled s = .next t ∧ t.engine.link = .free ∧
      t.now = s.now + (w - e) ∧ t.hostQueue = s.hostQueue ∧ t.windows = s.windows ∧
      (s.disc.state = .disabled → s.engine.resetPending = false → s.power.state = .active → s.autoload.phase = .idle →
        t.disc.state = .querying ∧ QueryUnderWay t))

/-- The frame of an attempt: its last character starts the response timer, a lead-in stops it, and a retransmission or a busy
resend puts the frame on the line again with the retransmit flag set and the same sequence number, once the waits for the idle
line, the holdoff and the pacing interval have passed (R14, R16, R17, R23). What stands on the line while a frame is sent: each byte as a
character of ten bits, at the rate the request began with; the start and the stop bit are named and given no level, the model's choice
(log entry 42). What the frames hold: the bytes and check of a request
frame, what a response frame must hold to pass its check and what it then says, and what each host and management entry asks (R1 to
R4, R89, R206 to R208; the offsets to which the spec gives no value are the model's choice, log entry 25). -/
def Obligations.AttemptsOnTheLine : Prop :=
  CharactersLaidOut ∧
  (∀ (p : Payload) (seq : BitVec 4) (retransmit : Bool), RequestLaidOut p seq retransmit) ∧
  (∀ (op : LinkOp) (length : Nat) (frame : List Byte) (r : Response),
    parseResponse op length frame = some r ↔ ResponseLaidOut op length frame r) ∧
  (∀ e : HostEntry, HostFrames e) ∧ (∀ (a : ModAddr) (g : Half), MgmtFrames a g) ∧
  ∀ (s : State) (r : Request), s.pins.hold = false →
    let again : LinkEngine := { s.engine with link := .carrying { r with attempt := .sending }
                                              line := requestFrame r.payload r.seq true }
    (s.engine.link = .carrying r → r.attempt = .sending → r.source ≠ .broadcast → exec .requestFrameSent s =
      .next { s with engine := { s.engine with link := .carrying { r with attempt := .awaiting 0 } } }) ∧
    (∀ n, s.engine.link = .carrying r → r.attempt = .awaiting n → exec .responseLeadIn s =
      .next { s with engine := { s.engine with link := .carrying { r with attempt := .receiving } } }) ∧
    (∀ n, s.engine.link = .carrying r → r.attempt = .gap n →
      ∃ t, exec .retransmission s = .next { t with engine := again } ∧
        OnlyTimePasses (max (2 * charTime r.params.linkRate - n) (s.destPacingLeft r.payload.dest)) s t) ∧
    (∀ n, s.engine.link = .holdoff r n →
      ∃ t, exec .holdoffEnd s = .next { t with engine := again } ∧
        OnlyTimePasses (max (r.params.busyHoldoff - n) (s.destPacingLeft r.payload.dest)) s t) ∧
    (s.engine.link = .carrying r → r.attempt = .resend →
      ∃ t, exec .holdoffEnd s = .next { t with engine := again } ∧ OnlyTimePasses (s.destPacingLeft r.payload.dest) s t)

/-- A valid response with a final status ends its request: the link is FREE, and the owner takes the outcome and the module manager
the report in either order. For a host request the module's failure run is over, a window write is silent or posts WRITE_FAILED, a
read's slot is COMPLETE or answers the access held for it, a fill takes its line, and a mailbox command ends. The entry of a
DISCARDED request takes nothing; a head that fails its checks is completed by its origin (R12, R15, R18 to R20, R48, R85 to R93,
R103, R104, R114, R115, R126, R142). The model's choices: the order of the records of different blocks (log entry 4), a response taken
while its timer still runs, its lead-in not commanded and the clock not moved (log entry 17), a last response time on an EMPTY source
(log entry 18), and a DISCARDED request being no earlier entry (log entry 30). -/
def Obligations.FinalResponseEndsTheRequest : Prop :=
  (∀ (s : State) (r : Request) (frame : List Byte) (p : Response) (order : PostOrder),
    s.pins.hold = false → s.engine.link = .carrying r → r.attempt = .receiving ∨ (∃ n, r.attempt = .awaiting n) →
    parseResponse r.payload.op r.payload.length frame = some p → p.source = r.expectedSource → p.echo = r.seq →
    p.status ≠ .busy ∨ r.params.busyLimit ≤ r.busyUsed →
    let o := statusOutcome p.status
    (∀ u, u = { responseNoted p s with engine := { s.engine with link := .free } } →
      (∀ a g guard, r.source = .management (.assign a g guard) → o = .ok →
        exec (.responseReceived frame order) s = .next (settle (outcomeTaken order r o p.data
          { u with modules := vset u.modules a { u.entry a with seq := r.seq } }))) ∧
      ((∀ a g guard, r.source = .management (.assign a g guard) → o ≠ .ok) →
        exec (.responseReceived frame order) s = .next (settle (outcomeTaken order r o p.data u)))) ∧
    (∀ e, MailboxLaw s → r.source = .host e false → r.payload = e.payload →
      ∃ t, exec (.responseReceived frame order) s = .next t ∧ t.engine = { s.engine with link := .free } ∧
        t.windows = s.windows ∧ t.bindings = s.bindings ∧ t.timing = s.timing ∧ t.autoload = s.autoload ∧
        (t.entry e.addr).lastResponse = some s.now ∧
        ((s.entry e.addr).state = .online → (s.entry e.addr).generation = e.gen → (t.entry e.addr).failureRun = 0) ∧
        (∀ i x, e.origin = .windowRead → e.slot = some i → vget s.slots i = .pending x → s.port.held = none →
          vget t.slots i = .complete x o (if o = .ok then some (BitVec.ofNat 32 (leNat p.data) &&& x.width.mask) else none) 0) ∧
        (∀ i x h, e.origin = .windowRead → e.slot = some i → vget s.slots i = .pending x → s.port.held = some h →
          h.what = .slot i → vget t.slots i = .free ∧ t.port.held = none ∧
          (o = .ok → t.port = { s.port with
            held := none
            answer := some ⟨.ok, some (toLanes (x.hostAddr.toNat % 4) x.width
                                              (BitVec.ofNat 32 (leNat p.data) &&& x.width.mask))⟩ }) ∧
          (o ≠ .ok → t.port = { s.port with
            held := none
            answer := some ⟨.error, some 0xFFFFFFFF#32⟩
            readFault := ⟨some o, x.hostAddr, BitVec.ofNat 3 x.width.bytes, BitVec.ofNat 2 i.val⟩ })) ∧
        (∀ i x, e.origin = .windowRead → e.slot = some i → vget s.slots i = .pending x → t.cache =
          if o = .ok ∧ e.cacheable = true ∧ x.noFill = false ∧ (s.entry e.addr).state = .online ∧
              (s.entry e.addr).generation = e.gen then
            s.cache.fill ⟨e.addr, e.gen, e.offset, e.width, BitVec.ofNat 32 (leNat p.data) &&& x.width.mask⟩
          else s.cache) ∧
        (e.origin = .windowWrite → s.hostQueue = [] → s.power.state = .active → (s.entry e.addr).state = .online →
          t.events.list = if o = .ok then s.events.list
                          else (s.events.post ⟨.writeFailed, some e.addr, outcomeCode o, e.offset.setWidth 32,
                                               BitVec.ofNat 32 e.width.bytes, e.data.getD 0⟩).list) ∧
        (e.origin = .mailbox → o ≠ .ok → t.mbx.state = .failed ∧ t.mbx.result = .outcome o) ∧
        (e.origin = .mailbox → o = .ok → t.mbx.state = .done ∧ t.mbx.result = .outcome .ok ∧
          (e.op ≠ .write → t.mbx.data = BitVec.ofNat 32 (leNat p.data) &&& e.width.mask)))) ∧
  (∀ (s : State) (r : Request) (o : LinkOutcome) (data : List Byte),
    (∀ e, r.source = .host e true → ownerTakes r o data s = s) ∧
    (∀ e, r.source = .host e false →
      ownerTakes r o data s = deliver e o (if data = [] then none else some (BitVec.ofNat 32 (leNat data))) s) ∧
    (∀ m, r.source = .management m → ownerTakes r o data s = mgmtOutcome m o r.garbled data s)) ∧
  (∀ (s : State) (e : HostEntry) (o : LinkOutcome) (data : Option Word), Delivered s e o data) ∧
  (∀ (c : Cache) (l : Line), Filled c l) ∧
  ∀ s : State, HeadsChecked s ∧ (HeadLaw s → FollowUp s (settle s))

/-- An attempt that fails, by a frame that fails its check, by a response that is not for this request, or by the response timer,
is counted and will be sent again while the retry limit allows; else the request ends NO_RESPONSE. A BUSY response puts the request
in holdoff while the busy limit allows. What a failure-run report does: an ONLINE module's run and its quarantine, a quarantined
one's signs of life and its departure (R14 to R18, R20, R28, R40 to R42). The model's choices: the clock's move in a row that says a timer
ran out (log entry 2), the order of the records of one event (log entry 4), the point from which idle time counts (log entry 17), and that
an entry which the very event quarantines is not in the set of a sweep that the event starts (log entry 38). -/
def Obligations.FailedAttemptsAreRepeated : Prop :=
  (∀ (s : State) (r : Request) (frame : List Byte) (order : PostOrder), s.pins.hold = false → s.engine.link = .carrying r →
    let again (r' : Request) : State := { s with engine := { s.engine with link := .carrying r' } }
    (r.attempt = .receiving → r.retransUsed < r.params.retryLimit →
      parseResponse r.payload.op r.payload.length frame = none → exec (.responseReceived frame order) s =
        .next (again { r with garbled := true, retransUsed := r.retransUsed + 1, attempt := .gap 0 })) ∧
    (∀ p, r.attempt = .receiving → r.retransUsed < r.params.retryLimit →
      parseResponse r.payload.op r.payload.length frame = some p → p.source ≠ r.expectedSource ∨ p.echo ≠ r.seq →
      exec (.responseReceived frame order) s =
        .next (again { r with retransUsed := r.retransUsed + 1, attempt := .gap 0 })) ∧
    (∀ p u, r.attempt = .receiving → parseResponse r.payload.op r.payload.length frame = some p →
      p.source = r.expectedSource → p.echo = r.seq → p.status = .busy → r.busyUsed < r.params.busyLimit →
      u = { responseNoted p s with engine :=
              { s.engine with link := .holdoff { r with busyUsed := r.busyUsed + 1 } 0 } } →
      ∃ t, exec (.responseReceived frame order) s = .next t ∧ t = settle u ∧ t.engine = u.engine ∧
        (HeadLaw u → FollowUp u t) ∧ (∀ a, modAddr? p.source = some a → (t.entry a).lastResponse = some s.now)) ∧
    (∀ n, r.attempt = .awaiting n → r.retransUsed < r.params.retryLimit →
      ∃ u, OnlyTimePasses (r.params.respTimeout - n) s u ∧ exec (.responseTimeout order) s = .next { u with
        engine := { s.engine with link := .carrying { r with retransUsed := r.retransUsed + 1
                                                             attempt := .gap (max n r.params.respTimeout) } } }) ∧
    (∀ n, r.attempt = .awaiting n → r.params.retryLimit ≤ r.retransUsed →
      ∃ u v, OnlyTimePasses (r.params.respTimeout - n) s u ∧ v = { u with engine := { s.engine with link := .free } } ∧
        exec (.responseTimeout order) s = .next (settle (outcomeTaken order r .noResponse [] v))) ∧
    (r.attempt = .receiving → r.params.retryLimit ≤ r.retransUsed →
      parseResponse r.payload.op r.payload.length frame = none → exec (.responseReceived frame order) s =
        .next (settle (outcomeTaken order { r with garbled := true } .noResponse []
          { s with engine := { s.engine with link := .free } }))) ∧
    (∀ p, r.attempt = .receiving → r.params.retryLimit ≤ r.retransUsed →
      parseResponse r.payload.op r.payload.length frame = some p → p.source ≠ r.expectedSource ∨ p.echo ≠ r.seq →
      exec (.responseReceived frame order) s =
        .next (settle (outcomeTaken order r .noResponse [] { s with engine := { s.engine with link := .free } }))) ∧
    (∀ n e, r.attempt = .awaiting n → r.retransUsed = r.params.retryLimit → r.source = .host e false →
      (s.entry e.addr).state = .online → (s.entry e.addr).generation = e.gen →
      ∃ t, exec (.responseTimeout order) s = .next t ∧ t.engine = { s.engine with link := .free } ∧
        ((s.entry e.addr).failureRun + 1 < s.timing.quarThreshold →
          (t.entry e.addr).state = .online ∧ (t.entry e.addr).failureRun = (s.entry e.addr).failureRun + 1) ∧
        (s.timing.quarThreshold ≤ (s.entry e.addr).failureRun + 1 →
          (t.entry e.addr).state = .quarantined ∧ (t.entry e.addr).departCount = 0))) ∧
  ∀ (s : State) (src : Source),
    (∀ a, reportFor src = some (a, (s.entry a).generation) →
      (∀ g, src = .management (.release a g) → (s.entry a).releaseFor ≠ some .forget) → ReportTaken s a src) ∧
    (∀ a g o, src = .management (.release a g) → (s.entry a).releaseFor = some .forget → failureReport src o s = s) ∧
    (∀ a g o, reportFor src = some (a, g) → g ≠ (s.entry a).generation → failureReport src o s = s) ∧
    (∀ o, reportFor src = none → failureReport src o s = s) ∧
    (∀ e d, src = .host e d → reportFor src = some (e.addr, e.gen)) ∧
    (∀ m a g, src = .management m → m.concerns = some (a, g) → (∀ h, m ≠ .assign a g h) → reportFor src = some (a, g)) ∧
    (src = .broadcast ∨ src = .management .joinQuery ∨ (∃ a g h, src = .management (.assign a g h)) → reportFor src = none)

/-- The timers, each row letting the time pass that its timer still has to run: the query timer makes a query due, a poll timer makes a
PING due and stops, for an ONLINE entry at POLL_INTERVAL and for a QUARANTINED one at QUAR_POLL_INTERVAL, a discard timer frees its slot
with DELAYED_DISCARD TIMEOUT, and the end of a pacing interval is a grant of the arbiter at that later moment, which lets the host head
go; with no response yet from the module there is no interval to end, and nothing changes. Nothing else changes but by the time that
passes and follow-up work (R22, R23, R30, R39, R107). The model's choices: what a microsecond is (log entry 2), a row whose condition
does not hold (log entry 1), that a pacing end grants (log entry 6), and the query interval taken as the timer starts (log entry 12). -/
def Obligations.TimersRunOut : Prop :=
  ∀ s : State, s.pins.hold = false → QuietLaw s →
    (∀ n, s.disc.state = .idle → s.disc.queryTimer = some n → s.suspended = false →
      ∃ t u, exec .discoveryTimerExpiry s = .next t ∧ t.now = s.now + (s.disc.queryInterval * 1000 - n) ∧
        OnlyTimePasses (s.disc.queryInterval * 1000 - n) s u ∧
        FollowUp { u with disc := { u.disc with state := .querying, waiting := some .joinQuery, queryTimer := none } } t ∧
        t.disc.state = .querying ∧ QueryUnderWay t ∧ t.hostQueue = s.hostQueue) ∧
    (∀ a n ms, (s.entry a).state = .online ∧ ms = s.timing.pollInterval ∨
        (s.entry a).state = .quarantined ∧ ms = s.timing.quarPollInterval → (s.entry a).pollTimer = some n →
      s.power.state = .active ∨ s.power.state = .draining →
      ∃ t u, exec (.pollTimerExpiry a) s = .next t ∧ t.now = s.now + (ms * 1000 - n) ∧
        OnlyTimePasses (ms * 1000 - n) s u ∧
        FollowUp { u with modules := vset u.modules a { pingCalled u a with pollTimer := none } } t ∧
        (t.entry a).pollTimer = none ∧ PingUnderWay t a ∧ t.hostQueue = s.hostQueue) ∧
    (∀ i x o d n, vget s.slots i = .complete x o d n →
      ∃ t u, exec (.discardTimerExpiry i) s = .next t ∧ t.now = s.now + (s.timing.discardTime * 1000 - n) ∧
        OnlyTimePasses (s.timing.discardTime * 1000 - n) s u ∧
        FollowUp { u with
          slots := vset u.slots i .free
          events := s.events.post ⟨.delayedDiscard, some x.target, 1, BitVec.ofNat 32 i.val, x.hostAddr.setWidth 32,
                                   BitVec.ofNat 32 x.width.bytes⟩ } t ∧
        vget t.slots i = .free ∧ t.hostQueue = s.hostQueue ∧
        t.events.list = (s.events.post ⟨.delayedDiscard, some x.target, 1, BitVec.ofNat 32 i.val, x.hostAddr.setWidth 32,
                                       BitVec.ofNat 32 x.width.bytes⟩).list) ∧
    (∀ a, (s.entry a).lastResponse = none → exec (.pacingIntervalEnd a) s = .next s) ∧
    (∀ a n, (s.entry a).lastResponse = some n →
      ∃ u, OnlyTimePasses (n + 10 * (s.entry a).pacing.toNat - s.now) s u ∧
        exec (.pacingIntervalEnd a) s = exec .arbiterGrant u) ∧
    (∀ e, s.engine.link = .free → s.power.state = .active → s.engine.resetPending = false → s.mgmtQueue = [] →
      s.hostQueue = [e] → (s.entry e.addr).lastResponse ≠ none →
      ∃ t, exec (.pacingIntervalEnd e.addr) s = .next t ∧ t.now = s.now + s.pacingLeft e.addr ∧ t.hostQueue = [] ∧
        t.engine.line = requestFrame e.payload ((s.entry e.addr).seq + 1) false ∧
        ∃ r, t.engine.link = .carrying r ∧ r.source = .host e false ∧ r.seq = (s.entry e.addr).seq + 1)

/-! ### Autoload -/

/-- The read of the boot memory: the marker or ABSENT, the header or INVALID with its reason, and the bytes that complete the image;
a RELOAD that ends so ends its command LOAD_FAILED with the outcome in MBX_DATA, and one whose command a retaining reset has forgotten
leaves the mailbox as it is (R134, R137, R174, R175, R182, R186, R187). -/
def Obligations.AutoloadReads : Prop :=
  ∀ s : State, s.pins.hold = false → s.autoload.phase = .reading →
    (s.autoload.staging = [] → exec (.autoloadMarkerRead 0x5B 0xC3) s =
      .next { s with autoload := { s.autoload with staging := [0x5B, 0xC3] } }) ∧
    (∀ b1 b2 : Byte, s.autoload.staging = [] → ¬(b1 = 0x5B ∧ b2 = 0xC3) →
      s.autoload.startedBy = .cold ∨ s.mbx.runs opReload = false → QuietLaw s →
      ∃ t, exec (.autoloadMarkerRead b1 b2) s = .next t ∧
        FollowUp { s with autoload := { s.autoload with phase := .idle, lastOutcome := .absent, recordCount := 0
                                                        faultReason := .none, faultRecord := 0, staging := [] }
                          events := s.events.post ⟨.autoloadDone, none, 2, 0, 0, 0⟩ } t) ∧
    (∀ b1 b2 : Byte, s.autoload.staging = [] → ¬(b1 = 0x5B ∧ b2 = 0xC3) → s.autoload.startedBy = .reload →
      s.mbx.runs opReload = true → QuietLaw s → ∃ t, exec (.autoloadMarkerRead b1 b2) s = .next t ∧
        FollowUp { s with autoload := { s.autoload with phase := .idle, lastOutcome := .absent, recordCount := 0
                                                        faultReason := .none, faultRecord := 0, staging := [] }
                          events := (s.events.post ⟨.autoloadDone, none, 2, 0, 0, 0⟩).post
                            ⟨.mailboxDone, none, 32, s.mbx.op.setWidth 32, 0, 0⟩
                          mbx := { s.mbx with state := .failed, result := .loadFailed, data := 2 } } t ∧
        (s.disc.state = .disabled → s.power.state = .active → s.engine.link = .free → s.engine.resetPending = false →
          t.disc.state = .querying ∧ QueryUnderWay t)) ∧
    (∀ version count lenLow lenHigh : Byte, s.autoload.staging.length = 2 →
      let total := lenLow.toNat + 256 * lenHigh.toNat
      (version = 1 → 1 ≤ count.toNat → count.toNat ≤ 40 → 10 ≤ total → total ≤ 2048 →
        exec (.autoloadHeaderRead version count lenLow lenHigh) s =
          .next { s with autoload := { s.autoload with
            staging := s.autoload.staging ++ [version, count, lenLow, lenHigh] } }) ∧
      (¬(version = 1 ∧ 1 ≤ count.toNat ∧ count.toNat ≤ 40 ∧ 10 ≤ total ∧ total ≤ 2048) → QuietLaw s →
        let u : State := { s with autoload := { s.autoload with
                                    phase := .idle, lastOutcome := .invalid, recordCount := 0
                                    faultReason := if version ≠ 1 then .version
                                                   else if count.toNat < 1 ∨ 40 < count.toNat then .count else .length
                                    faultRecord := 0, staging := [] }
                                  events := s.events.post ⟨.autoloadDone, none, 3, 0, 0, 0⟩ }
        (s.autoload.startedBy = .cold ∨ s.mbx.runs opReload = false →
          ∃ t, exec (.autoloadHeaderRead version count lenLow lenHigh) s = .next t ∧ FollowUp u t) ∧
        (s.autoload.startedBy = .reload → s.mbx.runs opReload = true →
          ∃ t, exec (.autoloadHeaderRead version count lenLow lenHigh) s = .next t ∧ FollowUp { u with
            events := u.events.post ⟨.mailboxDone, none, 32, s.mbx.op.setWidth 32, 0, 0⟩
            mbx := { s.mbx with state := .failed, result := .loadFailed, data := 3 } } t))) ∧
    (∀ bytes : List Byte, 6 ≤ s.autoload.staging.length →
      s.autoload.staging.length + bytes.length =
        (s.autoload.staging.getD 4 0).toNat + 256 * (s.autoload.staging.getD 5 0).toNat →
      exec (.autoloadImageRead bytes) s = .next { s with autoload := { s.autoload with
        phase := .verifying, staging := s.autoload.staging ++ bytes } })

/-- Verification and its end. What verification answers over the staged bytes: the walk over the records with their forms, lengths
and count, the END record and the bytes behind it, the CHECK over every byte before its own, the value tests and the duplicates in
record order, each fault with its reason and record number, and the records themselves exactly where every test passes; and what each
record says. A fault leaves the configuration as it was; a good image is applied whole, its windows, bindings, timing and routes
replacing those it names, each new interval compared with its own timers, with AUTOLOAD_DONE and, for a RELOAD, the end of its command.
Nothing else changes but by follow-up work: discovery, suspended while autoload ran, has a query due at once where nothing else suspends
it, and stays DISABLED where a reset is pending. A run that RELOAD started and whose command a retaining reset has forgotten ends with
AUTOLOAD_DONE alone, the mailbox as it is (R29, R53, R58, R134, R137, R177 to R182, R185 to R187, R210). The model's choices: which
timers a new value is compared with (log entry 2), the order of the records (log entry 4), the fault
of a record whose type or length byte lies past the image (log entry 26), and the reason of a record that fails two tests of the walk
(log entry 37). -/
def Obligations.AutoloadVerifies : Prop :=
  (∀ staging : List Byte, ImageVerified staging) ∧ (∀ rec : ImageRec, RecordSays rec) ∧
  ∀ s : State, s.pins.hold = false → s.autoload.phase = .verifying → QuietLaw s →
    let count := (s.autoload.staging.getD 3 0).toNat
    let reloads : Prop := s.autoload.startedBy = .reload ∧ s.mbx.runs opReload = true
    let alone : Prop := s.autoload.startedBy = .cold ∨ s.mbx.runs opReload = false
    (∃ t, exec .autoloadVerifyEnd s = .next t ∧
      (s.disc.state = .disabled → s.power.state = .active → s.engine.link = .free → s.engine.resetPending = false →
        t.disc.state = .querying ∧ QueryUnderWay t) ∧
      (s.disc.state = .disabled → s.engine.resetPending = true → t.disc.state = .disabled)) ∧
    (∀ f, verify s.autoload.staging = .fault f →
      let u : State := { s with autoload := { phase := .idle, lastOutcome := .invalid, recordCount := count
                                              faultReason := f.reason, faultRecord := f.number
                                              startedBy := s.autoload.startedBy, staging := [] }
                                events := s.events.post ⟨.autoloadDone, none, 3, BitVec.ofNat 32 f.number, 0, 0⟩ }
      ∃ t, exec .autoloadVerifyEnd s = .next t ∧ (alone → FollowUp u t) ∧
        (reloads → FollowUp { u with events := u.events.post ⟨.mailboxDone, none, 32, s.mbx.op.setWidth 32, 0, 0⟩
                                     mbx := { s.mbx with state := .failed, result := .loadFailed, data := 3 } } t)) ∧
    (∀ l, verify s.autoload.staging = .records l → ∃ t, exec .autoloadVerifyEnd s = .next t ∧
      t.autoload = { phase := .idle, lastOutcome := .loaded, recordCount := count, faultReason := .none, faultRecord := 0
                     startedBy := s.autoload.startedBy, staging := [] } ∧
      (∀ rec ∈ l, rec.type = .window → ∀ n : Fin 8, (rec.byte 1).toNat = n.val → vget t.windows n = rec.window) ∧
      (∀ n : Fin 8, (∀ rec ∈ l, rec.type = .window → (rec.byte 1).toNat ≠ n.val) → vget t.windows n = vget s.windows n) ∧
      (∀ rec ∈ l, rec.type = .timing → ∀ p, (rec.byte 1).toNat = Param.index p → t.timing.value p = rec.value) ∧
      (∀ p : Param, (∀ rec ∈ l, rec.type = .timing → (rec.byte 1).toNat ≠ Param.index p) → t.timing.value p = s.timing.value p) ∧
      ((∀ rec ∈ l, rec.type ≠ .binding) → t.bindings = s.bindings) ∧
      (∀ rec ∈ l, rec.type = .binding → ∀ a : ModAddr, (rec.byte 9).toNat = a.val + 1 →
        vget t.bindings a = some ⟨rec.id, if rec.byte 10 = 0 then .strict else .preferred⟩) ∧
      ((∃ rec ∈ l, rec.type = .binding) → ∀ a : ModAddr,
        (∀ rec ∈ l, rec.type = .binding → (rec.byte 9).toNat ≠ a.val + 1) → vget t.bindings a = none) ∧
      (∀ rec ∈ l, rec.type = .route → ∀ k r, (rec.byte 1).toNat = kindNumber k → (rec.byte 2).toNat = routeCode r →
        t.events.routeOf k = r) ∧
      (∀ k, (∀ rec ∈ l, rec.type = .route → (rec.byte 1).toNat ≠ kindNumber k) → t.events.routeOf k = s.events.routeOf k) ∧
      (alone → t.mbx = s.mbx) ∧
      (reloads → t.mbx = { s.mbx with state := .done, result := .loaded }) ∧
      t.hostQueue = s.hostQueue ∧ t.engine = s.engine ∧
      ((∀ rec ∈ l, rec.type = .timing → (rec.byte 1).toNat ≠ Param.index .discardTime) → t.slots = s.slots) ∧
      (∀ rec ∈ l, rec.type = .timing → (rec.byte 1).toNat = Param.index .discardTime →
        ∀ i, vget t.slots i = discardsTaken rec.value s i) ∧
      ∃ (u : State) (d : EventUnit), FollowUp u t ∧
        u = { s with autoload := t.autoload, windows := t.windows, timing := t.timing, bindings := t.bindings, slots := t.slots,
                     modules := u.modules, events := u.events, mbx := t.mbx } ∧
        (alone → u.events = d.post ⟨.autoloadDone, none, 1, BitVec.ofNat 32 count, 0, 0⟩) ∧
        (reloads → u.events = (d.post ⟨.autoloadDone, none, 1, BitVec.ofNat 32 count, 0, 0⟩).post
          ⟨.mailboxDone, none, 31, s.mbx.op.setWidth 32, 0, 0⟩) ∧
        ((∀ rec ∈ l, rec.type = .timing → (rec.byte 1).toNat ≠ Param.index .discardTime) →
          d = { s.events with routes := t.events.routes }) ∧
        (∀ rec ∈ l, rec.type = .timing → (rec.byte 1).toNat = Param.index .discardTime →
          d = discardRecords rec.value s { s.events with routes := t.events.routes }) ∧
        (∀ rec ∈ l, rec.type = .timing → ∀ a,
          (rec.byte 1).toNat = Param.index .pollInterval ∧ (s.entry a).state = .online ∨
            (rec.byte 1).toNat = Param.index .quarPollInterval ∧ (s.entry a).state = .quarantined →
          u.entry a = pollTaken rec.value s a) ∧
        ∀ a, (∀ rec ∈ l, rec.type = .timing →
            ¬((rec.byte 1).toNat = Param.index .pollInterval ∧ (s.entry a).state = .online) ∧
            ¬((rec.byte 1).toNat = Param.index .quarPollInterval ∧ (s.entry a).state = .quarantined)) →
          u.entry a = s.entry a)

/-! ### Link sleep -/

/-- DRAIN_COMPLETE puts a drained link to sleep, or wakes it at once by attention, and does nothing to another link (between events
no drained link is DRAINING; log entry 5). WAKE_SETTLE_END leaves WAKING with one PING under way for every ONLINE and QUARANTINED
module, due only where none stands in the queue or on the link already, and the sweep armed, which starts where the link is ACTIVE,
ATTN ASSERTED and no sweep in progress; a link that would drain while a DISCOVER_NOW waits for discovery is ACTIVE instead (R140, R191;
log entry 23). A wake posts WAKE with its reason, clears SLEEP_REQ and takes the SETTLE_TIME in force, leaving WAKING at once where
that is 0, with the same PINGs (R190, R193, R194, R195). No other entry has a PING made due. -/
def Obligations.DrainAndWake : Prop :=
  (∀ s : State, s.pins.hold = false →
    (s.power.state = .draining → s.hostQueue = [] → s.mgmtQueue = [] → s.engine.link = .free →
      s.engine.resetPending = false → (∀ a, (s.entry a).state ≠ .joining ∧ (s.entry a).state ≠ .describing) →
      (∀ i, (vget s.slots i).isPending = false) → s.mbx.busy = false → s.autoload.phase = .idle →
      ∃ t, exec .drainComplete s = .next t ∧ FollowUp { s with power := { s.power with state := .asleep } } t ∧
        (s.attn.level = true → s.attn.armed = true →
          t.power.state ≠ .asleep ∧ t.power.lastWake = .attention ∧ t.power.sleepReq = false)) ∧
    (DrainLaw s → exec .drainComplete s = .next s) ∧
    (∀ n w, s.power.state = .waking → s.power.wakeTimer = some n → s.power.wakeSettle = some w → QuietLaw s →
      ∃ t u v, exec .wakeSettleEnd s = .next t ∧ t.now = s.now + (w - n) ∧ OnlyTimePasses (w - n) s u ∧
        v = { u with modules := v.modules, attn := { s.attn with armed := true }
                     power := { s.power with state := if s.power.sleepReq then .draining else .active, wakeTimer := none
                                             wakeSettle := none } } ∧
        (∀ a, v.entry a =
          if (s.entry a).state = .online ∨ (s.entry a).state = .quarantined then pingCalled u a else u.entry a) ∧
        (∀ a, (s.entry a).state = .online ∨ (s.entry a).state = .quarantined → PingUnderWay v a) ∧ FollowUp v t ∧
        (s.power.sleepReq = false → s.attn.level = true → s.attn.sweep = none →
          t.attn.armed = false ∧ t.attn.sweep = if sweepSet s = [] then none else some (sweepSet s)) ∧
        (s.power.sleepReq = true → s.mbx.runs opDiscoverNow = true → ¬DiscCarried s →
          t.power.state = .active ∧ t.power.sleepReq = false) ∧
        (s.mbx.runs opDiscoverNow = false →
          s.power.sleepReq = false ∨ (∃ a, (s.entry a).state = .online ∨ (s.entry a).state = .quarantined) →
          t.power = { s.power with state := if s.power.sleepReq then .draining else .active, wakeTimer := none
                                   wakeSettle := none }) ∧
        t.hostQueue = s.hostQueue ∧
        ∀ a, (s.entry a).state = .online ∨ (s.entry a).state = .quarantined → PingUnderWay t a)) ∧
  ∀ (s : State) (r : WakeReason), let t := wakeLink r s
    t = { s with modules := t.modules, attn := t.attn, events := t.events, power := t.power } ∧
    t.events = s.events.post ⟨.wake, none, wakeCode r, 0, 0, 0⟩ ∧
    (s.timing.settleTime ≠ 0 → t.modules = s.modules ∧ t.attn = s.attn ∧
      t.power = { s.power with state := .waking, sleepReq := false, lastWake := r, wakeTimer := some 0
                               wakeSettle := some (s.timing.settleTime * 1000) }) ∧
    (s.timing.settleTime = 0 → t.attn = { s.attn with armed := true } ∧
      t.power = { s.power with state := .active, sleepReq := false, lastWake := r, wakeTimer := none, wakeSettle := none } ∧
      (∀ a, t.entry a =
        if (s.entry a).state = .online ∨ (s.entry a).state = .quarantined then pingCalled s a else s.entry a) ∧
      ∀ a, (s.entry a).state = .online ∨ (s.entry a).state = .quarantined → PingUnderWay t a)

/-! ### The event unit -/

/-- A posted record is suppressed, counted into OVERFLOW, appended with the next seq and its kind's route, or the first to make the
OVERFLOW record (R156). -/
def Obligations.PostedRecordIsTaken : Prop :=
  ∀ (u : EventUnit) (p : Posted),
    (u.routeOf p.kind = .suppress → u.post p = u) ∧
    (u.routeOf p.kind ≠ .suppress → u.overflowPresent = true → u.post p = { u with list := u.list.map fun r =>
      if r.kind = .overflow then { r with detailA := if r.detailA = 0xFFFFFFFF#32 then r.detailA else r.detailA + 1 }
      else r }) ∧
    (u.routeOf p.kind ≠ .suppress → u.overflowPresent = false → u.ordinaryCount + u.reservations < 31 →
      u.post p = { u with nextSeq := u.nextSeq + 1, list := u.list ++
        [⟨u.nextSeq, p.kind, p.address, p.code, p.detailA, p.detailB, p.detailC, u.routeOf p.kind, false⟩] }) ∧
    (u.routeOf p.kind ≠ .suppress → u.overflowPresent = false → u.ordinaryCount + u.reservations = 31 →
      u.post p = { u with nextSeq := u.nextSeq + 1, list := u.list ++
        [⟨u.nextSeq, .overflow, none, 0, 1, 0, 0, u.routeOf .overflow, false⟩] })

/-- Reservations are taken, released and filled as the table gives (R158), and what the outcomes of ATTN_FETCH, ATTN_CLEAR and PING
do: a word is recorded in a reserved place or as an ordinary record, with bit 15 also reporting CONTENTS_CHANGED; a word of 0 or
a failure drops the fetch; the clear's end arms the sweep; a PING's end takes its address out of the sweep (R28, R139, R141, R144
to R146, R148). That the clear's end does nothing on an entry in another attention_state is the model's choice (log entry 24). -/
def Obligations.ReservationsAreKept : Prop :=
  (∀ u : EventUnit,
    (u.overflowPresent = false → u.ordinaryCount + u.reservations < 31 →
      u.take = { u with reservations := u.reservations + 1 }) ∧
    (u.overflowPresent = true ∨ 31 ≤ u.ordinaryCount + u.reservations → u.take = u) ∧
    (0 < u.reservations → u.release = { u with reservations := u.reservations - 1 }) ∧
    (∀ a word gen held, 0 < u.reservations → u.fill a word gen held =
      { u with reservations := u.reservations - 1, nextSeq := u.nextSeq + 1, list := u.list ++
        [⟨u.nextSeq, .attention, some a, 0, word.setWidth 32, gen.setWidth 32, 0, u.routeOf .attention, held⟩] })) ∧
  ∀ (s : State) (a : ModAddr) (garbled : Bool) (data : List Byte), (s.entry a).state ≠ .empty →
    (∀ f, s.fetchRec a = some f → f.gen = (s.entry a).generation → FetchEnds s a f garbled data) ∧
    (∀ o, (∀ f, s.fetchRec a = some f → f.gen ≠ (s.entry a).generation) →
      mgmtOutcome (.attnFetch a (s.entry a).generation) o garbled data s = s) ∧
    (∀ o cleared, mgmtOutcome (.attnClear a (s.entry a).generation cleared) o garbled data s =
      if (s.entry a).attention = .clearDue then
        { s with modules := vset s.modules a { s.entry a with attention := .none, clearBits := none }
                 attn := { s.attn with armed := true } }
      else s) ∧
    (∀ o, mgmtOutcome (.ping a (s.entry a).generation) o garbled data s = { s with attn := { s.attn with
      sweep := s.attn.sweep.bind fun l => if l.filter (· ≠ a) = [] then none else some (l.filter (· ≠ a)) } })

end
end

