-- ==== Sys2Proof/Laws/State.lean ====
section
/-! SUPPORT. What each update leaves alone: one lemma for each field and each update, so that no proof unfolds a record
update; and reading a fixed table after writing it. -/

namespace Sys2Proof.Machine

/-! ### Fixed tables -/

@[simp] theorem vget_vset_same {α : Type} {n : Nat} (v : Vector α n) (i : Fin n) (x : α) : vget (vset v i x) i = x := by
  simp [vget, vset, Vector.get, Fin.cast]

theorem vget_vset_ne {α : Type} {n : Nat} (v : Vector α n) (i j : Fin n) (x : α) (h : i ≠ j) :
    vget (vset v i x) j = vget v j := by
  have h1 : i.val ≠ j.val := fun e => h (Fin.ext e)
  simp [vget, vset, Vector.get, Fin.cast, h1]

theorem vget_vset {α : Type} {n : Nat} (v : Vector α n) (i j : Fin n) (x : α) :
    vget (vset v i x) j = if i = j then x else vget v j := by
  by_cases h : i = j
  · subst h; simp
  · simp [h, vget_vset_ne v i j x h]

@[simp] theorem vget_vmap {α β : Type} {n : Nat} (f : α → β) (v : Vector α n) (i : Fin n) :
    vget (vmap f v) i = f (vget v i) := by
  simp [vget, vmap, Vector.get, Fin.cast]

@[simp] theorem vget_replicate {α : Type} {n : Nat} (x : α) (i : Fin n) : vget (Vector.replicate n x) i = x := by
  simp [vget, Vector.get, Fin.cast]

/-! ### Module entries -/

@[simp] theorem entry_setEntry_same (s : State) (a : ModAddr) (e : Entry) : (s.setEntry a e).entry a = e := by
  simp [State.entry, State.setEntry]

theorem entry_setEntry (s : State) (a b : ModAddr) (e : Entry) :
    (s.setEntry a e).entry b = if a = b then e else s.entry b := by
  simp [State.entry, State.setEntry, vget_vset]

theorem entry_setEntry_ne (s : State) (a b : ModAddr) (e : Entry) (h : a ≠ b) : (s.setEntry a e).entry b = s.entry b := by
  simp [entry_setEntry, h]

theorem entry_of_modules (s t : State) (h : t.modules = s.modules) (a : ModAddr) : t.entry a = s.entry a := by
  simp [State.entry, h]

/-! ### Fields that an update leaves alone -/

@[simp] theorem setEntry_pending (s : State) (a : ModAddr) (e : Entry) : (s.setEntry a e).pending = s.pending := rfl
@[simp] theorem setEntry_now (s : State) (a : ModAddr) (e : Entry) : (s.setEntry a e).now = s.now := rfl
@[simp] theorem setEntry_pins (s : State) (a : ModAddr) (e : Entry) : (s.setEntry a e).pins = s.pins := rfl
@[simp] theorem setEntry_port (s : State) (a : ModAddr) (e : Entry) : (s.setEntry a e).port = s.port := rfl
@[simp] theorem setEntry_timing (s : State) (a : ModAddr) (e : Entry) : (s.setEntry a e).timing = s.timing := rfl
@[simp] theorem setEntry_windows (s : State) (a : ModAddr) (e : Entry) : (s.setEntry a e).windows = s.windows := rfl
@[simp] theorem setEntry_hostQueue (s : State) (a : ModAddr) (e : Entry) : (s.setEntry a e).hostQueue = s.hostQueue := rfl
@[simp] theorem setEntry_slots (s : State) (a : ModAddr) (e : Entry) : (s.setEntry a e).slots = s.slots := rfl
@[simp] theorem setEntry_cache (s : State) (a : ModAddr) (e : Entry) : (s.setEntry a e).cache = s.cache := rfl
@[simp] theorem setEntry_mbx (s : State) (a : ModAddr) (e : Entry) : (s.setEntry a e).mbx = s.mbx := rfl
@[simp] theorem setEntry_engine (s : State) (a : ModAddr) (e : Entry) : (s.setEntry a e).engine = s.engine := rfl
@[simp] theorem setEntry_mgmtQueue (s : State) (a : ModAddr) (e : Entry) : (s.setEntry a e).mgmtQueue = s.mgmtQueue := rfl
@[simp] theorem setEntry_disc (s : State) (a : ModAddr) (e : Entry) : (s.setEntry a e).disc = s.disc := rfl
@[simp] theorem setEntry_bindings (s : State) (a : ModAddr) (e : Entry) : (s.setEntry a e).bindings = s.bindings := rfl
@[simp] theorem setEntry_attn (s : State) (a : ModAddr) (e : Entry) : (s.setEntry a e).attn = s.attn := rfl
@[simp] theorem setEntry_events (s : State) (a : ModAddr) (e : Entry) : (s.setEntry a e).events = s.events := rfl
@[simp] theorem setEntry_autoload (s : State) (a : ModAddr) (e : Entry) : (s.setEntry a e).autoload = s.autoload := rfl
@[simp] theorem setEntry_power (s : State) (a : ModAddr) (e : Entry) : (s.setEntry a e).power = s.power := rfl

@[simp] theorem setSlot_pending (s : State) (i : Fin 4) (x : Slot) : (s.setSlot i x).pending = s.pending := rfl
@[simp] theorem setSlot_now (s : State) (i : Fin 4) (x : Slot) : (s.setSlot i x).now = s.now := rfl
@[simp] theorem setSlot_pins (s : State) (i : Fin 4) (x : Slot) : (s.setSlot i x).pins = s.pins := rfl
@[simp] theorem setSlot_port (s : State) (i : Fin 4) (x : Slot) : (s.setSlot i x).port = s.port := rfl
@[simp] theorem setSlot_timing (s : State) (i : Fin 4) (x : Slot) : (s.setSlot i x).timing = s.timing := rfl
@[simp] theorem setSlot_windows (s : State) (i : Fin 4) (x : Slot) : (s.setSlot i x).windows = s.windows := rfl
@[simp] theorem setSlot_hostQueue (s : State) (i : Fin 4) (x : Slot) : (s.setSlot i x).hostQueue = s.hostQueue := rfl
@[simp] theorem setSlot_cache (s : State) (i : Fin 4) (x : Slot) : (s.setSlot i x).cache = s.cache := rfl
@[simp] theorem setSlot_mbx (s : State) (i : Fin 4) (x : Slot) : (s.setSlot i x).mbx = s.mbx := rfl
@[simp] theorem setSlot_engine (s : State) (i : Fin 4) (x : Slot) : (s.setSlot i x).engine = s.engine := rfl
@[simp] theorem setSlot_modules (s : State) (i : Fin 4) (x : Slot) : (s.setSlot i x).modules = s.modules := rfl
@[simp] theorem setSlot_mgmtQueue (s : State) (i : Fin 4) (x : Slot) : (s.setSlot i x).mgmtQueue = s.mgmtQueue := rfl
@[simp] theorem setSlot_disc (s : State) (i : Fin 4) (x : Slot) : (s.setSlot i x).disc = s.disc := rfl
@[simp] theorem setSlot_bindings (s : State) (i : Fin 4) (x : Slot) : (s.setSlot i x).bindings = s.bindings := rfl
@[simp] theorem setSlot_attn (s : State) (i : Fin 4) (x : Slot) : (s.setSlot i x).attn = s.attn := rfl
@[simp] theorem setSlot_events (s : State) (i : Fin 4) (x : Slot) : (s.setSlot i x).events = s.events := rfl
@[simp] theorem setSlot_autoload (s : State) (i : Fin 4) (x : Slot) : (s.setSlot i x).autoload = s.autoload := rfl
@[simp] theorem setSlot_power (s : State) (i : Fin 4) (x : Slot) : (s.setSlot i x).power = s.power := rfl

@[simp] theorem setWindow_pending (s : State) (n : Fin 8) (w : Window) : (s.setWindow n w).pending = s.pending := rfl
@[simp] theorem setWindow_now (s : State) (n : Fin 8) (w : Window) : (s.setWindow n w).now = s.now := rfl
@[simp] theorem setWindow_pins (s : State) (n : Fin 8) (w : Window) : (s.setWindow n w).pins = s.pins := rfl
@[simp] theorem setWindow_port (s : State) (n : Fin 8) (w : Window) : (s.setWindow n w).port = s.port := rfl
@[simp] theorem setWindow_timing (s : State) (n : Fin 8) (w : Window) : (s.setWindow n w).timing = s.timing := rfl
@[simp] theorem setWindow_hostQueue (s : State) (n : Fin 8) (w : Window) : (s.setWindow n w).hostQueue = s.hostQueue := rfl
@[simp] theorem setWindow_slots (s : State) (n : Fin 8) (w : Window) : (s.setWindow n w).slots = s.slots := rfl
@[simp] theorem setWindow_cache (s : State) (n : Fin 8) (w : Window) : (s.setWindow n w).cache = s.cache := rfl
@[simp] theorem setWindow_mbx (s : State) (n : Fin 8) (w : Window) : (s.setWindow n w).mbx = s.mbx := rfl
@[simp] theorem setWindow_engine (s : State) (n : Fin 8) (w : Window) : (s.setWindow n w).engine = s.engine := rfl
@[simp] theorem setWindow_modules (s : State) (n : Fin 8) (w : Window) : (s.setWindow n w).modules = s.modules := rfl
@[simp] theorem setWindow_mgmtQueue (s : State) (n : Fin 8) (w : Window) : (s.setWindow n w).mgmtQueue = s.mgmtQueue := rfl
@[simp] theorem setWindow_disc (s : State) (n : Fin 8) (w : Window) : (s.setWindow n w).disc = s.disc := rfl
@[simp] theorem setWindow_bindings (s : State) (n : Fin 8) (w : Window) : (s.setWindow n w).bindings = s.bindings := rfl
@[simp] theorem setWindow_attn (s : State) (n : Fin 8) (w : Window) : (s.setWindow n w).attn = s.attn := rfl
@[simp] theorem setWindow_events (s : State) (n : Fin 8) (w : Window) : (s.setWindow n w).events = s.events := rfl
@[simp] theorem setWindow_autoload (s : State) (n : Fin 8) (w : Window) : (s.setWindow n w).autoload = s.autoload := rfl
@[simp] theorem setWindow_power (s : State) (n : Fin 8) (w : Window) : (s.setWindow n w).power = s.power := rfl

@[simp] theorem reply_pending (s : State) (r : Answer) : (s.reply r).pending = s.pending := rfl
@[simp] theorem reply_now (s : State) (r : Answer) : (s.reply r).now = s.now := rfl
@[simp] theorem reply_pins (s : State) (r : Answer) : (s.reply r).pins = s.pins := rfl
@[simp] theorem reply_timing (s : State) (r : Answer) : (s.reply r).timing = s.timing := rfl
@[simp] theorem reply_windows (s : State) (r : Answer) : (s.reply r).windows = s.windows := rfl
@[simp] theorem reply_hostQueue (s : State) (r : Answer) : (s.reply r).hostQueue = s.hostQueue := rfl
@[simp] theorem reply_slots (s : State) (r : Answer) : (s.reply r).slots = s.slots := rfl
@[simp] theorem reply_cache (s : State) (r : Answer) : (s.reply r).cache = s.cache := rfl
@[simp] theorem reply_mbx (s : State) (r : Answer) : (s.reply r).mbx = s.mbx := rfl
@[simp] theorem reply_engine (s : State) (r : Answer) : (s.reply r).engine = s.engine := rfl
@[simp] theorem reply_modules (s : State) (r : Answer) : (s.reply r).modules = s.modules := rfl
@[simp] theorem reply_mgmtQueue (s : State) (r : Answer) : (s.reply r).mgmtQueue = s.mgmtQueue := rfl
@[simp] theorem reply_disc (s : State) (r : Answer) : (s.reply r).disc = s.disc := rfl
@[simp] theorem reply_bindings (s : State) (r : Answer) : (s.reply r).bindings = s.bindings := rfl
@[simp] theorem reply_attn (s : State) (r : Answer) : (s.reply r).attn = s.attn := rfl
@[simp] theorem reply_events (s : State) (r : Answer) : (s.reply r).events = s.events := rfl
@[simp] theorem reply_autoload (s : State) (r : Answer) : (s.reply r).autoload = s.autoload := rfl
@[simp] theorem reply_power (s : State) (r : Answer) : (s.reply r).power = s.power := rfl

@[simp] theorem holdAccess_pending (w : HeldFor) (s : State) : (holdAccess w s).pending = s.pending := rfl
@[simp] theorem holdAccess_now (w : HeldFor) (s : State) : (holdAccess w s).now = s.now := rfl
@[simp] theorem holdAccess_pins (w : HeldFor) (s : State) : (holdAccess w s).pins = s.pins := rfl
@[simp] theorem holdAccess_timing (w : HeldFor) (s : State) : (holdAccess w s).timing = s.timing := rfl
@[simp] theorem holdAccess_windows (w : HeldFor) (s : State) : (holdAccess w s).windows = s.windows := rfl
@[simp] theorem holdAccess_hostQueue (w : HeldFor) (s : State) : (holdAccess w s).hostQueue = s.hostQueue := rfl
@[simp] theorem holdAccess_slots (w : HeldFor) (s : State) : (holdAccess w s).slots = s.slots := rfl
@[simp] theorem holdAccess_cache (w : HeldFor) (s : State) : (holdAccess w s).cache = s.cache := rfl
@[simp] theorem holdAccess_mbx (w : HeldFor) (s : State) : (holdAccess w s).mbx = s.mbx := rfl
@[simp] theorem holdAccess_engine (w : HeldFor) (s : State) : (holdAccess w s).engine = s.engine := rfl
@[simp] theorem holdAccess_modules (w : HeldFor) (s : State) : (holdAccess w s).modules = s.modules := rfl
@[simp] theorem holdAccess_mgmtQueue (w : HeldFor) (s : State) : (holdAccess w s).mgmtQueue = s.mgmtQueue := rfl
@[simp] theorem holdAccess_disc (w : HeldFor) (s : State) : (holdAccess w s).disc = s.disc := rfl
@[simp] theorem holdAccess_bindings (w : HeldFor) (s : State) : (holdAccess w s).bindings = s.bindings := rfl
@[simp] theorem holdAccess_attn (w : HeldFor) (s : State) : (holdAccess w s).attn = s.attn := rfl
@[simp] theorem holdAccess_events (w : HeldFor) (s : State) : (holdAccess w s).events = s.events := rfl
@[simp] theorem holdAccess_autoload (w : HeldFor) (s : State) : (holdAccess w s).autoload = s.autoload := rfl
@[simp] theorem holdAccess_power (w : HeldFor) (s : State) : (holdAccess w s).power = s.power := rfl

@[simp] theorem endHold_pending (s : State) : (endHold s).pending = s.pending := rfl
@[simp] theorem endHold_now (s : State) : (endHold s).now = s.now := rfl
@[simp] theorem endHold_pins (s : State) : (endHold s).pins = s.pins := rfl
@[simp] theorem endHold_timing (s : State) : (endHold s).timing = s.timing := rfl
@[simp] theorem endHold_windows (s : State) : (endHold s).windows = s.windows := rfl
@[simp] theorem endHold_hostQueue (s : State) : (endHold s).hostQueue = s.hostQueue := rfl
@[simp] theorem endHold_slots (s : State) : (endHold s).slots = s.slots := rfl
@[simp] theorem endHold_cache (s : State) : (endHold s).cache = s.cache := rfl
@[simp] theorem endHold_mbx (s : State) : (endHold s).mbx = s.mbx := rfl
@[simp] theorem endHold_engine (s : State) : (endHold s).engine = s.engine := rfl
@[simp] theorem endHold_modules (s : State) : (endHold s).modules = s.modules := rfl
@[simp] theorem endHold_mgmtQueue (s : State) : (endHold s).mgmtQueue = s.mgmtQueue := rfl
@[simp] theorem endHold_disc (s : State) : (endHold s).disc = s.disc := rfl
@[simp] theorem endHold_bindings (s : State) : (endHold s).bindings = s.bindings := rfl
@[simp] theorem endHold_attn (s : State) : (endHold s).attn = s.attn := rfl
@[simp] theorem endHold_events (s : State) : (endHold s).events = s.events := rfl
@[simp] theorem endHold_autoload (s : State) : (endHold s).autoload = s.autoload := rfl
@[simp] theorem endHold_power (s : State) : (endHold s).power = s.power := rfl

@[simp] theorem captureFault_pending (r : WinFaultReason) (d : Dir) (x : BitVec 17) (n : BitVec 4) (s : State) : (captureFault r d x n s).pending = s.pending := rfl
@[simp] theorem captureFault_now (r : WinFaultReason) (d : Dir) (x : BitVec 17) (n : BitVec 4) (s : State) : (captureFault r d x n s).now = s.now := rfl
@[simp] theorem captureFault_pins (r : WinFaultReason) (d : Dir) (x : BitVec 17) (n : BitVec 4) (s : State) : (captureFault r d x n s).pins = s.pins := rfl
@[simp] theorem captureFault_timing (r : WinFaultReason) (d : Dir) (x : BitVec 17) (n : BitVec 4) (s : State) : (captureFault r d x n s).timing = s.timing := rfl
@[simp] theorem captureFault_windows (r : WinFaultReason) (d : Dir) (x : BitVec 17) (n : BitVec 4) (s : State) : (captureFault r d x n s).windows = s.windows := rfl
@[simp] theorem captureFault_hostQueue (r : WinFaultReason) (d : Dir) (x : BitVec 17) (n : BitVec 4) (s : State) : (captureFault r d x n s).hostQueue = s.hostQueue := rfl
@[simp] theorem captureFault_slots (r : WinFaultReason) (d : Dir) (x : BitVec 17) (n : BitVec 4) (s : State) : (captureFault r d x n s).slots = s.slots := rfl
@[simp] theorem captureFault_cache (r : WinFaultReason) (d : Dir) (x : BitVec 17) (n : BitVec 4) (s : State) : (captureFault r d x n s).cache = s.cache := rfl
@[simp] theorem captureFault_mbx (r : WinFaultReason) (d : Dir) (x : BitVec 17) (n : BitVec 4) (s : State) : (captureFault r d x n s).mbx = s.mbx := rfl
@[simp] theorem captureFault_engine (r : WinFaultReason) (d : Dir) (x : BitVec 17) (n : BitVec 4) (s : State) : (captureFault r d x n s).engine = s.engine := rfl
@[simp] theorem captureFault_modules (r : WinFaultReason) (d : Dir) (x : BitVec 17) (n : BitVec 4) (s : State) : (captureFault r d x n s).modules = s.modules := rfl
@[simp] theorem captureFault_mgmtQueue (r : WinFaultReason) (d : Dir) (x : BitVec 17) (n : BitVec 4) (s : State) : (captureFault r d x n s).mgmtQueue = s.mgmtQueue := rfl
@[simp] theorem captureFault_disc (r : WinFaultReason) (d : Dir) (x : BitVec 17) (n : BitVec 4) (s : State) : (captureFault r d x n s).disc = s.disc := rfl
@[simp] theorem captureFault_bindings (r : WinFaultReason) (d : Dir) (x : BitVec 17) (n : BitVec 4) (s : State) : (captureFault r d x n s).bindings = s.bindings := rfl
@[simp] theorem captureFault_attn (r : WinFaultReason) (d : Dir) (x : BitVec 17) (n : BitVec 4) (s : State) : (captureFault r d x n s).attn = s.attn := rfl
@[simp] theorem captureFault_events (r : WinFaultReason) (d : Dir) (x : BitVec 17) (n : BitVec 4) (s : State) : (captureFault r d x n s).events = s.events := rfl
@[simp] theorem captureFault_autoload (r : WinFaultReason) (d : Dir) (x : BitVec 17) (n : BitVec 4) (s : State) : (captureFault r d x n s).autoload = s.autoload := rfl
@[simp] theorem captureFault_power (r : WinFaultReason) (d : Dir) (x : BitVec 17) (n : BitVec 4) (s : State) : (captureFault r d x n s).power = s.power := rfl

@[simp] theorem post_pending (p : Posted) (s : State) : (post p s).pending = s.pending := rfl
@[simp] theorem post_now (p : Posted) (s : State) : (post p s).now = s.now := rfl
@[simp] theorem post_pins (p : Posted) (s : State) : (post p s).pins = s.pins := rfl
@[simp] theorem post_port (p : Posted) (s : State) : (post p s).port = s.port := rfl
@[simp] theorem post_timing (p : Posted) (s : State) : (post p s).timing = s.timing := rfl
@[simp] theorem post_windows (p : Posted) (s : State) : (post p s).windows = s.windows := rfl
@[simp] theorem post_hostQueue (p : Posted) (s : State) : (post p s).hostQueue = s.hostQueue := rfl
@[simp] theorem post_slots (p : Posted) (s : State) : (post p s).slots = s.slots := rfl
@[simp] theorem post_cache (p : Posted) (s : State) : (post p s).cache = s.cache := rfl
@[simp] theorem post_mbx (p : Posted) (s : State) : (post p s).mbx = s.mbx := rfl
@[simp] theorem post_engine (p : Posted) (s : State) : (post p s).engine = s.engine := rfl
@[simp] theorem post_modules (p : Posted) (s : State) : (post p s).modules = s.modules := rfl
@[simp] theorem post_mgmtQueue (p : Posted) (s : State) : (post p s).mgmtQueue = s.mgmtQueue := rfl
@[simp] theorem post_disc (p : Posted) (s : State) : (post p s).disc = s.disc := rfl
@[simp] theorem post_bindings (p : Posted) (s : State) : (post p s).bindings = s.bindings := rfl
@[simp] theorem post_attn (p : Posted) (s : State) : (post p s).attn = s.attn := rfl
@[simp] theorem post_autoload (p : Posted) (s : State) : (post p s).autoload = s.autoload := rfl
@[simp] theorem post_power (p : Posted) (s : State) : (post p s).power = s.power := rfl

@[simp] theorem pushHost_pending (e : HostEntry) (s : State) : (pushHost e s).pending = s.pending := rfl
@[simp] theorem pushHost_now (e : HostEntry) (s : State) : (pushHost e s).now = s.now := rfl
@[simp] theorem pushHost_pins (e : HostEntry) (s : State) : (pushHost e s).pins = s.pins := rfl
@[simp] theorem pushHost_port (e : HostEntry) (s : State) : (pushHost e s).port = s.port := rfl
@[simp] theorem pushHost_timing (e : HostEntry) (s : State) : (pushHost e s).timing = s.timing := rfl
@[simp] theorem pushHost_windows (e : HostEntry) (s : State) : (pushHost e s).windows = s.windows := rfl
@[simp] theorem pushHost_slots (e : HostEntry) (s : State) : (pushHost e s).slots = s.slots := rfl
@[simp] theorem pushHost_cache (e : HostEntry) (s : State) : (pushHost e s).cache = s.cache := rfl
@[simp] theorem pushHost_mbx (e : HostEntry) (s : State) : (pushHost e s).mbx = s.mbx := rfl
@[simp] theorem pushHost_engine (e : HostEntry) (s : State) : (pushHost e s).engine = s.engine := rfl
@[simp] theorem pushHost_modules (e : HostEntry) (s : State) : (pushHost e s).modules = s.modules := rfl
@[simp] theorem pushHost_mgmtQueue (e : HostEntry) (s : State) : (pushHost e s).mgmtQueue = s.mgmtQueue := rfl
@[simp] theorem pushHost_disc (e : HostEntry) (s : State) : (pushHost e s).disc = s.disc := rfl
@[simp] theorem pushHost_bindings (e : HostEntry) (s : State) : (pushHost e s).bindings = s.bindings := rfl
@[simp] theorem pushHost_attn (e : HostEntry) (s : State) : (pushHost e s).attn = s.attn := rfl
@[simp] theorem pushHost_events (e : HostEntry) (s : State) : (pushHost e s).events = s.events := rfl
@[simp] theorem pushHost_autoload (e : HostEntry) (s : State) : (pushHost e s).autoload = s.autoload := rfl
@[simp] theorem pushHost_power (e : HostEntry) (s : State) : (pushHost e s).power = s.power := rfl

@[simp] theorem pushMgmt_pending (m : MgmtEntry) (s : State) : (pushMgmt m s).pending = s.pending := rfl
@[simp] theorem pushMgmt_now (m : MgmtEntry) (s : State) : (pushMgmt m s).now = s.now := rfl
@[simp] theorem pushMgmt_pins (m : MgmtEntry) (s : State) : (pushMgmt m s).pins = s.pins := rfl
@[simp] theorem pushMgmt_port (m : MgmtEntry) (s : State) : (pushMgmt m s).port = s.port := rfl
@[simp] theorem pushMgmt_timing (m : MgmtEntry) (s : State) : (pushMgmt m s).timing = s.timing := rfl
@[simp] theorem pushMgmt_windows (m : MgmtEntry) (s : State) : (pushMgmt m s).windows = s.windows := rfl
@[simp] theorem pushMgmt_hostQueue (m : MgmtEntry) (s : State) : (pushMgmt m s).hostQueue = s.hostQueue := rfl
@[simp] theorem pushMgmt_slots (m : MgmtEntry) (s : State) : (pushMgmt m s).slots = s.slots := rfl
@[simp] theorem pushMgmt_cache (m : MgmtEntry) (s : State) : (pushMgmt m s).cache = s.cache := rfl
@[simp] theorem pushMgmt_mbx (m : MgmtEntry) (s : State) : (pushMgmt m s).mbx = s.mbx := rfl
@[simp] theorem pushMgmt_engine (m : MgmtEntry) (s : State) : (pushMgmt m s).engine = s.engine := rfl
@[simp] theorem pushMgmt_modules (m : MgmtEntry) (s : State) : (pushMgmt m s).modules = s.modules := rfl
@[simp] theorem pushMgmt_disc (m : MgmtEntry) (s : State) : (pushMgmt m s).disc = s.disc := rfl
@[simp] theorem pushMgmt_bindings (m : MgmtEntry) (s : State) : (pushMgmt m s).bindings = s.bindings := rfl
@[simp] theorem pushMgmt_attn (m : MgmtEntry) (s : State) : (pushMgmt m s).attn = s.attn := rfl
@[simp] theorem pushMgmt_events (m : MgmtEntry) (s : State) : (pushMgmt m s).events = s.events := rfl
@[simp] theorem pushMgmt_autoload (m : MgmtEntry) (s : State) : (pushMgmt m s).autoload = s.autoload := rfl
@[simp] theorem pushMgmt_power (m : MgmtEntry) (s : State) : (pushMgmt m s).power = s.power := rfl

@[simp] theorem setMbxState_pending (st : MbxState) (s : State) : (setMbxState st s).pending = s.pending := rfl
@[simp] theorem setMbxState_now (st : MbxState) (s : State) : (setMbxState st s).now = s.now := rfl
@[simp] theorem setMbxState_pins (st : MbxState) (s : State) : (setMbxState st s).pins = s.pins := rfl
@[simp] theorem setMbxState_port (st : MbxState) (s : State) : (setMbxState st s).port = s.port := rfl
@[simp] theorem setMbxState_timing (st : MbxState) (s : State) : (setMbxState st s).timing = s.timing := rfl
@[simp] theorem setMbxState_windows (st : MbxState) (s : State) : (setMbxState st s).windows = s.windows := rfl
@[simp] theorem setMbxState_hostQueue (st : MbxState) (s : State) : (setMbxState st s).hostQueue = s.hostQueue := rfl
@[simp] theorem setMbxState_slots (st : MbxState) (s : State) : (setMbxState st s).slots = s.slots := rfl
@[simp] theorem setMbxState_cache (st : MbxState) (s : State) : (setMbxState st s).cache = s.cache := rfl
@[simp] theorem setMbxState_engine (st : MbxState) (s : State) : (setMbxState st s).engine = s.engine := rfl
@[simp] theorem setMbxState_modules (st : MbxState) (s : State) : (setMbxState st s).modules = s.modules := rfl
@[simp] theorem setMbxState_mgmtQueue (st : MbxState) (s : State) : (setMbxState st s).mgmtQueue = s.mgmtQueue := rfl
@[simp] theorem setMbxState_disc (st : MbxState) (s : State) : (setMbxState st s).disc = s.disc := rfl
@[simp] theorem setMbxState_bindings (st : MbxState) (s : State) : (setMbxState st s).bindings = s.bindings := rfl
@[simp] theorem setMbxState_attn (st : MbxState) (s : State) : (setMbxState st s).attn = s.attn := rfl
@[simp] theorem setMbxState_events (st : MbxState) (s : State) : (setMbxState st s).events = s.events := rfl
@[simp] theorem setMbxState_autoload (st : MbxState) (s : State) : (setMbxState st s).autoload = s.autoload := rfl
@[simp] theorem setMbxState_power (st : MbxState) (s : State) : (setMbxState st s).power = s.power := rfl

@[simp] theorem endMailbox_pending (st : MbxState) (r : Result) (a : Option ModAddr) (d : Word) (s : State) : (endMailbox st r a d s).pending = s.pending := rfl
@[simp] theorem endMailbox_now (st : MbxState) (r : Result) (a : Option ModAddr) (d : Word) (s : State) : (endMailbox st r a d s).now = s.now := rfl
@[simp] theorem endMailbox_pins (st : MbxState) (r : Result) (a : Option ModAddr) (d : Word) (s : State) : (endMailbox st r a d s).pins = s.pins := rfl
@[simp] theorem endMailbox_port (st : MbxState) (r : Result) (a : Option ModAddr) (d : Word) (s : State) : (endMailbox st r a d s).port = s.port := rfl
@[simp] theorem endMailbox_timing (st : MbxState) (r : Result) (a : Option ModAddr) (d : Word) (s : State) : (endMailbox st r a d s).timing = s.timing := rfl
@[simp] theorem endMailbox_windows (st : MbxState) (r : Result) (a : Option ModAddr) (d : Word) (s : State) : (endMailbox st r a d s).windows = s.windows := rfl
@[simp] theorem endMailbox_hostQueue (st : MbxState) (r : Result) (a : Option ModAddr) (d : Word) (s : State) : (endMailbox st r a d s).hostQueue = s.hostQueue := rfl
@[simp] theorem endMailbox_slots (st : MbxState) (r : Result) (a : Option ModAddr) (d : Word) (s : State) : (endMailbox st r a d s).slots = s.slots := rfl
@[simp] theorem endMailbox_cache (st : MbxState) (r : Result) (a : Option ModAddr) (d : Word) (s : State) : (endMailbox st r a d s).cache = s.cache := rfl
@[simp] theorem endMailbox_engine (st : MbxState) (r : Result) (a : Option ModAddr) (d : Word) (s : State) : (endMailbox st r a d s).engine = s.engine := rfl
@[simp] theorem endMailbox_modules (st : MbxState) (r : Result) (a : Option ModAddr) (d : Word) (s : State) : (endMailbox st r a d s).modules = s.modules := rfl
@[simp] theorem endMailbox_mgmtQueue (st : MbxState) (r : Result) (a : Option ModAddr) (d : Word) (s : State) : (endMailbox st r a d s).mgmtQueue = s.mgmtQueue := rfl
@[simp] theorem endMailbox_disc (st : MbxState) (r : Result) (a : Option ModAddr) (d : Word) (s : State) : (endMailbox st r a d s).disc = s.disc := rfl
@[simp] theorem endMailbox_bindings (st : MbxState) (r : Result) (a : Option ModAddr) (d : Word) (s : State) : (endMailbox st r a d s).bindings = s.bindings := rfl
@[simp] theorem endMailbox_attn (st : MbxState) (r : Result) (a : Option ModAddr) (d : Word) (s : State) : (endMailbox st r a d s).attn = s.attn := rfl
@[simp] theorem endMailbox_autoload (st : MbxState) (r : Result) (a : Option ModAddr) (d : Word) (s : State) : (endMailbox st r a d s).autoload = s.autoload := rfl
@[simp] theorem endMailbox_power (st : MbxState) (r : Result) (a : Option ModAddr) (d : Word) (s : State) : (endMailbox st r a d s).power = s.power := rfl

@[simp] theorem armSweep_pending (s : State) : (armSweep s).pending = s.pending := rfl
@[simp] theorem armSweep_now (s : State) : (armSweep s).now = s.now := rfl
@[simp] theorem armSweep_pins (s : State) : (armSweep s).pins = s.pins := rfl
@[simp] theorem armSweep_port (s : State) : (armSweep s).port = s.port := rfl
@[simp] theorem armSweep_timing (s : State) : (armSweep s).timing = s.timing := rfl
@[simp] theorem armSweep_windows (s : State) : (armSweep s).windows = s.windows := rfl
@[simp] theorem armSweep_hostQueue (s : State) : (armSweep s).hostQueue = s.hostQueue := rfl
@[simp] theorem armSweep_slots (s : State) : (armSweep s).slots = s.slots := rfl
@[simp] theorem armSweep_cache (s : State) : (armSweep s).cache = s.cache := rfl
@[simp] theorem armSweep_mbx (s : State) : (armSweep s).mbx = s.mbx := rfl
@[simp] theorem armSweep_engine (s : State) : (armSweep s).engine = s.engine := rfl
@[simp] theorem armSweep_modules (s : State) : (armSweep s).modules = s.modules := rfl
@[simp] theorem armSweep_mgmtQueue (s : State) : (armSweep s).mgmtQueue = s.mgmtQueue := rfl
@[simp] theorem armSweep_disc (s : State) : (armSweep s).disc = s.disc := rfl
@[simp] theorem armSweep_bindings (s : State) : (armSweep s).bindings = s.bindings := rfl
@[simp] theorem armSweep_events (s : State) : (armSweep s).events = s.events := rfl
@[simp] theorem armSweep_autoload (s : State) : (armSweep s).autoload = s.autoload := rfl
@[simp] theorem armSweep_power (s : State) : (armSweep s).power = s.power := rfl

@[simp] theorem carry_pending (r : Request) (s : State) : (carry r s).pending = s.pending := rfl
@[simp] theorem carry_now (r : Request) (s : State) : (carry r s).now = s.now := rfl
@[simp] theorem carry_pins (r : Request) (s : State) : (carry r s).pins = s.pins := rfl
@[simp] theorem carry_port (r : Request) (s : State) : (carry r s).port = s.port := rfl
@[simp] theorem carry_timing (r : Request) (s : State) : (carry r s).timing = s.timing := rfl
@[simp] theorem carry_windows (r : Request) (s : State) : (carry r s).windows = s.windows := rfl
@[simp] theorem carry_hostQueue (r : Request) (s : State) : (carry r s).hostQueue = s.hostQueue := rfl
@[simp] theorem carry_slots (r : Request) (s : State) : (carry r s).slots = s.slots := rfl
@[simp] theorem carry_cache (r : Request) (s : State) : (carry r s).cache = s.cache := rfl
@[simp] theorem carry_mbx (r : Request) (s : State) : (carry r s).mbx = s.mbx := rfl
@[simp] theorem carry_modules (r : Request) (s : State) : (carry r s).modules = s.modules := rfl
@[simp] theorem carry_mgmtQueue (r : Request) (s : State) : (carry r s).mgmtQueue = s.mgmtQueue := rfl
@[simp] theorem carry_disc (r : Request) (s : State) : (carry r s).disc = s.disc := rfl
@[simp] theorem carry_bindings (r : Request) (s : State) : (carry r s).bindings = s.bindings := rfl
@[simp] theorem carry_attn (r : Request) (s : State) : (carry r s).attn = s.attn := rfl
@[simp] theorem carry_events (r : Request) (s : State) : (carry r s).events = s.events := rfl
@[simp] theorem carry_autoload (r : Request) (s : State) : (carry r s).autoload = s.autoload := rfl
@[simp] theorem carry_power (r : Request) (s : State) : (carry r s).power = s.power := rfl

@[simp] theorem sendAgain_pending (r : Request) (s : State) : (sendAgain r s).pending = s.pending := rfl
@[simp] theorem sendAgain_now (r : Request) (s : State) : (sendAgain r s).now = s.now := rfl
@[simp] theorem sendAgain_pins (r : Request) (s : State) : (sendAgain r s).pins = s.pins := rfl
@[simp] theorem sendAgain_port (r : Request) (s : State) : (sendAgain r s).port = s.port := rfl
@[simp] theorem sendAgain_timing (r : Request) (s : State) : (sendAgain r s).timing = s.timing := rfl
@[simp] theorem sendAgain_windows (r : Request) (s : State) : (sendAgain r s).windows = s.windows := rfl
@[simp] theorem sendAgain_hostQueue (r : Request) (s : State) : (sendAgain r s).hostQueue = s.hostQueue := rfl
@[simp] theorem sendAgain_slots (r : Request) (s : State) : (sendAgain r s).slots = s.slots := rfl
@[simp] theorem sendAgain_cache (r : Request) (s : State) : (sendAgain r s).cache = s.cache := rfl
@[simp] theorem sendAgain_mbx (r : Request) (s : State) : (sendAgain r s).mbx = s.mbx := rfl
@[simp] theorem sendAgain_modules (r : Request) (s : State) : (sendAgain r s).modules = s.modules := rfl
@[simp] theorem sendAgain_mgmtQueue (r : Request) (s : State) : (sendAgain r s).mgmtQueue = s.mgmtQueue := rfl
@[simp] theorem sendAgain_disc (r : Request) (s : State) : (sendAgain r s).disc = s.disc := rfl
@[simp] theorem sendAgain_bindings (r : Request) (s : State) : (sendAgain r s).bindings = s.bindings := rfl
@[simp] theorem sendAgain_attn (r : Request) (s : State) : (sendAgain r s).attn = s.attn := rfl
@[simp] theorem sendAgain_events (r : Request) (s : State) : (sendAgain r s).events = s.events := rfl
@[simp] theorem sendAgain_autoload (r : Request) (s : State) : (sendAgain r s).autoload = s.autoload := rfl
@[simp] theorem sendAgain_power (r : Request) (s : State) : (sendAgain r s).power = s.power := rfl

@[simp] theorem clearCache_pending (s : State) : (clearCache s).pending = s.pending := rfl
@[simp] theorem clearCache_now (s : State) : (clearCache s).now = s.now := rfl
@[simp] theorem clearCache_pins (s : State) : (clearCache s).pins = s.pins := rfl
@[simp] theorem clearCache_port (s : State) : (clearCache s).port = s.port := rfl
@[simp] theorem clearCache_timing (s : State) : (clearCache s).timing = s.timing := rfl
@[simp] theorem clearCache_windows (s : State) : (clearCache s).windows = s.windows := rfl
@[simp] theorem clearCache_hostQueue (s : State) : (clearCache s).hostQueue = s.hostQueue := rfl
@[simp] theorem clearCache_slots (s : State) : (clearCache s).slots = s.slots := rfl
@[simp] theorem clearCache_mbx (s : State) : (clearCache s).mbx = s.mbx := rfl
@[simp] theorem clearCache_engine (s : State) : (clearCache s).engine = s.engine := rfl
@[simp] theorem clearCache_modules (s : State) : (clearCache s).modules = s.modules := rfl
@[simp] theorem clearCache_mgmtQueue (s : State) : (clearCache s).mgmtQueue = s.mgmtQueue := rfl
@[simp] theorem clearCache_disc (s : State) : (clearCache s).disc = s.disc := rfl
@[simp] theorem clearCache_bindings (s : State) : (clearCache s).bindings = s.bindings := rfl
@[simp] theorem clearCache_attn (s : State) : (clearCache s).attn = s.attn := rfl
@[simp] theorem clearCache_events (s : State) : (clearCache s).events = s.events := rfl
@[simp] theorem clearCache_autoload (s : State) : (clearCache s).autoload = s.autoload := rfl
@[simp] theorem clearCache_power (s : State) : (clearCache s).power = s.power := rfl

@[simp] theorem dropLinesOf_pending (a : ModAddr) (s : State) : (dropLinesOf a s).pending = s.pending := rfl
@[simp] theorem dropLinesOf_now (a : ModAddr) (s : State) : (dropLinesOf a s).now = s.now := rfl
@[simp] theorem dropLinesOf_pins (a : ModAddr) (s : State) : (dropLinesOf a s).pins = s.pins := rfl
@[simp] theorem dropLinesOf_port (a : ModAddr) (s : State) : (dropLinesOf a s).port = s.port := rfl
@[simp] theorem dropLinesOf_timing (a : ModAddr) (s : State) : (dropLinesOf a s).timing = s.timing := rfl
@[simp] theorem dropLinesOf_windows (a : ModAddr) (s : State) : (dropLinesOf a s).windows = s.windows := rfl
@[simp] theorem dropLinesOf_hostQueue (a : ModAddr) (s : State) : (dropLinesOf a s).hostQueue = s.hostQueue := rfl
@[simp] theorem dropLinesOf_slots (a : ModAddr) (s : State) : (dropLinesOf a s).slots = s.slots := rfl
@[simp] theorem dropLinesOf_mbx (a : ModAddr) (s : State) : (dropLinesOf a s).mbx = s.mbx := rfl
@[simp] theorem dropLinesOf_engine (a : ModAddr) (s : State) : (dropLinesOf a s).engine = s.engine := rfl
@[simp] theorem dropLinesOf_modules (a : ModAddr) (s : State) : (dropLinesOf a s).modules = s.modules := rfl
@[simp] theorem dropLinesOf_mgmtQueue (a : ModAddr) (s : State) : (dropLinesOf a s).mgmtQueue = s.mgmtQueue := rfl
@[simp] theorem dropLinesOf_disc (a : ModAddr) (s : State) : (dropLinesOf a s).disc = s.disc := rfl
@[simp] theorem dropLinesOf_bindings (a : ModAddr) (s : State) : (dropLinesOf a s).bindings = s.bindings := rfl
@[simp] theorem dropLinesOf_attn (a : ModAddr) (s : State) : (dropLinesOf a s).attn = s.attn := rfl
@[simp] theorem dropLinesOf_events (a : ModAddr) (s : State) : (dropLinesOf a s).events = s.events := rfl
@[simp] theorem dropLinesOf_autoload (a : ModAddr) (s : State) : (dropLinesOf a s).autoload = s.autoload := rfl
@[simp] theorem dropLinesOf_power (a : ModAddr) (s : State) : (dropLinesOf a s).power = s.power := rfl

@[simp] theorem contentsChanged_pending (a : ModAddr) (s : State) : (contentsChanged a s).pending = s.pending := rfl
@[simp] theorem contentsChanged_now (a : ModAddr) (s : State) : (contentsChanged a s).now = s.now := rfl
@[simp] theorem contentsChanged_pins (a : ModAddr) (s : State) : (contentsChanged a s).pins = s.pins := rfl
@[simp] theorem contentsChanged_port (a : ModAddr) (s : State) : (contentsChanged a s).port = s.port := rfl
@[simp] theorem contentsChanged_timing (a : ModAddr) (s : State) : (contentsChanged a s).timing = s.timing := rfl
@[simp] theorem contentsChanged_windows (a : ModAddr) (s : State) : (contentsChanged a s).windows = s.windows := rfl
@[simp] theorem contentsChanged_hostQueue (a : ModAddr) (s : State) : (contentsChanged a s).hostQueue = s.hostQueue := rfl
@[simp] theorem contentsChanged_mbx (a : ModAddr) (s : State) : (contentsChanged a s).mbx = s.mbx := rfl
@[simp] theorem contentsChanged_engine (a : ModAddr) (s : State) : (contentsChanged a s).engine = s.engine := rfl
@[simp] theorem contentsChanged_modules (a : ModAddr) (s : State) : (contentsChanged a s).modules = s.modules := rfl
@[simp] theorem contentsChanged_mgmtQueue (a : ModAddr) (s : State) : (contentsChanged a s).mgmtQueue = s.mgmtQueue := rfl
@[simp] theorem contentsChanged_disc (a : ModAddr) (s : State) : (contentsChanged a s).disc = s.disc := rfl
@[simp] theorem contentsChanged_bindings (a : ModAddr) (s : State) : (contentsChanged a s).bindings = s.bindings := rfl
@[simp] theorem contentsChanged_attn (a : ModAddr) (s : State) : (contentsChanged a s).attn = s.attn := rfl
@[simp] theorem contentsChanged_events (a : ModAddr) (s : State) : (contentsChanged a s).events = s.events := rfl
@[simp] theorem contentsChanged_autoload (a : ModAddr) (s : State) : (contentsChanged a s).autoload = s.autoload := rfl
@[simp] theorem contentsChanged_power (a : ModAddr) (s : State) : (contentsChanged a s).power = s.power := rfl

@[simp] theorem removeWork_pending (a : ModAddr) (s : State) : (removeWork a s).pending = s.pending := rfl
@[simp] theorem removeWork_now (a : ModAddr) (s : State) : (removeWork a s).now = s.now := rfl
@[simp] theorem removeWork_pins (a : ModAddr) (s : State) : (removeWork a s).pins = s.pins := rfl
@[simp] theorem removeWork_port (a : ModAddr) (s : State) : (removeWork a s).port = s.port := rfl
@[simp] theorem removeWork_timing (a : ModAddr) (s : State) : (removeWork a s).timing = s.timing := rfl
@[simp] theorem removeWork_windows (a : ModAddr) (s : State) : (removeWork a s).windows = s.windows := rfl
@[simp] theorem removeWork_hostQueue (a : ModAddr) (s : State) : (removeWork a s).hostQueue = s.hostQueue := rfl
@[simp] theorem removeWork_slots (a : ModAddr) (s : State) : (removeWork a s).slots = s.slots := rfl
@[simp] theorem removeWork_cache (a : ModAddr) (s : State) : (removeWork a s).cache = s.cache := rfl
@[simp] theorem removeWork_mbx (a : ModAddr) (s : State) : (removeWork a s).mbx = s.mbx := rfl
@[simp] theorem removeWork_engine (a : ModAddr) (s : State) : (removeWork a s).engine = s.engine := rfl
@[simp] theorem removeWork_modules (a : ModAddr) (s : State) : (removeWork a s).modules = s.modules := rfl
@[simp] theorem removeWork_bindings (a : ModAddr) (s : State) : (removeWork a s).bindings = s.bindings := rfl
@[simp] theorem removeWork_attn (a : ModAddr) (s : State) : (removeWork a s).attn = s.attn := rfl
@[simp] theorem removeWork_events (a : ModAddr) (s : State) : (removeWork a s).events = s.events := rfl
@[simp] theorem removeWork_autoload (a : ModAddr) (s : State) : (removeWork a s).autoload = s.autoload := rfl
@[simp] theorem removeWork_power (a : ModAddr) (s : State) : (removeWork a s).power = s.power := rfl

@[simp] theorem setWaiting_pending (m : MgmtEntry) (s : State) : (setWaiting m s).pending = s.pending := rfl
@[simp] theorem setWaiting_now (m : MgmtEntry) (s : State) : (setWaiting m s).now = s.now := rfl
@[simp] theorem setWaiting_pins (m : MgmtEntry) (s : State) : (setWaiting m s).pins = s.pins := rfl
@[simp] theorem setWaiting_port (m : MgmtEntry) (s : State) : (setWaiting m s).port = s.port := rfl
@[simp] theorem setWaiting_timing (m : MgmtEntry) (s : State) : (setWaiting m s).timing = s.timing := rfl
@[simp] theorem setWaiting_windows (m : MgmtEntry) (s : State) : (setWaiting m s).windows = s.windows := rfl
@[simp] theorem setWaiting_hostQueue (m : MgmtEntry) (s : State) : (setWaiting m s).hostQueue = s.hostQueue := rfl
@[simp] theorem setWaiting_slots (m : MgmtEntry) (s : State) : (setWaiting m s).slots = s.slots := rfl
@[simp] theorem setWaiting_cache (m : MgmtEntry) (s : State) : (setWaiting m s).cache = s.cache := rfl
@[simp] theorem setWaiting_mbx (m : MgmtEntry) (s : State) : (setWaiting m s).mbx = s.mbx := rfl
@[simp] theorem setWaiting_engine (m : MgmtEntry) (s : State) : (setWaiting m s).engine = s.engine := rfl
@[simp] theorem setWaiting_modules (m : MgmtEntry) (s : State) : (setWaiting m s).modules = s.modules := rfl
@[simp] theorem setWaiting_mgmtQueue (m : MgmtEntry) (s : State) : (setWaiting m s).mgmtQueue = s.mgmtQueue := rfl
@[simp] theorem setWaiting_bindings (m : MgmtEntry) (s : State) : (setWaiting m s).bindings = s.bindings := rfl
@[simp] theorem setWaiting_attn (m : MgmtEntry) (s : State) : (setWaiting m s).attn = s.attn := rfl
@[simp] theorem setWaiting_events (m : MgmtEntry) (s : State) : (setWaiting m s).events = s.events := rfl
@[simp] theorem setWaiting_autoload (m : MgmtEntry) (s : State) : (setWaiting m s).autoload = s.autoload := rfl
@[simp] theorem setWaiting_power (m : MgmtEntry) (s : State) : (setWaiting m s).power = s.power := rfl

@[simp] theorem queryNow_pending (s : State) : (queryNow s).pending = s.pending := rfl
@[simp] theorem queryNow_now (s : State) : (queryNow s).now = s.now := rfl
@[simp] theorem queryNow_pins (s : State) : (queryNow s).pins = s.pins := rfl
@[simp] theorem queryNow_port (s : State) : (queryNow s).port = s.port := rfl
@[simp] theorem queryNow_timing (s : State) : (queryNow s).timing = s.timing := rfl
@[simp] theorem queryNow_windows (s : State) : (queryNow s).windows = s.windows := rfl
@[simp] theorem queryNow_hostQueue (s : State) : (queryNow s).hostQueue = s.hostQueue := rfl
@[simp] theorem queryNow_slots (s : State) : (queryNow s).slots = s.slots := rfl
@[simp] theorem queryNow_cache (s : State) : (queryNow s).cache = s.cache := rfl
@[simp] theorem queryNow_mbx (s : State) : (queryNow s).mbx = s.mbx := rfl
@[simp] theorem queryNow_engine (s : State) : (queryNow s).engine = s.engine := rfl
@[simp] theorem queryNow_modules (s : State) : (queryNow s).modules = s.modules := rfl
@[simp] theorem queryNow_mgmtQueue (s : State) : (queryNow s).mgmtQueue = s.mgmtQueue := rfl
@[simp] theorem queryNow_bindings (s : State) : (queryNow s).bindings = s.bindings := rfl
@[simp] theorem queryNow_attn (s : State) : (queryNow s).attn = s.attn := rfl
@[simp] theorem queryNow_events (s : State) : (queryNow s).events = s.events := rfl
@[simp] theorem queryNow_autoload (s : State) : (queryNow s).autoload = s.autoload := rfl
@[simp] theorem queryNow_power (s : State) : (queryNow s).power = s.power := rfl

@[simp] theorem enterIdle_pending (s : State) : (enterIdle s).pending = s.pending := rfl
@[simp] theorem enterIdle_now (s : State) : (enterIdle s).now = s.now := rfl
@[simp] theorem enterIdle_pins (s : State) : (enterIdle s).pins = s.pins := rfl
@[simp] theorem enterIdle_port (s : State) : (enterIdle s).port = s.port := rfl
@[simp] theorem enterIdle_timing (s : State) : (enterIdle s).timing = s.timing := rfl
@[simp] theorem enterIdle_windows (s : State) : (enterIdle s).windows = s.windows := rfl
@[simp] theorem enterIdle_hostQueue (s : State) : (enterIdle s).hostQueue = s.hostQueue := rfl
@[simp] theorem enterIdle_slots (s : State) : (enterIdle s).slots = s.slots := rfl
@[simp] theorem enterIdle_cache (s : State) : (enterIdle s).cache = s.cache := rfl
@[simp] theorem enterIdle_mbx (s : State) : (enterIdle s).mbx = s.mbx := rfl
@[simp] theorem enterIdle_engine (s : State) : (enterIdle s).engine = s.engine := rfl
@[simp] theorem enterIdle_modules (s : State) : (enterIdle s).modules = s.modules := rfl
@[simp] theorem enterIdle_mgmtQueue (s : State) : (enterIdle s).mgmtQueue = s.mgmtQueue := rfl
@[simp] theorem enterIdle_bindings (s : State) : (enterIdle s).bindings = s.bindings := rfl
@[simp] theorem enterIdle_attn (s : State) : (enterIdle s).attn = s.attn := rfl
@[simp] theorem enterIdle_events (s : State) : (enterIdle s).events = s.events := rfl
@[simp] theorem enterIdle_autoload (s : State) : (enterIdle s).autoload = s.autoload := rfl
@[simp] theorem enterIdle_power (s : State) : (enterIdle s).power = s.power := rfl

@[simp] theorem disableDiscovery_pending (s : State) : (disableDiscovery s).pending = s.pending := rfl
@[simp] theorem disableDiscovery_now (s : State) : (disableDiscovery s).now = s.now := rfl
@[simp] theorem disableDiscovery_pins (s : State) : (disableDiscovery s).pins = s.pins := rfl
@[simp] theorem disableDiscovery_port (s : State) : (disableDiscovery s).port = s.port := rfl
@[simp] theorem disableDiscovery_timing (s : State) : (disableDiscovery s).timing = s.timing := rfl
@[simp] theorem disableDiscovery_windows (s : State) : (disableDiscovery s).windows = s.windows := rfl
@[simp] theorem disableDiscovery_hostQueue (s : State) : (disableDiscovery s).hostQueue = s.hostQueue := rfl
@[simp] theorem disableDiscovery_slots (s : State) : (disableDiscovery s).slots = s.slots := rfl
@[simp] theorem disableDiscovery_cache (s : State) : (disableDiscovery s).cache = s.cache := rfl
@[simp] theorem disableDiscovery_mbx (s : State) : (disableDiscovery s).mbx = s.mbx := rfl
@[simp] theorem disableDiscovery_engine (s : State) : (disableDiscovery s).engine = s.engine := rfl
@[simp] theorem disableDiscovery_modules (s : State) : (disableDiscovery s).modules = s.modules := rfl
@[simp] theorem disableDiscovery_mgmtQueue (s : State) : (disableDiscovery s).mgmtQueue = s.mgmtQueue := rfl
@[simp] theorem disableDiscovery_bindings (s : State) : (disableDiscovery s).bindings = s.bindings := rfl
@[simp] theorem disableDiscovery_attn (s : State) : (disableDiscovery s).attn = s.attn := rfl
@[simp] theorem disableDiscovery_events (s : State) : (disableDiscovery s).events = s.events := rfl
@[simp] theorem disableDiscovery_autoload (s : State) : (disableDiscovery s).autoload = s.autoload := rfl
@[simp] theorem disableDiscovery_power (s : State) : (disableDiscovery s).power = s.power := rfl

@[simp] theorem beginRun_pending (x : StartedBy) (s : State) : (beginRun x s).pending = s.pending := rfl
@[simp] theorem beginRun_now (x : StartedBy) (s : State) : (beginRun x s).now = s.now := rfl
@[simp] theorem beginRun_pins (x : StartedBy) (s : State) : (beginRun x s).pins = s.pins := rfl
@[simp] theorem beginRun_port (x : StartedBy) (s : State) : (beginRun x s).port = s.port := rfl
@[simp] theorem beginRun_timing (x : StartedBy) (s : State) : (beginRun x s).timing = s.timing := rfl
@[simp] theorem beginRun_windows (x : StartedBy) (s : State) : (beginRun x s).windows = s.windows := rfl
@[simp] theorem beginRun_hostQueue (x : StartedBy) (s : State) : (beginRun x s).hostQueue = s.hostQueue := rfl
@[simp] theorem beginRun_slots (x : StartedBy) (s : State) : (beginRun x s).slots = s.slots := rfl
@[simp] theorem beginRun_cache (x : StartedBy) (s : State) : (beginRun x s).cache = s.cache := rfl
@[simp] theorem beginRun_mbx (x : StartedBy) (s : State) : (beginRun x s).mbx = s.mbx := rfl
@[simp] theorem beginRun_engine (x : StartedBy) (s : State) : (beginRun x s).engine = s.engine := rfl
@[simp] theorem beginRun_modules (x : StartedBy) (s : State) : (beginRun x s).modules = s.modules := rfl
@[simp] theorem beginRun_mgmtQueue (x : StartedBy) (s : State) : (beginRun x s).mgmtQueue = s.mgmtQueue := rfl
@[simp] theorem beginRun_disc (x : StartedBy) (s : State) : (beginRun x s).disc = s.disc := rfl
@[simp] theorem beginRun_bindings (x : StartedBy) (s : State) : (beginRun x s).bindings = s.bindings := rfl
@[simp] theorem beginRun_attn (x : StartedBy) (s : State) : (beginRun x s).attn = s.attn := rfl
@[simp] theorem beginRun_events (x : StartedBy) (s : State) : (beginRun x s).events = s.events := rfl
@[simp] theorem beginRun_power (x : StartedBy) (s : State) : (beginRun x s).power = s.power := rfl

@[simp] theorem stage_pending (bs : List Byte) (s : State) : (stage bs s).pending = s.pending := rfl
@[simp] theorem stage_now (bs : List Byte) (s : State) : (stage bs s).now = s.now := rfl
@[simp] theorem stage_pins (bs : List Byte) (s : State) : (stage bs s).pins = s.pins := rfl
@[simp] theorem stage_port (bs : List Byte) (s : State) : (stage bs s).port = s.port := rfl
@[simp] theorem stage_timing (bs : List Byte) (s : State) : (stage bs s).timing = s.timing := rfl
@[simp] theorem stage_windows (bs : List Byte) (s : State) : (stage bs s).windows = s.windows := rfl
@[simp] theorem stage_hostQueue (bs : List Byte) (s : State) : (stage bs s).hostQueue = s.hostQueue := rfl
@[simp] theorem stage_slots (bs : List Byte) (s : State) : (stage bs s).slots = s.slots := rfl
@[simp] theorem stage_cache (bs : List Byte) (s : State) : (stage bs s).cache = s.cache := rfl
@[simp] theorem stage_mbx (bs : List Byte) (s : State) : (stage bs s).mbx = s.mbx := rfl
@[simp] theorem stage_engine (bs : List Byte) (s : State) : (stage bs s).engine = s.engine := rfl
@[simp] theorem stage_modules (bs : List Byte) (s : State) : (stage bs s).modules = s.modules := rfl
@[simp] theorem stage_mgmtQueue (bs : List Byte) (s : State) : (stage bs s).mgmtQueue = s.mgmtQueue := rfl
@[simp] theorem stage_disc (bs : List Byte) (s : State) : (stage bs s).disc = s.disc := rfl
@[simp] theorem stage_bindings (bs : List Byte) (s : State) : (stage bs s).bindings = s.bindings := rfl
@[simp] theorem stage_attn (bs : List Byte) (s : State) : (stage bs s).attn = s.attn := rfl
@[simp] theorem stage_events (bs : List Byte) (s : State) : (stage bs s).events = s.events := rfl
@[simp] theorem stage_power (bs : List Byte) (s : State) : (stage bs s).power = s.power := rfl

@[simp] theorem beginSettle_pending (s : State) : (beginSettle s).pending = s.pending := rfl
@[simp] theorem beginSettle_now (s : State) : (beginSettle s).now = s.now := rfl
@[simp] theorem beginSettle_pins (s : State) : (beginSettle s).pins = s.pins := rfl
@[simp] theorem beginSettle_port (s : State) : (beginSettle s).port = s.port := rfl
@[simp] theorem beginSettle_timing (s : State) : (beginSettle s).timing = s.timing := rfl
@[simp] theorem beginSettle_windows (s : State) : (beginSettle s).windows = s.windows := rfl
@[simp] theorem beginSettle_hostQueue (s : State) : (beginSettle s).hostQueue = s.hostQueue := rfl
@[simp] theorem beginSettle_slots (s : State) : (beginSettle s).slots = s.slots := rfl
@[simp] theorem beginSettle_cache (s : State) : (beginSettle s).cache = s.cache := rfl
@[simp] theorem beginSettle_mbx (s : State) : (beginSettle s).mbx = s.mbx := rfl
@[simp] theorem beginSettle_modules (s : State) : (beginSettle s).modules = s.modules := rfl
@[simp] theorem beginSettle_mgmtQueue (s : State) : (beginSettle s).mgmtQueue = s.mgmtQueue := rfl
@[simp] theorem beginSettle_disc (s : State) : (beginSettle s).disc = s.disc := rfl
@[simp] theorem beginSettle_bindings (s : State) : (beginSettle s).bindings = s.bindings := rfl
@[simp] theorem beginSettle_attn (s : State) : (beginSettle s).attn = s.attn := rfl
@[simp] theorem beginSettle_events (s : State) : (beginSettle s).events = s.events := rfl
@[simp] theorem beginSettle_autoload (s : State) : (beginSettle s).autoload = s.autoload := rfl
@[simp] theorem beginSettle_power (s : State) : (beginSettle s).power = s.power := rfl

@[simp] theorem setSleepReq_pending (s : State) : (setSleepReq s).pending = s.pending := rfl
@[simp] theorem setSleepReq_now (s : State) : (setSleepReq s).now = s.now := rfl
@[simp] theorem setSleepReq_pins (s : State) : (setSleepReq s).pins = s.pins := rfl
@[simp] theorem setSleepReq_port (s : State) : (setSleepReq s).port = s.port := rfl
@[simp] theorem setSleepReq_timing (s : State) : (setSleepReq s).timing = s.timing := rfl
@[simp] theorem setSleepReq_windows (s : State) : (setSleepReq s).windows = s.windows := rfl
@[simp] theorem setSleepReq_hostQueue (s : State) : (setSleepReq s).hostQueue = s.hostQueue := rfl
@[simp] theorem setSleepReq_slots (s : State) : (setSleepReq s).slots = s.slots := rfl
@[simp] theorem setSleepReq_cache (s : State) : (setSleepReq s).cache = s.cache := rfl
@[simp] theorem setSleepReq_mbx (s : State) : (setSleepReq s).mbx = s.mbx := rfl
@[simp] theorem setSleepReq_engine (s : State) : (setSleepReq s).engine = s.engine := rfl
@[simp] theorem setSleepReq_modules (s : State) : (setSleepReq s).modules = s.modules := rfl
@[simp] theorem setSleepReq_mgmtQueue (s : State) : (setSleepReq s).mgmtQueue = s.mgmtQueue := rfl
@[simp] theorem setSleepReq_disc (s : State) : (setSleepReq s).disc = s.disc := rfl
@[simp] theorem setSleepReq_bindings (s : State) : (setSleepReq s).bindings = s.bindings := rfl
@[simp] theorem setSleepReq_attn (s : State) : (setSleepReq s).attn = s.attn := rfl
@[simp] theorem setSleepReq_events (s : State) : (setSleepReq s).events = s.events := rfl
@[simp] theorem setSleepReq_autoload (s : State) : (setSleepReq s).autoload = s.autoload := rfl

@[simp] theorem advance_pending (d : Nat) (s : State) : (advance d s).pending = s.pending := rfl
@[simp] theorem advance_pins (d : Nat) (s : State) : (advance d s).pins = s.pins := rfl
@[simp] theorem advance_timing (d : Nat) (s : State) : (advance d s).timing = s.timing := rfl
@[simp] theorem advance_windows (d : Nat) (s : State) : (advance d s).windows = s.windows := rfl
@[simp] theorem advance_hostQueue (d : Nat) (s : State) : (advance d s).hostQueue = s.hostQueue := rfl
@[simp] theorem advance_cache (d : Nat) (s : State) : (advance d s).cache = s.cache := rfl
@[simp] theorem advance_mbx (d : Nat) (s : State) : (advance d s).mbx = s.mbx := rfl
@[simp] theorem advance_mgmtQueue (d : Nat) (s : State) : (advance d s).mgmtQueue = s.mgmtQueue := rfl
@[simp] theorem advance_bindings (d : Nat) (s : State) : (advance d s).bindings = s.bindings := rfl
@[simp] theorem advance_attn (d : Nat) (s : State) : (advance d s).attn = s.attn := rfl
@[simp] theorem advance_events (d : Nat) (s : State) : (advance d s).events = s.events := rfl
@[simp] theorem advance_autoload (d : Nat) (s : State) : (advance d s).autoload = s.autoload := rfl

/-! ### Fields that an update sets -/

@[simp] theorem reply_answer (s : State) (r : Answer) : (s.reply r).port.answer = some r := rfl
@[simp] theorem reply_held (s : State) (r : Answer) : (s.reply r).port.held = s.port.held := rfl
@[simp] theorem reply_winFault (s : State) (r : Answer) : (s.reply r).port.winFault = s.port.winFault := rfl
@[simp] theorem reply_readFault (s : State) (r : Answer) : (s.reply r).port.readFault = s.port.readFault := rfl
@[simp] theorem reply_bindSel (s : State) (r : Answer) : (s.reply r).port.bindSel = s.port.bindSel := rfl
@[simp] theorem reply_modSel (s : State) (r : Answer) : (s.reply r).port.modSel = s.port.modSel := rfl
@[simp] theorem post_events_eq (p : Posted) (s : State) : (post p s).events = s.events.post p := rfl
@[simp] theorem armSweep_armed (s : State) : (armSweep s).attn.armed = true := rfl
@[simp] theorem armSweep_level (s : State) : (armSweep s).attn.level = s.attn.level := rfl
@[simp] theorem armSweep_mode (s : State) : (armSweep s).attn.mode = s.attn.mode := rfl
@[simp] theorem armSweep_sweep (s : State) : (armSweep s).attn.sweep = s.attn.sweep := rfl
@[simp] theorem armSweep_fetches (s : State) : (armSweep s).attn.fetches = s.attn.fetches := rfl
@[simp] theorem pushHost_queue (e : HostEntry) (s : State) : (pushHost e s).hostQueue = s.hostQueue ++ [e] := rfl
@[simp] theorem pushMgmt_queue (m : MgmtEntry) (s : State) : (pushMgmt m s).mgmtQueue = s.mgmtQueue ++ [m] := rfl
@[simp] theorem clearCache_cache (s : State) : (clearCache s).cache = {} := rfl
@[simp] theorem setMbxState_state (st : MbxState) (s : State) : (setMbxState st s).mbx.state = st := rfl
@[simp] theorem endMailbox_state (st : MbxState) (r : Result) (a : Option ModAddr) (d : Word) (s : State) :
    (endMailbox st r a d s).mbx.state = st := rfl
@[simp] theorem endMailbox_result (st : MbxState) (r : Result) (a : Option ModAddr) (d : Word) (s : State) :
    (endMailbox st r a d s).mbx.result = r := rfl
@[simp] theorem queryNow_state (s : State) : (queryNow s).disc.state = .querying := rfl
@[simp] theorem enterIdle_state (s : State) : (enterIdle s).disc.state = .idle := rfl
@[simp] theorem disableDiscovery_state (s : State) : (disableDiscovery s).disc.state = .disabled := rfl
@[simp] theorem advance_now (d : Nat) (s : State) : (advance d s).now = s.now + d := rfl

end Sys2Proof.Machine
end

