-- ==== Sys2Proof/Laws/Frame.lean ====
section
/-! SUPPORT. What no work inside an event touches: the queue of commands, the clock, the reset inputs, the timing parameters,
the windows, the bindings, the link, the autoload unit and the ATTN level; and that `settle`, `leave` and the head checks keep
all of it. -/

namespace Sys2Proof.Machine

/-- `t` holds what `s` holds of everything that follow-up work inside an event never touches. -/
structure Still (s t : State) : Prop where
  pending  : t.pending = s.pending
  now      : t.now = s.now
  pins     : t.pins = s.pins
  timing   : t.timing = s.timing
  windows  : t.windows = s.windows
  bindings : t.bindings = s.bindings
  engine   : t.engine = s.engine
  autoload : t.autoload = s.autoload
  level    : t.attn.level = s.attn.level
  mode     : t.attn.mode = s.attn.mode
  winFault : t.port.winFault = s.port.winFault
  bindSel  : t.port.bindSel = s.port.bindSel
  modSel   : t.port.modSel = s.port.modSel

theorem Still.refl (s : State) : Still s s := ⟨rfl, rfl, rfl, rfl, rfl, rfl, rfl, rfl, rfl, rfl, rfl, rfl, rfl⟩

theorem Still.trans {s t u : State} (h : Still s t) (k : Still t u) : Still s u :=
  ⟨k.pending.trans h.pending, k.now.trans h.now, k.pins.trans h.pins, k.timing.trans h.timing, k.windows.trans h.windows,
   k.bindings.trans h.bindings, k.engine.trans h.engine, k.autoload.trans h.autoload, k.level.trans h.level,
   k.mode.trans h.mode, k.winFault.trans h.winFault, k.bindSel.trans h.bindSel, k.modSel.trans h.modSel⟩

theorem still_foldl {α : Type} (f : State → α → State) (hf : ∀ s x, Still s (f s x)) (l : List α) (s : State) :
    Still s (l.foldl f s) := by
  induction l generalizing s with
  | nil => exact Still.refl s
  | cons x xs ih => exact (hf s x).trans (ih (f s x))

/-! ### Updates -/

theorem still_setEntry (s : State) (a : ModAddr) (e : Entry) : Still s (s.setEntry a e) := by constructor <;> rfl
theorem still_setSlot (s : State) (i : Fin 4) (x : Slot) : Still s (s.setSlot i x) := by constructor <;> rfl
theorem still_reply (s : State) (r : Answer) : Still s (s.reply r) := by constructor <;> rfl
theorem still_post (p : Posted) (s : State) : Still s (post p s) := by constructor <;> rfl
theorem still_pushMgmt (m : MgmtEntry) (s : State) : Still s (pushMgmt m s) := by constructor <;> rfl
theorem still_pushHost (e : HostEntry) (s : State) : Still s (pushHost e s) := by constructor <;> rfl
theorem still_endMailbox (st : MbxState) (r : Result) (a : Option ModAddr) (d : Word) (s : State) :
    Still s (endMailbox st r a d s) := by constructor <;> rfl
theorem still_armSweep (s : State) : Still s (armSweep s) := by constructor <;> rfl
theorem still_dropLinesOf (a : ModAddr) (s : State) : Still s (dropLinesOf a s) := by constructor <;> rfl
theorem still_removeWork (a : ModAddr) (s : State) : Still s (removeWork a s) := by constructor <;> rfl
theorem still_queryNow (s : State) : Still s (queryNow s) := by constructor <;> rfl
theorem still_enterIdle (s : State) : Still s (enterIdle s) := by constructor <;> rfl
theorem still_disableDiscovery (s : State) : Still s (disableDiscovery s) := by constructor <;> rfl
theorem still_clearCache (s : State) : Still s (clearCache s) := by constructor <;> rfl
theorem still_setPower (s : State) (p : Power) : Still s { s with power := p } := by constructor <;> rfl
theorem still_setQueue (s : State) (q : List HostEntry) : Still s { s with hostQueue := q } := by constructor <;> rfl
theorem still_setSweep (s : State) (b : Bool) (l : Option (List ModAddr)) :
    Still s { s with attn := { s.attn with armed := b, sweep := l } } := by constructor <;> rfl
theorem still_contentsChanged (a : ModAddr) (s : State) : Still s (contentsChanged a s) := by constructor <;> rfl

/-! ### Discovery and the mailbox -/

theorem still_endDiscovery (b : Bool) (s : State) : Still s (endDiscovery b s) := by
  unfold endDiscovery
  split
  · exact still_disableDiscovery s
  · split
    · exact still_queryNow s
    · exact still_enterIdle s

theorem still_unpark (s : State) : Still s (unpark s) := by
  unfold unpark
  split
  · exact still_endDiscovery true s
  · exact Still.refl s

theorem still_discoverReport (d : DiscEnd) (s : State) : Still s (discoverReport d s) := by
  unfold discoverReport
  split
  · cases d <;> (constructor <;> rfl)
  · exact Still.refl s

theorem still_forgetEnds (a : ModAddr) (c : LeaveCause) (s : State) : Still s (forgetEnds a c s) := by
  unfold forgetEnds
  split
  · exact still_endMailbox _ _ _ _ s
  · exact Still.refl s

/-! ### Attention and leave handling -/

theorem still_leaveSweep (a : ModAddr) (s : State) : Still s (leaveSweep a s) := by
  unfold leaveSweep
  split
  · exact Still.refl s
  · constructor <;> rfl

theorem still_dropFetch (a : ModAddr) (s : State) : Still s (dropFetch a s) := by
  unfold dropFetch
  simp only
  split <;> (constructor <;> rfl)

theorem still_attnLeave (a : ModAddr) (s : State) : Still s (attnLeave a s) := by
  unfold attnLeave
  refine Still.trans ?_ (still_leaveSweep a _)
  split
  · exact Still.refl s
  · exact Still.refl s
  · exact still_dropFetch a s
  · constructor <;> rfl
  · exact still_armSweep s

/-- Leave handling touches nothing outside the module table, the queues of management work, discovery, the cache, attention,
the events and the mailbox. -/
theorem still_leave (a : ModAddr) (c : LeaveCause) (s : State) : Still s (leave a c s) := by
  unfold leave
  exact (still_removeWork a s).trans <| (still_dropLinesOf a _).trans <| (still_attnLeave a _).trans <|
    (still_setEntry _ a _).trans <| (still_post _ _).trans <| (still_unpark _).trans (still_forgetEnds a c _)

/-! ### Due work -/

theorem still_setPingDue (a : ModAddr) (s : State) : Still s (setPingDue a s) := by
  unfold setPingDue
  simp only
  split
  · exact Still.refl s
  · exact still_setEntry s a _

theorem still_startSweep (s : State) : Still s (startSweep s) := by
  unfold startSweep
  split
  · exact (still_setSweep s _ _).trans (still_foldl _ (fun t a => still_setPingDue a t) _ _)
  · exact Still.refl s

theorem still_addWaiting (s : State) : Still s (addWaiting s) := by
  unfold addWaiting
  split
  · exact Still.refl s
  · split
    · constructor <;> rfl
    · exact Still.refl s

theorem still_addRelease (a : ModAddr) (s : State) : Still s (addRelease a s) := by
  unfold addRelease
  simp only
  split
  · constructor <;> rfl
  · exact Still.refl s

theorem still_addClear (a : ModAddr) (s : State) : Still s (addClear a s) := by
  unfold addClear
  simp only
  split
  · exact still_pushMgmt _ s
  · exact Still.refl s

theorem still_addFetch (a : ModAddr) (s : State) : Still s (addFetch a s) := by
  unfold addFetch
  simp only
  split
  · constructor <;> rfl
  · exact Still.refl s

theorem still_addPing (a : ModAddr) (s : State) : Still s (addPing a s) := by
  unfold addPing
  simp only
  split
  · constructor <;> rfl
  · exact Still.refl s

theorem still_addDueWork (s : State) : Still s (addDueWork s) := by
  unfold addDueWork
  refine (still_addWaiting s).trans (still_foldl _ (fun t a => ?_) _ _)
  exact (still_addRelease a t).trans <| (still_addClear a _).trans <| (still_addFetch a _).trans (still_addPing a _)

/-! ### Power and the suspension of discovery -/

theorem still_pingPresent (s : State) : Still s (pingPresent s) := by
  unfold pingPresent
  refine still_foldl _ (fun t a => ?_) _ _
  split
  · exact still_setPingDue a t
  · exact Still.refl t

theorem still_leaveWaking (s : State) : Still s (leaveWaking s) :=
  (show Still s (endWaking s) from still_setPower s _).trans ((still_pingPresent _).trans (still_armSweep _))

theorem still_wakeLink (r : WakeReason) (s : State) : Still s (wakeLink r s) := by
  unfold wakeLink
  simp only
  split
  · exact ((still_setPower s _).trans (still_post _ _)).trans (still_leaveWaking _)
  · exact (still_setPower s _).trans (still_post _ _)

theorem still_hostWake (s : State) : Still s (hostWake s) := by
  unfold hostWake
  split
  · exact still_wakeLink _ s
  · exact Still.refl s

theorem still_attentionWake (s : State) : Still s (attentionWake s) := by
  unfold attentionWake
  split
  · exact still_wakeLink _ s
  · exact Still.refl s

theorem still_cancelDrain (s : State) : Still s (cancelDrain s) := by
  unfold cancelDrain
  split
  · constructor <;> rfl
  · exact Still.refl s

theorem still_suspendDiscovery (s : State) : Still s (suspendDiscovery s) := by
  unfold suspendDiscovery
  split
  · exact still_disableDiscovery s
  · exact still_disableDiscovery s
  · exact still_disableDiscovery s
  · split
    · exact Still.refl s
    · constructor <;> rfl
  · exact Still.refl s
  · exact Still.refl s

theorem still_updateDiscovery (s : State) : Still s (updateDiscovery s) := by
  unfold updateDiscovery
  split
  · exact still_suspendDiscovery s
  · split
    · exact still_queryNow s
    · exact Still.refl s

/-! ### Completions and head checks -/

theorem still_collect (i : Fin 4) (x : SlotInfo) (o : LinkOutcome) (d : Option Word) (s : State) :
    Still s (collect i x o d s) := by
  unfold collect
  simp only
  split <;> (constructor <;> rfl)

theorem still_offerFill (l : Line) (s : State) : Still s (offerFill l s) := by
  unfold offerFill
  split
  · constructor <;> rfl
  · exact Still.refl s

theorem still_completeSlot (i : Fin 4) (e : HostEntry) (o : LinkOutcome) (d : Option Word) (s : State) :
    Still s (completeSlot i e o d s) := by
  unfold completeSlot
  split
  · simp only
    have h : ∀ x k, Still s (if s.port.held.any fun h => h.what = .slot i then
        collect i x o k { s with port := { s.port with held := none } } else s.setSlot i (.complete x o k 0)) := by
      intro x k
      split
      · refine Still.trans (t := { s with port := { s.port with held := none } }) ?_ (still_collect i x o k _)
        constructor <;> rfl
      · exact still_setSlot s i _
    split
    · exact (h _ _).trans (still_offerFill _ _)
    · exact h _ _
  · exact Still.refl s
  · exact Still.refl s

theorem still_endLinkCommand (e : HostEntry) (o : LinkOutcome) (d : Option Word) (s : State) :
    Still s (endLinkCommand e o d s) := by
  unfold endLinkCommand
  split
  · split
    · exact still_endMailbox _ _ _ _ s
    · constructor <;> rfl
  · exact still_endMailbox _ _ _ _ s

theorem still_deliver (e : HostEntry) (o : LinkOutcome) (d : Option Word) (s : State) : Still s (deliver e o d s) := by
  unfold deliver
  split
  · split
    · exact Still.refl s
    · exact still_post _ s
  · split
    · exact still_completeSlot _ e o d s
    · exact Still.refl s
  · exact still_endLinkCommand e o d s

theorem still_failHeads (n : Nat) (s : State) : Still s (failHeads n s) := by
  induction n generalizing s with
  | zero => exact Still.refl s
  | succ n ih =>
    unfold failHeads
    split
    · exact Still.refl s
    · split
      · exact Still.refl s
      · exact ((still_setQueue s _).trans (still_deliver _ _ none _)).trans (ih _)

theorem still_headChecks (s : State) : Still s (headChecks s) := by
  unfold headChecks
  split
  · exact Still.refl s
  · exact still_failHeads _ s

theorem still_drainIfDone (s : State) : Still s (drainIfDone s) := by
  unfold drainIfDone
  split
  · exact still_setPower s _
  · exact Still.refl s

theorem still_followChange (s : State) : Still s (followChange s) := by
  unfold followChange
  exact (still_updateDiscovery s).trans <| (still_cancelDrain _).trans <| (still_updateDiscovery _).trans <|
    (still_startSweep _).trans <| (still_addDueWork _).trans (still_headChecks _)

/-- What closes every event touches none of it. -/
theorem still_settle (s : State) : Still s (settle s) := by
  have h : Still s (drainIfDone (followChange s)) := (still_followChange s).trans (still_drainIfDone _)
  unfold settle
  simp only
  split
  · exact h.trans ((still_attentionWake _).trans (still_followChange _))
  · exact h

end Sys2Proof.Machine
end

