-- ==== Sys2Proof/Laws/Quiet.lean ====
section
/-! SUPPORT. The parts of follow-up work: what each leaves alone and how they compose; the head checks and a wake beside them. -/

namespace Sys2Proof.Machine

/-! ### What conditions read -/

theorem suspended_of_fields {s t : State} (h1 : t.autoload = s.autoload) (h2 : t.power = s.power) (h3 : t.engine = s.engine) :
    t.suspended = s.suspended := by
  simp [State.suspended, State.autoloadRuns, State.broadcasting, h1, h2, h3]

theorem mgmtOnLink_congr {s t : State} (h : t.engine = s.engine) : t.mgmtOnLink = s.mgmtOnLink := by
  unfold State.mgmtOnLink; rw [h]

/-! ### Follow-up work -/

/-- How follow-up work may leave discovery and the management queue: discovery as it was, with work added at the queue's tail;
its waiting item moved there; or discovery DISABLED, or with a query just fallen due, where a JOIN_QUERY not yet granted may have
been dropped (R27, R29, R30). -/
def DiscSteps (s t : State) : Prop :=
  (∃ more, t.mgmtQueue = s.mgmtQueue ++ more ∧
    (t.disc = s.disc ∨ ∃ m ∈ more, s.disc.waiting = some m ∧ t.disc = { s.disc with waiting := none })) ∨
  (∃ more, t.mgmtQueue.filter (· ≠ .joinQuery) = s.mgmtQueue.filter (· ≠ .joinQuery) ++ more) ∧
    (t.disc = { s.disc with state := .disabled, waiting := none, queryTimer := none } ∨
      QueryUnderWay t ∧ t.disc = { s.disc with state := .querying, waiting := t.disc.waiting, queryTimer := none })

/-- `t` differs from `s` by some part of follow-up work, a relation that its parts compose in (`WorkFollows` says the whole): due work
joins the management queue (R27), a permitted fetch begins (R143), a sweep starts and clears the armed flag (R140), discovery follows
its suspension (R29), and a DISCOVER_NOW that waits may end a drain (R191). -/
structure WorkSteps (s t : State) : Prop where
  rest   : t = { s with modules := t.modules, mgmtQueue := t.mgmtQueue, disc := t.disc, attn := t.attn,
                        events := t.events, power := t.power }
  attn   : t.attn = { s.attn with armed := t.attn.armed, sweep := t.attn.sweep, fetches := t.attn.fetches }
  sweep  : t.attn.armed = s.attn.armed ∧ t.attn.sweep = s.attn.sweep ∨
           s.attn.armed = true ∧ s.attn.level = true ∧ s.attn.sweep = none ∧ t.power.state = .active ∧
             t.attn.armed = false ∧ t.attn.sweep = if sweepSet s = [] then none else some (sweepSet s)
  fetch  : ∀ a, t.fetchRec a = s.fetchRec a ∨ (s.entry a).attention = .fetchDue ∧ (t.entry a).attention = .fetching ∧
             t.fetchRec a = some ⟨(s.entry a).generation, s.attn.mode = .held⟩
  events : t.events = { s.events with reservations := t.events.reservations }
  entry  : ∀ a, t.entry a = { s.entry a with attention := (t.entry a).attention, pingDue := (t.entry a).pingDue,
                                             releaseDue := (t.entry a).releaseDue } ∧
             ((t.entry a).attention = (s.entry a).attention ∨
               (s.entry a).attention = .fetchDue ∧ (t.entry a).attention = .fetching)
  disc   : DiscSteps s t
  power  : t.power = s.power ∨
           s.power.state = .draining ∧ s.mbx.runs opDiscoverNow = true ∧
             t.power = { s.power with state := .active, sleepReq := false }

theorem WorkSteps.fields {s t : State} (h : WorkSteps s t) :
    t.pending = s.pending ∧ t.now = s.now ∧ t.pins = s.pins ∧ t.port = s.port ∧ t.timing = s.timing ∧ t.windows = s.windows ∧
    t.hostQueue = s.hostQueue ∧ t.slots = s.slots ∧ t.cache = s.cache ∧ t.mbx = s.mbx ∧ t.engine = s.engine ∧
    t.bindings = s.bindings ∧ t.autoload = s.autoload := by
  rw [h.rest]; simp

theorem DiscSteps.of_kept {s t : State} (more : List MgmtEntry) (hq : t.mgmtQueue = s.mgmtQueue ++ more)
    (hd : t.disc = s.disc) : DiscSteps s t := .inl ⟨more, hq, .inl hd⟩

theorem DiscSteps.refl (s : State) : DiscSteps s s := .of_kept [] (by simp) rfl

/-- Work already in the management queue stays there, but for a JOIN_QUERY. -/
theorem DiscSteps.queue {s t : State} (h : DiscSteps s t) :
    ∃ more, t.mgmtQueue.filter (· ≠ .joinQuery) = s.mgmtQueue.filter (· ≠ .joinQuery) ++ more := by
  rcases h with ⟨more, hq, -⟩ | ⟨h, -⟩
  · exact ⟨more.filter (· ≠ .joinQuery), by rw [hq, List.filter_append]⟩
  · exact h

/-- A query under way stays so where the queue only grows and discovery is kept, or its waiting item has gone to the queue. -/
theorem QueryUnderWay.grow {s t : State} (h : QueryUnderWay s) (more : List MgmtEntry) (hq : t.mgmtQueue = s.mgmtQueue ++ more)
    (hd : t.disc = s.disc ∨ ∃ m ∈ more, s.disc.waiting = some m ∧ t.disc = { s.disc with waiting := none }) :
    QueryUnderWay t := by
  unfold QueryUnderWay at h ⊢
  rw [hq]
  rcases h with h | h
  · rcases hd with hd | ⟨m, hm, hw, -⟩
    · exact .inl (by rw [hd]; exact h)
    · rw [h, Option.some.injEq] at hw; exact .inr (List.mem_append_right _ (hw ▸ hm))
  · exact .inr (List.mem_append_left _ h)

theorem DiscSteps.trans {s t u : State} (h : DiscSteps s t) (k : DiscSteps t u) : DiscSteps s u := by
  rcases k with ⟨more', kq, kd⟩ | ⟨kq, kd⟩
  · rcases h with ⟨more, hq, hd⟩ | ⟨⟨more, hq⟩, hd⟩
    · refine .inl ⟨more ++ more', by rw [kq, hq, List.append_assoc], ?_⟩
      rcases hd with hd | ⟨m, hm, hw, hd⟩
      · rcases kd with kd | ⟨m, hm, hw, kd⟩
        · exact .inl (kd.trans hd)
        · exact .inr ⟨m, List.mem_append_right _ hm, by rw [← hd]; exact hw, by rw [kd, hd]⟩
      · rcases kd with kd | ⟨m', hm', hw', kd⟩
        · exact .inr ⟨m, List.mem_append_left _ hm, hw, kd.trans hd⟩
        · rw [hd] at hw'; cases hw'
    · refine .inr ⟨⟨more ++ more'.filter (· ≠ .joinQuery), by rw [kq, List.filter_append, hq, List.append_assoc]⟩, ?_⟩
      rcases hd with hd | ⟨hu, hd⟩
      · rcases kd with kd | ⟨m, hm, hw, kd⟩
        · exact .inl (kd.trans hd)
        · rw [hd] at hw; cases hw
      · refine .inr ⟨hu.grow more' kq kd, ?_⟩
        rcases kd with kd | ⟨m, hm, hw, kd⟩
        · rw [kd]; exact hd
        · rw [kd, hd]
  · obtain ⟨more, hq⟩ := h.queue
    obtain ⟨more', kq⟩ := kq
    refine .inr ⟨⟨more ++ more', by rw [kq, hq, List.append_assoc]⟩, ?_⟩
    have hf : (∃ w q st, t.disc = { s.disc with state := st, waiting := w, queryTimer := q }) := by
      rcases h with ⟨_, _, h | ⟨_, _, _, h⟩⟩ | ⟨_, h | ⟨_, h⟩⟩ <;> rw [h] <;> exact ⟨_, _, _, rfl⟩
    obtain ⟨w, q, st, hf⟩ := hf
    rw [hf] at kd
    exact kd

theorem WorkSteps.of_fields {s t : State} (h1 : t.pending = s.pending) (h2 : t.now = s.now) (h3 : t.pins = s.pins)
    (h4 : t.port = s.port) (h5 : t.timing = s.timing) (h6 : t.windows = s.windows) (h7 : t.hostQueue = s.hostQueue)
    (h8 : t.slots = s.slots) (h9 : t.cache = s.cache) (h10 : t.mbx = s.mbx) (h11 : t.engine = s.engine)
    (h12 : t.bindings = s.bindings) (h13 : t.autoload = s.autoload)
    (ha : t.attn = { s.attn with armed := t.attn.armed, sweep := t.attn.sweep, fetches := t.attn.fetches })
    (hw : t.attn.armed = s.attn.armed ∧ t.attn.sweep = s.attn.sweep ∨
      s.attn.armed = true ∧ s.attn.level = true ∧ s.attn.sweep = none ∧ t.power.state = .active ∧
        t.attn.armed = false ∧ t.attn.sweep = if sweepSet s = [] then none else some (sweepSet s))
    (hf : ∀ a, t.fetchRec a = s.fetchRec a ∨ (s.entry a).attention = .fetchDue ∧ (t.entry a).attention = .fetching ∧
      t.fetchRec a = some ⟨(s.entry a).generation, s.attn.mode = .held⟩)
    (hv : t.events = { s.events with reservations := t.events.reservations })
    (he : ∀ a, t.entry a = { s.entry a with attention := (t.entry a).attention, pingDue := (t.entry a).pingDue,
                                            releaseDue := (t.entry a).releaseDue } ∧
        ((t.entry a).attention = (s.entry a).attention ∨
          (s.entry a).attention = .fetchDue ∧ (t.entry a).attention = .fetching))
    (hd : DiscSteps s t)
    (hp : t.power = s.power ∨
      s.power.state = .draining ∧ s.mbx.runs opDiscoverNow = true ∧
        t.power = { s.power with state := .active, sleepReq := false }) : WorkSteps s t := by
  refine ⟨?_, ha, hw, hf, hv, he, hd, hp⟩
  clear ha hw hf hv he hd hp
  cases t
  dsimp only at h1 h2 h3 h4 h5 h6 h7 h8 h9 h10 h11 h12 h13
  subst h1 h2 h3 h4 h5 h6 h7 h8 h9 h10 h11 h12 h13
  rfl

theorem WorkSteps.refl (s : State) : WorkSteps s s :=
  ⟨rfl, rfl, .inl ⟨rfl, rfl⟩, fun _ => .inl rfl, rfl, fun _ => ⟨rfl, .inl rfl⟩, .refl s, .inl rfl⟩

/-- Follow-up work leaves an entry's state and generation, and an attention_state but for FETCH_DUE. -/
theorem WorkSteps.sweepSet_eq {s t : State} (h : WorkSteps s t) : sweepSet t = sweepSet s := by
  unfold sweepSet
  refine List.filter_congr fun a _ => ?_
  obtain ⟨h1, h2⟩ := h.entry a
  have hs : (t.entry a).state = (s.entry a).state := by rw [h1]
  rw [hs]
  rcases h2 with h2 | ⟨h2, h3⟩
  · rw [h2]
  · rw [h2, h3]; simp

theorem WorkSteps.trans {s t u : State} (h : WorkSteps s t) (k : WorkSteps t u) : WorkSteps s u := by
  obtain ⟨h1, h2, h3, h4, h5, h6, h7, h8, h9, h10, h11, h12, h13⟩ := h.fields
  obtain ⟨k1, k2, k3, k4, k5, k6, k7, k8, k9, k10, k11, k12, k13⟩ := k.fields
  have hlevel : t.attn.level = s.attn.level := by rw [h.attn]
  have hmode : t.attn.mode = s.attn.mode := by rw [h.attn]
  refine WorkSteps.of_fields (k1.trans h1) (k2.trans h2) (k3.trans h3) (k4.trans h4) (k5.trans h5) (k6.trans h6) (k7.trans h7)
    (k8.trans h8) (k9.trans h9) (k10.trans h10) (k11.trans h11) (k12.trans h12) (k13.trans h13) ?_ ?_ (fun a => ?_) ?_
    (fun a => ⟨?_, ?_⟩) (h.disc.trans k.disc) ?_
  · rw [k.attn, h.attn]
  · rcases k.sweep with ⟨ka, ks⟩ | ⟨ka, kl, ks, kp, k'⟩
    · rcases h.sweep with ⟨ha, hs⟩ | ⟨ha, hl, hs, hp, ha', hs'⟩
      · exact .inl ⟨ka.trans ha, ks.trans hs⟩
      · refine .inr ⟨ha, hl, hs, ?_, ka.trans ha', ks.trans hs'⟩
        rcases k.power with e | ⟨e, -⟩
        · rw [e]; exact hp
        · rw [hp] at e; cases e
    · rcases h.sweep with ⟨ha, hs⟩ | ⟨-, -, -, -, ha', -⟩
      · refine .inr ⟨by rw [← ha]; exact ka, by rw [← hlevel]; exact kl, by rw [← hs]; exact ks, kp, ?_⟩
        rw [← h.sweepSet_eq]; exact k'
      · rw [ha'] at ka; cases ka
  · rcases k.fetch a with ka | ⟨ka, kb, kc⟩
    · rcases h.fetch a with ha | ⟨ha, hb, hc⟩
      · exact .inl (ka.trans ha)
      · refine .inr ⟨ha, ?_, ka.trans hc⟩
        rcases (k.entry a).2 with e | ⟨e, -⟩
        · exact e.trans hb
        · rw [hb] at e; cases e
    · rcases (h.entry a).2 with e | ⟨-, e⟩
      · refine .inr ⟨by rw [← e]; exact ka, kb, ?_⟩
        rw [kc, hmode, (h.entry a).1]
      · rw [e] at ka; cases ka
  · rw [k.events, h.events]
  · rw [(k.entry a).1, (h.entry a).1]
  · rcases (h.entry a).2 with e1 | ⟨e1, e2⟩ <;> rcases (k.entry a).2 with f1 | ⟨f1, f2⟩
    · exact .inl (f1.trans e1)
    · exact .inr ⟨by rw [← e1]; exact f1, f2⟩
    · exact .inr ⟨e1, f1.trans e2⟩
    · rw [e2] at f1; cases f1
  · rcases h.power with e | ⟨e1, e2, e3⟩ <;> rcases k.power with f | ⟨f1, f2, f3⟩
    · exact .inl (f.trans e)
    · exact .inr ⟨by rw [← e]; exact f1, by rw [← h10]; exact f2, by rw [f3, e]⟩
    · exact .inr ⟨e1, e2, f.trans e3⟩
    · rw [e3] at f1; cases f1

theorem workSteps_foldl {α : Type} (f : State → α → State) (hf : ∀ s x, WorkSteps s (f s x)) (l : List α) (s : State) :
    WorkSteps s (l.foldl f s) := by
  induction l generalizing s with
  | nil => exact .refl s
  | cons x xs ih => exact (hf s x).trans (ih (f s x))

/-! ### Its parts -/

theorem workSteps_setDisc (s : State) (q : List MgmtEntry) (d : Discovery)
    (h : DiscSteps s { s with mgmtQueue := q, disc := d }) : WorkSteps s { s with mgmtQueue := q, disc := d } :=
  ⟨rfl, rfl, .inl ⟨rfl, rfl⟩, fun _ => .inl rfl, rfl, fun _ => ⟨rfl, .inl rfl⟩, h, .inl rfl⟩

theorem workSteps_pushMgmt (m : MgmtEntry) (s : State) : WorkSteps s (pushMgmt m s) :=
  workSteps_setDisc s _ _ (.of_kept [m] rfl rfl)

/-- Flags of due work set or cleared, and nothing else, is follow-up work. -/
theorem workSteps_setDue (s : State) (a : ModAddr) (p r : Bool) :
    WorkSteps s (s.setEntry a { s.entry a with pingDue := p, releaseDue := r }) := by
  refine WorkSteps.of_fields rfl rfl rfl rfl rfl rfl rfl rfl rfl rfl rfl rfl rfl rfl (.inl ⟨rfl, rfl⟩) (fun _ => .inl rfl) rfl
    (fun b => ?_) (.of_kept [] (by simp [State.setEntry]) rfl) (.inl rfl)
  rw [entry_setEntry]
  split
  · next hb => subst hb; exact ⟨rfl, .inl rfl⟩
  · exact ⟨rfl, .inl rfl⟩

theorem workSteps_setPingDue (a : ModAddr) (s : State) : WorkSteps s (setPingDue a s) := by
  unfold setPingDue
  simp only
  split
  · exact .refl s
  · exact workSteps_setDue s a true (s.entry a).releaseDue

theorem workSteps_queryNow (s : State) : WorkSteps s (queryNow s) :=
  workSteps_setDisc s _ _ (.inr ⟨⟨[], by simp⟩, .inr ⟨.inl rfl, rfl⟩⟩)

theorem workSteps_disableDiscovery (s : State) : WorkSteps s (disableDiscovery s) :=
  workSteps_setDisc s _ _ (.inr ⟨⟨[], by simp⟩, .inl rfl⟩)

theorem workSteps_suspendDiscovery (s : State) : WorkSteps s (suspendDiscovery s) := by
  unfold suspendDiscovery
  split
  · exact workSteps_disableDiscovery s
  · exact workSteps_disableDiscovery s
  · exact workSteps_disableDiscovery s
  · split
    · exact .refl s
    · exact workSteps_setDisc s _ _ (.inr ⟨⟨[], by simp [List.filter_filter]⟩, .inl rfl⟩)
  · exact .refl s
  · exact .refl s

theorem workSteps_updateDiscovery (s : State) : WorkSteps s (updateDiscovery s) := by
  unfold updateDiscovery
  split
  · exact workSteps_suspendDiscovery s
  · split
    · exact workSteps_queryNow s
    · exact .refl s

theorem workSteps_cancelDrain (s : State) : WorkSteps s (cancelDrain s) := by
  unfold cancelDrain
  split
  · next h =>
    exact ⟨rfl, rfl, .inl ⟨rfl, rfl⟩, fun _ => .inl rfl, rfl, fun _ => ⟨rfl, .inl rfl⟩, .of_kept [] (by simp) rfl,
      .inr ⟨h.1, h.2.2, rfl⟩⟩
  · exact .refl s

theorem workSteps_addWaiting (s : State) : WorkSteps s (addWaiting s) := by
  unfold addWaiting
  split
  · exact .refl s
  · next m hm =>
    split
    · exact workSteps_setDisc s _ _ (.inl ⟨[m], rfl, .inr ⟨m, by simp, hm, rfl⟩⟩)
    · exact .refl s

theorem workSteps_addRelease (a : ModAddr) (s : State) : WorkSteps s (addRelease a s) := by
  unfold addRelease
  simp only
  split
  · exact (workSteps_setDue s a (s.entry a).pingDue false).trans (workSteps_pushMgmt _ _)
  · exact .refl s

theorem workSteps_addClear (a : ModAddr) (s : State) : WorkSteps s (addClear a s) := by
  unfold addClear
  simp only
  split
  · exact workSteps_pushMgmt _ s
  · exact .refl s

theorem take_fields (u : EventUnit) : u.take = { u with reservations := u.take.reservations } := by
  unfold EventUnit.take
  split <;> rfl

theorem fetching_entry (s t : State) (a : ModAddr)
    (h : t.modules = (s.setEntry a { s.entry a with attention := .fetching }).modules)
    (h0 : (s.entry a).attention = .fetchDue) (b : ModAddr) :
    t.entry b = { s.entry b with attention := (t.entry b).attention, pingDue := (t.entry b).pingDue,
                                 releaseDue := (t.entry b).releaseDue } ∧
      ((t.entry b).attention = (s.entry b).attention ∨
        (s.entry b).attention = .fetchDue ∧ (t.entry b).attention = .fetching) := by
  rw [entry_of_modules _ t h b, entry_setEntry]
  split
  · next hb => subst hb; exact ⟨rfl, .inr ⟨h0, rfl⟩⟩
  · exact ⟨rfl, .inl rfl⟩

theorem workSteps_addFetch (a : ModAddr) (s : State) : WorkSteps s (addFetch a s) := by
  unfold addFetch
  simp only
  split
  · next h =>
    have h0 : (s.entry a).attention = .fetchDue := h.1
    refine WorkSteps.of_fields rfl rfl rfl rfl rfl rfl rfl rfl rfl rfl rfl rfl rfl rfl (.inl ⟨rfl, rfl⟩) (fun b => ?_) ?_
      (fun b => ?_) (.of_kept [.attnFetch a (s.entry a).generation] rfl rfl) (.inl rfl)
    · show vget (vset s.attn.fetches a _) b = vget s.attn.fetches b ∨ (s.entry b).attention = .fetchDue ∧
        (State.entry (s.setEntry a _) b).attention = .fetching ∧ vget (vset s.attn.fetches a _) b = _
      rw [vget_vset, entry_setEntry]
      split
      · next hb => subst hb; exact .inr ⟨h0, rfl, rfl⟩
      · exact .inl rfl
    · show (if _ then s.events.take else s.events) = _
      cases (decide (s.attn.mode = AttnMode.held))
      · rfl
      · exact take_fields s.events
    · exact fetching_entry s _ a rfl h0 b
  · exact .refl s

theorem workSteps_addPing (a : ModAddr) (s : State) : WorkSteps s (addPing a s) := by
  unfold addPing
  simp only
  split
  · exact (workSteps_setDue s a false (s.entry a).releaseDue).trans (workSteps_pushMgmt _ _)
  · exact .refl s

theorem workSteps_addDueWork (s : State) : WorkSteps s (addDueWork s) := by
  unfold addDueWork
  refine (workSteps_addWaiting s).trans (workSteps_foldl _ (fun t a => ?_) _ _)
  exact (workSteps_addRelease a t).trans <| (workSteps_addClear a _).trans <|
    (workSteps_addFetch a _).trans (workSteps_addPing a _)

/-! ### The sweep -/

/-- The armed flag, the sweep's set, discovery, the management queue, power, the events and the fetch records are unchanged. -/
structure PingsOnly (s t : State) : Prop where
  rest  : t = { s with modules := t.modules }
  entry : ∀ a, t.entry a = { s.entry a with pingDue := (t.entry a).pingDue }

theorem PingsOnly.refl (s : State) : PingsOnly s s := ⟨rfl, fun _ => rfl⟩

theorem PingsOnly.trans {s t u : State} (h : PingsOnly s t) (k : PingsOnly t u) : PingsOnly s u :=
  ⟨by rw [k.rest, h.rest], fun a => by rw [k.entry a, h.entry a]⟩

theorem pingsOnly_setPingDue (a : ModAddr) (s : State) : PingsOnly s (setPingDue a s) := by
  unfold setPingDue
  simp only
  split
  · exact .refl s
  · refine ⟨rfl, fun b => ?_⟩
    rw [entry_setEntry]
    split
    · next h => subst h; rfl
    · rfl

theorem pingsOnly_foldl (l : List ModAddr) (s : State) : PingsOnly s (l.foldl (fun t a => setPingDue a t) s) := by
  induction l generalizing s with
  | nil => exact .refl s
  | cons x xs ih => exact (pingsOnly_setPingDue x s).trans (ih _)

/-- The four conditions of R140 under which a sweep starts. -/
def SweepReady (s : State) : Prop :=
  s.attn.armed = true ∧ s.attn.level = true ∧ s.power.state = .active ∧ s.attn.sweep = none

theorem startSweep_none (s : State) (h : ¬SweepReady s) : startSweep s = s := by
  unfold startSweep; exact if_neg h

/-- A sweep that starts: the flag is cleared, the set stands, and pings are due. -/
theorem startSweep_some (s : State) (h : SweepReady s) : PingsOnly
    { s with attn := { s.attn with armed := false, sweep := if sweepSet s = [] then none else some (sweepSet s) } }
    (startSweep s) := by
  unfold SweepReady at h
  unfold startSweep
  rw [if_pos h]
  simp only [List.isEmpty_iff]
  exact pingsOnly_foldl _ _

theorem workSteps_startSweep (s : State) : WorkSteps s (startSweep s) := by
  by_cases h : SweepReady s
  · have k := startSweep_some s h
    generalize startSweep s = t at k
    obtain ⟨k1, k2⟩ := k
    have ht : t.attn = { s.attn with armed := false, sweep := if sweepSet s = [] then none else some (sweepSet s) } := by
      rw [k1]
    refine WorkSteps.of_fields (by rw [k1]) (by rw [k1]) (by rw [k1]) (by rw [k1]) (by rw [k1]) (by rw [k1]) (by rw [k1])
      (by rw [k1]) (by rw [k1]) (by rw [k1]) (by rw [k1]) (by rw [k1]) (by rw [k1]) (by rw [ht]) ?_
      (fun a => .inl (by unfold State.fetchRec; rw [ht])) (by rw [k1]) (fun a => ⟨?_, ?_⟩)
      (.of_kept [] (by rw [k1]; simp) (by rw [k1])) (.inl (by rw [k1]))
    · refine .inr ⟨h.1, h.2.1, h.2.2.2, ?_, by rw [ht], by rw [ht]⟩
      rw [k1]; exact h.2.2.1
    · rw [k2 a]; rfl
    · left; rw [k2 a]; rfl
  · rw [startSweep_none s h]; exact .refl s

/-- The work that follows a change, but for the head checks. -/
def dueFollows (s : State) : State := addDueWork (startSweep (updateDiscovery (cancelDrain (updateDiscovery s))))

theorem followChange_eq (s : State) : followChange s = headChecks (dueFollows s) := rfl

theorem workSteps_dueFollows (s : State) : WorkSteps s (dueFollows s) :=
  (workSteps_updateDiscovery s).trans <| (workSteps_cancelDrain _).trans <| (workSteps_updateDiscovery _).trans <|
    (workSteps_startSweep _).trans (workSteps_addDueWork _)

/-! ### The head -/

/-- A head's checks give the same after follow-up work. -/
theorem WorkSteps.headCheck_eq {s t : State} (h : WorkSteps s t) (e : HostEntry) : headCheck e t = headCheck e s := by
  unfold headCheck
  rw [(h.entry e.addr).1]

theorem hostOnLink_congr {s t : State} (h : t.engine = s.engine) : t.hostOnLink = s.hostOnLink := by
  unfold State.hostOnLink; rw [h]

theorem WorkSteps.headLaw {s t : State} (h : WorkSteps s t) (k : HeadLaw s) : HeadLaw t := by
  obtain ⟨-, -, -, -, -, -, hq, -, -, -, he, -, -⟩ := h.fields
  intro ho e rest hr
  rw [h.headCheck_eq]
  exact k (by rw [← hostOnLink_congr he]; exact ho) e rest (by rw [← hq]; exact hr)

theorem headChecks_quiet (s : State) (h : HeadLaw s) : headChecks s = s := by
  unfold headChecks
  split
  · rfl
  · next ho =>
    cases hq : s.hostQueue with
    | nil => rfl
    | cons e rest => simp [failHeads, hq, h (Bool.eq_false_iff.mpr ho) e rest hq]

/-- With a head that passes, the work that follows a change is follow-up work. -/
theorem followChange_quiet (s : State) (hh : HeadLaw s) : followChange s = dueFollows s := by
  rw [followChange_eq, headChecks_quiet _ ((workSteps_dueFollows s).headLaw hh)]

/-! ### The checks of an entry -/

/-- The checks of an entry read its target's state, generation and width limit alone. -/
theorem headCheck_congr (e : HostEntry) (s t : State)
    (h : ∀ a, (t.entry a).state = (s.entry a).state ∧ (t.entry a).generation = (s.entry a).generation ∧
      (t.entry a).widthLimit = (s.entry a).widthLimit) : headCheck e t = headCheck e s := by
  unfold headCheck
  obtain ⟨h1, h2, h3⟩ := h e.addr
  simp only [h1, h2, h3]

theorem headLaw_congr {s t : State} (k : HeadLaw s) (hq : t.hostQueue = s.hostQueue) (he : t.engine = s.engine)
    (h : ∀ a, (t.entry a).state = (s.entry a).state ∧ (t.entry a).generation = (s.entry a).generation ∧
      (t.entry a).widthLimit = (s.entry a).widthLimit) : HeadLaw t := by
  intro ho e rest hr
  rw [headCheck_congr e s t h]
  exact k (by rw [← hostOnLink_congr he]; exact ho) e rest (by rw [← hq]; exact hr)

theorem headLaw_modules {s t : State} (k : HeadLaw s) (hq : t.hostQueue = s.hostQueue) (he : t.engine = s.engine)
    (h : t.modules = s.modules) : HeadLaw t :=
  headLaw_congr k hq he fun a => by rw [entry_of_modules s t h a]; exact ⟨rfl, rfl, rfl⟩

/-- An entry added at the tail leaves a head that passes: there was a head, or an entry on the link, or the entry passes. -/
theorem headLaw_append {s t : State} (e : HostEntry) (k : HeadLaw s) (hq : t.hostQueue = s.hostQueue ++ [e])
    (he : t.engine = s.engine) (hn : s.hostQueue ≠ [] ∨ s.hostOnLink = true ∨ headCheck e s = none)
    (h : ∀ a, (t.entry a).state = (s.entry a).state ∧ (t.entry a).generation = (s.entry a).generation ∧
      (t.entry a).widthLimit = (s.entry a).widthLimit) : HeadLaw t := by
  intro ho e' rest hr
  have ho' : s.hostOnLink = false := by rw [← hostOnLink_congr he]; exact ho
  rw [headCheck_congr e' s t h]
  cases hs : s.hostQueue with
  | nil =>
    rw [hq, hs] at hr
    simp only [List.nil_append, List.cons.injEq] at hr
    rw [← hr.1]
    rcases hn with hn | hn | hn
    · exact absurd hs hn
    · rw [ho'] at hn; cases hn
    · exact hn
  | cons x xs =>
    rw [hq, hs] at hr
    simp only [List.cons_append, List.cons.injEq] at hr
    rw [← hr.1]
    exact k ho' x xs hs

/-! ### What a wake leaves alone -/

/-- What a wake leaves alone. -/
structure WakeKeeps (s t : State) : Prop where
  rest    : t = { s with modules := t.modules, attn := t.attn, events := t.events, power := t.power }
  level   : t.attn.level = s.attn.level
  mode    : t.attn.mode = s.attn.mode
  sweep   : t.attn.sweep = s.attn.sweep
  fetches : t.attn.fetches = s.attn.fetches
  entry   : ∀ a, t.entry a = { s.entry a with pingDue := (t.entry a).pingDue }

theorem WakeKeeps.refl (s : State) : WakeKeeps s s := ⟨rfl, rfl, rfl, rfl, rfl, fun _ => rfl⟩

theorem WakeKeeps.trans {s t u : State} (h : WakeKeeps s t) (k : WakeKeeps t u) : WakeKeeps s u :=
  ⟨by rw [k.rest, h.rest], k.level.trans h.level, k.mode.trans h.mode, k.sweep.trans h.sweep, k.fetches.trans h.fetches,
   fun a => by rw [k.entry a, h.entry a]⟩

theorem WakeKeeps.fields {s t : State} (h : WakeKeeps s t) :
    t.pending = s.pending ∧ t.now = s.now ∧ t.pins = s.pins ∧ t.port = s.port ∧ t.timing = s.timing ∧ t.windows = s.windows ∧
    t.hostQueue = s.hostQueue ∧ t.slots = s.slots ∧ t.cache = s.cache ∧ t.mbx = s.mbx ∧ t.engine = s.engine ∧
    t.bindings = s.bindings ∧ t.autoload = s.autoload ∧ t.mgmtQueue = s.mgmtQueue ∧ t.disc = s.disc := by
  rw [h.rest]; simp

theorem PingsOnly.wakeKeeps {s t : State} (h : PingsOnly s t) : WakeKeeps s t :=
  ⟨by rw [h.rest], by rw [h.rest], by rw [h.rest], by rw [h.rest], by rw [h.rest], h.entry⟩

theorem wakeKeeps_foldl {α : Type} (f : State → α → State) (hf : ∀ s x, WakeKeeps s (f s x)) (l : List α) (s : State) :
    WakeKeeps s (l.foldl f s) := by
  induction l generalizing s with
  | nil => exact .refl s
  | cons x xs ih => exact (hf s x).trans (ih _)

theorem wakeKeeps_power (s : State) (p : Power) (e : EventUnit) : WakeKeeps s { s with power := p, events := e } :=
  ⟨rfl, rfl, rfl, rfl, rfl, fun _ => rfl⟩

theorem wakeKeeps_armSweep (s : State) : WakeKeeps s (armSweep s) := ⟨rfl, rfl, rfl, rfl, rfl, fun _ => rfl⟩

theorem wakeKeeps_pingPresent (s : State) : WakeKeeps s (pingPresent s) := by
  unfold pingPresent
  refine wakeKeeps_foldl _ (fun t a => ?_) _ _
  split
  · exact (pingsOnly_setPingDue a t).wakeKeeps
  · exact .refl t

theorem wakeKeeps_leaveWaking (s : State) : WakeKeeps s (leaveWaking s) :=
  (show WakeKeeps s (endWaking s) from wakeKeeps_power s _ s.events).trans
    ((wakeKeeps_pingPresent _).trans (wakeKeeps_armSweep _))

theorem wakeKeeps_wakeLink (r : WakeReason) (s : State) : WakeKeeps s (wakeLink r s) := by
  unfold wakeLink; simp only
  split
  · exact (wakeKeeps_power s _ _).trans (wakeKeeps_leaveWaking _)
  · exact wakeKeeps_power s _ _

theorem wakeKeeps_hostWake (s : State) : WakeKeeps s (hostWake s) := by
  unfold hostWake; split
  · exact wakeKeeps_wakeLink _ s
  · exact .refl s

theorem WakeKeeps.headLaw {s t : State} (h : WakeKeeps s t) (k : HeadLaw s) : HeadLaw t := by
  obtain ⟨-, -, -, -, -, -, hq, -, -, -, he, -⟩ := h.fields
  exact headLaw_congr k hq he fun a => by rw [h.entry]; exact ⟨rfl, rfl, rfl⟩

end Sys2Proof.Machine
end

