-- ==== Sys2Proof/Laws/Access.lean ====
section
/-! SUPPORT. When an event takes place, and what the decoder makes of a window access that passes its tests. -/

namespace Sys2Proof.Machine

/-! ### When an event takes place -/

theorem whenLive_live (f : State → State) (s : State) (h : s.pins.hold = false) : whenLive f s = f s := by
  simp [whenLive, h]

theorem whenLive_hold (f : State → State) (s : State) (h : s.pins.hold = true) : whenLive f s = s := by
  simp [whenLive, h]

theorem hostAccess_free (f : State → State) (s : State) (h : s.portFree = true) : hostAccess f s = f s := by
  simp [hostAccess, h]

theorem hostAccess_busy (f : State → State) (s : State) (h : s.portFree = false) : hostAccess f s = s := by
  simp [hostAccess, h]

theorem fullWrite_full (f : State → State) (s : State) : fullWrite 0xF#4 f s = f s := by simp [fullWrite]

theorem fullWrite_partial (lanes : BitVec 4) (f : State → State) (s : State) (h : lanes ≠ 0xF#4) :
    fullWrite lanes f s = s.reply (errorAnswer .write) := by simp [fullWrite, h]

/-- A 4-byte register write that the port takes. -/
theorem registerWrite_taken (f : State → State) (s : State) (h : s.portFree = true) :
    hostAccess (fullWrite 0xF#4 f) s = f s := by rw [hostAccess_free _ _ h, fullWrite_full]

/-- No access is held while the port takes one. -/
theorem portFree_held (s : State) (h : s.portFree = true) : s.port.held = none := by
  simp only [State.portFree, Bool.and_eq_true] at h
  exact Option.isNone_iff_eq_none.mp h.2

/-! ### Decode -/

theorem find?_lowest {α : Type} (p : α → Bool) (l r : List α) (x : α) (hl : ∀ y ∈ l, p y = false) (hx : p x = true) :
    (l ++ x :: r).find? p = some x := by
  rw [List.find?_append]
  have : l.find? p = none := List.find?_eq_none.mpr fun y hy => by simp [hl y hy]
  simp [this, hx]

/-- The window that `Selected` names is the decoder's. -/
theorem selectWindow_of_selected (s : State) (o : Nat) (n : Fin 8) (h : Selected s o n) : s.selectWindow o = some n := by
  obtain ⟨h1, h2, h3, h4⟩ := h
  unfold State.selectWindow
  refine List.find?_eq_some_iff_append.mpr ⟨by simp [h1, Window.contains, h2, h3], ?_⟩
  refine ⟨allWindows.take n.val, allWindows.drop (n.val + 1), ?_, fun m hm => ?_⟩
  · fin_cases n <;> rfl
  · have hmn : m < n := by
      revert hm; fin_cases n <;> fin_cases m <;> simp [allWindows]
    have := h4 m hmn
    by_cases he : (vget s.windows m).enabled = true
    · have := this he
      simp only [Window.contains, he, Bool.true_and, Bool.not_eq_true', Bool.and_eq_false_iff, decide_eq_false_iff_not]
      by_contra hc
      push Not at hc
      exact this ⟨by simpa using hc.1, by simpa using hc.2⟩
    · simp [he]

/-- No enabled window contains the offset: the decoder finds none. -/
theorem selectWindow_none (s : State) (o : Nat)
    (h : ∀ n, (vget s.windows n).enabled = true → ¬((vget s.windows n).base ≤ o ∧ o ≤ (vget s.windows n).limit)) :
    s.selectWindow o = none := by
  unfold State.selectWindow
  refine List.find?_eq_none.mpr fun n _ => ?_
  by_cases he : (vget s.windows n).enabled = true
  · have := h n he
    simp only [he, Bool.true_and, Window.contains, Bool.and_eq_true, decide_eq_true_eq]
    exact this
  · simp [he]

/-- What the decoder makes of an access that passes. -/
theorem decodeAccess_passes (s : State) (dir : Dir) (addr : BitVec 17) (lanes : BitVec 4) (n : Fin 8) (a : ModAddr)
    (lane : Nat) (w : Width) (h : Passes s dir addr lanes n a lane w) :
    decodeAccess s dir addr lanes = .passed n (accessAddr addr lane) lane w a (s.entry a).generation
      (remoteOffset (vget s.windows n) (winOffset (accessAddr addr lane))) := by
  have hs := selectWindow_of_selected s _ n h.selected
  unfold decodeAccess
  rw [h.group]
  simp only
  rw [show (wordAddress addr + BitVec.ofNat 17 lane) = accessAddr addr lane from rfl]
  rw [show (BitVec.setWidth 16 (accessAddr addr lane)).toNat = winOffset (accessAddr addr lane) from rfl, hs]
  simp only
  unfold testAccess
  simp only
  rw [if_neg (by simp [h.width]), if_neg (by rintro ⟨hd, hr⟩; simp [h.writable hd] at hr), h.target]
  simp only
  rw [if_neg (by simp [h.online]), if_neg (by rintro ⟨h1, h2⟩; rcases h.same with h | h <;> contradiction)]
  rfl

end Sys2Proof.Machine
end

