-- ==== Sys2Proof/Laws/DueWork.lean ====
section
/-! SUPPORT. Due work added while places are free (R27): what is added, why, in which order, and that nothing due is left while a
place is free. -/

namespace Sys2Proof.Machine

/-! ### What adding a request leaves possible -/

/-- `t` offers due work no more than `s` does: no place, no permission, and every request that `s` has. -/
structure Grows (s t : State) : Prop where
  room  : t.mgmtRoom = true → s.mgmtRoom = true
  has   : ∀ p, s.mgmtHas p = true → t.mgmtHas p = true
  place : t.events.hasPlace = true → s.events.hasPlace = true
  mode  : t.attn.mode = s.attn.mode

theorem Grows.refl (s : State) : Grows s s := ⟨id, fun _ => id, id, rfl⟩

theorem Grows.trans {s t u : State} (h : Grows s t) (k : Grows t u) : Grows s u :=
  ⟨fun e => h.room (k.room e), fun p e => k.has p (h.has p e), fun e => h.place (k.place e), k.mode.trans h.mode⟩

theorem Grows.fetch {s t : State} (h : Grows s t) (a : ModAddr) (k : t.fetchPermitted a = true) : s.fetchPermitted a = true := by
  simp only [State.fetchPermitted, Bool.and_eq_true, Bool.or_eq_true, Bool.not_eq_true', decide_eq_true_eq] at k ⊢
  refine ⟨?_, ?_⟩
  · rw [← Bool.not_eq_true]
    intro e
    rw [h.has _ e] at k
    cases k.1
  · rcases k.2 with e | e
    · exact .inl (by rw [← h.mode]; exact e)
    · exact .inr (h.place e)

theorem grows_of {s t : State} (more : List MgmtEntry) (hq : t.mgmtQueue = s.mgmtQueue ++ more) (he : t.engine = s.engine)
    (hv : t.events.hasPlace = true → s.events.hasPlace = true) (hm : t.attn.mode = s.attn.mode) : Grows s t := by
  have hl : t.mgmtOnLink = s.mgmtOnLink := by unfold State.mgmtOnLink; rw [he]
  refine ⟨?_, fun p k => ?_, hv, hm⟩
  · simp only [State.mgmtRoom, hq, List.length_append, decide_eq_true_eq]; omega
  · unfold State.mgmtHas at k ⊢
    rw [hl, hq, List.any_append]
    rcases Bool.or_eq_true _ _ |>.mp k with k | k
    · simp [k]
    · simp [k]

theorem take_place (u : EventUnit) (h : u.take.hasPlace = true) : u.hasPlace = true := by
  unfold EventUnit.take at h
  split at h
  · assumption
  · exact h

theorem take_of_place (u : EventUnit) (h : u.hasPlace = true) : u.take = { u with reservations := u.reservations + 1 } := by
  unfold EventUnit.take; rw [if_pos h]

/-! ### What a state offers is what it added -/

theorem pingFallsDue_armed {s t : State} (h : t.attn.armed = s.attn.armed) (a : ModAddr) :
    pingFallsDue s t a = (s.entry a).pingDue := by
  unfold pingFallsDue
  rw [h]
  cases s.attn.armed <;> simp

theorem addedBefore_all {l : List MgmtEntry} {m : MgmtEntry} (h : ∀ n ∈ l, n.dueRank < m.dueRank) : addedBefore l m = l :=
  List.filter_eq_self.mpr fun n k => decide_eq_true (h n k)

theorem addedBefore_append {l : List MgmtEntry} {m n : MgmtEntry} (h : n.dueRank ≤ m.dueRank) :
    addedBefore (l ++ [m]) n = addedBefore l n := by
  simp [addedBefore, List.filter_append, h]

theorem findsPlace_append {q l : List MgmtEntry} {s : State} {m n : MgmtEntry} (h : n.dueRank ≤ m.dueRank) :
    FindsPlace q s (l ++ [m]) n ↔ FindsPlace q s l n := by
  unfold FindsPlace; rw [addedBefore_append h]

/-- The requests of the due work of rank `b`: one for each entry and kind (R27). -/
theorem MgmtEntry.eq_of_dueRank {m n : MgmtEntry} (h : m.dueRank = n.dueRank) (hm : m.dueRank ≠ 0) :
    (∃ a g g', m = .release a g ∧ n = .release a g') ∨ (∃ a g g' w w', m = .attnClear a g w ∧ n = .attnClear a g' w') ∨
      (∃ a g g', m = .attnFetch a g ∧ n = .attnFetch a g') ∨ ∃ a g g', m = .ping a g ∧ n = .ping a g' := by
  cases m <;> cases n <;> simp only [MgmtEntry.dueRank] at h hm <;> first
    | omega
    | (rename_i x _ _ y _ _; obtain rfl : x = y := Fin.ext (by omega); simp)
    | (rename_i x _ y _; obtain rfl : x = y := Fin.ext (by omega); simp)

/-- A request of the due work is determined by its rank. -/
theorem DueFor.unique {q : List MgmtEntry} {s t t' : State} {m n : MgmtEntry} (h : DueFor q s t m) (k : DueFor q s t' n)
    (e : m.dueRank = n.dueRank) : m = n := by
  have hm : m.dueRank ≠ 0 := by cases m <;> simp only [DueFor, MgmtEntry.dueRank] at h ⊢ <;> omega
  rcases MgmtEntry.eq_of_dueRank e hm with ⟨a, g, g', rfl, rfl⟩ | ⟨a, g, g', w, w', rfl, rfl⟩ | ⟨a, g, g', rfl, rfl⟩ |
    ⟨a, g, g', rfl, rfl⟩ <;> simp only [DueFor] at h k
  · rw [h.1, k.1]
  · rw [h.1, k.1, h.2.2.1, k.2.2.1]
  · rw [h.1, k.1]
  · rw [h.1, k.1]

theorem DueFor.rank {q : List MgmtEntry} {s t : State} {m : MgmtEntry} (h : DueFor q s t m) :
    1 ≤ m.dueRank ∧ m.dueRank < 57 := by
  cases m <;> simp only [DueFor, MgmtEntry.dueRank] at h ⊢ <;> omega

theorem dueFor_armed {q : List MgmtEntry} {s t t' : State} (h : t'.attn.armed = t.attn.armed) (m : MgmtEntry) :
    DueFor q s t' m ↔ DueFor q s t m := by
  have e : ∀ a, pingFallsDue s t' a = pingFallsDue s t a := fun a => by unfold pingFallsDue; rw [h]
  cases m <;> simp only [DueFor, e]

/-- Due work `added` in the order of R27 and up to the rank `b` in it, from `y` to `z`: what is due and finds its place, and no
other. -/
structure Adding (y z : State) (added : List MgmtEntry) (b : Nat) : Prop where
  rest   : z = { y with modules := z.modules, mgmtQueue := z.mgmtQueue, attn := z.attn, events := z.events }
  attn   : z.attn = { y.attn with fetches := z.attn.fetches }
  queue  : z.mgmtQueue = y.mgmtQueue ++ added
  chosen : ∀ m, m ∈ added ↔ m.dueRank < b ∧ DueFor y.mgmtQueue y y m ∧ FindsPlace y.mgmtQueue y added m
  order  : added.Pairwise fun m n => m.dueRank < n.dueRank
  entry  : ∀ a, z.entry a = { y.entry a with
             attention := if .attnFetch a (y.entry a).generation ∈ added then .fetching else (y.entry a).attention
             pingDue := (y.entry a).pingDue && !decide (.ping a (y.entry a).generation ∈ added)
             releaseDue := (y.entry a).releaseDue && !decide (.release a (y.entry a).generation ∈ added) }
  fetch  : ∀ a, z.fetchRec a = if .attnFetch a (y.entry a).generation ∈ added then
             some ⟨(y.entry a).generation, y.attn.mode = .held⟩ else y.fetchRec a
  events : z.events = { y.events with reservations := y.events.reservations +
             if y.attn.mode = .held then (added.filter MgmtEntry.isFetch).length else 0 }

theorem Adding.refl (y : State) : Adding y y [] 1 :=
  ⟨rfl, rfl, by simp, fun m => by simp only [List.not_mem_nil, false_iff]; rintro ⟨h, k, -⟩; have := k.rank; omega, .nil,
    fun a => by simp, fun a => by simp, by simp⟩

theorem Adding.bound {y z : State} {l : List MgmtEntry} {b : Nat} (h : Adding y z l b) (m : MgmtEntry) (hm : m ∈ l) :
    m.dueRank < b := ((h.chosen m).mp hm).1

theorem Adding.armed {y z : State} {l : List MgmtEntry} {b : Nat} (h : Adding y z l b) : z.attn.armed = y.attn.armed := by
  rw [h.attn]

theorem Adding.gen {y z : State} {l : List MgmtEntry} {b : Nat} (h : Adding y z l b) (a : ModAddr) :
    (z.entry a).generation = (y.entry a).generation := by rw [h.entry a]

/-- Nothing of this rank or above has been added. -/
theorem Adding.fresh {y z : State} {l : List MgmtEntry} {b : Nat} (h : Adding y z l b) {m : MgmtEntry} (hm : b ≤ m.dueRank) :
    m ∉ l := fun k => absurd (h.bound m k) (by omega)

theorem Adding.before {y z : State} {l : List MgmtEntry} {b : Nat} (h : Adding y z l b) {m : MgmtEntry} (hm : m.dueRank = b) :
    addedBefore l m = l := addedBefore_all fun n k => by have := h.bound n k; omega

/-- No request for the entry at `a` has been added that only the rank `b` could be. -/
theorem Adding.has {y z : State} {l : List MgmtEntry} {b : Nat} (h : Adding y z l b) (p : MgmtEntry → Bool)
    (hp : ∀ m, p m = true → m.dueRank = b) : z.mgmtHas p = y.mgmtHas p := by
  have e : l.any p = false := List.any_eq_false.mpr fun m k c => by have := h.bound m k; rw [hp m c] at this; omega
  have eo : z.mgmtOnLink = y.mgmtOnLink := mgmtOnLink_congr (by rw [h.rest])
  unfold State.mgmtHas
  rw [h.queue, List.any_append, e, Bool.or_false, eo]

/-- The next request in the order finds its place where the queue has room and, for a fetch in HELD mode, the events have. -/
theorem Adding.place {y z : State} {l : List MgmtEntry} {b : Nat} (h : Adding y z l b) {m : MgmtEntry} (hm : m.dueRank = b) :
    FindsPlace y.mgmtQueue y l m ↔ z.mgmtRoom = true ∧ (m.isFetch = true → y.attn.mode = .held →
      z.events.ordinaryCount + z.events.reservations < Config.ordinaryPlaces) := by
  unfold FindsPlace
  rw [h.before hm]
  refine and_congr ?_ (forall_congr' fun _ => forall_congr' fun hh => ?_)
  · simp only [State.mgmtRoom, h.queue, List.length_append, decide_eq_true_eq]
  · rw [h.events]
    simp only [hh, if_true]
    rw [Nat.add_assoc]
    exact Iff.rfl

/-- The next request in the order, added. -/
theorem Adding.push {y z z' : State} {l : List MgmtEntry} {b : Nat} (h : Adding y z l b) (m : MgmtEntry) (hb : m.dueRank = b)
    (hd : DueFor y.mgmtQueue y y m) (hp : FindsPlace y.mgmtQueue y l m)
    (hz : z' = { z with modules := z'.modules, mgmtQueue := z.mgmtQueue ++ [m], attn := z'.attn, events := z'.events })
    (ha : z'.attn = { z.attn with fetches := z'.attn.fetches })
    (he : ∀ a, z'.entry a = { z.entry a with
      attention := if m = .attnFetch a (y.entry a).generation then .fetching else (z.entry a).attention
      pingDue := (z.entry a).pingDue && !decide (m = .ping a (y.entry a).generation)
      releaseDue := (z.entry a).releaseDue && !decide (m = .release a (y.entry a).generation) })
    (hf : ∀ a, z'.fetchRec a = if m = .attnFetch a (y.entry a).generation then
      some ⟨(y.entry a).generation, y.attn.mode = .held⟩ else z.fetchRec a)
    (hv : z'.events = { z.events with reservations :=
      z.events.reservations + if y.attn.mode = .held ∧ m.isFetch = true then 1 else 0 }) :
    Adding y z' (l ++ [m]) (b + 1) := by
  have hq : z'.mgmtQueue = z.mgmtQueue ++ [m] := by rw [hz]
  refine ⟨?_, ?_, ?_, fun n => ?_, ?_, fun a => ?_, fun a => ?_, ?_⟩
  · rw [hz]; simp only; rw [h.rest]
  · rw [ha, h.attn]
  · rw [hq, h.queue, List.append_assoc]
  · rw [List.mem_append, List.mem_singleton, h.chosen n]
    constructor
    · rintro (⟨h1, h2, h3⟩ | rfl)
      · exact ⟨by omega, h2, (findsPlace_append (by omega)).mpr h3⟩
      · exact ⟨by omega, hd, (findsPlace_append (Nat.le_refl _)).mpr hp⟩
    · rintro ⟨h1, h2, h3⟩
      by_cases hn : n.dueRank = b
      · exact .inr (h2.unique hd (by omega))
      · exact .inl ⟨by omega, h2, (findsPlace_append (by omega)).mp h3⟩
  · rw [List.pairwise_append]
    refine ⟨h.order, List.pairwise_singleton _ _, fun x hx w hw => ?_⟩
    rw [List.mem_singleton.mp hw]
    have := h.bound x hx; omega
  · rw [he a, h.entry a]
    simp only [List.mem_append, List.mem_singleton, Entry.mk.injEq, true_and, and_true]
    refine ⟨?_, ?_, ?_⟩
    · by_cases k : m = .attnFetch a (y.entry a).generation
      · simp [k]
      · simp [k, Ne.symm k]
    · simp only [Bool.and_assoc, Bool.decide_or, Bool.not_or, eq_comm]
    · simp only [Bool.and_assoc, Bool.decide_or, Bool.not_or, eq_comm]
  · rw [hf a, h.fetch a]
    simp only [List.mem_append, List.mem_singleton]
    by_cases k : m = .attnFetch a (y.entry a).generation
    · simp [k]
    · simp [k, Ne.symm k]
  · rw [hv, h.events]
    simp only [List.filter_append, List.length_append, EventUnit.mk.injEq, true_and, and_true]
    by_cases hh : y.attn.mode = .held
    · by_cases k : m.isFetch = true
      · simp [hh, k]; omega
      · simp [hh, k]
    · simp [hh]

/-- The next place in the order, passed over: nothing of its rank is due, or it finds no place. -/
theorem Adding.skip {y z : State} {l : List MgmtEntry} {b : Nat} (h : Adding y z l b)
    (hn : ∀ m, m.dueRank = b → DueFor y.mgmtQueue y y m → ¬FindsPlace y.mgmtQueue y l m) : Adding y z l (b + 1) := by
  refine ⟨h.rest, h.attn, h.queue, fun m => ?_, h.order, h.entry, h.fetch, h.events⟩
  rw [h.chosen m]
  constructor
  · rintro ⟨h1, h2⟩; exact ⟨by omega, h2⟩
  · rintro ⟨h1, h2, h3⟩
    by_cases hm : m.dueRank = b
    · exact absurd h3 (hn m hm h2)
    · exact ⟨by omega, h2, h3⟩

/-! ### The four kinds -/

theorem adding_release {y z : State} {l : List MgmtEntry} (a : ModAddr) (h : Adding y z l (4 * a.val + 1)) :
    ∃ l', Adding y (addRelease a z) l' (4 * a.val + 2) := by
  have hr : (MgmtEntry.release a (y.entry a).generation).dueRank = 4 * a.val + 1 := rfl
  have hf := h.fresh (Nat.le_of_eq hr.symm)
  have hdue : (z.entry a).releaseDue = (y.entry a).releaseDue := by rw [h.entry a]; simp [hf]
  unfold addRelease
  simp only
  split
  · next hc =>
    obtain ⟨h1, h2⟩ := hc
    rw [h.gen a]
    refine ⟨_, h.push (.release a (y.entry a).generation) hr ⟨rfl, by rw [← hdue]; exact h1⟩
      ((h.place hr).mpr ⟨h2, by simp [MgmtEntry.isFetch]⟩) rfl rfl (fun c => ?_) (fun c => by simp; rfl)
      (by simp [MgmtEntry.isFetch])⟩
    show (State.entry (z.setEntry a _) c) = _
    rw [entry_setEntry]
    split
    · next hc => subst hc; simp [h.gen]
    · next hc => simp [hc]
  · next hc =>
    refine ⟨l, h.skip fun m hm hd hp => hc ?_⟩
    obtain rfl : m = .release a (y.entry a).generation := by
      refine DueFor.unique (t' := y) (n := .release a (y.entry a).generation) hd ?_ (hm.trans hr.symm)
      rcases MgmtEntry.eq_of_dueRank (hm.trans hr.symm) (by omega) with ⟨c, g, g', rfl, e⟩ | ⟨c, g, g', w, w', -, e⟩ |
        ⟨c, g, g', -, e⟩ | ⟨c, g, g', -, e⟩ <;> cases e
      exact ⟨rfl, hd.2⟩
    exact ⟨by rw [hdue]; exact hd.2, ((h.place hr).mp hp).1⟩

theorem adding_clear {y z : State} {l : List MgmtEntry} (a : ModAddr) (h : Adding y z l (4 * a.val + 2)) :
    ∃ l', Adding y (addClear a z) l' (4 * a.val + 3) := by
  have hfetch : ∀ m, m = .attnFetch a (y.entry a).generation → m ∉ l := fun m e => h.fresh (by rw [e]; simp [MgmtEntry.dueRank])
  have hatt : (z.entry a).attention = (y.entry a).attention := by rw [h.entry a]; simp [hfetch _ rfl]
  have hbits : (z.entry a).clearBits = (y.entry a).clearBits := by rw [h.entry a]
  have hhas : z.mgmtHas (MgmtEntry.isClearFor a (y.entry a).generation) =
      y.mgmtHas (MgmtEntry.isClearFor a (y.entry a).generation) := h.has _ fun m k => by
    cases m <;> simp only [MgmtEntry.isClearFor, Bool.decide_and, Bool.and_eq_true, decide_eq_true_eq,
      Bool.false_eq_true] at k
    rw [k.1]; rfl
  have hr : ∀ w, (MgmtEntry.attnClear a (y.entry a).generation w).dueRank = 4 * a.val + 2 := fun _ => rfl
  unfold addClear
  simp only
  rw [h.gen a, hhas, hatt, hbits]
  split
  · next hc =>
    obtain ⟨h1, h2, h3⟩ := hc
    exact ⟨_, h.push (.attnClear a (y.entry a).generation ((y.entry a).clearBits.getD 0)) (hr _)
      ⟨rfl, h1, rfl, by simpa using h2⟩ ((h.place (hr _)).mpr ⟨h3, by simp [MgmtEntry.isFetch]⟩) rfl rfl
      (fun c => by simp; rfl) (fun c => by simp; rfl) (by simp [MgmtEntry.isFetch])⟩
  · next hc =>
    refine ⟨l, h.skip fun m hm hd hp => hc ?_⟩
    rcases MgmtEntry.eq_of_dueRank (hm.trans (hr 0).symm) (by omega) with ⟨c, g, g', -, e⟩ | ⟨c, g, g', w, w', rfl, e⟩ |
      ⟨c, g, g', -, e⟩ | ⟨c, g, g', -, e⟩ <;> cases e
    obtain ⟨rfl, h1, -, h3⟩ := hd
    exact ⟨h1, by simpa using h3, ((h.place (hr _)).mp hp).1⟩

theorem adding_fetch {y z : State} {l : List MgmtEntry} (a : ModAddr) (h : Adding y z l (4 * a.val + 3)) :
    ∃ l', Adding y (addFetch a z) l' (4 * a.val + 4) := by
  have hr : (MgmtEntry.attnFetch a (y.entry a).generation).dueRank = 4 * a.val + 3 := rfl
  have hf := h.fresh (Nat.le_of_eq hr.symm)
  have hatt : (z.entry a).attention = (y.entry a).attention := by rw [h.entry a]; simp [hf]
  have hm : z.attn.mode = y.attn.mode := by rw [h.attn]
  have hhas : z.mgmtHas (MgmtEntry.isFetchFor a) = y.mgmtHas (MgmtEntry.isFetchFor a) := h.has _ fun m k => by
    cases m <;> simp only [MgmtEntry.isFetchFor, decide_eq_true_eq, Bool.false_eq_true] at k
    rw [k]; rfl
  have hover : z.events.overflowPresent = y.events.overflowPresent := by rw [h.events]; rfl
  have hle : y.events.ordinaryCount + y.events.reservations ≤ z.events.ordinaryCount + z.events.reservations := by
    rw [h.events]; exact Nat.add_le_add_left (Nat.le_add_right _ _) _
  have hperm : z.fetchPermitted a = true ↔ y.fetchPermitted a = true ∧ (y.attn.mode = .held →
      z.events.ordinaryCount + z.events.reservations < Config.ordinaryPlaces) := by
    simp only [State.fetchPermitted, EventUnit.hasPlace, hhas, hm, hover, Bool.and_eq_true, Bool.or_eq_true, decide_eq_true_eq]
    constructor
    · rintro ⟨h1, h2 | ⟨h2, h3⟩⟩
      · exact ⟨⟨h1, .inl h2⟩, fun k => by rw [h2] at k; cases k⟩
      · exact ⟨⟨h1, .inr ⟨h2, by omega⟩⟩, fun _ => h3⟩
    · rintro ⟨⟨h1, h2 | ⟨h2, h3⟩⟩, h4⟩
      · exact ⟨h1, .inl h2⟩
      · refine ⟨h1, ?_⟩
        cases hmode : y.attn.mode
        · exact .inl rfl
        · exact .inr ⟨h2, h4 hmode⟩
  unfold addFetch
  simp only
  split
  · next hc =>
    obtain ⟨h1, h2, h3⟩ := hc
    obtain ⟨p1, p2⟩ := hperm.mp h2
    rw [h.gen a]
    refine ⟨_, h.push (.attnFetch a (y.entry a).generation) hr ⟨rfl, by rw [← hatt]; exact h1, p1⟩
      ((h.place hr).mpr ⟨h3, fun _ => p2⟩) rfl rfl (fun c => ?_) (fun c => ?_) ?_⟩
    · show (State.entry (z.setEntry a _) c) = _
      rw [entry_setEntry]
      split
      · next hc => subst hc; simp [h.gen]
      · next hc => simp [hc]
    · show vget (vset z.attn.fetches a _) c = _
      rw [vget_vset]
      split
      · next hc => subst hc; simp [hm]
      · next hc => simp [hc]; rfl
    · show (if _ then z.events.take else z.events) = _
      rw [hm]
      by_cases hh : y.attn.mode = .held
      · have hp : z.events.hasPlace = true := by
          simp only [State.fetchPermitted, Bool.and_eq_true, Bool.or_eq_true, decide_eq_true_eq, hm, hh] at h2
          exact h2.2.resolve_left (by decide)
        rw [take_of_place _ hp]
        simp [hh, MgmtEntry.isFetch]
      · simp [hh]
  · next hc =>
    refine ⟨l, h.skip fun m hk hd hp => hc ?_⟩
    rcases MgmtEntry.eq_of_dueRank (hk.trans hr.symm) (by omega) with ⟨c, g, g', -, e⟩ | ⟨c, g, g', w, w', -, e⟩ |
      ⟨c, g, g', rfl, e⟩ | ⟨c, g, g', -, e⟩ <;> cases e
    obtain ⟨-, h1, h2⟩ := hd
    obtain ⟨p1, p2⟩ := (h.place hk).mp hp
    exact ⟨by rw [hatt]; exact h1, hperm.mpr ⟨h2, p2 rfl⟩, p1⟩

theorem adding_ping {y z : State} {l : List MgmtEntry} (a : ModAddr) (h : Adding y z l (4 * a.val + 4)) :
    ∃ l', Adding y (addPing a z) l' (4 * a.val + 5) := by
  have hr : (MgmtEntry.ping a (y.entry a).generation).dueRank = 4 * a.val + 4 := rfl
  have hf := h.fresh (Nat.le_of_eq hr.symm)
  have hdue : (z.entry a).pingDue = (y.entry a).pingDue := by rw [h.entry a]; simp [hf]
  have hself : pingFallsDue y y a = (y.entry a).pingDue := pingFallsDue_armed rfl a
  unfold addPing
  simp only
  split
  · next hc =>
    obtain ⟨h1, h2⟩ := hc
    rw [h.gen a]
    refine ⟨_, h.push (.ping a (y.entry a).generation) hr ⟨rfl, by rw [hself, ← hdue]; exact h1⟩
      ((h.place hr).mpr ⟨h2, by simp [MgmtEntry.isFetch]⟩) rfl rfl (fun c => ?_) (fun c => by simp; rfl)
      (by simp [MgmtEntry.isFetch])⟩
    show (State.entry (z.setEntry a _) c) = _
    rw [entry_setEntry]
    split
    · next hc => subst hc; simp [h.gen]
    · next hc => simp [hc]
  · next hc =>
    refine ⟨l, h.skip fun m hm hd hp => hc ?_⟩
    rcases MgmtEntry.eq_of_dueRank (hm.trans hr.symm) (by omega) with ⟨c, g, g', -, e⟩ | ⟨c, g, g', w, w', -, e⟩ |
      ⟨c, g, g', -, e⟩ | ⟨c, g, g', rfl, e⟩ <;> cases e
    exact ⟨by rw [hdue, ← hself]; exact hd.2, ((h.place hm).mp hp).1⟩

theorem adding_entry {y z : State} {l : List MgmtEntry} (a : ModAddr) (h : Adding y z l (4 * a.val + 1)) :
    ∃ l', Adding y (addWorkFor z a) l' (4 * a.val + 5) := by
  obtain ⟨l1, h1⟩ := adding_release a h
  obtain ⟨l2, h2⟩ := adding_clear a h1
  obtain ⟨l3, h3⟩ := adding_fetch a h2
  exact adding_ping a h3

theorem adding_foldl (as : List ModAddr) (k : Nat) (hs : as.map Fin.val = List.range' k as.length) {y z : State}
    {l : List MgmtEntry} (h : Adding y z l (4 * k + 1)) :
    ∃ l', Adding y (as.foldl addWorkFor z) l' (4 * (k + as.length) + 1) := by
  induction as generalizing z l k with
  | nil => exact ⟨l, h⟩
  | cons x xs ih =>
    simp only [List.map_cons, List.length_cons, List.range'_succ, List.cons.injEq] at hs
    obtain ⟨hx, hxs⟩ := hs
    subst hx
    obtain ⟨l1, h1⟩ := adding_entry x h
    obtain ⟨l2, h2⟩ := ih (x.val + 1) hxs h1
    exact ⟨l2, by rw [List.length_cons, show x.val + (xs.length + 1) = x.val + 1 + xs.length by omega]; exact h2⟩

/-- The entries' due work, added in order (R27). -/
theorem adding_allAddrs (y : State) : ∃ l, Adding y (allAddrs.foldl addWorkFor y) l 57 :=
  adding_foldl allAddrs 0 (by decide) (Adding.refl y)

/-- The entries' due work as a whole. -/
theorem Adding.whole {y z : State} {l : List MgmtEntry} (h : Adding y z l 57) : WorkAdded y.mgmtQueue y z l := by
  refine ⟨fun m => ?_, h.order, fun a => ?_, h.fetch, h.events⟩
  · rw [h.chosen m, dueFor_armed (t := y) (t' := z) h.armed]
    exact ⟨fun k => k.2, fun k => ⟨k.1.rank.2, k⟩⟩
  · rw [h.entry a, pingFallsDue_armed h.armed]


/-! ### Nothing due is left while a place is free -/

/-- No work of the entry at `a` waits for a place. -/
def EntryDone (s : State) (a : ModAddr) : Prop :=
  (s.entry a).pingDue = false ∧ (s.entry a).releaseDue = false ∧
    ((s.entry a).attention = .clearDue → s.mgmtHas (MgmtEntry.isClearFor a (s.entry a).generation) = true) ∧
    ((s.entry a).attention = .fetchDue → s.fetchPermitted a = false)

theorem EntryDone.grow {s t : State} {a : ModAddr} (h : EntryDone s a) (k : Grows s t) (e : t.entry a = s.entry a) :
    EntryDone t a := by
  obtain ⟨h1, h2, h3, h4⟩ := h
  refine ⟨by rw [e]; exact h1, by rw [e]; exact h2, fun c => ?_, fun c => ?_⟩
  · rw [e] at c ⊢; exact k.has _ (h3 c)
  · rw [e] at c
    rw [← Bool.not_eq_true]
    intro p
    have := h4 c
    rw [k.fetch a p] at this; cases this

theorem grows_addRelease (a : ModAddr) (s : State) : Grows s (addRelease a s) := by
  unfold addRelease; simp only
  split
  · exact grows_of [_] rfl rfl id rfl
  · exact .refl s

theorem grows_addClear (a : ModAddr) (s : State) : Grows s (addClear a s) := by
  unfold addClear; simp only
  split
  · exact grows_of [_] rfl rfl id rfl
  · exact .refl s

theorem grows_addFetch (a : ModAddr) (s : State) : Grows s (addFetch a s) := by
  unfold addFetch; simp only
  split
  · refine grows_of [.attnFetch a (s.entry a).generation] rfl rfl ?_ rfl
    show EventUnit.hasPlace (if _ then s.events.take else s.events) = true → _
    split
    · exact take_place _
    · exact id
  · exact .refl s

theorem grows_addPing (a : ModAddr) (s : State) : Grows s (addPing a s) := by
  unfold addPing; simp only
  split
  · exact grows_of [_] rfl rfl id rfl
  · exact .refl s

theorem entry_addRelease (a c : ModAddr) (s : State) :
    (addRelease a s).entry c = if a = c ∧ s.mgmtRoom = true then { s.entry c with releaseDue := false } else s.entry c := by
  unfold addRelease; simp only
  split
  · next h =>
    show State.entry (s.setEntry a _) c = _
    rw [entry_setEntry]
    split
    · next hc => subst hc; simp [h.2]
    · next hc => simp [hc]
  · next h =>
    split
    · next hc =>
      obtain ⟨rfl, hr⟩ := hc
      have : (s.entry a).releaseDue = false := by
        rw [← Bool.not_eq_true]; exact fun k => h ⟨k, hr⟩
      rw [← this]
    · rfl

theorem entry_addClear (a c : ModAddr) (s : State) : (addClear a s).entry c = s.entry c := by
  unfold addClear; simp only
  split <;> rfl

theorem entry_addFetch_other (a c : ModAddr) (s : State) (h : a ≠ c) : (addFetch a s).entry c = s.entry c := by
  unfold addFetch; simp only
  split
  · show State.entry (s.setEntry a _) c = _
    rw [entry_setEntry, if_neg h]
  · rfl

theorem entry_addPing (a c : ModAddr) (s : State) :
    (addPing a s).entry c = if a = c ∧ s.mgmtRoom = true then { s.entry c with pingDue := false } else s.entry c := by
  unfold addPing; simp only
  split
  · next h =>
    show State.entry (s.setEntry a _) c = _
    rw [entry_setEntry]
    split
    · next hc => subst hc; simp [h.2]
    · next hc => simp [hc]
  · next h =>
    split
    · next hc =>
      obtain ⟨rfl, hr⟩ := hc
      have : (s.entry a).pingDue = false := by
        rw [← Bool.not_eq_true]; exact fun k => h ⟨k, hr⟩
      rw [← this]
    · rfl

theorem grows_addWorkFor (a : ModAddr) (s : State) : Grows s (addWorkFor s a) :=
  (grows_addRelease a s).trans <| (grows_addClear a _).trans <| (grows_addFetch a _).trans (grows_addPing a _)

theorem entry_addWorkFor_other (a c : ModAddr) (s : State) (h : a ≠ c) : (addWorkFor s a).entry c = s.entry c := by
  unfold addWorkFor
  rw [entry_addPing, if_neg (fun k => h k.1), entry_addFetch_other _ _ _ h, entry_addClear, entry_addRelease,
    if_neg (fun k => h k.1)]

/-- An entry's due work is done, or no place is left. -/
theorem entryDone_addWorkFor (a : ModAddr) (s : State) (hr : (addWorkFor s a).mgmtRoom = true) : EntryDone (addWorkFor s a) a := by
  unfold addWorkFor at hr ⊢
  have r3 := (grows_addPing a _).room hr
  have r2 := (grows_addFetch a _).room r3
  have r1 := (grows_addClear a _).room r2
  have r0 := (grows_addRelease a _).room r1
  have g := grows_addPing a (addFetch a (addClear a (addRelease a s)))
  generalize h1 : addRelease a s = s1 at *
  have e1 : (s1.entry a).releaseDue = false := by rw [← h1, entry_addRelease, if_pos ⟨rfl, r0⟩]
  have e2 : (addClear a s1).entry a = s1.entry a := entry_addClear a a s1
  have c2 : (s1.entry a).attention = .clearDue →
      (addClear a s1).mgmtHas (MgmtEntry.isClearFor a (s1.entry a).generation) = true := by
    intro c
    unfold addClear; simp only
    split
    · simp [State.mgmtHas, pushMgmt, MgmtEntry.isClearFor]
    · next h => simpa [c, r1] using h
  generalize h2 : addClear a s1 = s2 at *
  -- the entry after the fetch step, and after the ping step
  have e4 : ((addPing a (addFetch a s2)).entry a) = { (addFetch a s2).entry a with pingDue := false } := by
    rw [entry_addPing, if_pos ⟨rfl, r3⟩]
  by_cases hf : (s2.entry a).attention = .fetchDue ∧ s2.fetchPermitted a = true
  · have e3 : (addFetch a s2).entry a = { s2.entry a with attention := .fetching } := by
      unfold addFetch; simp only
      rw [if_pos ⟨hf.1, hf.2, r2⟩]
      show State.entry (s2.setEntry a _) a = _
      rw [entry_setEntry, if_pos rfl]
    refine ⟨by rw [e4], by rw [e4, e3, e2]; exact e1, fun c => ?_, fun c => ?_⟩
    · rw [e4, e3] at c; cases c
    · rw [e4, e3] at c; cases c
  · have e3 : addFetch a s2 = s2 := by
      unfold addFetch; simp only
      rw [if_neg (fun k => hf ⟨k.1, k.2.1⟩)]
    rw [e3] at e4 g ⊢
    refine ⟨by rw [e4], by rw [e4, e2]; exact e1, fun c => ?_, fun c => ?_⟩
    · rw [e4, e2] at c ⊢; exact g.has _ (c2 c)
    · rw [e4] at c
      rw [← Bool.not_eq_true]
      exact fun k => hf ⟨c, g.fetch a k⟩

theorem grows_foldl (as : List ModAddr) (s : State) : Grows s (as.foldl addWorkFor s) := by
  induction as generalizing s with
  | nil => exact .refl s
  | cons x xs ih => exact (grows_addWorkFor x s).trans (ih _)

theorem entryDone_foldl (as : List ModAddr) (hs : as.Nodup) (s : State) (hr : (as.foldl addWorkFor s).mgmtRoom = true)
    (a : ModAddr) (ha : a ∈ as) : EntryDone (as.foldl addWorkFor s) a := by
  induction as generalizing s with
  | nil => cases ha
  | cons x xs ih =>
    rw [List.nodup_cons] at hs
    rw [List.foldl_cons] at hr ⊢
    rcases List.mem_cons.mp ha with rfl | ha
    · have hx : ∀ (l : List ModAddr), a ∉ l → ∀ u, (l.foldl addWorkFor u).entry a = u.entry a := by
        intro l hl
        induction l with
        | nil => intro u; rfl
        | cons z zs ihz =>
          intro u
          rw [List.foldl_cons, ihz (fun k => hl (List.mem_cons_of_mem _ k)),
            entry_addWorkFor_other z a u (fun k => hl (by rw [k]; exact List.mem_cons_self))]
      exact (entryDone_addWorkFor a s ((grows_foldl xs _).room hr)).grow (grows_foldl xs _) (hx xs hs.1 _)
    · exact ih hs.2 (addWorkFor s x) hr ha

theorem disc_addWorkFor (s : State) (a : ModAddr) : (addWorkFor s a).disc = s.disc := by
  have h1 : ∀ s, (addRelease a s).disc = s.disc := fun s => by unfold addRelease; simp only; split <;> rfl
  have h2 : ∀ s, (addClear a s).disc = s.disc := fun s => by unfold addClear; simp only; split <;> rfl
  have h3 : ∀ s, (addFetch a s).disc = s.disc := fun s => by unfold addFetch; simp only; split <;> rfl
  have h4 : ∀ s, (addPing a s).disc = s.disc := fun s => by unfold addPing; simp only; split <;> rfl
  unfold addWorkFor
  rw [h4, h3, h2, h1]

theorem disc_foldl (as : List ModAddr) (s : State) : (as.foldl addWorkFor s).disc = s.disc := by
  induction as generalizing s with
  | nil => rfl
  | cons x xs ih => rw [List.foldl_cons, ih, disc_addWorkFor]

theorem waiting_addWaiting (s : State) (h : (addWaiting s).mgmtRoom = true) : (addWaiting s).disc.waiting = none := by
  unfold addWaiting at h ⊢
  split
  · assumption
  · next m hm =>
    simp only [hm] at h
    split
    · rfl
    · next hn => rw [if_neg hn] at h; exact absurd h hn

/-- After due work has been added none is left while a place is free (R27). -/
theorem dueLaw_addDueWork (s : State) : DueLaw (addDueWork s) := by
  unfold addDueWork
  intro hr
  refine ⟨?_, fun a => ?_⟩
  · rw [disc_foldl]
    exact waiting_addWaiting s ((grows_foldl _ _).room hr)
  · exact entryDone_foldl allAddrs (by decide) _ hr a (by revert a; decide)

end Sys2Proof.Machine
end

