-- ==== Sys2Proof/Laws/FollowUp.lean ====
section
/-! SUPPORT. What closes an event when no head fails: `settle` is follow-up work, with the sleep and the wake that may end it, and
touches nothing else; and a state leaves what follows it no choice. -/

namespace Sys2Proof.Machine

/-! ### Discovery -/

theorem DiscMoves.congr {s t u : State} {d : Discovery} {q : List MgmtEntry} (h : DiscMoves s t d q)
    (hs : u.suspended = t.suspended) : DiscMoves s u d q := by
  unfold DiscMoves at h ⊢; rw [hs]; exact h

theorem DiscLaw.congr {s t : State} (h : DiscLaw s) (h1 : t.autoload = s.autoload) (h2 : t.power = s.power)
    (h3 : t.engine = s.engine) (h4 : t.disc.state = s.disc.state) : DiscLaw t := by
  unfold DiscLaw at h ⊢
  rw [suspended_of_fields h1 h2 h3, mgmtOnLink_congr h3, h4]
  exact h

/-- What discovery drops is no other request. -/
theorem DiscMoves.has {s t x : State} (h : DiscMoves s t x.disc x.mgmtQueue) (he : x.engine = s.engine) (p : MgmtEntry → Bool)
    (hj : p .joinQuery = false) : x.mgmtHas p = s.mgmtHas p := by
  have hq : x.mgmtQueue.any p = s.mgmtQueue.any p := by
    rcases h with ⟨-, -, e⟩ | ⟨-, e, -⟩
    · rw [e]
    · rw [e]
      split
      · rw [Bool.eq_iff_iff, List.any_eq_true, List.any_eq_true]
        constructor
        · rintro ⟨m, h1, h2⟩; exact ⟨m, (List.mem_filter.mp h1).1, h2⟩
        · rintro ⟨m, h1, h2⟩
          refine ⟨m, List.mem_filter.mpr ⟨h1, decide_eq_true fun c => ?_⟩, h2⟩
          rw [c, hj] at h2; cases h2
      · rfl
  unfold State.mgmtHas
  rw [hq, mgmtOnLink_congr he]

/-- The suspension of discovery that is not carried on. -/
theorem suspendDiscovery_dropped (s : State) (h : ¬DiscCarried s) (hd : s.disc.state ≠ .disabled) :
    suspendDiscovery s = { s with
      mgmtQueue := if s.disc.state = .querying then s.mgmtQueue.filter (· ≠ .joinQuery) else s.mgmtQueue
      disc := { s.disc with state := .disabled, waiting := none, queryTimer := none } } := by
  unfold DiscCarried at h
  rw [not_or] at h
  unfold suspendDiscovery disableDiscovery
  cases hs : s.disc.state <;> simp only [reduceCtorEq, if_false, if_true]
  · exact absurd hs hd
  · rw [if_neg (fun k => h.2 ⟨hs, k⟩)]
  · exact absurd hs h.1

theorem suspendDiscovery_carried (s : State) (h : DiscCarried s) : suspendDiscovery s = s := by
  unfold DiscCarried at h
  unfold suspendDiscovery
  cases hs : s.disc.state <;> simp_all

theorem suspendDiscovery_disabled (s : State) (h : s.disc.state = .disabled) : suspendDiscovery s = s := by
  unfold suspendDiscovery; rw [h]

/-- A drain that is given up belongs to discovery that its suspension has made DISABLED. -/
theorem cancelDrain_eq_of (s : State) (h : s.power.state = .draining ∧ s.disc.state = .disabled ∧ s.mbx.runs opDiscoverNow = true) :
    cancelDrain s = { s with power := { s.power with state := .active, sleepReq := false } } := by
  unfold cancelDrain; rw [if_pos h]

theorem cancelDrain_self (s : State)
    (h : ¬(s.power.state = .draining ∧ s.disc.state = .disabled ∧ s.mbx.runs opDiscoverNow = true)) : cancelDrain s = s := by
  unfold cancelDrain; rw [if_neg h]

/-- Discovery that is not carried on, as its suspension leaves it: DISABLED, without a JOIN_QUERY not yet granted. -/
theorem suspendDiscovery_moves (s : State) (h : ¬DiscCarried s) : ∃ s1, suspendDiscovery s = s1 ∧
    s1 = { s with mgmtQueue := s1.mgmtQueue, disc := s1.disc } ∧ s1.disc.state = .disabled ∧
    (s.disc.state = .disabled ∧ s1.disc = s.disc ∧ s1.mgmtQueue = s.mgmtQueue ∨
      s.disc.state ≠ .disabled ∧ s1.disc = { s.disc with state := .disabled, waiting := none, queryTimer := none } ∧
      s1.mgmtQueue = if s.disc.state = .querying then s.mgmtQueue.filter (· ≠ .joinQuery) else s.mgmtQueue) := by
  by_cases hdis : s.disc.state = .disabled
  · rw [suspendDiscovery_disabled s hdis]
    exact ⟨s, rfl, rfl, hdis, .inl ⟨hdis, rfl, rfl⟩⟩
  · rw [suspendDiscovery_dropped s h hdis]
    exact ⟨_, rfl, rfl, rfl, .inr ⟨hdis, rfl, rfl⟩⟩

/-- What the two looks at discovery's suspension, with the drain that may be given up between them, make of the state. -/
theorem discMoves_updated (s : State) :
    let x := updateDiscovery (cancelDrain (updateDiscovery s))
    DiscMoves s x x.disc x.mgmtQueue ∧ DiscLaw x ∧
      x = { s with mgmtQueue := x.mgmtQueue, disc := x.disc, power := x.power } ∧
      (¬DrainGivenUp s ∧ x.power = s.power ∨
        DrainGivenUp s ∧ x.power = { s.power with state := .active, sleepReq := false }) := by
  by_cases hs : s.suspended = true
  · have e1 : updateDiscovery s = suspendDiscovery s := by unfold updateDiscovery; rw [if_pos hs]
    by_cases hc : DiscCarried s
    · -- a query on the link or a join is carried on
      have hnd : s.disc.state ≠ .disabled := by
        rcases hc with k | k
        · rw [k]; decide
        · rw [k.1]; decide
      have e2 : cancelDrain s = s := cancelDrain_self s fun k => hnd k.2.1
      have e3 : updateDiscovery s = s := by rw [e1, suspendDiscovery_carried s hc]
      rw [e3, e2, e3]
      exact ⟨.inl ⟨.inl hc, rfl, rfl⟩, ⟨fun _ => .inr hc, fun k => by rw [hs] at k; cases k⟩, rfl,
        .inl ⟨fun k => k.2.2 hc, rfl⟩⟩
    · -- the query is dropped, or there was none
      obtain ⟨s1, hs1, hq, hd, hf⟩ := suspendDiscovery_moves s hc
      have hsus : s1.suspended = s.suspended := suspended_of_fields (by rw [hq]) (by rw [hq]) (by rw [hq])
      have hp : s1.power = s.power := by rw [hq]
      have hm : s1.mbx = s.mbx := by rw [hq]
      rw [e1, hs1]
      by_cases hcan : DrainGivenUp s
      · have e2 := cancelDrain_eq_of s1 ⟨by rw [hp]; exact hcan.1, hd, by rw [hm]; exact hcan.2.1⟩
        rw [e2]
        generalize hx0 : ({ s1 with power := { s1.power with state := .active, sleepReq := false } } : State) = x0
        have x0d : x0.disc = s1.disc := by rw [← hx0]
        have x0q : x0.mgmtQueue = s1.mgmtQueue := by rw [← hx0]
        have x0p : x0.power = { s.power with state := .active, sleepReq := false } := by rw [← hx0, ← hp]
        have x0e : x0 = { s with mgmtQueue := x0.mgmtQueue, disc := x0.disc, power := x0.power } := by
          rw [← hx0]; simp only; rw [hq]
        by_cases hx : x0.suspended = true
        · have e3 : updateDiscovery x0 = x0 := by
            unfold updateDiscovery; rw [if_pos hx, suspendDiscovery_disabled _ (by rw [x0d]; exact hd)]
          rw [e3]
          refine ⟨?_, ⟨fun _ => .inl (by rw [x0d]; exact hd), fun k => by rw [hx] at k; cases k⟩, x0e, .inr ⟨hcan, x0p⟩⟩
          rcases hf with ⟨h0, h1, h2⟩ | ⟨h0, h1, h2⟩
          · exact .inl ⟨.inr (.inl ⟨hs, hx, h0⟩), by rw [x0d, h1], by rw [x0q, h2]⟩
          · exact .inr ⟨hc, by rw [x0q, h2], .inl ⟨hs, hx, h0, by rw [x0d, h1]⟩⟩
        · have e3 : updateDiscovery x0 = queryNow x0 := by
            unfold updateDiscovery; rw [if_neg hx, if_pos (by rw [x0d]; exact hd)]
          have hn : (queryNow x0).suspended = false :=
            (suspended_of_fields (s := x0) (t := queryNow x0) rfl rfl rfl).trans (Bool.eq_false_iff.mpr hx)
          rw [e3]
          refine ⟨?_, ⟨fun k => absurd (hn.symm.trans k) (by decide), fun _ => by simp [queryNow]⟩, ?_, .inr ⟨hcan, x0p⟩⟩
          · refine .inr ⟨hc, ?_, .inr ⟨.inl hs, hn, ?_⟩⟩
            · show x0.mgmtQueue = _
              rw [x0q]
              rcases hf with ⟨h0, -, h2⟩ | ⟨-, -, h2⟩
              · rw [h2, if_neg (by rw [h0]; decide)]
              · exact h2
            · show ({ x0.disc with state := .querying, waiting := some .joinQuery, queryTimer := none } : Discovery) = _
              rw [x0d]
              rcases hf with ⟨-, h1, -⟩ | ⟨-, h1, -⟩ <;> rw [h1]
          · unfold queryNow; rw [x0e]
      · have e2 : cancelDrain s1 = s1 :=
          cancelDrain_self s1 fun k => hcan ⟨by rw [← hp]; exact k.1, by rw [← hm]; exact k.2.2, hc⟩
        have e3 : updateDiscovery s1 = s1 := by
          unfold updateDiscovery; rw [if_pos (by rw [hsus]; exact hs), suspendDiscovery_disabled _ hd]
        rw [e2, e3]
        refine ⟨?_, ⟨fun _ => .inl hd, fun k => by rw [hsus, hs] at k; cases k⟩, ?_, .inl ⟨hcan, hp⟩⟩
        · rcases hf with ⟨h0, h1, h2⟩ | ⟨h0, h1, h2⟩
          · exact .inl ⟨.inr (.inl ⟨hs, by rw [hsus]; exact hs, h0⟩), h1, h2⟩
          · exact .inr ⟨hc, h2, .inl ⟨hs, by rw [hsus]; exact hs, h0, h1⟩⟩
        · conv_lhs => rw [hq]
          rw [hp]
  · have hact : s.power.state = .active := by
      unfold State.suspended at hs
      simp only [Bool.or_eq_true, not_or, decide_eq_true_eq, Classical.not_not] at hs
      simpa using hs.1.1.1.2
    have hsf : s.suspended = false := Bool.eq_false_iff.mpr hs
    have hcan : ¬DrainGivenUp s := fun k => by have := k.1; rw [hact] at this; cases this
    by_cases hdis : s.disc.state = .disabled
    · have hc : ¬DiscCarried s := by rintro (k | k) <;> simp [hdis] at k
      have e1 : updateDiscovery s = queryNow s := by unfold updateDiscovery; rw [if_neg hs, if_pos hdis]
      have e2 : cancelDrain (queryNow s) = queryNow s := cancelDrain_self _ fun k => by
        have := k.1; rw [show (queryNow s).power = s.power from rfl, hact] at this; cases this
      have hn : (queryNow s).suspended = false := (suspended_of_fields (s := s) (t := queryNow s) rfl rfl rfl).trans hsf
      have e3 : updateDiscovery (queryNow s) = queryNow s := by
        unfold updateDiscovery
        rw [if_neg (by rw [hn]; decide), if_neg (by simp [queryNow])]
      rw [e1, e2, e3]
      exact ⟨.inr ⟨hc, by rw [hdis]; rfl, .inr ⟨.inr hdis, hn, rfl⟩⟩,
        ⟨fun k => absurd (hn.symm.trans k) (by decide), fun _ => by simp [queryNow]⟩, rfl, .inl ⟨hcan, rfl⟩⟩
    · have e1 : updateDiscovery s = s := by unfold updateDiscovery; rw [if_neg hs, if_neg hdis]
      have e2 : cancelDrain s = s := cancelDrain_self s fun k => hdis k.2.1
      rw [e1, e2, e1]
      exact ⟨.inl ⟨.inr (.inr ⟨hsf, hsf, hdis⟩), rfl, rfl⟩, ⟨fun k => absurd k hs, fun _ => hdis⟩, rfl, .inl ⟨hcan, rfl⟩⟩

/-! ### The sweep -/

/-- Pings made due for some entries: those with no PING in the queue or on the link. -/
theorem entry_pings (l : List ModAddr) (s : State) (a : ModAddr) :
    (l.foldl (fun t a => setPingDue a t) s).entry a = { s.entry a with
      pingDue := (s.entry a).pingDue || (decide (a ∈ l) && !s.mgmtHas fun m => m = .ping a (s.entry a).generation) } := by
  induction l generalizing s with
  | nil => simp
  | cons x xs ih =>
    have e : ∀ p, (setPingDue x s).mgmtHas p = s.mgmtHas p := by
      intro p; unfold setPingDue; simp only; split <;> rfl
    have ee : (setPingDue x s).entry a =
        if x = a ∧ (s.mgmtHas fun m => m = .ping a (s.entry a).generation) = false then { s.entry a with pingDue := true }
        else s.entry a := by
      unfold setPingDue; simp only
      split
      · next h =>
        rw [if_neg]
        rintro ⟨rfl, k⟩
        rw [h] at k; cases k
      · next h =>
        rw [entry_setEntry]
        split
        · next hx => subst hx; rw [if_pos ⟨rfl, Bool.eq_false_iff.mpr h⟩]
        · next hx => rw [if_neg (fun k => hx k.1)]
    rw [List.foldl_cons, ih, ee, e]
    by_cases hx : x = a
    · subst hx
      cases hm : s.mgmtHas fun m => m = .ping x (s.entry x).generation
      · simp [hm]
      · simp [hm]
    · have hx' : ¬a = x := fun k => hx k.symm
      simp [hx, hx']

/-- What the start of a sweep does to the entries (R140). -/
theorem entry_startSweep (s : State) (a : ModAddr) :
    (startSweep s).entry a = { s.entry a with pingDue := pingFallsDue s (startSweep s) a } := by
  by_cases h : SweepReady s
  · have k := (startSweep_some s h).rest
    have harm : (startSweep s).attn.armed = false := by rw [k]
    have e : startSweep s = (sweepSet s).foldl (fun t a => setPingDue a t)
        { s with attn := { s.attn with armed := false, sweep := if sweepSet s = [] then none else some (sweepSet s) } } := by
      have h' := h
      unfold SweepReady at h'
      unfold startSweep
      rw [if_pos h']
      simp only [List.isEmpty_iff]
      rfl
    unfold pingFallsDue
    rw [harm, e, entry_pings]
    have h1 := h.1
    simp only [h1, Bool.not_false, Bool.and_true, Bool.true_and]
    rfl
  · rw [startSweep_none s h, pingFallsDue_armed rfl]

/-! ### Follow-up work as a whole -/

theorem WorkFollows.fields {s t : State} (h : WorkFollows s t) :
    t.pending = s.pending ∧ t.now = s.now ∧ t.pins = s.pins ∧ t.port = s.port ∧ t.timing = s.timing ∧ t.windows = s.windows ∧
    t.hostQueue = s.hostQueue ∧ t.slots = s.slots ∧ t.cache = s.cache ∧ t.mbx = s.mbx ∧ t.engine = s.engine ∧
    t.bindings = s.bindings ∧ t.autoload = s.autoload := by
  rw [h.rest]; simp

/-- The work of the entries, seen from the state before discovery and the sweep moved. -/
theorem WorkAdded.from_start {q : List MgmtEntry} {s z t : State} {l : List MgmtEntry} (h : WorkAdded q z t l)
    (ht : t.attn.armed = z.attn.armed) (hm : z.attn.mode = s.attn.mode) (hv : z.events = s.events)
    (hf : z.attn.fetches = s.attn.fetches) (hg : z.engine = s.engine)
    (he : ∀ a, z.entry a = { s.entry a with pingDue := pingFallsDue s z a }) : WorkAdded q s t l := by
  have hp : ∀ a, pingFallsDue z t a = pingFallsDue s t a := fun a => by
    rw [pingFallsDue_armed ht, he a]
    show pingFallsDue s z a = _
    unfold pingFallsDue; rw [ht]
  have hh : ∀ p, ({ z with mgmtQueue := q } : State).mgmtHas p = ({ s with mgmtQueue := q } : State).mgmtHas p := fun p => by
    unfold State.mgmtHas
    rw [mgmtOnLink_congr (s := { s with mgmtQueue := q }) (t := { z with mgmtQueue := q }) hg]
  have hfp : ∀ a, ({ z with mgmtQueue := q } : State).fetchPermitted a = ({ s with mgmtQueue := q } : State).fetchPermitted a :=
    fun a => by unfold State.fetchPermitted; rw [hh]; simp only [hm, hv]
  refine ⟨fun m => ?_, h.order, fun a => ?_, fun a => ?_, ?_⟩
  · rw [h.chosen m]
    have hd : DueFor q z t m ↔ DueFor q s t m := by
      cases m <;> simp only [DueFor, he, hh, hfp, hp]
    rw [hd]
    unfold FindsPlace
    rw [hm, hv]
  · rw [h.entry a, hp, he a]
  · rw [h.fetch a]
    simp only [he a, State.fetchRec, hm, hf]
  · rw [h.events, hv, hm]

/-- Discovery's waiting item goes to the queue where there is room (R27). -/
theorem addWaiting_item (y : State) : ∃ item : Option MgmtEntry,
    item = (if y.mgmtQueue.length < Config.mgmtQueueCapacity then y.disc.waiting else none) ∧
    (addWaiting y).disc = { y.disc with waiting := if item = none then y.disc.waiting else none } ∧
    (addWaiting y).mgmtQueue = y.mgmtQueue ++ item.toList ∧
    addWaiting y = { y with mgmtQueue := (addWaiting y).mgmtQueue, disc := (addWaiting y).disc } := by
  unfold addWaiting
  cases hw : y.disc.waiting with
  | none => exact ⟨none, (ite_self none).symm, by simp only [if_true, ← hw], by simp, rfl⟩
  | some m =>
    by_cases hr : y.mgmtRoom = true
    · have hr' : y.mgmtQueue.length < Config.mgmtQueueCapacity := by simpa [State.mgmtRoom] using hr
      simp only [if_pos hr]
      exact ⟨some m, (if_pos hr').symm, by simp [pushMgmt], by simp [pushMgmt], rfl⟩
    · have hr' : ¬y.mgmtQueue.length < Config.mgmtQueueCapacity := by simpa [State.mgmtRoom] using hr
      simp only [if_neg hr]
      exact ⟨none, (if_neg hr').symm, by simp only [if_true, ← hw], by simp, trivial⟩

theorem workFollows_dueFollows (s : State) : WorkFollows s (dueFollows s) := by
  obtain ⟨hdm, hdl, hxe, hxp⟩ := discMoves_updated s
  have ht : dueFollows s = addDueWork (startSweep (updateDiscovery (cancelDrain (updateDiscovery s)))) := rfl
  rw [ht]
  generalize updateDiscovery (cancelDrain (updateDiscovery s)) = x at *
  -- the sweep
  have hys := entry_startSweep x
  have hy : startSweep x = { x with modules := (startSweep x).modules, attn := (startSweep x).attn } ∧
      (startSweep x).attn = { x.attn with armed := (startSweep x).attn.armed, sweep := (startSweep x).attn.sweep } ∧
      (¬SweepReady x ∧ (startSweep x).attn.armed = x.attn.armed ∧ (startSweep x).attn.sweep = x.attn.sweep ∨ SweepReady x ∧
        (startSweep x).attn.armed = false ∧
        (startSweep x).attn.sweep = if sweepSet x = [] then none else some (sweepSet x)) := by
    by_cases h : SweepReady x
    · have k := (startSweep_some x h).rest
      generalize startSweep x = y at *
      have ka : y.attn = { x.attn with armed := false, sweep := if sweepSet x = [] then none else some (sweepSet x) } := by
        rw [k]
      refine ⟨?_, by rw [ka], .inr ⟨h, by rw [ka], by rw [ka]⟩⟩
      rw [ka]; exact k
    · rw [startSweep_none x h]; exact ⟨rfl, rfl, .inl ⟨h, rfl, rfl⟩⟩
  generalize startSweep x = y at *
  obtain ⟨hye, hya, hyw⟩ := hy
  -- the waiting item
  obtain ⟨item, hi, hzd, hzq, hze⟩ := addWaiting_item y
  -- the entries' work
  obtain ⟨l, hl⟩ := adding_allAddrs (addWaiting y)
  have hdue := dueLaw_addDueWork y
  have hdisc : (addDueWork y).disc = (addWaiting y).disc := disc_foldl allAddrs (addWaiting y)
  rw [show allAddrs.foldl addWorkFor (addWaiting y) = addDueWork y from rfl] at hl
  generalize addDueWork y = t at *
  generalize addWaiting y = z at *
  have lr := hl.rest
  have la := hl.attn
  have lq := hl.queue
  have lw := hl.whole
  -- fields
  have hxa : x.attn = s.attn := by rw [hxe]
  have hxm : ∀ a, x.entry a = s.entry a := fun a => by rw [hxe]; rfl
  have hsw : sweepSet x = sweepSet s := by simp only [sweepSet, hxm]
  have fy : y.autoload = x.autoload ∧ y.power = x.power ∧ y.engine = x.engine ∧ y.mgmtQueue = x.mgmtQueue ∧ y.disc = x.disc ∧
      y.events = x.events := by rw [hye]; exact ⟨rfl, rfl, rfl, rfl, rfl, rfl⟩
  have fz : z.autoload = y.autoload ∧ z.power = y.power ∧ z.engine = y.engine ∧ z.modules = y.modules ∧ z.attn = y.attn ∧
      z.events = y.events := by rw [hze]; exact ⟨rfl, rfl, rfl, rfl, rfl, rfl⟩
  have ft : t.autoload = z.autoload ∧ t.power = z.power ∧ t.engine = z.engine ∧ t.disc = z.disc := by
    rw [lr]; exact ⟨rfl, rfl, rfl, rfl⟩
  have fx : x.events = s.events ∧ x.engine = s.engine := by rw [hxe]; exact ⟨rfl, rfl⟩
  have t1 : t.autoload = x.autoload := ft.1.trans (fz.1.trans fy.1)
  have t2 : t.power = x.power := ft.2.1.trans (fz.2.1.trans fy.2.1)
  have t3 : t.engine = x.engine := ft.2.2.1.trans (fz.2.2.1.trans fy.2.2.1)
  have hsus : t.suspended = x.suspended := suspended_of_fields t1 t2 t3
  have hta : t.attn = { s.attn with armed := t.attn.armed, sweep := t.attn.sweep, fetches := t.attn.fetches } := by
    rw [la, fz.2.2.2.2.1, hya, hxa]
  have harm : t.attn.armed = y.attn.armed := by rw [la, fz.2.2.2.2.1]
  have hswp : t.attn.sweep = y.attn.sweep := by rw [la, fz.2.2.2.2.1]
  have hready : SweepReady x ↔ SweepStarts s t := by
    unfold SweepReady SweepStarts
    rw [hxa, t2]
    exact ⟨fun k => ⟨k.1, k.2.1, k.2.2.2, k.2.2.1⟩, fun k => ⟨k.1, k.2.1, k.2.2.2, k.2.2.1⟩⟩
  refine ⟨?_, hta, ?_, ?_, ?_, ?_, hdue⟩
  · rw [lr]; simp only; rw [hze]; simp only; rw [hye]; simp only; rw [hxe]
  · rw [← hready]
    rcases hyw with ⟨r, h1, h2⟩ | ⟨r, h1, h2⟩
    · exact .inl ⟨r, by rw [harm, h1, hxa], by rw [hswp, h2, hxa]⟩
    · exact .inr ⟨r, by rw [harm, h1], by rw [hswp, h2, hsw]⟩
  · rw [t2]; exact hxp
  · refine ⟨x.disc, x.mgmtQueue, item, l, hdm.congr hsus, ?_, ?_, ?_, ?_⟩
    · rw [hi, fy.2.2.2.1, fy.2.2.2.2.1]
    · rw [ft.2.2.2, hzd, fy.2.2.2.2.1]
    · rw [lq, hzq, fy.2.2.2.1]
    · rw [← fy.2.2.2.1, ← hzq]
      refine lw.from_start (by rw [la]) (by rw [fz.2.2.2.2.1, hya, hxa]) (by rw [fz.2.2.2.2.2, fy.2.2.2.2.2, fx.1])
        (by rw [fz.2.2.2.2.1, hya, hxa]) (fz.2.2.1.trans (fy.2.2.1.trans fx.2)) (fun a => ?_)
      have e1 : z.entry a = y.entry a := entry_of_modules y z fz.2.2.2.1 a
      have e2 : pingFallsDue s z a = pingFallsDue x y a := by
        have hhas := hdm.has fx.2 (fun m => decide (m = .ping a (s.entry a).generation)) (by simp)
        unfold pingFallsDue
        rw [hxm a, hxa, hsw, fz.2.2.2.2.1, hhas]
      rw [e1, hys a, e2, hxm a]
  · exact hdl.congr t1 t2 t3 (by rw [ft.2.2.2, hzd, fy.2.2.2.2.1])

/-! ### Follow-up work leaves no choice -/

theorem rankSorted_ext {l l' : List MgmtEntry} (h : l.Pairwise fun m n => m.dueRank < n.dueRank)
    (h' : l'.Pairwise fun m n => m.dueRank < n.dueRank) (e : ∀ m, m ∈ l ↔ m ∈ l') : l = l' := by
  have nd : ∀ {l : List MgmtEntry}, l.Pairwise (fun m n => m.dueRank < n.dueRank) → l.Nodup := fun h =>
    h.imp fun k c => by rw [c] at k; exact Nat.lt_irrefl _ k
  exact ((List.perm_ext_iff_of_nodup (nd h) (nd h')).mpr e).eq_of_pairwise
    (le := fun m n => m.dueRank < n.dueRank) (fun a b _ _ h1 h2 => absurd h1 (Nat.lt_asymm h2)) h h'

/-- The due work that is added is determined. -/
theorem WorkAdded.unique {q : List MgmtEntry} {s t t' : State} {l l' : List MgmtEntry} (h : WorkAdded q s t l)
    (h' : WorkAdded q s t' l') (e : t'.attn.armed = t.attn.armed) : l = l' := by
  refine rankSorted_ext h.order h'.order ?_
  have key : ∀ n, ∀ m : MgmtEntry, m.dueRank < n → (m ∈ l ↔ m ∈ l') := by
    intro n
    induction n with
    | zero => intro m k; omega
    | succ n ih =>
      intro m k
      have hb : addedBefore l m = addedBefore l' m := by
        refine rankSorted_ext (h.order.filter _) (h'.order.filter _) fun x => ?_
        simp only [addedBefore, List.mem_filter, decide_eq_true_eq]
        exact and_congr_left fun c => ih x (by omega)
      rw [h.chosen m, h'.chosen m, dueFor_armed e]
      unfold FindsPlace
      rw [hb]
  exact fun m => key _ m (Nat.lt_succ_self _)

theorem DiscMoves.unique {s t : State} {d d' : Discovery} {q q' : List MgmtEntry} (h : DiscMoves s t d q)
    (h' : DiscMoves s t d' q') : d = d' ∧ q = q' := by
  unfold DiscMoves at h h'
  rcases h with ⟨hc, h1, h2⟩ | ⟨hc, h2, h1⟩ <;> rcases h' with ⟨kc, k1, k2⟩ | ⟨kc, k2, k1⟩
  · exact ⟨h1.trans k1.symm, h2.trans k2.symm⟩
  · rcases hc with c | ⟨c1, c2, c3⟩ | ⟨c1, c2, c3⟩
    · exact absurd c kc
    · rcases k1 with ⟨-, -, n, -⟩ | ⟨-, n, -⟩
      · exact absurd c3 n
      · rw [c2] at n; cases n
    · rcases k1 with ⟨n, -⟩ | ⟨n | n, -⟩
      · rw [c1] at n; cases n
      · rw [c1] at n; cases n
      · exact absurd n c3
  · rcases kc with c | ⟨c1, c2, c3⟩ | ⟨c1, c2, c3⟩
    · exact absurd c hc
    · rcases h1 with ⟨-, -, n, -⟩ | ⟨-, n, -⟩
      · exact absurd c3 n
      · rw [c2] at n; cases n
    · rcases h1 with ⟨n, -⟩ | ⟨n | n, -⟩
      · rw [c1] at n; cases n
      · rw [c1] at n; cases n
      · exact absurd n c3
  · refine ⟨?_, h2.trans k2.symm⟩
    rcases h1 with ⟨-, n, -, e⟩ | ⟨-, n, e⟩ <;> rcases k1 with ⟨-, n', -, e'⟩ | ⟨-, n', e'⟩
    · exact e.trans e'.symm
    · rw [n] at n'; cases n'
    · rw [n] at n'; cases n'
    · exact e.trans e'.symm

theorem vget_ext {α : Type} {n : Nat} {v w : Vector α n} (h : ∀ i, vget v i = vget w i) : v = w :=
  Vector.ext fun i hi => h ⟨i, hi⟩

/-- A state and what follows it in the same event determine each other. -/
theorem WorkFollows.unique {s t t' : State} (h : WorkFollows s t) (h' : WorkFollows s t') : t = t' := by
  have hp : t'.power = t.power := by
    rcases h.power with ⟨c, e⟩ | ⟨c, e⟩ <;> rcases h'.power with ⟨c', e'⟩ | ⟨c', e'⟩
    · exact e'.trans e.symm
    · exact absurd c' c
    · exact absurd c c'
    · exact e'.trans e.symm
  have hw : t'.attn.armed = t.attn.armed ∧ t'.attn.sweep = t.attn.sweep := by
    have e : SweepStarts s t' ↔ SweepStarts s t := by unfold SweepStarts; rw [hp]
    rcases h.sweep with ⟨c, e1, e2⟩ | ⟨c, e1, e2⟩ <;> rcases h'.sweep with ⟨c', e1', e2'⟩ | ⟨c', e1', e2'⟩
    · exact ⟨e1'.trans e1.symm, e2'.trans e2.symm⟩
    · exact absurd (e.mp c') c
    · exact absurd (e.mpr c) c'
    · exact ⟨e1'.trans e1.symm, e2'.trans e2.symm⟩
  have hs : t'.suspended = t.suspended :=
    suspended_of_fields (by rw [h'.fields.2.2.2.2.2.2.2.2.2.2.2.2, h.fields.2.2.2.2.2.2.2.2.2.2.2.2]) hp
      (by rw [h'.fields.2.2.2.2.2.2.2.2.2.2.1, h.fields.2.2.2.2.2.2.2.2.2.2.1])
  obtain ⟨d, q, i, l, h1, h2, h3, h4, h5⟩ := h.work
  obtain ⟨d', q', i', l', k1, k2, k3, k4, k5⟩ := h'.work
  obtain ⟨rfl, rfl⟩ := h1.unique (k1.congr hs.symm)
  obtain rfl : i = i' := h2.trans k2.symm
  obtain rfl := h5.unique k5 hw.1
  have hm : t.modules = t'.modules := vget_ext fun a => by
    have e : ∀ a, pingFallsDue s t' a = pingFallsDue s t a := fun a => by unfold pingFallsDue; rw [hw.1]
    exact (h5.entry a).trans ((k5.entry a).trans (by rw [e])).symm
  have hf : t.attn.fetches = t'.attn.fetches := vget_ext fun a => (h5.fetch a).trans (k5.fetch a).symm
  have ha : t.attn = t'.attn := by rw [h.attn, h'.attn, hw.1, hw.2, hf]
  rw [h.rest, h'.rest, hm, ha, hp, h4, k4, h3, k3, h5.events, k5.events]

theorem ClosesAs.unique {s t t' : State} (h : ClosesAs s t) (h' : ClosesAs s t') : t = t' := by
  obtain ⟨v, h2, h3⟩ := h
  obtain ⟨v', k2, k3⟩ := h'
  obtain rfl := h2.trans k2.symm
  by_cases c : v.power.state = .asleep ∧ v.attn.level = true ∧ v.attn.armed = true
  · rw [if_pos c] at h3 k3; exact h3.unique k3
  · rw [if_neg c] at h3 k3; exact h3.trans k3.symm

theorem FollowUp.unique {s t t' : State} (h : FollowUp s t) (h' : FollowUp s t') : t = t' := by
  obtain ⟨u, h1, h2⟩ := h
  obtain ⟨u', k1, k2⟩ := h'
  obtain rfl := h1.unique k1
  exact h2.unique k2

theorem FollowUpOfHeads.unique {s t t' : State} (h : FollowUpOfHeads s t) (h' : FollowUpOfHeads s t') : t = t' := by
  obtain ⟨u, h1, h2⟩ := h
  obtain ⟨u', k1, k2⟩ := h'
  obtain rfl := h1.unique k1
  exact h2.unique k2

/-! ### The whole -/

theorem attentionWakes_iff (s : State) :
    s.attentionWakes = true ↔ s.power.state = .asleep ∧ s.attn.level = true ∧ s.attn.armed = true := by
  simp [State.attentionWakes, and_assoc]

/-- The link put to sleep where it is drained; nothing else changes. -/
theorem drainIfDone_headLaw {s : State} (k : HeadLaw s) : HeadLaw (drainIfDone s) := by
  unfold drainIfDone
  split
  · exact headLaw_modules k rfl rfl rfl
  · exact k

/-- An event whose heads pass closes with the sleep and the wake that may end it. -/
theorem closesAs_drain (u : State) (hh : HeadLaw u) :
    ClosesAs u (if (drainIfDone u).attentionWakes then followChange (attentionWake (drainIfDone u)) else drainIfDone u) := by
  refine ⟨drainIfDone u, rfl, ?_⟩
  have hu : HeadLaw (drainIfDone u) := drainIfDone_headLaw hh
  generalize drainIfDone u = v at hu ⊢
  by_cases h : v.attentionWakes = true
  · rw [if_pos ((attentionWakes_iff v).mp h), if_pos h]
    unfold attentionWake
    rw [if_pos h, followChange_quiet _ ((wakeKeeps_wakeLink _ v).headLaw hu)]
    exact workFollows_dueFollows _
  · rw [if_neg (fun k => h ((attentionWakes_iff v).mpr k)), if_neg h]

/-- With a head that passes, what closes an event is follow-up work, with the sleep and the wake that may end it. -/
theorem followUp_settle (s : State) (hh : HeadLaw s) : FollowUp s (settle s) := by
  refine ⟨dueFollows s, workFollows_dueFollows s, ?_⟩
  have k := closesAs_drain (dueFollows s) ((workSteps_dueFollows s).headLaw hh)
  unfold settle
  rw [followChange_quiet s hh]
  exact k

/-- With a head that passes, follow-up work is what closes the event. -/
theorem followUp_iff (s t : State) (hh : HeadLaw s) : FollowUp s t ↔ t = settle s :=
  ⟨fun h => h.unique (followUp_settle s hh), fun h => h ▸ followUp_settle s hh⟩

/-! ### The answer to the host -/

/-- Follow-up work is not touched by the answer to the host. -/
theorem WorkFollows.reply {s t : State} (h : WorkFollows s t) (r : Answer) : WorkFollows (s.reply r) (t.reply r) := by
  refine ⟨?_, h.attn, h.sweep, h.power, ?_, h.disc, h.due⟩
  · obtain ⟨h1, h2, h3, h4, h5, h6, h7, h8, h9, h10, h11, h12, h13⟩ := h.fields
    simp only [State.reply, h1, h2, h3, h4, h5, h6, h7, h8, h9, h10, h11, h12, h13]
  · obtain ⟨d, kept, item, added, h1, h2, h3, h4, h5⟩ := h.work
    exact ⟨d, kept, item, added, h1, h2, h3, h4, ⟨h5.chosen, h5.order, h5.entry, h5.fetch, h5.events⟩⟩

/-- What an event's close leaves alone. -/
theorem FollowUp.fields {s t : State} (h : FollowUp s t) :
    t.pending = s.pending ∧ t.now = s.now ∧ t.pins = s.pins ∧ t.port = s.port ∧ t.timing = s.timing ∧ t.windows = s.windows ∧
    t.hostQueue = s.hostQueue ∧ t.slots = s.slots ∧ t.cache = s.cache ∧ t.mbx = s.mbx ∧ t.engine = s.engine ∧
    t.bindings = s.bindings ∧ t.autoload = s.autoload := by
  obtain ⟨u, h1, v, h2, h3⟩ := h
  obtain ⟨a1, a2, a3, a4, a5, a6, a7, a8, a9, a10, a11, a12, a13⟩ := h1.fields
  have hv : v = { u with power := v.power } := by rw [h2]; split <;> rfl
  have hb : v.pending = s.pending ∧ v.now = s.now ∧ v.pins = s.pins ∧ v.port = s.port ∧ v.timing = s.timing ∧
      v.windows = s.windows ∧ v.hostQueue = s.hostQueue ∧ v.slots = s.slots ∧ v.cache = s.cache ∧ v.mbx = s.mbx ∧
      v.engine = s.engine ∧ v.bindings = s.bindings ∧ v.autoload = s.autoload := by
    rw [hv]; exact ⟨a1, a2, a3, a4, a5, a6, a7, a8, a9, a10, a11, a12, a13⟩
  split at h3
  · obtain ⟨c1, c2, c3, c4, c5, c6, c7, c8, c9, c10, c11, c12, c13⟩ := h3.fields
    obtain ⟨b1, b2, b3, b4, b5, b6, b7, b8, b9, b10, b11, b12, b13⟩ := hb
    obtain ⟨w1, w2, w3, w4, w5, w6, w7, w8, w9, w10, w11, w12, w13, -⟩ := (wakeKeeps_wakeLink .attention v).fields
    exact ⟨c1.trans (w1.trans b1), c2.trans (w2.trans b2), c3.trans (w3.trans b3), c4.trans (w4.trans b4),
      c5.trans (w5.trans b5), c6.trans (w6.trans b6), c7.trans (w7.trans b7), c8.trans (w8.trans b8), c9.trans (w9.trans b9),
      c10.trans (w10.trans b10), c11.trans (w11.trans b11), c12.trans (w12.trans b12), c13.trans (w13.trans b13)⟩
  · rw [h3]; exact hb

theorem setPingDue_reply (a : ModAddr) (s : State) (r : Answer) : setPingDue a (s.reply r) = (setPingDue a s).reply r := by
  unfold setPingDue; simp only
  by_cases h : (s.mgmtHas fun m => m = .ping a (s.entry a).generation) = true
  · rw [if_pos h]; exact if_pos h
  · rw [if_neg h]; exact if_neg h

theorem pingPresent_reply (s : State) (r : Answer) : pingPresent (s.reply r) = (pingPresent s).reply r := by
  unfold pingPresent
  generalize allAddrs = l
  induction l generalizing s with
  | nil => rfl
  | cons x xs ih =>
    rw [List.foldl_cons, List.foldl_cons]
    have : (if ((s.reply r).entry x).state = .online ∨ ((s.reply r).entry x).state = .quarantined then
        setPingDue x (s.reply r) else s.reply r) =
        (if (s.entry x).state = .online ∨ (s.entry x).state = .quarantined then setPingDue x s else s).reply r := by
      show (if (s.entry x).state = .online ∨ (s.entry x).state = .quarantined then _ else _) = _
      split
      · exact setPingDue_reply x s r
      · rfl
    rw [this, ih]

theorem endWaking_reply (s : State) (r : Answer) : endWaking (s.reply r) = (endWaking s).reply r := rfl

theorem armSweep_reply (s : State) (r : Answer) : armSweep (s.reply r) = (armSweep s).reply r := rfl

theorem leaveWaking_reply (s : State) (r : Answer) : leaveWaking (s.reply r) = (leaveWaking s).reply r := by
  unfold leaveWaking
  rw [endWaking_reply, pingPresent_reply, armSweep_reply]

/-- The answer to the host is no part of a wake. -/
theorem wakeLink_reply (w : WakeReason) (s : State) (r : Answer) : wakeLink w (s.reply r) = (wakeLink w s).reply r := by
  unfold wakeLink
  simp only
  have e : post (wakeRecord w) { s.reply r with power := { (s.reply r).power with
      state := .waking, sleepReq := false, lastWake := w, wakeTimer := some 0
      wakeSettle := some ((s.reply r).timing.settleTime * 1000) } } =
    (post (wakeRecord w) { s with power := { s.power with
      state := .waking, sleepReq := false, lastWake := w, wakeTimer := some 0
      wakeSettle := some (s.timing.settleTime * 1000) } }).reply r := rfl
  rw [e]
  generalize post (wakeRecord w) _ = x
  rw [leaveWaking_reply]
  by_cases h : s.timing.settleTime = 0
  · rw [if_pos h, if_pos (show (s.reply r).timing.settleTime = 0 from h)]
  · rw [if_neg h, if_neg (show ¬(s.reply r).timing.settleTime = 0 from h)]

theorem FollowUp.reply {s t : State} (h : FollowUp s t) (r : Answer) : FollowUp (s.reply r) (t.reply r) := by
  obtain ⟨u, h1, v, h2, h3⟩ := h
  refine ⟨u.reply r, h1.reply r, v.reply r, ?_, ?_⟩
  · rw [h2]
    show _ = if u.power.state = .draining ∧ u.drained = true then _ else _
    split <;> rfl
  · show if v.power.state = .asleep ∧ v.attn.level = true ∧ v.attn.armed = true then _ else _
    split at h3
    · next hc => rw [if_pos hc, wakeLink_reply]; exact h3.reply r
    · next hc => rw [if_neg hc, h3]

/-- An event that closes with `settle` and is answered. -/
theorem followUp_settle_reply (s : State) (r : Answer) (hh : HeadLaw s) : FollowUp (s.reply r) ((settle s).reply r) :=
  (followUp_settle s hh).reply r

end Sys2Proof.Machine
end

