-- ==== Sys2Proof/Laws/Frames.lean ====
section
/-! SUPPORT. The bytes of a frame: the check taken a bit at a time, the bits of its characters, and the bytes of a number. -/

namespace Sys2Proof.Machine

/-- One bit taken into the CRC-16 register. -/
abbrev crcStep (c : Half) (b : Bool) : Half := if c.msb = b then c <<< 1 else (c <<< 1) ^^^ 0x1021#16

theorem crcShift_xor (c x : Half) : crcShift (c ^^^ x) = crcStep c x.msb ^^^ (x <<< 1) := by
  unfold crcShift crcStep
  rw [BitVec.msb_xor, BitVec.shiftLeft_xor_distrib]
  cases c.msb <;> cases x.msb <;> simp <;> ac_rfl

/-- `n` shifts take in the `n` highest bits of what was added to the register, one at a time. -/
theorem crcShifts_xor (n : Nat) : ∀ c x : Half,
    crcShifts n (c ^^^ x) = ((List.range n).map fun i => (x <<< i).msb).foldl crcStep c ^^^ (x <<< n) := by
  induction n with
  | zero => intro c x; simp [crcShifts]
  | succ n ih =>
    intro c x
    rw [crcShifts, crcShift_xor, ih, List.range_succ_eq_map, List.map_cons, List.foldl_cons, List.map_map]
    congr 1
    · simp [Function.comp_def, ← BitVec.shiftLeft_add, Nat.add_comm]
    · rw [← BitVec.shiftLeft_add, Nat.add_comm]

theorem crcByte_eq (c : Half) (b : Byte) : crcByte c b = (bitsOf b).foldl crcStep c := by
  rw [crcByte, crcShifts_xor]
  have h1 : (b.setWidth 16 <<< 8) <<< 8 = (0 : Half) := by
    apply BitVec.eq_of_getLsbD_eq; intro i hi; simp
  have h2 : ((List.range 8).map fun i => ((b.setWidth 16 <<< 8 : Half) <<< i).msb) = bitsOf b := by
    unfold bitsOf
    apply List.map_congr_left
    intro i hi
    have : i < 8 := List.mem_range.mp hi
    interval_cases i <;> simp [BitVec.msb_eq_getLsbD_last]
  rw [h1, h2]; simp

/-- The check taken byte by byte is the check taken bit by bit (R1). -/
theorem crc16_eq_crcOf (bs : List Byte) : crc16 bs = crcOf bs := by
  unfold crc16 crcOf
  rw [List.foldl_flatMap]
  congr 1
  funext c b; exact crcByte_eq c b

theorem leBytes_two (c : Half) : leBytes 2 c.toNat = [c.extractLsb' 0 8, c.extractLsb' 8 8] := by
  simp only [leBytes, List.cons.injEq, and_true]
  constructor <;> apply BitVec.eq_of_toNat_eq <;> simp [BitVec.extractLsb'_toNat, Nat.shiftRight_eq_div_pow]

theorem leNat_two (lo hi : Byte) (c : Half) : leNat [lo, hi] = c.toNat ↔ hi ++ lo = c := by
  have h : leNat [lo, hi] = (hi ++ lo).toNat := by
    rw [BitVec.toNat_append, ← Nat.shiftLeft_add_eq_or_of_lt lo.isLt, Nat.shiftLeft_eq]
    simp only [leNat]; omega
  rw [h]
  exact ⟨fun e => BitVec.eq_of_toNat_eq e, fun e => by rw [e]⟩

theorem leBytes_length (n v : Nat) : (leBytes n v).length = n := by
  induction n generalizing v with
  | zero => rfl
  | succ n ih => simp [leBytes, ih]

theorem leBytes_getElem? (n v k : Nat) (h : k < n) : (leBytes n v)[k]? = some (BitVec.ofNat 8 (v / 256 ^ k)) := by
  induction n generalizing v k with
  | zero => omega
  | succ n ih =>
    cases k with
    | zero => simp [leBytes]
    | succ k =>
      simp only [leBytes, List.getElem?_cons_succ]
      rw [ih _ _ (by omega), Nat.div_div_eq_div_mul, pow_succ, Nat.mul_comm]

theorem requiredData_eq (op : LinkOp) (n : Nat) (st : Status) : requiredData op n st = dataOwed op n st := by
  cases st <;> cases op <;> rfl

/-- What stands on the span link while a frame is sent (R1). -/
theorem charactersLaidOut : CharactersLaidOut where
  bits _ := rfl
  times rate us h := by
    simp only [List.mem_cons, Prod.mk.injEq, List.not_mem_nil, or_false] at h
    obtain ⟨rfl, rfl⟩ | ⟨rfl, rfl⟩ | ⟨rfl, rfl⟩ := h <;> exact ⟨rfl, fun _ => rfl⟩
  sent s r h hs := by unfold State.spanFrame; rw [h]; exact if_pos hs
  released s h := by
    unfold State.spanFrame
    split
    · next r e => exact if_neg (h r e)
    all_goals rfl
  response _ := rfl

end Sys2Proof.Machine
end

