-- ==== Sys2Proof/Laws/Settle.lean ====
section
/-! SUPPORT. `settle` part by part: what its discovery part may change, when a sweep starts in it, when it leaves the power state
alone, and what a delivery and a wake leave alone. -/

namespace Sys2Proof.Machine

/-! ### Discovery and the drain -/

/-- Following the suspension touches discovery and the management queue alone. -/
theorem updateDiscovery_eq (s : State) :
    updateDiscovery s = { s with disc := (updateDiscovery s).disc, mgmtQueue := (updateDiscovery s).mgmtQueue } := by
  unfold updateDiscovery
  split
  · unfold suspendDiscovery
    split <;> first | rfl | (split <;> rfl)
  · split <;> rfl

/-- A drain given up touches the power state alone. -/
theorem cancelDrain_eq (s : State) : cancelDrain s = { s with power := (cancelDrain s).power } := by
  unfold cancelDrain; split <;> rfl

/-- Only a draining link with a DISCOVER_NOW in progress gives up its drain. -/
theorem cancelDrain_none (s : State) (h : s.power.state ≠ .draining ∨ s.mbx.runs opDiscoverNow = false) :
    cancelDrain s = s := by
  unfold cancelDrain
  rw [if_neg]
  rintro ⟨h1, -, h3⟩
  rcases h with h | h
  · exact h h1
  · rw [h] at h3; cases h3

/-- The part of the follow-up work before the start of a sweep. -/
def beforeSweep (s : State) : State := updateDiscovery (cancelDrain (updateDiscovery s))

theorem beforeSweep_eq (s : State) : beforeSweep s =
    { s with disc := (beforeSweep s).disc, mgmtQueue := (beforeSweep s).mgmtQueue, power := (beforeSweep s).power } := by
  unfold beforeSweep
  generalize hx : updateDiscovery s = x
  have e1 := updateDiscovery_eq s
  rw [hx] at e1
  generalize hy : cancelDrain x = y
  have e2 := cancelDrain_eq x
  rw [hy] at e2
  have e3 := updateDiscovery_eq y
  generalize hz : updateDiscovery y = z at *
  rw [e3, e2, e1]

theorem beforeSweep_power (s : State) (h : s.power.state ≠ .draining ∨ s.mbx.runs opDiscoverNow = false) :
    (beforeSweep s).power = s.power := by
  unfold beforeSweep
  have e1 := updateDiscovery_eq s
  generalize hx : updateDiscovery s = x at *
  have : cancelDrain x = x := cancelDrain_none x (by rw [e1]; exact h)
  rw [this, updateDiscovery_eq x, e1]

/-! ### The sweep -/

/-- The armed flag and the sweep's set are unchanged. -/
def SameSweep (s t : State) : Prop := t.attn.armed = s.attn.armed ∧ t.attn.sweep = s.attn.sweep

theorem SameSweep.refl (s : State) : SameSweep s s := ⟨rfl, rfl⟩

theorem SameSweep.trans {s t u : State} (h : SameSweep s t) (k : SameSweep t u) : SameSweep s u :=
  ⟨k.1.trans h.1, k.2.trans h.2⟩

theorem sameSweep_foldl {α : Type} (f : State → α → State) (hf : ∀ s x, SameSweep s (f s x)) (l : List α) (s : State) :
    SameSweep s (l.foldl f s) := by
  induction l generalizing s with
  | nil => exact .refl s
  | cons x xs ih => exact (hf s x).trans (ih _)

theorem sameSweep_addDueWork (s : State) : SameSweep s (addDueWork s) := by
  unfold addDueWork
  refine SameSweep.trans (t := addWaiting s) ?_ (sameSweep_foldl _ (fun t a => ?_) _ _)
  · unfold addWaiting; split
    · exact .refl s
    · split <;> exact ⟨rfl, rfl⟩
  · have h1 : SameSweep t (addRelease a t) := by unfold addRelease; simp only; split <;> exact ⟨rfl, rfl⟩
    have h2 : ∀ t, SameSweep t (addClear a t) := by intro t; unfold addClear; simp only; split <;> exact ⟨rfl, rfl⟩
    have h3 : ∀ t, SameSweep t (addFetch a t) := by intro t; unfold addFetch; simp only; split <;> exact ⟨rfl, rfl⟩
    have h4 : ∀ t, SameSweep t (addPing a t) := by intro t; unfold addPing; simp only; split <;> exact ⟨rfl, rfl⟩
    exact h1.trans ((h2 _).trans ((h3 _).trans (h4 _)))

theorem sameSweep_setPingDue (a : ModAddr) (s : State) : SameSweep s (setPingDue a s) := by
  unfold setPingDue; simp only; split <;> exact ⟨rfl, rfl⟩

/-! ### The power state -/

theorem power_foldl {α : Type} (f : State → α → State) (hf : ∀ s x, (f s x).power = s.power) (l : List α) (s : State) :
    (l.foldl f s).power = s.power := by
  induction l generalizing s with
  | nil => rfl
  | cons x xs ih => rw [List.foldl_cons, ih, hf]

theorem power_addDueWork (s : State) : (addDueWork s).power = s.power := by
  unfold addDueWork
  rw [power_foldl]
  · unfold addWaiting; split
    · rfl
    · split <;> rfl
  · intro t a
    unfold addWorkFor
    have h1 : ∀ t, (addRelease a t).power = t.power := by intro t; unfold addRelease; simp only; split <;> rfl
    have h2 : ∀ t, (addClear a t).power = t.power := by intro t; unfold addClear; simp only; split <;> rfl
    have h3 : ∀ t, (addFetch a t).power = t.power := by intro t; unfold addFetch; simp only; split <;> rfl
    have h4 : ∀ t, (addPing a t).power = t.power := by intro t; unfold addPing; simp only; split <;> rfl
    rw [h4, h3, h2, h1]

theorem power_setPingDue (a : ModAddr) (s : State) : (setPingDue a s).power = s.power := by
  unfold setPingDue; simp only; split <;> rfl

theorem power_startSweep (s : State) : (startSweep s).power = s.power := by
  unfold startSweep; split
  · simp only; rw [power_foldl]; intro t a; exact power_setPingDue a t
  · rfl

/-! ### What a delivery leaves alone -/

/-- The parts that the head checks and a delivery do not touch. -/
structure HeadsKeep (s t : State) : Prop where
  modules : t.modules = s.modules
  mgmt    : t.mgmtQueue = s.mgmtQueue
  disc    : t.disc = s.disc
  attn    : t.attn = s.attn
  power   : t.power = s.power

theorem HeadsKeep.refl (s : State) : HeadsKeep s s := ⟨rfl, rfl, rfl, rfl, rfl⟩

theorem HeadsKeep.trans {s t u : State} (h : HeadsKeep s t) (k : HeadsKeep t u) : HeadsKeep s u :=
  ⟨k.1.trans h.1, k.2.trans h.2, k.3.trans h.3, k.4.trans h.4, k.5.trans h.5⟩

theorem headsKeep_collect (i : Fin 4) (x : SlotInfo) (o : LinkOutcome) (d : Option Word) (s : State) :
    HeadsKeep s (collect i x o d s) := by
  unfold collect; simp only; split <;> (constructor <;> rfl)

theorem headsKeep_offerFill (l : Line) (s : State) : HeadsKeep s (offerFill l s) := by
  unfold offerFill; split
  · constructor <;> rfl
  · exact .refl s

theorem headsKeep_completeSlot (i : Fin 4) (e : HostEntry) (o : LinkOutcome) (d : Option Word) (s : State) :
    HeadsKeep s (completeSlot i e o d s) := by
  unfold completeSlot
  split
  · simp only
    have h : ∀ x k, HeadsKeep s (if s.port.held.any fun h => h.what = .slot i then
        collect i x o k { s with port := { s.port with held := none } } else s.setSlot i (.complete x o k 0)) := by
      intro x k
      split
      · exact HeadsKeep.trans (t := { s with port := { s.port with held := none } }) (by constructor <;> rfl)
          (headsKeep_collect i x o k _)
      · constructor <;> rfl
    split
    · exact (h _ _).trans (headsKeep_offerFill _ _)
    · exact h _ _
  · exact .refl s
  · exact .refl s

theorem headsKeep_endLinkCommand (e : HostEntry) (o : LinkOutcome) (d : Option Word) (s : State) :
    HeadsKeep s (endLinkCommand e o d s) := by
  unfold endLinkCommand
  split
  · split <;> (constructor <;> rfl)
  · constructor <;> rfl

theorem headsKeep_deliver (e : HostEntry) (o : LinkOutcome) (d : Option Word) (s : State) :
    HeadsKeep s (deliver e o d s) := by
  unfold deliver
  split
  · split
    · exact .refl s
    · constructor <;> rfl
  · split
    · exact headsKeep_completeSlot _ e o d s
    · exact .refl s
  · exact headsKeep_endLinkCommand e o d s

theorem headsKeep_failHeads (n : Nat) (s : State) : HeadsKeep s (failHeads n s) := by
  induction n generalizing s with
  | zero => exact .refl s
  | succ n ih =>
    unfold failHeads
    split
    · exact .refl s
    · split
      · exact .refl s
      · next e rest _ _ o _ =>
        exact HeadsKeep.trans (HeadsKeep.trans (t := { s with hostQueue := rest }) (by constructor <;> rfl)
          (headsKeep_deliver e o none _)) (ih _)

theorem headsKeep_headChecks (s : State) : HeadsKeep s (headChecks s) := by
  unfold headChecks
  split
  · exact .refl s
  · exact headsKeep_failHeads _ s

/-- The head checks of a queue of one entry that fails. -/
theorem headChecks_single (e : HostEntry) (s : State) (o : LinkOutcome) (hl : s.hostOnLink = false) (hq : s.hostQueue = [e])
    (ho : headCheck e s = some o) : headChecks s = deliver e o none { s with hostQueue := [] } := by
  unfold headChecks; rw [hl, hq]
  show failHeads 1 s = _
  unfold failHeads
  rw [hq]; simp only; rw [ho]; rfl

/-! ### When `settle` is follow-up work alone -/

theorem dueFollows_eq (s : State) : dueFollows s = addDueWork (startSweep (beforeSweep s)) := rfl

theorem followChange_power (s : State) : (followChange s).power = (beforeSweep s).power := by
  rw [followChange_eq, (headsKeep_headChecks _).power, dueFollows_eq, power_addDueWork, power_startSweep]

/-- Nothing sleeps and nothing wakes. -/
theorem settle_eq_followChange (s : State) (h : DrainLaw (followChange s)) (hw : WakeLaw (followChange s)) :
    settle s = followChange s := by
  unfold settle drainIfDone
  rw [if_neg h]
  exact if_neg fun k => hw ((attentionWakes_iff _).mp k)

/-- An ACTIVE or WAKING link is left so. -/
theorem settle_awake (s : State) (h : s.power.state = .active ∨ s.power.state = .waking) :
    settle s = followChange s ∧ (settle s).power = s.power := by
  have hp : (followChange s).power = s.power := by
    rw [followChange_power]
    exact beforeSweep_power s (.inl (by rcases h with h | h <;> rw [h] <;> simp))
  have e := settle_eq_followChange s (fun k => by rw [hp] at k; rcases h with h | h <;> rw [h] at k <;> cases k.1)
    (fun k => by rw [hp] at k; rcases h with h | h <;> rw [h] at k <;> cases k.1)
  exact ⟨e, by rw [e, hp]⟩

/-- The sweep after `settle`, for an ACTIVE or WAKING link whose head passes. -/
theorem settle_sweep (s : State) (hh : HeadLaw s) (h : s.power.state = .active ∨ s.power.state = .waking) :
    (¬SweepReady s → (settle s).attn.armed = s.attn.armed ∧ (settle s).attn.sweep = s.attn.sweep) ∧
    (SweepReady s → (settle s).attn.armed = false ∧
      (settle s).attn.sweep = if sweepSet s = [] then none else some (sweepSet s)) := by
  rw [(settle_awake s h).1, followChange_quiet s hh, dueFollows_eq]
  have e := beforeSweep_eq s
  have ep := beforeSweep_power s (.inl (by rcases h with h | h <;> rw [h] <;> simp))
  have ea : (beforeSweep s).attn = s.attn := by rw [e]
  have ee : ∀ a, (beforeSweep s).entry a = s.entry a := fun a => by rw [e]; rfl
  generalize beforeSweep s = v at *
  have er : SweepReady v ↔ SweepReady s := by unfold SweepReady; rw [ea, ep]
  have es : sweepSet v = sweepSet s := by simp only [sweepSet, ee]
  obtain ⟨k1, k2⟩ := sameSweep_addDueWork (startSweep v)
  constructor
  · intro h
    rw [startSweep_none v (fun k => h (er.mp k))] at k1 k2 ⊢
    exact ⟨k1.trans (by rw [ea]), k2.trans (by rw [ea])⟩
  · intro h
    have j := startSweep_some v (er.mpr h)
    generalize startSweep v = w at *
    rw [k1, k2, j.rest, es]
    exact ⟨rfl, rfl⟩

/-! ### Quiet states -/

/-- Where discovery already follows its suspension, following it changes nothing. -/
theorem updateDiscovery_quiet (s : State) (h : DiscLaw s) : updateDiscovery s = s := by
  unfold updateDiscovery
  by_cases hs : s.suspended = true
  · rw [if_pos hs]
    unfold suspendDiscovery
    rcases h.1 hs with h | h | ⟨h, hm⟩
    · rw [h]
    · rw [h]
    · rw [h]; simp only; rw [if_pos hm]
  · rw [if_neg hs, if_neg (h.2 (Bool.eq_false_iff.mpr hs))]

/-- Work already queued stays queued as due work is added. -/
theorem mgmt_addDueWork (s : State) : ∃ more, (addDueWork s).mgmtQueue = s.mgmtQueue ++ more := by
  have hf : ∀ (f : State → ModAddr → State), (∀ s a, ∃ more, (f s a).mgmtQueue = s.mgmtQueue ++ more) →
      ∀ (l : List ModAddr) (s : State), ∃ more, (l.foldl f s).mgmtQueue = s.mgmtQueue ++ more := by
    intro f hf l
    induction l with
    | nil => intro s; exact ⟨[], by simp⟩
    | cons x xs ih =>
      intro s
      obtain ⟨m1, h1⟩ := hf s x
      obtain ⟨m2, h2⟩ := ih (f s x)
      exact ⟨m1 ++ m2, by rw [List.foldl_cons, h2, h1, List.append_assoc]⟩
  unfold addDueWork
  obtain ⟨m1, h1⟩ : ∃ more, (addWaiting s).mgmtQueue = s.mgmtQueue ++ more := by
    unfold addWaiting; split
    · exact ⟨[], by simp⟩
    · split
      · exact ⟨_, rfl⟩
      · exact ⟨[], by simp⟩
  obtain ⟨m2, h2⟩ := hf addWorkFor (fun s a => by
    have g1 : ∀ s, ∃ more, (addRelease a s).mgmtQueue = s.mgmtQueue ++ more := by
      intro s; unfold addRelease; simp only; split
      · exact ⟨_, rfl⟩
      · exact ⟨[], by simp⟩
    have g2 : ∀ s, ∃ more, (addClear a s).mgmtQueue = s.mgmtQueue ++ more := by
      intro s; unfold addClear; simp only; split
      · exact ⟨_, rfl⟩
      · exact ⟨[], by simp⟩
    have g3 : ∀ s, ∃ more, (addFetch a s).mgmtQueue = s.mgmtQueue ++ more := by
      intro s; unfold addFetch; simp only; split
      · exact ⟨_, rfl⟩
      · exact ⟨[], by simp⟩
    have g4 : ∀ s, ∃ more, (addPing a s).mgmtQueue = s.mgmtQueue ++ more := by
      intro s; unfold addPing; simp only; split
      · exact ⟨_, rfl⟩
      · exact ⟨[], by simp⟩
    unfold addWorkFor
    obtain ⟨a1, e1⟩ := g1 s
    obtain ⟨a2, e2⟩ := g2 (addRelease a s)
    obtain ⟨a3, e3⟩ := g3 (addClear a (addRelease a s))
    obtain ⟨a4, e4⟩ := g4 (addFetch a (addClear a (addRelease a s)))
    exact ⟨a1 ++ a2 ++ a3 ++ a4, by rw [e4, e3, e2, e1]; simp⟩) allAddrs (addWaiting s)
  exact ⟨m1 ++ m2, by rw [h2, h1, List.append_assoc]⟩

theorem WorkSteps.drained_of {s t : State} (h : WorkSteps s t) (more : List MgmtEntry)
    (hq : t.mgmtQueue = s.mgmtQueue ++ more) (hd : t.drained = true) : s.drained = true := by
  obtain ⟨-, -, -, -, -, -, f7, f8, -, f10, f11, -, f13⟩ := h.fields
  have hm : s.mgmtQueue.isEmpty = true := by
    simp only [State.drained, State.drainQueues, Bool.and_eq_true] at hd
    have := hd.1.1.1.1.1.2
    rw [hq] at this
    simp only [List.isEmpty_iff, List.append_eq_nil_iff] at this
    simp [this.1]
  have hj : s.drainJoin = t.drainJoin := by
    unfold State.drainJoin
    refine congrArg (fun p => allAddrs.all p) (funext fun a => ?_)
    rw [(h.entry a).1]
  have hr : s.autoloadRuns = t.autoloadRuns := by unfold State.autoloadRuns; rw [f13]
  simp only [State.drained, State.drainQueues, State.drainLink, State.drainReads, State.drainMailbox, State.drainAutoload,
    Bool.and_eq_true] at hd ⊢
  rw [f7, f8, f10, f11, ← hj, ← hr] at hd
  exact ⟨⟨⟨⟨⟨⟨hd.1.1.1.1.1.1, hm⟩, hd.1.1.1.1.2⟩, hd.1.1.1.2⟩, hd.1.1.2⟩, hd.1.2⟩, hd.2⟩

/-- From a quiet state in which no DISCOVER_NOW waits for a drain to end, what closes an event is follow-up work that leaves the
power state alone. -/
theorem settle_quiet (s : State) (h : QuietLaw s)
    (hn : s.power.state ≠ .draining ∨ s.mbx.runs opDiscoverNow = false ∨ s.disc.state ≠ .disabled) :
    settle s = addDueWork (startSweep s) ∧ (settle s).power = s.power ∧ WorkFollows s (settle s) := by
  have hc : cancelDrain s = s := by
    unfold cancelDrain
    rw [if_neg]
    rintro ⟨h1, h2, h3⟩
    rcases hn with hn | hn | hn
    · exact hn h1
    · rw [hn] at h3; cases h3
    · exact hn h2
  have hb : beforeSweep s = s := by
    unfold beforeSweep
    rw [updateDiscovery_quiet s h.disc, hc, updateDiscovery_quiet s h.disc]
  have hf : followChange s = addDueWork (startSweep s) := by rw [followChange_quiet s h.head, dueFollows_eq, hb]
  have hk : WorkSteps s (addDueWork (startSweep s)) := (workSteps_startSweep s).trans (workSteps_addDueWork _)
  have hp : (addDueWork (startSweep s)).power = s.power := by rw [power_addDueWork, power_startSweep]
  have ha : (addDueWork (startSweep s)).attn.armed = true → s.attn.armed = true := by
    intro k
    rcases hk.sweep with ⟨e, -⟩ | ⟨e, -⟩
    · rw [← e]; exact k
    · exact e
  have hl : (addDueWork (startSweep s)).attn.level = s.attn.level := by rw [hk.attn]
  have hq : (startSweep s).mgmtQueue = s.mgmtQueue := by
    by_cases k : SweepReady s
    · rw [(startSweep_some s k).rest]
    · rw [startSweep_none s k]
  obtain ⟨more, hm⟩ := mgmt_addDueWork (startSweep s)
  rw [hq] at hm
  have e := settle_eq_followChange s
    (by rw [hf]; rintro ⟨k1, k2⟩; exact h.drain ⟨by rw [← hp]; exact k1, hk.drained_of more hm k2⟩)
    (by rw [hf]; rintro ⟨k1, k2, k3⟩; exact h.wake ⟨by rw [← hp]; exact k1, by rw [← hl]; exact k2, ha k3⟩)
  have hw : WorkFollows s (addDueWork (startSweep s)) := by
    have := workFollows_dueFollows s
    rwa [dueFollows_eq, hb] at this
  rw [e, hf]
  exact ⟨rfl, hp, hw⟩

/-! ### A wake -/

theorem power_pingPresent (s : State) : (pingPresent s).power = s.power := by
  unfold pingPresent
  rw [power_foldl]
  intro t a; split
  · exact power_setPingDue a t
  · rfl

theorem leaveWaking_power (s : State) : (leaveWaking s).power =
    { s.power with state := if s.power.sleepReq then .draining else .active, wakeTimer := none, wakeSettle := none } := by
  have h : ∀ t : State, (armSweep t).power = t.power := fun _ => rfl
  unfold leaveWaking
  rw [h, power_pingPresent]
  rfl

/-- What a wake makes of the power state: WAKING for the SETTLE_TIME in force, or ACTIVE at once where that is 0 (R195). -/
theorem wakeLink_power (r : WakeReason) (s : State) : (wakeLink r s).power =
    if s.timing.settleTime = 0 then
      { s.power with state := .active, sleepReq := false, lastWake := r, wakeTimer := none, wakeSettle := none }
    else { s.power with state := .waking, sleepReq := false, lastWake := r, wakeTimer := some 0
                        wakeSettle := some (s.timing.settleTime * 1000) } := by
  unfold wakeLink
  simp only
  split
  · rw [leaveWaking_power]; simp [post]
  · rfl

theorem wakeLink_awake (r : WakeReason) (s : State) :
    ((wakeLink r s).power.state = .active ∨ (wakeLink r s).power.state = .waking) ∧
    (wakeLink r s).power.lastWake = r ∧ (wakeLink r s).power.sleepReq = false := by
  rw [wakeLink_power]
  split
  · exact ⟨.inl rfl, rfl, rfl⟩
  · exact ⟨.inr rfl, rfl, rfl⟩

/-- A host cause: a sleeping link wakes, and another is left as it is. -/
theorem hostWake_power (s : State) : (hostWake s).power.state ≠ .asleep ∧
    (s.power.state = .asleep → ((hostWake s).power.state = .active ∨ (hostWake s).power.state = .waking) ∧
      (hostWake s).power.lastWake = .host ∧ (hostWake s).power.sleepReq = false) ∧
    (s.power.state ≠ .asleep → hostWake s = s) := by
  unfold hostWake
  split
  · next h =>
    have k := wakeLink_awake .host s
    exact ⟨by rcases k.1 with k | k <;> rw [k] <;> simp, fun _ => k, fun h' => absurd h h'⟩
  · next h => exact ⟨h, fun h' => absurd h' h, fun _ => rfl⟩

end Sys2Proof.Machine
end

