-- ==== Sys2Proof/Laws/Go.lean ====
section
/-! SUPPORT. The shape shared by register writes and mailbox commands that close with `settle`: what the write makes of the
state, then follow-up work, then the answer OK. -/

namespace Sys2Proof.Machine

/-- A register write that closes with `settle` and OK differs by follow-up work from what it makes of the state. -/
theorem registerWrite_followUp (f : State → State) (s u v : State) (hp : s.portFree = true)
    (h : f s = (settle u).reply okWrite) (hh : HeadLaw u) (hv : v = u.reply okWrite) :
    ∃ t, (Host.Outcome.next (hostAccess (fullWrite 0xF#4 f) s) : Host.Outcome State Fault Refusal) = .next t ∧
      FollowUp v t := by
  refine ⟨_, rfl, ?_⟩
  rw [registerWrite_taken _ _ hp, h, hv]
  exact followUp_settle_reply u okWrite hh

/-- The twelve GO rows are one access. -/
theorem exec_go (c : Instr) (h : c ∈ goCommands) (s : State) : exec c s = .next (goAccess 0xF#4 s) := by
  simp only [goCommands, List.mem_cons, List.mem_nil_iff, or_false] at h
  rcases h with rfl | rfl | rfl | rfl | rfl | rfl | rfl | rfl | rfl | rfl | rfl | rfl <;> rfl

/-- A GO that makes `u` of the state before `settle`. -/
theorem go_followUp (s u v : State) (hp : s.portFree = true) (h : takeGo s = u) (hh : HeadLaw u)
    (hv : v = u.reply okWrite) :
    ∃ t, (Host.Outcome.next (goAccess 0xF#4 s) : Host.Outcome State Fault Refusal) = .next t ∧ FollowUp v t :=
  registerWrite_followUp writeGo s u v hp (by rw [← h]; rfl) hh hv

theorem cmdOf_none (op : Byte) (h : 10 < op.toNat) : cmdOf? op = none := by
  unfold cmdOf?; rw [List.getElem?_eq_none]; simp [allCmds]; omega

theorem failCommand_reply (s : State) (r : Result) :
    (failCommand r s).reply okWrite = mailboxEnded s .failed r s.mbx.doneAddress := rfl

theorem failCommand_head (s : State) (hq : HeadLaw s) (r : Result) : HeadLaw (failCommand r s) :=
  headLaw_modules hq rfl rfl rfl

/-- MBX_RESULT set to NONE, the first thing an accepted GO does (R123). -/
abbrev resultCleared (s : State) : State := { s with mbx := { s.mbx with result := .none } }

theorem resultCleared_head (s : State) (hq : HeadLaw s) : HeadLaw (resultCleared s) := headLaw_modules hq rfl rfl rfl

/-- An accepted GO that wakes nothing starts its command. -/
theorem takeGo_accepted (s : State) (h : GoTaken s) (c : MbxCmd) (hc : cmdOf? s.mbx.op = some c)
    (hw : c.needsLink = false ∨ s.power.state ≠ .asleep) : takeGo s = startCommand c (resultCleared s) := by
  obtain ⟨h1, h2, h3⟩ := h
  simp only [takeGo, h2, h3, Bool.false_eq_true, if_false, acceptGo, hc]
  congr 1
  rcases hw with hw | hw
  · simp [hw]
  · split
    · unfold hostWake; rw [if_neg hw]
    · rfl

/-- An accepted GO whose command fails a test. -/
theorem go_fails (s : State) (hg : GoTaken s) (hq : HeadLaw s) (r : Result) (a : Option ModAddr) (c : MbxCmd)
    (hc : cmdOf? s.mbx.op = some c) (hw : c.needsLink = false ∨ s.power.state ≠ .asleep)
    (h : startCommand c (resultCleared s) = failCommand r (resultCleared s)) (ha : a = s.mbx.doneAddress) :
    ∃ t, (Host.Outcome.next (goAccess 0xF#4 s) : Host.Outcome State Fault Refusal) = .next t ∧
      FollowUp (mailboxEnded s .failed r a) t := by
  have hf := failCommand_head (resultCleared s) (resultCleared_head s hq) r
  refine go_followUp s _ _ hg.1 (by rw [takeGo_accepted s hg c hc hw]; exact h) hf ?_
  rw [failCommand_reply]; simp [mailboxEnded, ha, Mailbox.doneAddress]

theorem mem_allAddrs (a : ModAddr) : a ∈ allAddrs := by revert a; decide

theorem anyBound_iff (s : State) (id : UniqueId) :
    (allAddrs.any fun x => (vget s.bindings x).any fun b => decide (b.id = id)) = true ↔
      ∃ x b, vget s.bindings x = some b ∧ b.id = id := by
  simp only [List.any_eq_true, Option.any_eq_true, decide_eq_true_eq]
  constructor
  · rintro ⟨x, _, b, h1, h2⟩; exact ⟨x, b, h1, h2⟩
  · rintro ⟨x, b, h1, h2⟩; exact ⟨x, mem_allAddrs x, b, h1, h2⟩

/-- A GO of a table command that changes the binding table and ends DONE (R50 to R52, R58). -/
theorem go_unparks (s : State) (hg : GoTaken s) (hq : HeadLaw s) (c : MbxCmd) (hc : cmdOf? s.mbx.op = some c)
    (hw : c.needsLink = false) (B : Vector (Option Binding) 14)
    (h : startCommand c (resultCleared s) = completeCommand (unpark { resultCleared s with bindings := B }))
    (ha : s.mbx.doneAddress = none) :
    ∃ t, (Host.Outcome.next (goAccess 0xF#4 s) : Host.Outcome State Fault Refusal) = .next t ∧
      FollowUp { mailboxEnded s .done (.outcome .ok) none with bindings := B, disc := (unpark s).disc } t := by
  have e : unpark { resultCleared s with bindings := B } = { resultCleared s with bindings := B, disc := (unpark s).disc } := by
    unfold unpark
    show (if s.disc.state = .parkedFull ∨ s.disc.state = .parkedConflict then _ else _) = _
    split
    · unfold endDiscovery
      have k : ({ resultCleared s with bindings := B } : State).suspended = s.suspended := suspended_of_fields rfl rfl rfl
      rw [k]
      split
      · rfl
      · rfl
    · rfl
  rw [e] at h
  have k : ({ resultCleared s with bindings := B, disc := (unpark s).disc } : State).mbx.doneAddress = s.mbx.doneAddress := rfl
  refine go_followUp s (completeCommand { resultCleared s with bindings := B, disc := (unpark s).disc }) _ hg.1
    (by rw [takeGo_accepted s hg c hc (.inl hw)]; exact h) (headLaw_modules hq rfl rfl rfl) ?_
  simp only [mailboxEnded, completeCommand, endMailbox, post, State.reply, okWrite, k, ha]

/-- An accepted GO starts its command, on the woken link where the command needs the link (R123, R193). -/
theorem takeGo_starts (s : State) (h : GoTaken s) (c : MbxCmd) (hc : cmdOf? s.mbx.op = some c) :
    takeGo s = startCommand c (if c.needsLink then hostWake (resultCleared s) else resultCleared s) := by
  obtain ⟨-, h2, h3⟩ := h
  simp only [takeGo, h2, h3, Bool.false_eq_true, if_false, acceptGo, hc]

theorem setPingDue_resultCleared (a : ModAddr) (s : State) :
    setPingDue a (resultCleared s) = resultCleared (setPingDue a s) := by
  unfold setPingDue
  simp only
  by_cases h : (s.mgmtHas fun m => m = .ping a (s.entry a).generation) = true
  · rw [if_pos h]; exact if_pos h
  · rw [if_neg h]; exact if_neg h

theorem pingPresent_resultCleared (s : State) : pingPresent (resultCleared s) = resultCleared (pingPresent s) := by
  unfold pingPresent
  generalize allAddrs = l
  induction l generalizing s with
  | nil => rfl
  | cons x xs ih =>
    rw [List.foldl_cons, List.foldl_cons]
    have : (if ((resultCleared s).entry x).state = .online ∨ ((resultCleared s).entry x).state = .quarantined then
        setPingDue x (resultCleared s) else resultCleared s) =
        resultCleared (if (s.entry x).state = .online ∨ (s.entry x).state = .quarantined then setPingDue x s else s) := by
      show (if (s.entry x).state = .online ∨ (s.entry x).state = .quarantined then _ else _) = _
      split
      · exact setPingDue_resultCleared x s
      · rfl
    rw [this, ih]

/-- Waking the link and clearing MBX_RESULT touch different blocks. -/
theorem hostWake_resultCleared (s : State) : hostWake (resultCleared s) = resultCleared (hostWake s) := by
  have hl : ∀ v : State, leaveWaking (resultCleared v) = resultCleared (leaveWaking v) := fun v => by
    unfold leaveWaking
    rw [show endWaking (resultCleared v) = resultCleared (endWaking v) from rfl, pingPresent_resultCleared]
    generalize pingPresent (endWaking v) = x
    rfl
  have hw : wakeLink .host (resultCleared s) = resultCleared (wakeLink .host s) := by
    unfold wakeLink
    simp only
    have e : post (wakeRecord .host) { resultCleared s with power := { (resultCleared s).power with
        state := .waking, sleepReq := false, lastWake := .host, wakeTimer := some 0
        wakeSettle := some ((resultCleared s).timing.settleTime * 1000) } } =
      resultCleared (post (wakeRecord .host) { s with power := { s.power with
        state := .waking, sleepReq := false, lastWake := .host, wakeTimer := some 0
        wakeSettle := some (s.timing.settleTime * 1000) } }) := rfl
    rw [e]
    generalize post (wakeRecord .host) _ = x
    rw [hl]
    by_cases h : s.timing.settleTime = 0
    · rw [if_pos h, if_pos (show (resultCleared s).timing.settleTime = 0 from h)]
    · rw [if_neg h, if_neg (show ¬(resultCleared s).timing.settleTime = 0 from h)]
  unfold hostWake
  rw [hw]
  by_cases h : s.power.state = .asleep
  · rw [if_pos h, if_pos (show (resultCleared s).power.state = .asleep from h)]
  · rw [if_neg h, if_neg (show ¬(resultCleared s).power.state = .asleep from h)]

/-- An accepted GO of a command that needs the link and fails a test: it ends so on the woken link (R124, R193). -/
theorem go_fails_woken (s : State) (hg : GoTaken s) (hq : HeadLaw s) (r : Result) (a : Option ModAddr) (c : MbxCmd)
    (hc : cmdOf? s.mbx.op = some c) (hn : c.needsLink = true)
    (h : startCommand c (resultCleared (hostWake s)) = failCommand r (resultCleared (hostWake s)))
    (ha : a = s.mbx.doneAddress) :
    ∃ t, (Host.Outcome.next (goAccess 0xF#4 s) : Host.Outcome State Fault Refusal) = .next t ∧
      FollowUp (mailboxEnded (hostWake s) .failed r a) t := by
  have hk := wakeKeeps_hostWake s
  have hh : HeadLaw (failCommand r (resultCleared (hostWake s))) :=
    failCommand_head _ (resultCleared_head _ (hk.headLaw hq)) r
  have hm : (hostWake s).mbx = s.mbx := hk.fields.2.2.2.2.2.2.2.2.2.1
  refine go_followUp s _ _ hg.1
    (by rw [takeGo_starts s hg c hc, if_pos hn, hostWake_resultCleared]; exact h) hh ?_
  rw [failCommand_reply]
  simp [mailboxEnded, ha, hm, Mailbox.doneAddress]

end Sys2Proof.Machine
end

