-- ==== Sys2Proof/Laws/Heads.lean ====
section
/-! SUPPORT. What closes an event where heads of the host request queue may fail. -/

namespace Sys2Proof.Machine

/-! ### The heads that fail -/

/-- A delivery leaves the queue and the link engine alone. -/
theorem deliver_queue (e : HostEntry) (o : LinkOutcome) (d : Option Word) (s : State) :
    (deliver e o d s).hostQueue = s.hostQueue ∧ (deliver e o d s).engine = s.engine := by
  have hc : ∀ i x o d s, (collect i x o d s).hostQueue = s.hostQueue ∧ (collect i x o d s).engine = s.engine := by
    intro i x o d s; unfold collect; simp only; split <;> exact ⟨rfl, rfl⟩
  have hf : ∀ l s, (offerFill l s).hostQueue = s.hostQueue ∧ (offerFill l s).engine = s.engine := by
    intro l s; unfold offerFill; split <;> exact ⟨rfl, rfl⟩
  unfold deliver
  split
  · split <;> exact ⟨rfl, rfl⟩
  · split
    · next i _ =>
      unfold completeSlot
      split
      · next x _ =>
        simp only
        have h : ∀ k, (if s.port.held.any fun h => h.what = .slot i then
            collect i x o k { s with port := { s.port with held := none } }
            else s.setSlot i (.complete x o k 0)).hostQueue = s.hostQueue ∧
            (if s.port.held.any fun h => h.what = .slot i then
            collect i x o k { s with port := { s.port with held := none } }
            else s.setSlot i (.complete x o k 0)).engine = s.engine := by
          intro k; split
          · exact hc i x o k _
          · exact ⟨rfl, rfl⟩
        split
        · exact ⟨(hf _ _).1.trans (h _).1, (hf _ _).2.trans (h _).2⟩
        · exact h _
      · exact ⟨rfl, rfl⟩
      · exact ⟨rfl, rfl⟩
    · exact ⟨rfl, rfl⟩
  · unfold endLinkCommand; split
    · split <;> exact ⟨rfl, rfl⟩
    · exact ⟨rfl, rfl⟩

/-- The heads left behind pass: the queue is empty, or its head passes. -/
theorem failHeads_passes (n : Nat) (s : State) (h : s.hostQueue.length ≤ n) :
    ∀ e rest, (failHeads n s).hostQueue = e :: rest → headCheck e (failHeads n s) = none := by
  induction n generalizing s with
  | zero =>
    intro e rest hq
    rw [failHeads] at hq
    rw [hq] at h; simp at h
  | succ n ih =>
    unfold failHeads
    split
    · next hq => intro e rest he; rw [hq] at he; cases he
    · next e rest hq =>
      split
      · next hc => intro e' rest' he; rw [hq] at he; cases he; exact hc
      · next o _ =>
        refine ih _ ?_
        rw [(deliver_queue e o none _).1]
        rw [hq] at h; simp at h ⊢; omega

/-- After the head checks the head passes. -/
theorem headChecks_headLaw (s : State) : HeadLaw (headChecks s) := by
  intro ho e rest hq
  unfold headChecks at ho hq ⊢
  split at ho
  · next k => rw [k] at ho; cases ho
  · next k => rw [if_neg k] at hq ⊢; exact failHeads_passes _ s (le_refl _) e rest hq

/-! ### The close of an event -/

/-- What closes an event, whatever its heads: follow-up work, the heads that fail, and the sleep and the wake that may end it. -/
theorem followUpOfHeads_settle (s : State) : FollowUpOfHeads s (settle s) :=
  ⟨dueFollows s, workFollows_dueFollows s, closesAs_drain _ (headChecks_headLaw _)⟩

theorem followUpOfHeads_iff (s t : State) : FollowUpOfHeads s t ↔ t = settle s :=
  ⟨fun h => h.unique (followUpOfHeads_settle s), fun h => h ▸ followUpOfHeads_settle s⟩

/-- What closes an event whose one head fails, where its failure ends in the mailbox `m` with the record `p`. -/
theorem headFailsAlone_settle (e : HostEntry) (o : LinkOutcome) (m : Mailbox) (p : Posted) (s : State)
    (hl : s.hostOnLink = false) (hq : s.hostQueue = [e]) (ho : headCheck e s = some o)
    (hd : ∀ u, WorkFollows s u → deliver e o none { u with hostQueue := [] } =
      { u with hostQueue := [], mbx := m, events := u.events.post p }) : HeadFailsAlone e m p s (settle s) := by
  obtain ⟨u, h1, h2⟩ := followUpOfHeads_settle s
  have hs : { s with hostQueue := [e] } = s := by rw [← hq]
  refine ⟨u, by rw [hs]; exact h1, ?_⟩
  obtain ⟨f1, f2, f3, f4, f5, f6, f7, f8, f9, f10, f11, f12, f13⟩ := h1.fields
  have hu : u = dueFollows s := h1.unique (workFollows_dueFollows s)
  rw [← hd u h1, ← headChecks_single e u o (by rw [hostOnLink_congr f11]; exact hl) (f7.trans hq)
    (by rw [hu, (workSteps_dueFollows s).headCheck_eq]; exact ho)]
  exact h2

end Sys2Proof.Machine
end

