-- ==== Sys2Proof/Laws/Image.lean ====
section
/-! SUPPORT. What verification answers for a staged image, the timing table, and the fields of a record. -/

namespace Sys2Proof.Machine

/-! ### The timing table -/

/-- The values a timing parameter accepts are those of the table (R203). -/
theorem paramAccepts_iff (p : Param) (v : Nat) : paramAccepts p v = true ↔ InTimingTable p v := by
  unfold InTimingTable paramAccepts
  cases p <;> simp <;> omega

/-! ### The walk (R177) -/

theorem recType?_iff (t : Byte) (ty : RecType) : recType? t = some ty ↔ t.toNat = (recordForm ty).1 := by
  unfold recType?
  have h1 : t = 1 ↔ t.toNat = 1 := by rw [← BitVec.toNat_inj]; rfl
  have h2 : t = 2 ↔ t.toNat = 2 := by rw [← BitVec.toNat_inj]; rfl
  have h3 : t = 3 ↔ t.toNat = 3 := by rw [← BitVec.toNat_inj]; rfl
  have h4 : t = 4 ↔ t.toNat = 4 := by rw [← BitVec.toNat_inj]; rfl
  have h5 : t = 15 ↔ t.toNat = 15 := by rw [← BitVec.toNat_inj]; rfl
  simp only [h1, h2, h3, h4, h5]
  cases ty <;> simp only [recordForm] <;> split_ifs <;> simp <;> omega

theorem recType?_none (t : Byte) : recType? t = none ↔ ∀ ty, t.toNat ≠ (recordForm ty).1 := by
  refine ⟨fun h ty k => ?_, fun h => ?_⟩
  · rw [(recType?_iff t ty).mpr k] at h; cases h
  · cases k : recType? t with
    | none => rfl
    | some ty => exact absurd ((recType?_iff t ty).mp k) (h ty)

theorem bodyLength_eq (ty : RecType) : ty.bodyLength = (recordForm ty).2 := by cases ty <;> rfl

theorem recordForm_code (ty : RecType) : (BitVec.ofNat 8 (recordForm ty).1).toNat = (recordForm ty).1 := by cases ty <;> rfl

theorem recordForm_length (ty : RecType) : (BitVec.ofNat 8 (recordForm ty).2).toNat = (recordForm ty).2 := by
  cases ty <;> rfl

/-- A whole record's bytes, its type and the length of its body as the form gives them. -/
theorem recordBytes_eq (r : ImageRec) (h : r.body.length = (recordForm r.type).2) :
    recordBytes r = BitVec.ofNat 8 (recordForm r.type).1 :: BitVec.ofNat 8 (recordForm r.type).2 :: r.body := by
  unfold recordBytes; rw [h]; rfl

/-- The records put before those a walk has found. -/
def Walked.prepend (l : List ImageRec) (w : Walked) : Walked := l.foldr Walked.cons w

theorem Walked.prepend_fault (l : List ImageRec) (f : RecFault) : (Walked.fault f).prepend l = .fault f := by
  induction l with
  | nil => rfl
  | cons r l ih => show Walked.cons r ((Walked.fault f).prepend l) = _; rw [ih]; rfl

theorem Walked.prepend_records (l k : List ImageRec) : (Walked.records k).prepend l = .records (l ++ k) := by
  induction l with
  | nil => rfl
  | cons r l ih => show Walked.cons r ((Walked.records k).prepend l) = _; rw [ih]; rfl

/-- One whole record that is not END, with more to come. -/
theorem walk_cons (r : ImageRec) (h : r.body.length = (recordForm r.type).2) (hr : r.type ≠ .end_) (left n : Nat)
    (rest : List Byte) : walk (left + 2) n (recordBytes r ++ rest) = (walk (left + 1) (n + 1) rest).cons r := by
  rw [recordBytes_eq r h]
  simp only [List.cons_append, walk]
  rw [(recType?_iff _ r.type).mpr (recordForm_code _)]
  simp only [bodyLength_eq, recordForm_length]
  rw [if_neg (by simp), if_neg (by simp only [List.length_append]; omega), if_neg hr, if_neg (by omega), ← h,
    List.drop_left, List.take_left]

/-- The walk over whole records that are not END goes on behind them. -/
theorem walk_append (l : List ImageRec) (h : ∀ r ∈ l, r.type ≠ .end_ ∧ r.body.length = (recordForm r.type).2) (left n : Nat)
    (rest : List Byte) :
    walk (left + 1 + l.length) n (l.flatMap recordBytes ++ rest) = (walk (left + 1) (n + l.length) rest).prepend l := by
  induction l generalizing n with
  | nil => rfl
  | cons r l ih =>
    obtain ⟨⟨h1, h2⟩, h3⟩ := List.forall_mem_cons.mp h
    rw [List.flatMap_cons, List.append_assoc, List.length_cons,
      show left + 1 + (l.length + 1) = (left + l.length) + 2 by omega, walk_cons r h2 h1,
      show left + l.length + 1 = left + 1 + l.length by omega, ih h3, show n + 1 + l.length = n + (l.length + 1) by omega]
    rfl

/-- The walk of an image that reads as `l` and then `rest`. -/
theorem ReadsAs.walk {staging : List Byte} {l : List ImageRec} {rest : List Byte} (h : ReadsAs staging l rest) :
    Machine.walk (headerCount staging) 1 (staging.drop 6) =
      (Machine.walk (headerCount staging - l.length) (l.length + 1) rest).prepend l := by
  obtain ⟨h1, h2, h3⟩ := h
  have e : headerCount staging = (staging.getD 3 0).toNat := rfl
  obtain ⟨k, hk⟩ : ∃ k, headerCount staging = k + 1 + l.length := ⟨headerCount staging - l.length - 1, by omega⟩
  rw [h1, hk, walk_append l h3, Nat.add_sub_cancel, Nat.add_comm 1]

/-- A failure of the walk is verification's. -/
theorem ReadsAs.verify_fault {staging : List Byte} {l : List ImageRec} {rest : List Byte} {f : RecFault}
    (h : ReadsAs staging l rest) (hw : Machine.walk (headerCount staging - l.length) (l.length + 1) rest = .fault f) :
    verify staging = .fault f := by
  unfold verify
  rw [h.walk, hw, Walked.prepend_fault]

/-- A record is still to come. -/
theorem ReadsAs.left {staging : List Byte} {l : List ImageRec} {rest : List Byte} (h : ReadsAs staging l rest) :
    ∃ k, headerCount staging - l.length = k + 1 := by
  have e : headerCount staging = (staging.getD 3 0).toNat := rfl
  exact ⟨headerCount staging - l.length - 1, by have := h.2.1; omega⟩

theorem EndsAs.walk {staging : List Byte} {l : List ImageRec} {lo hi : Byte} (h : EndsAs staging l lo hi) :
    Machine.walk (headerCount staging) 1 (staging.drop 6) = .records (l ++ [⟨.end_, [lo, hi]⟩]) := by
  rw [h.1.walk, ← Walked.prepend_records]
  congr 1
  have e : headerCount staging = (staging.getD 3 0).toNat := rfl
  rw [show headerCount staging - l.length = 0 + 1 by have := h.2; omega]
  rfl

/-! ### The check (R178) -/

theorem EndsAs.check {staging : List Byte} {l : List ImageRec} {lo hi : Byte} (h : EndsAs staging l lo hi) :
    checkPasses staging = true ↔ CheckHolds staging l lo hi := by
  have h1 := h.1.1
  have hb : recordBytes ⟨.end_, [lo, hi]⟩ = [15, 2, lo, hi] := rfl
  rw [hb] at h1
  have hs : staging = (staging.take 6 ++ l.flatMap recordBytes) ++ [15, 2, lo, hi] := by
    rw [List.append_assoc, ← h1, List.take_append_drop]
  unfold checkPasses CheckHolds
  rw [decide_eq_true_iff, crc16_eq_crcOf]
  generalize staging.take 6 ++ l.flatMap recordBytes = m at hs ⊢
  rw [hs]
  have hn : (m ++ [(15 : Byte), 2, lo, hi]).length = m.length + 4 := by simp
  rw [hn, Nat.add_sub_cancel, List.take_left, show m.length + 4 - 2 = m.length + 2 by omega, ← List.drop_drop, List.drop_left,
    eq_comm]
  exact leNat_two lo hi (crcOf m)

/-! ### The content and duplicate tests (R179, R180) -/

theorem leNat_pair (a b : Byte) : leNat [a, b] = a.toNat + 256 * b.toNat := by simp [leNat]

/-- A bit of a number given low byte first. -/
theorem leNat_testBit (bs : List Byte) (k i : Nat) (hi : i < 8) :
    (leNat bs).testBit (8 * k + i) = (bs.getD k 0).getLsbD i := by
  induction bs generalizing k with
  | nil => simp [leNat]
  | cons b bs ih =>
    rw [leNat, Nat.add_comm, show 256 * leNat bs = 2 ^ 8 * leNat bs by norm_num, Nat.testBit_two_pow_mul_add _ b.isLt]
    cases k with
    | zero => rw [if_pos (by omega)]; simp [BitVec.getLsbD]
    | succ k => rw [if_neg (by omega), show 8 * (k + 1) + i - 8 = 8 * k + i by omega, ih]; rfl

theorem byte_eq_ofNat (b : Byte) (n : Nat) (h : n < 256) : b = BitVec.ofNat 8 n ↔ b.toNat = n := by
  rw [← BitVec.toNat_inj, BitVec.toNat_ofNat, Nat.mod_eq_of_lt h]

theorem widthOfCode_bytes (n : Nat) (h : n ≤ 2) : ((widthOfCode? n).getD .one).bytes = 2 ^ n := by
  interval_cases n <;> rfl

theorem recordSays (r : ImageRec) : RecordSays r where
  value := leNat_pair _ _
  id k h1 h2 hb := by
    apply BitVec.eq_of_getLsbD_eq
    intro i hi
    rw [BitVec.getLsbD_extractLsb']
    unfold ImageRec.id ImageRec.byte
    rw [BitVec.getLsbD_ofNat, leNat_testBit _ _ _ hi, List.getD_eq_getElem?_getD, List.getD_eq_getElem?_getD,
      List.getElem?_take_of_lt (by omega)]
    simp only [hi, decide_true, Bool.true_and, show 8 * (k - 1) + i < 64 by omega]
  enabled := by unfold ImageRec.window; simp
  pages := ⟨rfl, rfl⟩
  target h := by
    show ((r.byte 5).setWidth 4).toNat = _
    rw [BitVec.toNat_setWidth]; exact Nat.mod_eq_of_lt (by omega)
  width h := widthOfCode_bytes _ h
  flags := ⟨rfl, rfl⟩
  remote := by
    show (BitVec.ofNat 16 (leNat [r.byte 8, r.byte 9])).toNat = _
    have h1 := (r.byte 8).isLt; have h2 := (r.byte 9).isLt
    rw [leNat_pair, BitVec.toNat_ofNat]; exact Nat.mod_eq_of_lt (by omega)
  ofClass := by
    show (BitVec.ofNat 16 (leNat [r.byte 10, r.byte 11])).toNat = _
    have h1 := (r.byte 10).isLt; have h2 := (r.byte 11).isLt
    rw [leNat_pair, BitVec.toNat_ofNat]; exact Nat.mod_eq_of_lt (by omega)

theorem modAddr?_isSome (d : BitVec 4) : (modAddr? d).isSome = true ↔ 1 ≤ d.toNat ∧ d.toNat ≤ 14 := by
  unfold modAddr?; split <;> simp_all

theorem windowEnableTests (r : ImageRec) (h5 : (r.byte 5).toNat ≤ 15) (h6 : (r.byte 6).toNat ≤ 2) :
    r.window.enableTests = true ↔
      256 * (r.byte 3).toNat ≤ 256 * (r.byte 4).toNat + 255 ∧ 1 ≤ (r.byte 5).toNat ∧ (r.byte 5).toNat ≤ 14 ∧
        (r.byte 8).toNat + 256 * (r.byte 9).toNat + (256 * (r.byte 4).toNat + 255 - 256 * (r.byte 3).toNat) ≤ 0xFFFF ∧
        2 ^ (r.byte 6).toNat ∣ (r.byte 8).toNat + 256 * (r.byte 9).toNat := by
  have s := recordSays r
  unfold Window.enableTests
  simp only [Bool.and_eq_true, decide_eq_true_eq, modAddr?_isSome]
  rw [s.target h5, s.remote, s.pages.1, s.pages.2, s.width h6]
  have hl : r.window.limit = 256 * (r.byte 4).toNat + 255 := by unfold Window.limit; rw [s.pages.2]; omega
  have hb : r.window.base = 256 * (r.byte 3).toNat := by unfold Window.base; rw [s.pages.1]; omega
  rw [hl, hb, Nat.dvd_iff_mod_eq_zero]
  constructor
  · rintro ⟨⟨⟨a, b, c⟩, d⟩, e⟩; exact ⟨by omega, b, c, by omega, e⟩
  · rintro ⟨a, b, c, d, e⟩; exact ⟨⟨⟨by omega, b, c⟩, by omega⟩, e⟩

theorem routeAllowed_iff (n c : Nat) : (match kindOfNumber? n, routeOfCode? c with
      | some k, some rt => routeAllowed k rt
      | _, _ => false) = true ↔ 1 ≤ n ∧ n ≤ 17 ∧ c ≤ 3 ∧ ¬(c = 3 ∧ (n = 5 ∨ n = 17)) := by
  by_cases hn : 1 ≤ n ∧ n ≤ 17
  · obtain ⟨h1, h2⟩ := hn
    by_cases hc : c ≤ 3
    · interval_cases n <;> interval_cases c <;> decide
    · have : routeOfCode? c = none := by unfold routeOfCode?; split_ifs <;> first | rfl | omega
      rw [this]; split
      · next h => cases h
      · simp; omega
  · have : kindOfNumber? n = none := by
      unfold kindOfNumber?
      rw [List.find?_eq_none]
      intro k _; have : 1 ≤ kindNumber k ∧ kindNumber k ≤ 17 := by cases k <;> decide
      simp; omega
    rw [this]; simp; omega

theorem paramOfIndex?_iff (n : Nat) (p : Param) : paramOfIndex? n = some p ↔ Param.index p = n := by
  unfold paramOfIndex?
  constructor
  · intro h; simpa using List.find?_some h
  · rintro rfl; cases p <;> rfl

/-- The content tests are those the spec gives in numbers (R179). -/
theorem contentPasses_iff (r : ImageRec) : contentPasses r = true ↔ RecordValid r := by
  unfold contentPasses RecordValid
  cases ht : r.type with
  | window =>
    simp only [Bool.and_eq_true, Bool.or_eq_true, decide_eq_true_eq]
    have e0 := byte_eq_ofNat (r.byte 2) 0 (by omega)
    simp only [BitVec.ofNat_eq_ofNat] at e0 ⊢
    rw [e0]
    constructor
    · rintro ⟨⟨⟨⟨⟨a, b⟩, c⟩, d⟩, e⟩, f⟩
      refine ⟨a, c, b, d, e, fun k => (windowEnableTests r b d).mp ?_⟩
      rcases f with f | f
      · omega
      · exact f
    · rintro ⟨a, c, b, d, e, f⟩
      refine ⟨⟨⟨⟨⟨a, b⟩, c⟩, d⟩, e⟩, ?_⟩
      by_cases k : (r.byte 2).toNat = 0
      · exact .inl k
      · exact .inr ((windowEnableTests r b d).mpr (f (by omega)))
  | binding => simp [and_assoc]
  | timing =>
    simp only
    constructor
    · intro h
      cases hp : paramOfIndex? (r.byte 1).toNat with
      | none => rw [hp] at h; cases h
      | some p =>
        rw [hp] at h
        exact ⟨p, (paramOfIndex?_iff _ _).mp hp, (recordSays r).value ▸ (paramAccepts_iff _ _).mp h⟩
    · rintro ⟨p, hp, hv⟩
      rw [(paramOfIndex?_iff _ _).mpr hp]
      exact (paramAccepts_iff _ _).mpr ((recordSays r).value ▸ hv)
  | route => exact routeAllowed_iff _ _
  | end_ => simp

theorem duplicates_iff (r q : ImageRec) : duplicates r q = true ↔ NamesTheSame r q := by
  unfold duplicates NamesTheSame
  rw [Bool.and_eq_true, decide_eq_true_eq]
  cases r.type <;> simp

/-- Records that pass are passed over, and the tests go on behind them. -/
theorem contentFault_append (l rest : List ImageRec) (earlier : List ImageRec) (n : Nat) (hv : ∀ r ∈ l, RecordValid r)
    (hd : ∀ r ∈ l, ∀ q ∈ earlier, ¬NamesTheSame r q) (hp : l.Pairwise fun q r => ¬NamesTheSame r q) :
    contentFault earlier n (l ++ rest) = contentFault (earlier ++ l) (n + l.length) rest := by
  induction l generalizing earlier n with
  | nil => simp
  | cons r l ih =>
    obtain ⟨v1, v2⟩ := List.forall_mem_cons.mp hv
    obtain ⟨d1, d2⟩ := List.forall_mem_cons.mp hd
    obtain ⟨p1, p2⟩ := List.pairwise_cons.mp hp
    rw [List.cons_append, contentFault, if_neg (by rw [(contentPasses_iff r).mpr v1]; simp),
      if_neg (by
        intro k; obtain ⟨q, hq, e⟩ := List.any_eq_true.mp k
        exact d1 q hq ((duplicates_iff r q).mp e)),
      ih (earlier ++ [r]) (n + 1) v2 (fun x hx q hq => by
        rcases List.mem_append.mp hq with hq | hq
        · exact d2 x hx q hq
        · rw [List.mem_singleton.mp hq]; exact p1 x hx) p2]
    simp [Nat.add_assoc, Nat.add_comm 1]

/-- The tests of the content find no fault exactly where every record passes. -/
theorem contentFault_none (l : List ImageRec) (earlier : List ImageRec) (n : Nat) (h : contentFault earlier n l = none) :
    (∀ r ∈ l, RecordValid r) ∧ (∀ r ∈ l, ∀ q ∈ earlier, ¬NamesTheSame r q) ∧ l.Pairwise fun q r => ¬NamesTheSame r q := by
  induction l generalizing earlier n with
  | nil => simp
  | cons r l ih =>
    rw [contentFault] at h
    split_ifs at h with h1 h2
    obtain ⟨i1, i2, i3⟩ := ih _ _ h
    have hr : RecordValid r := (contentPasses_iff r).mp (by simpa using h1)
    refine ⟨List.forall_mem_cons.mpr ⟨hr, i1⟩, List.forall_mem_cons.mpr ⟨fun q hq k => h2 ?_, fun x hx q hq =>
      i2 x hx q (List.mem_append_left _ hq)⟩, List.pairwise_cons.mpr ⟨fun x hx => i2 x hx r (by simp), i3⟩⟩
    exact List.any_eq_true.mpr ⟨q, hq, (duplicates_iff r q).mpr k⟩

theorem endRec_valid (b : List Byte) : RecordValid ⟨.end_, b⟩ := trivial

theorem endRec_names (b : List Byte) (q : ImageRec) : ¬NamesTheSame ⟨.end_, b⟩ q := fun h => h.2

/-! ### Verification (R177 to R180) -/

/-- What the walk answers with records, it has read. -/
theorem walk_records (left n : Nat) (bs : List Byte) (k : List ImageRec) (h : walk left n bs = .records k) :
    ∃ l lo hi, k = l ++ [⟨.end_, [lo, hi]⟩] ∧ bs = l.flatMap recordBytes ++ recordBytes ⟨.end_, [lo, hi]⟩ ∧
      l.length + 1 = left ∧ ∀ r ∈ l, r.type ≠ .end_ ∧ r.body.length = (recordForm r.type).2 := by
  induction left generalizing n bs k with
  | zero => cases h
  | succ left ih =>
    match bs with
    | [] => cases h
    | [t] => cases ht : recType? t <;> simp only [walk, ht] at h <;> cases h
    | t :: b :: body =>
      simp only [walk] at h
      cases ht : recType? t with
      | none => simp only [ht] at h; cases h
      | some ty =>
        simp only [ht] at h
        have htn := (recType?_iff t ty).mp ht
        split_ifs at h with h1 h2 h3 h4 h5
        · cases h
          subst h3
          match body, h4.2 with
          | [lo, hi], _ =>
            refine ⟨[], lo, hi, rfl, ?_, by simp [h4.1], by simp⟩
            have e1 : t = 15 := BitVec.eq_of_toNat_eq htn
            have e2 : b = 2 := BitVec.eq_of_toNat_eq (by have k := not_not.mp h1; exact k)
            rw [e1, e2]; rfl
        · cases hw : walk left (n + 1) (body.drop ty.bodyLength) with
          | fault f => rw [hw] at h; cases h
          | records k' =>
            rw [hw] at h; cases h
            obtain ⟨l, lo, hi, e1, e2, e3, e4⟩ := ih _ _ _ hw
            have hb : (body.take ty.bodyLength).length = (recordForm ty).2 := by
              rw [List.length_take, ← bodyLength_eq]; omega
            refine ⟨⟨ty, body.take ty.bodyLength⟩ :: l, lo, hi, by rw [e1]; rfl, ?_, by simp [e3],
              List.forall_mem_cons.mpr ⟨⟨h3, hb⟩, e4⟩⟩
            rw [List.flatMap_cons, List.append_assoc, ← e2, recordBytes_eq _ hb]
            simp only [List.cons_append, List.take_append_drop]
            rw [show t = BitVec.ofNat 8 (recordForm ty).1 from BitVec.eq_of_toNat_eq (by rw [htn, recordForm_code]),
              show b = BitVec.ofNat 8 (recordForm ty).2 from BitVec.eq_of_toNat_eq (by
                rw [recordForm_length, ← bodyLength_eq]; simpa using h1)]

theorem EndsAs.verify {staging : List Byte} {l : List ImageRec} {lo hi : Byte} (h : EndsAs staging l lo hi)
    (hc : CheckHolds staging l lo hi) :
    Machine.verify staging = match contentFault [] 1 (l ++ [⟨.end_, [lo, hi]⟩]) with
      | some f => .fault f
      | none => .records (l ++ [⟨.end_, [lo, hi]⟩]) := by
  unfold Machine.verify
  rw [h.walk]
  simp only
  refine (if_pos (h.check.mpr hc)).trans ?_
  cases contentFault [] 1 (l ++ [⟨.end_, [lo, hi]⟩]) <;> rfl

/-- What verification answers (R177 to R180). -/
theorem imageVerified (staging : List Byte) : ImageVerified staging where
  cut l h := h.verify_fault (by obtain ⟨k, e⟩ := h.left; rw [e]; rfl)
  type l t rest h ht := h.verify_fault (by
    obtain ⟨k, e⟩ := h.left; rw [e, Machine.walk]; simp only [(recType?_none t).mpr ht])
  typeAlone l t ty h ht := h.verify_fault (by
    obtain ⟨k, e⟩ := h.left; rw [e, Machine.walk]; simp only [(recType?_iff t ty).mpr ht])
  length l t ty n rest h ht hn := h.verify_fault (by
    obtain ⟨k, e⟩ := h.left; rw [e, Machine.walk]; simp only [(recType?_iff t ty).mpr ht]
    rw [if_pos (by rw [bodyLength_eq]; exact hn)])
  fit l t ty n rest h ht hn hf := h.verify_fault (by
    obtain ⟨k, e⟩ := h.left; rw [e, Machine.walk]; simp only [(recType?_iff t ty).mpr ht]
    rw [if_neg (by rw [bodyLength_eq]; exact not_not.mpr hn), if_pos (by rw [bodyLength_eq]; exact hf)])
  placement l q rest h hq hp := h.verify_fault (by
    obtain ⟨k, e⟩ := h.left
    have hk : headerCount staging = (staging.getD 3 0).toNat := rfl
    rw [e, recordBytes_eq q hq]
    simp only [List.cons_append, Machine.walk, (recType?_iff _ q.type).mpr (recordForm_code _)]
    rw [if_neg (by rw [bodyLength_eq, recordForm_length]; simp),
      if_neg (by rw [bodyLength_eq, List.length_append]; omega)]
    rcases hp with ⟨h1, h2⟩ | ⟨h1, h2⟩
    · rw [if_pos h1, if_neg]
      rintro ⟨k0, kr⟩
      rcases h2 with h2 | h2
      · omega
      · rw [bodyLength_eq, List.length_append] at kr
        exact h2 (List.eq_nil_of_length_eq_zero (by omega))
    · rw [if_neg h1, if_pos (by omega)])
  check l lo hi h hc := by
    unfold verify
    rw [h.walk]
    simp only
    rw [if_neg (fun k => hc (h.check.mp k))]
    rfl
  content l r rest lo hi h hc hl hr := by
    rw [h.verify hc, List.append_assoc, contentFault_append l _ [] 1 hl.1 (by simp) hl.2, List.cons_append, contentFault,
      if_pos (by simpa using fun k => hr ((contentPasses_iff r).mp k)), Nat.add_comm 1]
  duplicate l r rest lo hi h hc hl hr hd := by
    obtain ⟨q, hq, e⟩ := hd
    rw [h.verify hc, List.append_assoc, contentFault_append l _ [] 1 hl.1 (by simp) hl.2, List.cons_append, contentFault,
      if_neg (by rw [(contentPasses_iff r).mpr hr]; simp),
      if_pos (List.any_eq_true.mpr ⟨q, by simpa using hq, (duplicates_iff r q).mpr e⟩), Nat.add_comm 1]
  passes l lo hi h hc hl := by
    rw [h.verify hc, contentFault_append l _ [] 1 hl.1 (by simp) hl.2, contentFault,
      if_neg (by rw [(contentPasses_iff _).mpr (endRec_valid _)]; simp),
      if_neg (by
        intro k; obtain ⟨q, -, e⟩ := List.any_eq_true.mp k
        exact endRec_names _ q ((duplicates_iff _ q).mp e))]
    rfl
  only k h := by
    unfold verify at h
    cases hw : Machine.walk (headerCount staging) 1 (staging.drop 6) with
    | fault f => rw [hw] at h; cases h
    | records k' =>
      rw [hw] at h
      simp only at h
      split_ifs at h with hc
      cases hf : contentFault [] 1 k' with
      | some f => rw [hf] at h; cases h
      | none =>
        rw [hf] at h; cases h
        obtain ⟨l, lo, hi, e1, e2, e3, e4⟩ := walk_records _ _ _ _ hw
        have he : EndsAs staging l lo hi := ⟨⟨e2, by show l.length < headerCount staging; omega, e4⟩, e3⟩
        obtain ⟨f1, -, f3⟩ := contentFault_none _ _ _ hf
        rw [e1] at f1 f3
        exact ⟨l, lo, hi, e1, he, he.check.mp hc, fun r hr => f1 r (List.mem_append_left _ hr),
          (List.pairwise_append.mp f3).1⟩

end Sys2Proof.Machine
end

