-- ==== Sys2Proof/Laws/Outcomes.lean ====
section
/-! SUPPORT. What the shared operations behind the outcomes of requests do, each said once and whole: the end of a query or join,
leave handling, the end of a descriptor read. The words on the right of each lemma are those of Safety.lean. -/

namespace Sys2Proof.Machine

theorem runs_iff (m : Mailbox) (o : Byte) : m.runs o = true ↔ m.state = .active ∧ m.op = o := by simp [Mailbox.runs]

/-- The end of a query or join (R29, R30). -/
theorem endDiscovery_eq (b : Bool) (s : State) : endDiscovery b s = { s with disc := discoveryEnded b s } := by
  unfold endDiscovery discoveryEnded
  cases b <;> simp only [] <;> split <;> simp_all [disableDiscovery, queryNow, enterIdle]

/-- Parked discovery unparks (R58). -/
theorem unpark_ended (s : State) :
    unpark s = { s with disc := if s.disc.state = .parkedFull ∨ s.disc.state = .parkedConflict then discoveryEnded true s
                                else s.disc } := by
  unfold unpark
  rw [endDiscovery_eq]
  split <;> rfl

/-- Every line of one address goes, and the others keep their order (R117). -/
theorem drop_address (a : ModAddr) (c : Cache) :
    (c.drop fun l => l.addr = a) =
      { lines := vmap (fun l => l.filter fun l => l.addr ≠ a) c.lines
        useOrder := c.useOrder.filter fun i => (vget c.lines i).any fun l => l.addr ≠ a } := by
  simp [Cache.drop]

/-- An address leaves the sweep's set (R141). -/
theorem leaveSweep_eq (a : ModAddr) (s : State) :
    leaveSweep a s = { s with attn := { s.attn with
      sweep := s.attn.sweep.bind fun l => if l.filter (· ≠ a) = [] then none else some (l.filter (· ≠ a)) } } := by
  unfold leaveSweep
  rcases h : s.attn.sweep with _ | l
  · have : s.attn = { s.attn with sweep := none } := by rw [← h]
    rw [Option.bind_none, ← this]
  · simp

/-- The attention unit's part of a leave (R141, R151). -/
theorem attnLeave_eq (a : ModAddr) (s : State) :
    attnLeave a s = { s with
      attn := { s.attn with
        armed := if (s.entry a).attention = .held ∨ (s.entry a).attention = .clearDue then true else s.attn.armed
        sweep := s.attn.sweep.bind fun l => if l.filter (· ≠ a) = [] then none else some (l.filter (· ≠ a))
        fetches := if (s.entry a).attention = .fetching then vset s.attn.fetches a none else s.attn.fetches }
      events := (if (s.entry a).attention = .fetching ∧ (s.fetchRec a).any (·.reserved) = true then s.events.release
                 else if (s.entry a).attention = .held then
                   { s.events with list := s.events.list.map fun r =>
                       if r.kind = .attention ∧ r.address = some a ∧ r.held = true then { r with held := false } else r }
                 else s.events) } := by
  unfold attnLeave
  rw [leaveSweep_eq]
  rcases h : (s.entry a).attention <;> simp [dropFetch, armSweep, EventUnit.clearHeld]
  split <;> simp_all

/-- A FORGET waiting on an entry that leaves (R130). -/
theorem forgetEnds_eq (a : ModAddr) (c : LeaveCause) (s : State) :
    forgetEnds a c s = if s.mbx.state = .active ∧ s.mbx.op = 6 ∧ modAddr? s.mbx.target = some a then
      { s with mbx := { s.mbx with state := .done, result := forgetResult c }
               events := s.events.post ⟨.mailboxDone, some a, resultCode (forgetResult c), 6, 0, 0⟩ } else s := by
  simp only [forgetEnds, runs_iff, opForget, endMailbox, post, and_assoc]
  split <;> simp_all

/-- Leave handling (R45). -/
theorem leave_eq (a : ModAddr) (c : LeaveCause) (s : State) :
    leave a c s = entryLeft a (leaveRecord c a (s.entry a)) (forgetResult c) s := by
  have h0 : (dropLinesOf a (removeWork a s)).entry a = s.entry a := rfl
  have h1 : (dropLinesOf a (removeWork a s)).fetchRec a = s.fetchRec a := rfl
  simp only [leave, entryLeft, forgetEnds_eq, unpark_ended, attnLeave_eq, post, State.setEntry, dropLinesOf, removeWork,
    drop_address]
  have : ∀ t : State, t.autoload = s.autoload → t.power = s.power → t.engine = s.engine →
      t.disc = { s.disc with waiting := t.disc.waiting } → discoveryEnded true t = discoveryEnded true s := by
    intro t h1 h2 h3 h4
    unfold discoveryEnded
    rw [suspended_of_fields h1 h2 h3, h4]
    simp
  rw [this]
  · rfl
  all_goals rfl

/-- The width limit that a list of capability records gives (R38). -/
theorem widthLimitOf_eq (l : List Capability) : widthLimitOf l = match l.find? fun c => c.type = 2 with
    | some c => if c.value = 1 then .one else if c.value = 2 then .two else .four
    | none => .four := by
  have h : ∀ v : Byte, (widthOfBytes? v.toNat).getD .four = if v = 1 then .one else if v = 2 then .two else .four := by decide
  simp only [widthLimitOf, firstOfType]
  generalize (List.find? (fun c : Capability => decide (c.type = 2)) l) = x
  rcases x with _ | c
  · rfl
  · exact h _

/-- The end of a chain read (R38). -/
theorem becomeOnline_eq (a : ModAddr) (s : State) : becomeOnline a s = moduleJoined a s := by
  have h : (BitVec.ofNat 4 (a.val + 1)).setWidth 32 = BitVec.ofNat 32 (a.val + 1) :=
    (by decide : ∀ a : Fin 14, (BitVec.ofNat 4 (a.val + 1)).setWidth 32 = BitVec.ofNat 32 (a.val + 1)) a
  simp only [becomeOnline, endDiscovery_eq, discoverReport, moduleJoined, runs_iff, opDiscoverNow, endMailbox, post,
    joinedRecord, armSweep, onlineEntry, widthLimitOf_eq, firstOfType, State.setEntry]
  split
  next hr => rw [← h]; simp only [hr, resultCode, linkAddr]; rfl
  next => rfl

/-- A chain cut (R36). -/
theorem truncateChain_eq (a : ModAddr) (s : State) : truncateChain a s = chainCut a s := by
  simp only [truncateChain, becomeOnline_eq, chainCut, post, State.setEntry]

/-- A pointer of the chain tested and followed (R35, R36). -/
theorem followPointer_eq (a : ModAddr) (s : State) (ptr : Byte) (g : Half) (h : (s.entry a).generation = g) :
    followPointer a g ptr s = pointerTaken a ptr s := by
  subst h
  simp [followPointer, pointerTaken, becomeOnline_eq, truncateChain_eq, setWaiting, Config.capabilityCapacity]

end Sys2Proof.Machine
end

