-- ==== Sys2Proof/Laws/PostedWrite.lean ====
section
/-! SUPPORT. What the write-side effects and a posted write do (R79, R108, R116, R193). -/

namespace Sys2Proof.Machine

/-- What a write makes of one slot (R108). -/
def afterWrite (a : ModAddr) (off : Half) (w : Width) : Slot → Slot
  | .free => .free
  | .pending x =>
    if x.target = a ∧ bytesOverlap x.offset x.width off w = true then .pending { x with noFill := true } else .pending x
  | .complete x o d m => if x.target = a ∧ bytesOverlap x.offset x.width off w = true then .free else .complete x o d m

theorem overwriteSlot_slots (a : ModAddr) (off : Half) (w : Width) (s : State) (i : Fin 4) :
    (overwriteSlot a off w s i).slots = vset s.slots i (afterWrite a off w (vget s.slots i)) := by
  unfold overwriteSlot afterWrite
  have hid : ∀ x, vget s.slots i = x → s.slots = vset s.slots i x := by
    rintro x rfl
    unfold vset vget; exact (Vector.set_getElem_self i.isLt).symm
  cases h : vget s.slots i with
  | free => exact hid _ h
  | pending x =>
    simp only
    split
    · rfl
    · exact hid _ h
  | complete x o d m =>
    simp only
    split
    · rfl
    · exact hid _ h

theorem overwriteSlot_eq (a : ModAddr) (off : Half) (w : Width) (s : State) (i : Fin 4) : overwriteSlot a off w s i =
    { s with slots := (overwriteSlot a off w s i).slots, events := (overwriteSlot a off w s i).events } := by
  unfold overwriteSlot
  split
  · rfl
  · split <;> rfl
  · split <;> rfl

theorem overwriteSlot_foldl (a : ModAddr) (off : Half) (w : Width) (l : List (Fin 4)) (hl : l.Nodup) (s : State) :
    (l.foldl (overwriteSlot a off w) s) = { s with slots := (l.foldl (overwriteSlot a off w) s).slots
                                                   events := (l.foldl (overwriteSlot a off w) s).events } ∧
    ∀ i, vget (l.foldl (overwriteSlot a off w) s).slots i =
      if i ∈ l then afterWrite a off w (vget s.slots i) else vget s.slots i := by
  induction l generalizing s with
  | nil => exact ⟨rfl, fun i => by simp⟩
  | cons x xs ih =>
    obtain ⟨h1, h2⟩ := ih (List.nodup_cons.mp hl).2 (overwriteSlot a off w s x)
    have hx := (List.nodup_cons.mp hl).1
    have he := overwriteSlot_eq a off w s x
    have hs := overwriteSlot_slots a off w s x
    rw [List.foldl_cons]
    generalize overwriteSlot a off w s x = v at *
    generalize List.foldl (overwriteSlot a off w) v xs = z at *
    constructor
    · rw [h1, he]
    · intro i; rw [h2, hs, vget_vset]
      by_cases h : x = i
      · subst h; simp [hx]
      · rw [if_neg h]; simp [show ¬ i = x from fun h' => h h'.symm]

/-- The write-side effects: the slots, the cache and the event queue, and nothing else. -/
theorem writeEffects_spec (a : ModAddr) (off : Half) (w : Width) (s : State) :
    writeEffects a off w s = { s with slots := (writeEffects a off w s).slots, cache := (writeEffects a off w s).cache
                                      events := (writeEffects a off w s).events } ∧
    (∀ i, vget (writeEffects a off w s).slots i = afterWrite a off w (vget s.slots i)) ∧
    (writeEffects a off w s).cache = s.cache.drop fun l => l.addr = a ∧ bytesOverlap l.offset l.width off w := by
  unfold writeEffects
  obtain ⟨h1, h2⟩ := overwriteSlot_foldl a off w allSlots (by decide)
    { s with cache := s.cache.drop fun l => l.addr = a ∧ bytesOverlap l.offset l.width off w }
  generalize List.foldl (overwriteSlot a off w)
    { s with cache := s.cache.drop fun l => l.addr = a ∧ bytesOverlap l.offset l.width off w } allSlots = z at *
  refine ⟨?_, ?_, ?_⟩
  · rw [h1]
  · intro i; rw [h2]; simp [show i ∈ allSlots by revert i; decide]
  · rw [h1]

theorem overwriteSlot_events (a : ModAddr) (off : Half) (w : Width) (s : State) (i : Fin 4) :
    (overwriteSlot a off w s i).events = match vget s.slots i with
      | .complete x _ _ _ =>
        if x.target = a ∧ bytesOverlap x.offset x.width off w = true then s.events.post (discardRecord i x 2) else s.events
      | .free => s.events
      | .pending _ => s.events := by
  unfold overwriteSlot
  cases vget s.slots i with
  | free => rfl
  | pending x => simp only; split <;> rfl
  | complete x o d m => simp only; split <;> rfl

/-- The records that a write posts, in ascending slot order (R108). -/
theorem overwriteSlot_foldl_events (a : ModAddr) (off : Half) (w : Width) (l : List (Fin 4)) (hl : l.Nodup) (s : State) :
    (l.foldl (overwriteSlot a off w) s).events = l.foldl (fun u i => match vget s.slots i with
      | .complete x _ _ _ =>
        if x.target = a ∧ bytesOverlap x.offset x.width off w = true then u.post (discardRecord i x 2) else u
      | .free => u
      | .pending _ => u) s.events := by
  induction l generalizing s with
  | nil => rfl
  | cons x xs ih =>
    rw [List.foldl_cons, List.foldl_cons, ih (List.nodup_cons.mp hl).2, overwriteSlot_events]
    have hx := (List.nodup_cons.mp hl).1
    refine List.foldl_ext _ _ _ fun u i hi => ?_
    rw [overwriteSlot_slots, vget_vset, if_neg (fun h : x = i => hx (h ▸ hi))]

theorem writeEffects_events (a : ModAddr) (off : Half) (w : Width) (s : State) : (writeEffects a off w s).events =
    allSlots.foldl (fun u i => match vget s.slots i with
      | .complete x _ _ _ =>
        if x.target = a ∧ bytesOverlap x.offset x.width off w = true then u.post (discardRecord i x 2) else u
      | .free => u
      | .pending _ => u) s.events := overwriteSlot_foldl_events a off w allSlots (by decide) _

/-- The write-side effects are those of R79: the lines, the slots and the DELAYED_DISCARD records. -/
theorem writeEffects_takesEffect (a : ModAddr) (off : Half) (w : Width) (s : State) :
    WriteTakesEffect a off w s (writeEffects a off w s) := by
  obtain ⟨h1, h2, h3⟩ := writeEffects_spec a off w s
  refine ⟨by rw [h1], fun i => ?_, ?_, fun i => by rw [h2]; rfl, writeEffects_events a off w s⟩
  · rw [h3]; unfold Cache.drop; rw [vget_vmap]
  · rw [h3]
    unfold Cache.drop
    refine List.filter_congr fun i _ => ?_
    simp only [vget_vmap]
    cases vget s.cache.lines i with
    | none => rfl
    | some l => simp only [Option.any_some, Option.filter_some]; cases !_ <;> rfl

/-- A write posted, its entry added behind a head that passes or passing itself as the head. -/
theorem postWrite_followUp (e : HostEntry) (s : State) (hh : HeadLaw s)
    (hn : s.hostQueue ≠ [] ∨ s.hostOnLink = true ∨ headCheck e s = none) :
    FollowUp ((writeEffects e.addr e.offset e.width (pushHost e (hostWake s))).reply okWrite) (postWrite e s) := by
  have hk := wakeKeeps_hostWake s
  obtain ⟨-, -, -, -, -, -, k7, -, -, -, k11, -⟩ := hk.fields
  obtain ⟨w1, -, -⟩ := writeEffects_spec e.addr e.offset e.width (pushHost e (hostWake s))
  have ht : postWrite e s =
      settle ((writeEffects e.addr e.offset e.width (pushHost e (hostWake s))).reply okWrite) := rfl
  rw [ht]
  generalize writeEffects e.addr e.offset e.width (pushHost e (hostWake s)) = v at *
  refine followUp_settle _ (headLaw_append e hh ?_ ?_ hn fun a => ?_)
  · show v.hostQueue = _; rw [w1, ← k7]; rfl
  · show v.engine = _; rw [w1, ← k11]; rfl
  · have : (v.reply okWrite).entry a = (hostWake s).entry a := by show v.entry a = _; rw [w1]; rfl
    rw [this, hk.entry]; exact ⟨rfl, rfl, rfl⟩

/-- The power state after a posted write: a sleeping link has been woken by the host, and an ACTIVE one is left so (R193). -/
theorem postWrite_power (e : HostEntry) (s : State) :
    (s.power.state = .asleep → (postWrite e s).power.state ≠ .asleep ∧ (postWrite e s).power.lastWake = .host ∧
      (postWrite e s).power.sleepReq = false) ∧
    (s.power.state = .active → (postWrite e s).power = s.power) := by
  have hp := hostWake_power s
  obtain ⟨w1, -, -⟩ := writeEffects_spec e.addr e.offset e.width (pushHost e (hostWake s))
  have ht : postWrite e s =
      settle ((writeEffects e.addr e.offset e.width (pushHost e (hostWake s))).reply okWrite) := rfl
  rw [ht]
  generalize writeEffects e.addr e.offset e.width (pushHost e (hostWake s)) = v at *
  have wp : (v.reply okWrite).power = (hostWake s).power := by show v.power = _; rw [w1]; rfl
  constructor
  · intro ha
    obtain ⟨p1, p2, p3⟩ := hp.2.1 ha
    rw [(settle_awake _ (by rw [wp]; exact p1)).2, wp]
    exact ⟨hp.1, p2, p3⟩
  · intro ha
    have hs := hp.2.2 (by rw [ha]; simp)
    rw [(settle_awake _ (by rw [wp, hs, ha]; exact .inl rfl)).2, wp, hs]

end Sys2Proof.Machine
end

