-- ==== Sys2Proof/Machine/ModuleSide.lean ====
section
/-! DEFINITION. The module's side of the span link (R2 to R11, R206, R207): what a module does with a request frame, and the
chain enable. A module is no part of the bridge's State and sends no command of its own; these functions say which frames can
come as the operand of RESPONSE_RECEIVED, and when ATTN is pulled. -/

namespace Sys2Proof.Machine

/-! ### Requests as a module receives them -/

/-- A request frame that has passed its check. -/
structure ModRequest where
  payload    : Payload
  seq        : BitVec 4
  retransmit : Bool
deriving DecidableEq, Repr

/-- The operations in the order of their codes 1 to 10 (R207). -/
def allLinkOps : List LinkOp :=
  [.read, .write, .ping, .joinQuery, .assign, .descRead, .attnFetch, .attnClear, .release, .linkReset]

/-- The operation a code names; 0 and 11 to 15 name none (R207). -/
def linkOpOf? (c : BitVec 4) : Option LinkOp := allLinkOps.find? fun o => o.code = c

/-- Does a request of this operation carry data (R2)? -/
def LinkOp.carriesData : LinkOp → Bool
  | .write | .assign | .attnClear => true
  | .read | .ping | .joinQuery | .descRead | .attnFetch | .release | .linkReset => false

/-- The bytes a length code stands for (R207). -/
def lengthOfCode (c : BitVec 2) : Nat := if c = 0#2 then 0 else if c = 1#2 then 1 else if c = 2#2 then 2 else 4

/-- Does a request's data length agree with its operation (R1, R4)? A WRITE of length 0 does: R2 has it answered REFUSED. -/
def LinkOp.takesLength : LinkOp → Nat → Bool
  | .assign, n => n = 1
  | .attnClear, n => n = 2
  | .write, n => n = 0 || n = 1 || n = 2 || n = 4
  | .read, n | .ping, n | .joinQuery, n | .descRead, n | .attnFetch, n | .release, n | .linkReset, n => n = 0

/-- The request that field bytes spell, or none where they fail the check or name no operation (R1, R4, R207). -/
def parseRequest : List Byte → Option ModRequest
  | b0 :: b1 :: b2 :: b3 :: rest =>
    match linkOpOf? (b0.extractLsb' 4 4) with
    | none => none
    | some op =>
      let length := lengthOfCode (b1.extractLsb' 5 2)
      let n := if op.carriesData then length else 0
      if op.takesLength n = true ∧ rest.length = n + 2 ∧ leNat (rest.drop n) = (crc16 (b0 :: b1 :: b2 :: b3 :: rest.take n)).toNat
          ∧ b1.getLsbD 7 = false then
        some { payload := { dest := b0.extractLsb' 0 4, op := op, offset := BitVec.ofNat 16 (leNat [b2, b3]),
                            length := length, data := rest.take n }
               seq := b1.extractLsb' 0 4, retransmit := b1.getLsbD 4 }
      else none
  | _ => none

/-! ### A module -/

/-- A register inside a module (R5). -/
structure RemoteReg where
  offset   : Half
  widths   : List Width
  readOnly : Bool
  value    : Word
deriving DecidableEq, Repr

/-- The released record (R9). -/
structure Released where
  address : ModAddr
  seq     : BitVec 4
  saved   : Response
deriving DecidableEq, Repr

/-- A module: its identity and registers, and what it remembers of the link. `assignGuard` is the guard of the ASSIGN it
executed, while it has executed no frame at its new address since (R10). -/
structure RemoteModule where
  id           : UniqueId
  descriptor   : List Word
  hasAttention : Bool
  attnWord     : Half
  registers    : List RemoteReg
  address      : Option ModAddr
  lastSeq      : Option (BitVec 4)
  saved        : Option Response
  assignGuard  : Option Half
  released     : Option Released
deriving DecidableEq, Repr

/-- Does a module pull ATTN (R11)? -/
def RemoteModule.pullsAttn (m : RemoteModule) : Bool := m.hasAttention && m.address.isSome && m.attnWord ≠ 0

/-- The attention flag of a response sent now (R3). -/
def RemoteModule.flagNow (m : RemoteModule) : Bool := m.hasAttention && m.attnWord ≠ 0

/-- A response with its attention flag as the module stands when it is sent (R3). -/
def RemoteModule.send (m : RemoteModule) (r : Response) : Response := { r with attention := m.flagNow }

/-- A response on the line: at the rate of the request, which the module has learned from the request's lead-in (R1). -/
def answerOn (request : Wire) (r : Response) : Wire := onWire request.rate (responseFrame r)

/-- Power-up: unassigned, nothing saved (section 1.5, R9). What the attention word and the registers hold after a loss of power the spec
does not say; they stay as they were (log entry 39, the model's choice). -/
def RemoteModule.powerUp (m : RemoteModule) : RemoteModule :=
  { m with address := none, lastSeq := none, saved := none, assignGuard := none, released := none }

/-- A LINK_RESET acted on (R9). The last executed sequence number stays (log entry 34, the model's choice). -/
def RemoteModule.linkReset (m : RemoteModule) : RemoteModule :=
  { m with address := none, saved := none, assignGuard := none, released := none }

/-- Is a READ or WRITE misaligned or of length 0 (R2)? -/
def misaligned (q : ModRequest) : Bool := q.payload.length = 0 || q.payload.offset.toNat % q.payload.length ≠ 0

/-- The register at an offset (R5). -/
def RemoteModule.regAt (m : RemoteModule) (o : Half) : Option RemoteReg := m.registers.find? fun r => r.offset = o

/-- The status that a READ or WRITE meets before it is carried out (R2, R5). -/
def RemoteModule.accessStatus (m : RemoteModule) (q : ModRequest) (write : Bool) : Status :=
  if misaligned q then .refused
  else
    match m.regAt q.payload.offset with
    | none => .noRegister
    | some r =>
      if r.widths.any fun w => w.bytes = q.payload.length then (if write && r.readOnly then .refused else .ok) else .refused

/-- A register's value written (R4). A write narrower than the register makes its upper bytes 0: the spec does not say what
becomes of them (log entry 28, the model's choice). -/
def RemoteModule.writeReg (m : RemoteModule) (q : ModRequest) : RemoteModule :=
  { m with registers := m.registers.map fun r =>
      if r.offset = q.payload.offset then { r with value := BitVec.ofNat 32 (leNat q.payload.data) } else r }

/-- The result of a request at the module's own address, BUSY apart: its status, the data of an OK answer and the module
afterwards (R4, R5). A RELEASE's effect is in `answerOwn`. -/
def RemoteModule.carryOut (m : RemoteModule) (q : ModRequest) : Status × List Byte × RemoteModule :=
  match q.payload.op with
  | .read =>
    let st := m.accessStatus q false
    (st, if st = .ok then leBytes q.payload.length (((m.regAt q.payload.offset).map fun r => r.value.toNat).getD 0) else [], m)
  | .write =>
    let st := m.accessStatus q true
    (st, [], if st = .ok then m.writeReg q else m)
  | .descRead =>
    match m.descriptor[q.payload.offset.toNat]? with
    | some w => (.ok, leBytes 4 w.toNat, m)
    | none => (.noRegister, [], m)
  | .attnFetch => if m.hasAttention then (.ok, leBytes 2 m.attnWord.toNat, m) else (.refused, [], m)
  | .attnClear =>
    if m.hasAttention then
      (.ok, [], { m with attnWord := m.attnWord &&& ~~~(BitVec.ofNat 16 (leNat q.payload.data)) })
    else (.refused, [], m)
  | .ping | .joinQuery | .assign | .release | .linkReset => (.ok, [], m)

/-- May a module answer BUSY to this operation (R5)? -/
def LinkOp.mayBusy : LinkOp → Bool
  | .read | .write | .descRead | .attnFetch | .attnClear => true
  | .ping | .joinQuery | .assign | .release | .linkReset => false

/-- The operations that are replayed and not executed again (R10). -/
def LinkOp.replayed : LinkOp → Bool
  | .write | .attnClear | .assign | .release => true
  | .read | .ping | .joinQuery | .descRead | .attnFetch | .linkReset => false

/-- The operations allowed at addresses 1 to 14 (R4). -/
def LinkOp.atModule : LinkOp → Bool
  | .read | .write | .ping | .descRead | .attnFetch | .attnClear | .release => true
  | .joinQuery | .assign | .linkReset => false

/-- The response of a module from an address (R3). -/
def response (src : BitVec 4) (st : Status) (echo : BitVec 4) (data : List Byte) : Response :=
  { source := src, status := st, attention := false, echo := echo, data := data }

/-- A request accepted at the module's own address (R5, R9, R10); `busy` says that the module cannot act now. -/
def RemoteModule.answerOwn (m : RemoteModule) (a : ModAddr) (q : ModRequest) (busy : Bool) :
    RemoteModule × Option Response :=
  if q.retransmit && q.payload.op.replayed && m.lastSeq = some q.seq && m.saved.isSome then (m, m.saved.map m.send)
  else if busy && q.payload.op.mayBusy then (m, some (m.send (response (linkAddr a) .busy q.seq [])))
  else
    let (st, data, m1) := m.carryOut q
    let r := m1.send (response (linkAddr a) st q.seq data)
    let m2 := { m1 with lastSeq := some q.seq, saved := some r, assignGuard := none }
    if q.payload.op = .release then ({ m2 with address := none, released := some ⟨a, q.seq, r⟩ }, some r) else (m2, some r)

/-- The address that an ASSIGN's new-address byte names; 0 and 15 to 255 name none (R5, R8). -/
def newAddress? (b : Nat) : Option ModAddr := if b < 16 then modAddr? (BitVec.ofNat 4 b) else none

/-- An ASSIGN accepted by an unassigned module whose guard it carries (R8, R10): a retransmission of the request last executed
is answered with the saved response; an address outside 1 to 14 is REFUSED (R5). A LINK_RESET drops the saved response, and no rule
says what becomes of the last executed sequence number: the model keeps the number, and executes a retransmitted ASSIGN of that
number where no saved response is held (log entry 34, the model's choice). -/
def RemoteModule.answerAssign (m : RemoteModule) (q : ModRequest) : RemoteModule × Option Response :=
  if q.retransmit && m.lastSeq = some q.seq && m.saved.isSome then (m, m.saved.map m.send)
  else
    match newAddress? (leNat q.payload.data) with
    | some a =>
      let r := response (linkAddr a) .ok q.seq []
      ({ m with address := some a, lastSeq := some q.seq, saved := some r, assignGuard := some q.payload.offset },
       some (m.send r))
    | none =>
      let r := m.send (response 0 .refused q.seq [])
      ({ m with lastSeq := some q.seq, saved := some r }, some r)

/-- A frame to address 0 accepted by an unassigned module (R8), which drops its released record (R9). An ASSIGN with another
guard is neither acted on nor answered, a retransmitted one neither (R8; log entry 29). -/
def RemoteModule.answerJoin (m : RemoteModule) (q : ModRequest) : RemoteModule × Option Response :=
  let m0 := { m with released := none }
  match q.payload.op with
  | .joinQuery =>
    let r := m0.send (response 0 .ok q.seq (leBytes 8 m.id.toNat))
    ({ m0 with lastSeq := some q.seq, saved := some r }, some r)
  | .assign =>
    if q.payload.offset = m.id.setWidth 16 then m0.answerAssign q else (m0, none)
  | .read | .write | .ping | .descRead | .attnFetch | .attnClear | .release | .linkReset => (m, none)

/-- What a module does with a request frame, given its chain enable (R6): the module afterwards and its answer, if any. -/
def RemoteModule.receive (m : RemoteModule) (enable : Bool) (q : ModRequest) (busy : Bool) :
    RemoteModule × Option Response :=
  if q.payload.dest = 15 then (if q.payload.op = .linkReset then m.linkReset else m, none)
  else if q.payload.dest = 0 then
    match m.address with
    | none => if enable then m.answerJoin q else (m, none)
    | some _ =>
      if q.payload.op = .assign && q.retransmit && m.lastSeq = some q.seq && m.assignGuard = some q.payload.offset then
        (m, m.saved.map m.send)
      else (m, none)
  else if q.payload.op.atModule then
    match m.address with
    | some a => if linkAddr a = q.payload.dest then m.answerOwn a q busy else (m, none)
    | none =>
      match m.released with
      | some rel =>
        if q.payload.op = .release && q.retransmit && linkAddr rel.address = q.payload.dest && rel.seq = q.seq then
          (m, some (m.send rel.saved))
        else (m, none)
      | none => (m, none)
  else (m, none)

/-! ### The chain and the wire -/

/-- The chain enable each slot receives, the first slot's being `e`: an empty slot passes it through, an assigned module passes
on its own, an unassigned module passes none (R7). -/
def chainEnables (e : Bool) : List (Option RemoteModule) → List Bool
  | [] => []
  | none :: rest => e :: chainEnables e rest
  | some m :: rest => e :: chainEnables (e && m.address.isSome) rest

/-- The chain enable of every slot of the link: the first slot's is always present (R7). -/
def slotEnables (slots : List (Option RemoteModule)) : List Bool := chainEnables true slots

/-- ATTN is asserted while any module pulls it (R11). -/
def attnWire (slots : List (Option RemoteModule)) : Bool := slots.any fun o => o.any RemoteModule.pullsAttn

end Sys2Proof.Machine
end

