-- ==== Sys2Proof/WellFormed.lean ====
section
/-! DEFINITION. Which commands are well formed: the operands name what the command's row is about. Every other command's
operands are bounded by their types (a window number is a `Fin 8`, a module address a `ModAddr`). -/

namespace Sys2Proof

open Sys2Proof.Machine in
/-- The checks: a window access lies in window space (0x10000 to 0x1FFFF, R199); a NO_TARGET_ACCESS reaches no target
(R199); a REGISTER_WRITE names an occupied register whose write has no row of its own (R201). -/
def Instr.wf : Instr → Bool
  | .windowRead addr _ => inWindowSpace addr
  | .windowWrite addr _ _ => inWindowSpace addr
  | .noTargetAccess _ addr lanes => noTarget addr lanes
  | .registerWrite offset _ _ => (regAt offset).any fun r => !r.hasOwnRow
  | .coldReset _ | .hostPortReset | .resetRelease _ | .attnAsserted | .attnReleased | .heldAccessEnqueue
  | .hostHoldExpiry | .winFieldWrite _ _ _ _ | .winEnable _ _ | .winDisable _ _ | .winFaultReset _ | .readFaultReset _
  | .bindSelWrite _ _ | .modSelWrite _ _ | .timingWrite _ _ _ | .routeWrite _ _ _ | .evtModeWrite _ _
  | .evtLineEnWrite _ _ | .evtStatusClear _ _ | .evtPop _ | .evtRelease _ _ | .attnModeAuto _ | .attnModeHeld _
  | .sleepRequest _ _ | .sleepCancel _ _ | .retainWrite _ _ | .mbxStatusClear _ _ | .mbxRead _ | .mbxWrite _
  | .mbxDescRead _ | .mbxWaitingEnqueue | .bind _ | .unbind _ | .readmit _ | .forget _ | .discoverNow _ | .linkReset _
  | .flushCache _ | .reload _ | .mbxAbort _ | .arbiterGrant | .broadcastSent | .settled | .responseReceived _ _
  | .responseTimeout _ | .retransmission | .holdoffEnd | .pacingIntervalEnd _ | .discoveryTimerExpiry
  | .pollTimerExpiry _ | .discardTimerExpiry _ | .autoloadMarkerRead _ _ | .autoloadHeaderRead _ _ _ _
  | .autoloadImageRead _ | .autoloadVerifyEnd | .drainComplete | .wakeSettleEnd | .hostRstRelease | .requestFrameSent
  | .responseLeadIn | .mbxGoNoCommand _ => true

end Sys2Proof
end

