-- ==== Sys2Proof/Tests/Slice0.lean ====
section
/-! SUPPORT. Tests: ill-formed commands, the encodings the spec writes out, single steps on a small state, and a witness for
the hypotheses of every statement that has some. -/

namespace Sys2Proof.Tests

set_option Elab.async false

open Sys2Proof Sys2Proof.Machine

/-! ### Ill-formed commands -/

theorem test_windowRead_outside_window_space : (Instr.windowRead 0x0FFFC 0xF).wf = false := by decide
theorem test_windowRead_in_window_space : (Instr.windowRead 0x10000 0xF).wf = true := by decide
theorem test_windowWrite_outside_window_space : (Instr.windowWrite 0x00000 0xF 0).wf = false := by decide
theorem test_windowWrite_in_window_space : (Instr.windowWrite 0x1FFFC 0xF 0).wf = true := by decide
theorem test_noTargetAccess_with_a_target : (Instr.noTargetAccess .read 0x00004 0xF).wf = false := by decide +kernel
theorem test_noTargetAccess_in_the_hole : (Instr.noTargetAccess .write 0x01000 0xF).wf = true := by decide +kernel
theorem test_registerWrite_with_a_row_of_its_own : (Instr.registerWrite 0x000 0xF 0).wf = false := by decide +kernel
theorem test_registerWrite_unoccupied : (Instr.registerWrite 0x02C 0xF 0).wf = false := by decide +kernel
theorem test_registerWrite_argument : (Instr.registerWrite 0x080 0xF 0).wf = true := by decide +kernel

/-- No word spells a command, so a word placed for a fetch changes nothing. -/
theorem test_no_word_spells_a_command (s : State) : s.withFetchWord 32 0x12345678 = s := rfl

/-! ### Encodings the spec writes out -/

/-- The write of section 1.8 as section 12.3 writes it out. -/
def worked : Payload := ⟨5, .write, 0x0040, 2, [0x34, 0x12]⟩

theorem test_worked_request : (requestFrame worked 10 false).take 7 = [0x55, 0x25, 0x4A, 0x40, 0x00, 0x34, 0x12] := by
  decide +kernel
theorem test_worked_retransmission : (requestFrame worked 10 true).take 3 = [0x55, 0x25, 0x5A] := by decide +kernel
theorem test_worked_request_is_heard :
    parseRequest ((requestFrame worked 10 false).drop 1) = some ⟨worked, 10, false⟩ := by decide +kernel
theorem test_worked_response : (responseFields ⟨5, .ok, false, 10, []⟩).take 2 = [0x05, 0x0A] := by decide +kernel
theorem test_worked_response_is_taken :
    parseResponse .write 2 (responseFields ⟨5, .ok, false, 10, []⟩) = some ⟨5, .ok, false, 10, []⟩ := by decide +kernel

/-- The CRC-16 of R1 of the nine digits, the usual check value of this generator and start. -/
theorem test_crc_of_digits : crc16 [0x31, 0x32, 0x33, 0x34, 0x35, 0x36, 0x37, 0x38, 0x39] = 0x29B1 := by decide +kernel

/-! ### A small state -/

/-- An ONLINE module with an ATTENTION capability. -/
def moduleA : Entry :=
  { state := .online, generation := 1, uniqueId := some 0x00A1000000004C21, moduleClass := some 0x0210, revision := some 2,
    hasAttention := true, seq := 4, pollTimer := some 0, lastResponse := some 0 }

/-- A cacheable window of 256 bytes on it. -/
def windowA : Window :=
  { enabled := true, target := 1, remoteBase := 0x100, width := .four, expectedClass := 0x0210, cacheable := true }

/-- A running bridge with one module at address 1 behind window 0. -/
def live : State :=
  { pins := ⟨false, false, false⟩, engine := { resetPending := false }
    disc := { state := .idle, queryTimer := some 0, queryInterval := 20 }
    modules := vset (Vector.replicate 14 {}) 0 moduleA, windows := vset (Vector.replicate 8 {}) 0 windowA }

/-- The state a command leads to; the command's own state where it stops, which no command does. -/
def after (c : Instr) (s : State) : State :=
  match exec c s with
  | .next t => t
  | .fault _ => s
  | .refused _ => s

/-- A state between events (`QuietLaw`), as a check. -/
def quietCheck (s : State) : Bool :=
  (s.hostOnLink || match s.hostQueue with
    | [] => true
    | e :: _ => headCheck e s = none) &&
    !(s.power.state = .asleep && s.attn.level && s.attn.armed) && !(s.power.state = .draining && s.drained) &&
    (!s.suspended || s.disc.state = .disabled || s.disc.state = .joining ||
      (s.disc.state = .querying && s.mgmtOnLink = some .joinQuery)) && (s.suspended || s.disc.state ≠ .disabled)

theorem quiet_of_check (s : State) (h : quietCheck s = true) : QuietLaw s := by
  simp only [quietCheck, Bool.and_eq_true, Bool.not_eq_true', Bool.or_eq_true] at h
  obtain ⟨⟨⟨⟨hh, hw⟩, hd⟩, hs⟩, hn⟩ := h
  refine ⟨fun hl e rest he => ?_, ?_, ?_, fun h1 => ?_, fun h1 => ?_⟩
  · rw [hl, he] at hh
    simpa using hh
  · rintro ⟨h1, h2, h3⟩
    simp [h1, h2, h3] at hw
  · rintro ⟨h1, h2⟩
    simp [h1, h2] at hd
  · simpa [h1, or_assoc] using hs
  · simpa [h1] using hn

/-- The live state with the entry at address 1 changed. -/
def withEntry (f : Entry → Entry) (s : State) : State := s.setEntry 0 (f (s.entry 0))

/-- The live state in a power state, with discovery DISABLED where that state suspends it. -/
def powered (p : PowerState) (s : State) : State :=
  { s with power := { s.power with state := p }, disc := if p = .active then s.disc else {} }

/-- The read entry of an access to the first word of window 0, and its slot. -/
def readA : HostEntry :=
  { origin := .windowRead, addr := 0, gen := 1, op := .read, offset := 0x100, width := .four, data := none, slot := some 0,
    cancelled := false, diagnostic := false, cacheable := true }

/-- A write entry to the same word. -/
def writeA : HostEntry :=
  { origin := .windowWrite, addr := 0, gen := 1, op := .write, offset := 0x100, width := .four, data := some 7,
    slot := none, cancelled := false, diagnostic := false, cacheable := false }

/-- A mailbox read entry. -/
def mailA : HostEntry :=
  { origin := .mailbox, addr := 0, gen := 1, op := .read, offset := 0x10, width := .two, data := none, slot := none,
    cancelled := false, diagnostic := true, cacheable := false }

/-- The fields of a slot given to the read of the first word of window 0. -/
def slotA : SlotInfo := ⟨0x10000, .four, 0, 0, 0x100, false⟩

/-- A live state with a slot set. -/
def withSlot (i : Fin 4) (x : Slot) (s : State) : State := s.setSlot i x

/-- A line of the cache that answers the same read. -/
def lineA : Line := ⟨0, 1, 0x100, .four, 0x12345678⟩

/-- A live state whose cache holds that line as its last. -/
def cached : State := { live with cache := { lines := vset (Vector.replicate 32 none) 31 (some lineA), useOrder := [31] } }

/-- A full host request queue. -/
def full : State := { live with hostQueue := List.replicate 16 writeA }

/-- A request on the link. -/
def carrying (src : Source) (p : Payload) (a : Attempt) (s : State) : State :=
  { s with engine := { s.engine with link := .carrying ⟨src, p, 5, 0, 0, Timing.linkParams {}, false, a⟩ } }

/-- A live state with the read on the link and its slot PENDING. -/
def reading (a : Attempt) : State := withSlot 0 (.pending slotA) (carrying (.host readA false) readA.payload a live)

/-- A live state with the read in holdoff. -/
def heldOff (n : Nat) : State :=
  { live with engine := { live.engine with
      link := .holdoff ⟨.host readA false, readA.payload, 5, 0, 1, Timing.linkParams {}, false, .receiving⟩ n } }

/-- A mailbox with a command code and a target. -/
def mailbox (op : Byte) (target : BitVec 4) (s : State) : State :=
  { s with mbx := { s.mbx with op := op, target := target, width := 2, offset := 0x10 } }

/-- The mailbox in a state. -/
def mailboxIn (st : MbxState) (s : State) : State := { s with mbx := { s.mbx with state := st } }

/-! ### Single steps -/

theorem test_reset_is_quiet : QuietLaw State.reset := quiet_of_check _ (by decide +kernel)

theorem test_reset_values_survive_the_first_release :
    (after (.resetRelease .coldRst) State.reset).autoload.phase = .reading ∧
      (after (.resetRelease .coldRst) State.reset).engine.resetPending = true := by decide +kernel

theorem test_absent_image_then_broadcast :
    let s := after (.autoloadMarkerRead 0xFF 0xFF) (after (.resetRelease .coldRst) State.reset)
    (s.events.list.map fun r => (r.kind, r.code)) = [(.autoloadDone, 2)] ∧
      (after .arbiterGrant s).engine.line.take 3 = [0x55, 0xAF, 0x00] := by decide +kernel

theorem test_read_is_held_and_answered :
    (after (.windowRead 0x10000 0xF) live).port.held = some ⟨.slot 0, 20, 0⟩ ∧
      (after .arbiterGrant (after (.windowRead 0x10000 0xF) live)).engine.line.take 5 = [0x55, 0x11, 0x65, 0x00, 0x01] := by
  decide +kernel

theorem test_response_completes_the_read :
    let s := after (.responseReceived (responseFields ⟨1, .ok, false, 5, [0x78, 0x56, 0x34, 0x12]⟩) .ownerFirst)
      (reading .receiving)
    vget s.slots 0 = .complete slotA .ok (some 0x12345678) 0 ∧ vget s.cache.lines 0 = some lineA ∧
      s.engine.link = .free := by decide +kernel

theorem test_hit_answers_from_the_line :
    (after (.windowRead 0x10000 0xF) cached).port.answer = some ⟨.ok, some 0x12345678⟩ := by decide +kernel

theorem test_narrow_read_takes_its_lanes :
    let s := { live with windows := vset live.windows 0 { windowA with width := .one, cacheable := false }
                         slots := vset live.slots 2 (.complete ⟨0x10002, .one, 0, 0, 0x102, false⟩ .ok (some 0xAB) 0) }
    (after (.windowRead 0x10000 0x4) s).port.answer = some ⟨.ok, some 0x00AB0000⟩ := by decide +kernel

theorem test_write_drops_the_line_and_queues :
    let s := after (.windowWrite 0x10000 0xF 0xCAFE) cached
    s.port.answer = some ⟨.ok, none⟩ ∧ s.cache.count = 0 ∧ (s.hostQueue.map HostEntry.data) = [some 0xCAFE] := by
  decide +kernel

theorem test_unmapped_read_posts_a_miss :
    let s := after (.windowRead 0x13000 0xF) live
    s.port.winFault = ⟨.unmapped, .read, 0x13000, 0xF⟩ ∧
      (s.events.list.map fun r => (r.kind, r.code, r.detailA)) = [(.decodeMiss, 1, 0x13000)] := by decide +kernel

theorem test_attention_sweep_pings_the_module :
    (after .attnAsserted live).attn.sweep = some [0] ∧ (after .attnAsserted live).mgmtQueue = [.ping 0 1] := by
  decide +kernel

theorem test_flag_leads_to_a_fetch :
    let s := after (.responseReceived (responseFields ⟨1, .ok, true, 5, []⟩) .managerFirst)
      (carrying (.management (.ping 0 1)) ⟨1, .ping, 0, 0, []⟩ .receiving live)
    s.mgmtQueue = [.attnFetch 0 1] ∧ (s.entry 0).attention = .fetching := by decide +kernel

theorem test_fetched_word_is_posted_and_cleared :
    let s0 : State := { withEntry (fun e => { e with attention := .fetching }) live with
      attn := { live.attn with fetches := vset live.attn.fetches 0 (some ⟨1, false⟩) } }
    let s := after (.responseReceived (responseFields ⟨1, .ok, false, 5, [0x03, 0x00]⟩) .ownerFirst)
      (carrying (.management (.attnFetch 0 1)) ⟨1, .attnFetch, 0, 2, []⟩ .receiving s0)
    (s.events.list.map fun r => (r.kind, r.detailA, r.route)) = [(.attention, 3, .line1)] ∧
      s.mgmtQueue = [.attnClear 0 1 3] := by decide +kernel

theorem test_join_starts_at_the_lowest_address :
    let s0 : State := { live with disc := { live.disc with state := .querying, queryTimer := none } }
    let s := after (.responseReceived (responseFields ⟨0, .ok, false, 5, [1, 2, 3, 4, 5, 6, 7, 8]⟩) .ownerFirst)
      (carrying (.management .joinQuery) ⟨0, .joinQuery, 0, 0, []⟩ .receiving s0)
    (s.entry 1).state = .joining ∧ s.mgmtQueue = [.assign 1 1 0x0201] := by decide +kernel

theorem test_silence_quarantines :
    let s0 := withEntry (fun e => { e with failureRun := 3 }) live
    let r : Request := ⟨.host writeA false, writeA.payload, 5, 3, 0, Timing.linkParams {}, false, .awaiting 0⟩
    let s := after (.responseTimeout .ownerFirst) { s0 with engine := { s0.engine with link := .carrying r } }
    (s.entry 0).state = .quarantined ∧
      (s.events.list.map EventRec.kind) = [.writeFailed, .moduleQuarantined] := by decide +kernel

theorem test_flush_ends_at_once :
    let s := after (.flushCache 0xF) (mailbox 9 0 cached)
    s.cache.count = 0 ∧ s.mbx.state = .done ∧ s.mbx.result = .outcome .ok := by decide +kernel

theorem test_bind_then_unbind :
    let s := after (.bind 0xF) (mailbox 3 5 { live with mbx := { live.mbx with data := 0x4C21, xdata := 0xA10000 } })
    vget s.bindings 4 = some ⟨0x00A1000000004C21, .strict⟩ ∧
      (after (.unbind 0xF) { s with mbx := { s.mbx with op := 4 } }).mbx.result = .outcome .ok := by decide +kernel

theorem test_pop_moves_the_held_entry_on :
    let rec_ : EventRec := ⟨0, .attention, some 0, 0, 3, 1, 0, .line1, true⟩
    let s0 : State := { withEntry (fun e => { e with attention := .held, clearBits := some 3 }) live with
      events := { live.events with list := [rec_], nextSeq := 1 }, attn := { live.attn with mode := .held } }
    (after (.evtPop 0xF) s0).events.list = [] ∧ (after (.evtPop 0xF) s0).mgmtQueue = [.attnClear 0 1 3] := by
  decide +kernel

theorem test_reads_of_registers_show_the_state :
    readRegister 0x240 0xF live = ⟨.ok, some 1⟩ ∧ readRegister 0x248 0xF live = ⟨.ok, some 1⟩ ∧
      readRegister 0x040 0xF live = ⟨.ok, some 1000⟩ ∧ readRegister 0x3FC 0xF live = ⟨.error, some 0xFFFFFFFF⟩ := by
  decide +kernel

theorem test_no_register_at_25C : readRegister 0x25C 0xF live = ⟨.error, some 0xFFFFFFFF⟩ := by decide +kernel

theorem test_drained_link_sleeps_at_once :
    let s := after (.sleepRequest true 0xF) live
    s.power.state = .asleep ∧ s.power.sleepReq = true ∧ s.disc.state = .disabled := by decide +kernel

theorem test_last_response_ends_the_drain :
    let d := after (.sleepRequest true 0xF) (carrying (.management (.ping 0 1)) ⟨1, .ping, 0, 0, []⟩ .receiving live)
    d.power.state = .draining ∧
      (after (.responseReceived (responseFields ⟨1, .ok, false, 5, []⟩) .ownerFirst) d).power.state = .asleep := by
  decide +kernel

theorem test_head_waits_for_the_entry_on_the_link :
    let s0 : State := { withEntry (fun e => { e with widthLimit := .two }) live with
      hostQueue := [mailA, writeA]
      mbx := { live.mbx with state := .queued } }
    let s := after .arbiterGrant s0
    s.hostQueue = [writeA] ∧ s.events.list = [] ∧
      (after (.responseReceived (responseFields ⟨1, .ok, false, 5, [1, 0]⟩) .ownerFirst) (after .requestFrameSent s)).hostQueue
        = [] := by decide +kernel

theorem test_holdoff_over_leaves_the_link_carrying :
    (∃ e, ((heldOff 498).engine.link.later 1) = .holdoff e 499) ∧
      (∃ r, ((heldOff 499).engine.link.later 1) = .carrying r ∧ r.attempt = .resend) := ⟨⟨_, rfl⟩, ⟨_, rfl, rfl⟩⟩

/-! ### The module side -/

/-- The frame of an ASSIGN with a guard and its data bytes, after the lead-in. -/
def assignFrame (data : List Byte) (retransmit : Bool) : List Byte :=
  (requestFrame ⟨0, .assign, 0x4C21, data.length, data⟩ 8 retransmit).drop 1

/-- An unassigned module with that ID. -/
def unassigned : RemoteModule := 
  { id := 0x00A1000000004C21, descriptor := [], hasAttention := false, attnWord := 0, registers := [], address := none
    lastSeq := none, saved := none, assignGuard := none, released := none }

theorem test_assign_carries_one_byte :
    (parseRequest (assignFrame [1] false)).isSome = true ∧ parseRequest (assignFrame [] false) = none ∧
      parseRequest (assignFrame [1, 0] false) = none := by decide +kernel

theorem test_replayed_assign_is_answered_again :
    ((parseRequest (assignFrame [1] true)).map fun q =>
      ({ unassigned with lastSeq := some 8, saved := some ⟨0, .refused, false, 8, []⟩ }.receive true q false).2) =
        some (some ⟨0, .refused, false, 8, []⟩) := by decide +kernel

theorem test_clear_carries_two_bytes :
    (parseRequest ((requestFrame ⟨1, .attnClear, 0, 2, [1, 0]⟩ 8 false).drop 1)).isSome = true ∧
      parseRequest ((requestFrame ⟨1, .attnClear, 0, 1, [1]⟩ 8 false).drop 1) = none := by decide +kernel

theorem test_assign_of_an_address_outside_1_to_14_is_refused :
    ((parseRequest (assignFrame [0x11] false)).map fun q => (unassigned.receive true q false).1.address) = some none ∧
      ((parseRequest (assignFrame [0x11] false)).map fun q =>
        ((unassigned.receive true q false).2.map Response.status)) = some (some .refused) ∧
      ((parseRequest (assignFrame [0x0E] false)).map fun q => (unassigned.receive true q false).1.address) =
        some (some 13) := by decide +kernel

theorem test_first_slot_is_enabled :
    slotEnables [some unassigned, none, some unassigned] = [true, false, false] ∧
      slotEnables [none, some { unassigned with address := some 0 }, some unassigned] = [true, true, true] := by decide +kernel

/-! ### Witnesses: states and operands that meet the hypotheses of the statements, clause by clause -/

theorem matches_iff (x : Slot) (a : BitVec 17) (w : Width) :
    Matches x a w ↔ (x.info?.any fun i => decide (i.hostAddr = a ∧ i.width = w)) = true := by
  simp [Matches, Option.any_eq_true]

theorem misses_of_empty (s : State) (n : Fin 8) (a : ModAddr) (o : Half) (w : Width)
    (h : s.cache.lines = Vector.replicate 32 none) : Misses s n a o w := by
  intro _ i l hl
  rw [h, vget_replicate] at hl
  cases hl

/-- The first word of window 0, read. -/
theorem passes_read : Passes live .read 0x10000 0xF 0 0 0 .four :=
  ⟨by decide +kernel, by decide +kernel, by unfold Selected; decide +kernel, by decide +kernel, by decide +kernel,
   by decide +kernel, by decide +kernel, by decide +kernel⟩

/-- The last word of window 0, written. -/
theorem passes_write_at_the_limit : Passes live .write 0x100FC 0xF 0 0 0 .four :=
  ⟨by decide +kernel, by decide +kernel, by unfold Selected; decide +kernel, by decide +kernel, by decide +kernel,
   by decide +kernel, by decide +kernel, by decide +kernel⟩

/-- A state where every timer runs. -/
def ticking : State :=
  { powered .waking live with
    power := { live.power with state := .waking, wakeTimer := some 3, wakeSettle := some 5000 }
    slots := vset live.slots 3 (.complete slotA .ok (some 1) 9), engine := { live.engine with link := .settling 4 5000 }
    port := { live.port with held := some ⟨.slot 0, 20, 0⟩ } }

theorem witness_EmptyQueueLetsAMicrosecondPass :
    live.pending = [] ∧ ticking.pending = [] ∧ ticking.disc.queryTimer = none ∧ live.disc.queryTimer = some 0 ∧
      ticking.power.wakeTimer = some 3 ∧ (live.entry 0).pollTimer = some 0 ∧ live.power.state = .active ∧
      (ticking.entry 0).pollTimer = some 0 ∧ ticking.power.state = .waking ∧
      vget ticking.slots 3 = .complete slotA .ok (some 1) 9 ∧ ticking.port.held = some ⟨.slot 0, 20, 0⟩ ∧
      ticking.engine.link = .settling 4 5000 ∧ live.engine.link = .free ∧
      (∀ a, ∃ r, (reading a).engine.link = .carrying r ∧ r.attempt = a) ∧ (∀ a, (reading a).pending = []) ∧
      (∀ n, ∃ r, (heldOff n).engine.link = .holdoff r n ∧ r.params.busyHoldoff = 500) ∧ (heldOff 499).pending = [] := by
  refine ⟨by decide, by decide, by decide, by decide, by decide, by decide, by decide, by decide, by decide, by decide, by decide,
    by decide, by decide, fun a => ⟨_, rfl, rfl⟩, fun _ => rfl, fun n => ⟨_, rfl, rfl⟩, rfl⟩

theorem witness_CommandsLeaveTheQueueAlone : ∃ t, exec .arbiterGrant { live with pending := [.settled] } = .next t := ⟨_, rfl⟩

/-! #### The laws, in a state with something of each kind in it -/

/-- A record of the event queue. -/
def recA : EventRec := ⟨7, .wake, none, 1, 0, 0, 0, .line0, false⟩

/-- A live state with a record, a queued mailbox entry, a management request, a binding, a cache line and a held fetch. -/
def busy : State :=
  { withEntry (fun e => { e with attention := .fetching }) cached with
    pending := [.attnReleased]
    events := { live.events with list := [recA, { recA with seq := 8 }], nextSeq := 9, reservations := 1 }
    hostQueue := [mailA], mgmtQueue := [.attnFetch 0 1], mbx := { live.mbx with state := .queued, target := 1 }
    bindings := vset live.bindings 13 (some ⟨5, .strict⟩)
    attn := { live.attn with mode := .held, fetches := vset live.attn.fetches 0 (some ⟨1, true⟩) } }

theorem witness_step : ∃ t, step busy = .next t := ⟨_, rfl⟩

theorem witness_EventLawKept : EventLaw busy ∧ RouteLaw busy := by unfold EventLaw RouteLaw; decide +kernel

theorem witness_SeqLawKept : SeqLaw busy := by
  intro i r h
  match i with
  | 0 => cases h; decide
  | 1 => cases h; decide
  | i + 2 => simp [busy] at h

theorem witness_QueueLawKept : QueueLaw busy ∧ QueueLaw full := by unfold QueueLaw; decide +kernel

theorem witness_BindingLawKept : BindingLaw busy := by
  intro a b x y ha hb _
  have h : ∀ c z, vget busy.bindings c = some z → c = 13 := by
    intro c z hc
    have hv : vget busy.bindings c = if (13 : ModAddr) = c then some ⟨5, .strict⟩ else none := by
      show vget (vset live.bindings 13 _) c = _
      rw [vget_vset]; congr 1; show vget (Vector.replicate 14 none) c = _; rw [vget_replicate]
    rw [hv] at hc
    split at hc
    · next e => exact e.symm
    · cases hc
  rw [h a x ha, h b y hb]

theorem witness_ConfigurationLawKept : WindowLaw busy ∧ BindingLaw busy ∧ TimingLaw busy ∧ SelectLaw busy := by
  refine ⟨by unfold WindowLaw; decide +kernel, witness_BindingLawKept, fun p => (paramAccepts_iff _ _).mp ?_,
    by unfold SelectLaw; decide +kernel⟩
  cases p <;> decide

theorem witness_ModuleTableLawKept : ModuleLaw busy ∧ EmptyLaw busy := by
  refine ⟨fun a b _ ha hb _ _ => ?_, by unfold EmptyLaw; decide +kernel⟩
  have h : ∀ c : ModAddr, (busy.entry c).state ≠ .empty → c = 0 := by decide +kernel
  rw [h a ha, h b hb]

theorem witness_CacheLawKept : CacheLaw busy := by
  have h : ∀ i l, vget busy.cache.lines i = some l → i = 31 ∧ l = lineA := by
    intro i l hl
    have hv : vget busy.cache.lines i = if (31 : Fin 32) = i then some lineA else none := by
      show vget (vset (Vector.replicate 32 none) 31 (some lineA)) i = _
      rw [vget_vset, vget_replicate]
    rw [hv] at hl
    split at hl
    · next e => exact ⟨e.symm, (Option.some.inj hl).symm⟩
    · cases hl
  refine ⟨fun i l hl => ?_, fun i j l m hl hm hn => ?_⟩
  · rw [(h i l hl).2]; decide +kernel
  · exact absurd ((h i l hl).1.trans (h j m hm).1.symm) hn

theorem witness_MailboxLawKept : MailboxLaw busy := by
  refine ⟨by decide +kernel, by decide +kernel, fun r e hr => ?_⟩
  cases hr

theorem witness_QuietLawKept : QuietLaw busy ∧ HoldLaw busy :=
  ⟨quiet_of_check _ (by decide +kernel), fun h => by cases h⟩

theorem witness_DueLawKept : busy.mgmtRoom = true ∧ DueLaw busy := by unfold DueLaw; decide +kernel

theorem witness_SleepLawKept : (powered .asleep live).engine.link = .free ∧ SleepLaw (powered .asleep live) := by
  unfold SleepLaw; decide +kernel

theorem witness_HoldLawKept : State.reset.pins.hold = true ∧ HoldLaw State.reset := ⟨rfl, fun _ => rfl⟩

theorem witness_AttentionLawKept : AttnLaw busy ∧ EmptyLaw busy := by unfold AttnLaw EmptyLaw; decide +kernel

/-! #### Resets and the ATTN level -/

theorem witness_ColdResetAndRelease :
    live.pins.cold = false ∧ (live.pins.host = false ∧ live.power.retain = false) ∧
      (State.reset.pins.hold = true ∧ State.reset.pins.host = false ∧ State.reset.pins.cold = true) ∧
      (let s : State := { pins := ⟨false, true, true⟩ }
       s.pins.hold = true ∧ s.pins.cold = false ∧ s.pins.host = true) := by decide

/-- The live state with RETAIN set. -/
def retaining (s : State) : State := { s with power := { s.power with retain := true } }

theorem witness_HostPortResetRetains :
    (retaining live).pins.host = false ∧ (retaining live).power.retain = true ∧
      (retaining live).events.routeOf .hostResetRetained ≠ .suppress ∧ (retaining live).engine.link = .free ∧
      (retaining live).power.state = .active ∧
      (∃ r, (retaining (reading .receiving)).engine.link = .carrying r ∧ r.source = .host readA false) ∧
      (∃ r, (retaining (carrying (.management (.ping 0 1)) ⟨1, .ping, 0, 0, []⟩ .sending live)).engine.link = .carrying r ∧
        r.source = .management (.ping 0 1)) ∧ live.pins.hold = false := by
  refine ⟨by decide, by decide, by decide, by decide, by decide, ⟨_, rfl, rfl⟩, ⟨_, rfl, rfl⟩, by decide⟩

theorem witness_AttnLevelChanges :
    live.pins.hold = false ∧ live.attn.level = false ∧ QuietLaw live ∧ live.power.state = .active ∧
      live.attn.sweep = none ∧ QuietLaw { live with attn := { live.attn with sweep := some [0] } } ∧
      QuietLaw (powered .waking live) ∧ QuietLaw (powered .asleep live) :=
  ⟨by decide, by decide, quiet_of_check _ (by decide), by decide, by decide, quiet_of_check _ (by decide),
   quiet_of_check _ (by decide), quiet_of_check _ (by decide)⟩

/-! #### Window accesses -/

theorem witness_UndecodedAccessGetsError :
    live.portFree = true ∧ noTarget 0x01000 0xF = true ∧ noTarget 0x0FFFC 0xF = true ∧
      (inWindowSpace 0x10000 = true ∧ laneGroup? 0x5 = none) ∧
      (inWindowSpace 0x10100 = true ∧ laneGroup? 0xF = some (0, .four) ∧
        ∀ n, (vget live.windows n).enabled = true → ¬((vget live.windows n).base ≤ winOffset (accessAddr 0x10100 0) ∧
          winOffset (accessAddr 0x10100 0) ≤ (vget live.windows n).limit)) := by decide +kernel

/-- The live state with window 0 changed. -/
def withWindow (f : Window → Window) : State := { live with windows := vset live.windows 0 (f windowA) }

theorem witness_WindowTestsRefuse :
    live.portFree = true ∧ inWindowSpace 0x100FC = true ∧ laneGroup? 0x3 = some (0, .two) ∧
      Selected live (winOffset (accessAddr 0x100FC 0)) 0 ∧ (Width.two ≠ (vget live.windows 0).width) ∧
      (vget (withWindow fun w => { w with readOnly := true }).windows 0).readOnly = true ∧
      Selected (withWindow fun w => { w with readOnly := true }) (winOffset (accessAddr 0x100FC 0)) 0 ∧
      (∀ a, modAddr? (vget (withWindow fun w => { w with target := 14 }).windows 0).target = some a →
        ((withWindow fun w => { w with target := 14 }).entry a).state ≠ .online) ∧
      modAddr? (vget live.windows 0).target = some 0 ∧ (live.entry 0).state = .online ∧
      (vget (withWindow fun w => { w with expectedClass := 1 }).windows 0).expectedClass ≠ 0 ∧
      (live.entry 0).moduleClass ≠ some 1 := by
  unfold Selected; decide +kernel

/-- A live state whose module takes at most two bytes. -/
def narrow : State := withEntry (fun e => { e with widthLimit := .two }) live

theorem passes_narrow (d : Dir) (addr : BitVec 17) (h : Passes live d addr 0xF 0 0 0 .four) :
    Passes narrow d addr 0xF 0 0 0 .four :=
  ⟨h.space, h.group, h.selected, h.width, h.writable, h.target, by decide +kernel, by decide +kernel⟩

theorem witness_WindowWriteIsPosted :
    live.portFree = true ∧ QuietLaw live ∧ Passes live .write 0x100FC 0xF 0 0 0 .four ∧ live.hostQueue = [] ∧
      Width.four.bytes ≤ (live.entry 0).widthLimit.bytes ∧
      ((withEntry (fun e => { e with widthLimit := .two }) live).entry 0).widthLimit.bytes < Width.four.bytes ∧
      QuietLaw { live with hostQueue := List.replicate 15 writeA } ∧ QuietLaw (powered .asleep live) ∧
      (QuietLaw narrow ∧ DueLaw narrow ∧ Passes narrow .write 0x100FC 0xF 0 0 0 .four ∧ narrow.hostQueue = [] ∧
        narrow.hostOnLink = false ∧ narrow.power.state = .active) ∧
      (QuietLaw (reading .sending) ∧ (reading .sending).hostOnLink = true ∧
        Passes (reading .sending) .write 0x100FC 0xF 0 0 0 .four) := by
  refine ⟨by decide, quiet_of_check _ (by decide), passes_write_at_the_limit, by decide, by decide, by decide,
   quiet_of_check _ (by decide), quiet_of_check _ (by decide), ⟨quiet_of_check _ (by decide), by unfold DueLaw; decide +kernel,
   passes_narrow _ _ passes_write_at_the_limit, by decide, by decide, by decide⟩,
   ⟨quiet_of_check _ (by decide), by decide, ⟨passes_write_at_the_limit.space, passes_write_at_the_limit.group,
     passes_write_at_the_limit.selected, passes_write_at_the_limit.width, passes_write_at_the_limit.writable,
     passes_write_at_the_limit.target, passes_write_at_the_limit.online, passes_write_at_the_limit.same⟩⟩⟩

theorem passes_read_full : Passes full .read 0x10000 0xF 0 0 0 .four :=
  ⟨passes_read.space, passes_read.group, passes_read.selected, passes_read.width, passes_read.writable, passes_read.target,
   passes_read.online, passes_read.same⟩

theorem passes_write_full : Passes full .write 0x100FC 0xF 0 0 0 .four :=
  ⟨passes_write_at_the_limit.space, passes_write_at_the_limit.group, passes_write_at_the_limit.selected,
   passes_write_at_the_limit.width, passes_write_at_the_limit.writable, passes_write_at_the_limit.target,
   passes_write_at_the_limit.online, passes_write_at_the_limit.same⟩

theorem witness_FullQueueHoldsOrRefuses :
    full.portFree = true ∧ 16 ≤ full.hostQueue.length ∧ Passes full .write 0x100FC 0xF 0 0 0 .four ∧
      full.timing.hostHold ≠ 0 ∧ ({ full.timing with hostHold := 0 } : Timing).hostHold = 0 ∧
      Passes full .read 0x10000 0xF 0 0 0 .four ∧ (∀ o, Misses full 0 0 o .four) ∧
      (∀ j, ¬Matches (vget full.slots j) (accessAddr 0x10000 0) .four) ∧ vget full.slots 3 = .free :=
  ⟨by decide, by decide, passes_write_full, by decide, by decide, passes_read_full, fun _ => misses_of_empty _ _ _ _ _ rfl,
   by simp only [matches_iff]; decide, by decide⟩

theorem witness_CachedReadHits :
    cached.portFree = true ∧ CacheLaw busy ∧ Passes cached .read 0x10000 0xF 0 0 0 .four ∧
      (vget cached.windows 0).cacheable = true ∧ vget cached.cache.lines 31 = some lineA ∧ lineA.addr = 0 ∧
      lineA.gen = (cached.entry 0).generation ∧
      lineA.offset = remoteOffset (vget cached.windows 0) (winOffset (accessAddr 0x10000 0)) ∧ lineA.width = .four ∧
      Matches (.complete slotA .ok none 0) (accessAddr 0x10000 0) .four :=
  ⟨by decide, witness_CacheLawKept, ⟨passes_read.space, passes_read.group, passes_read.selected, passes_read.width,
     passes_read.writable, passes_read.target, passes_read.online, passes_read.same⟩,
   by decide, by decide +kernel, by decide, by decide, by decide, by decide, ⟨slotA, rfl, by decide, rfl⟩⟩

theorem witness_CompleteSlotIsCollected :
    let s := withSlot 3 (.complete slotA .refused none 0) live
    s.portFree = true ∧ Passes s .read 0x10000 0xF 0 0 0 .four ∧ (∀ o, Misses s 0 0 o .four) ∧
      vget s.slots 3 = .complete slotA .refused none 0 ∧ slotA.hostAddr = accessAddr 0x10000 0 ∧ slotA.width = .four ∧
      ∀ k < 3, ¬Matches (vget s.slots k) (accessAddr 0x10000 0) .four :=
  ⟨by decide, ⟨passes_read.space, passes_read.group, passes_read.selected, passes_read.width, passes_read.writable,
     passes_read.target, passes_read.online, passes_read.same⟩, fun _ => misses_of_empty _ _ _ _ _ rfl,
   by decide, by decide, by decide, by simp only [matches_iff]; decide⟩

theorem witness_PendingSlotGivesRetry :
    let s := withSlot 3 (.pending slotA) live
    s.portFree = true ∧ Passes s .read 0x10000 0xF 0 0 0 .four ∧ (∀ o, Misses s 0 0 o .four) ∧
      vget s.slots 3 = .pending slotA ∧ slotA.hostAddr = accessAddr 0x10000 0 ∧ slotA.width = .four ∧
      ∀ k < 3, ¬Matches (vget s.slots k) (accessAddr 0x10000 0) .four :=
  ⟨by decide, ⟨passes_read.space, passes_read.group, passes_read.selected, passes_read.width, passes_read.writable,
     passes_read.target, passes_read.online, passes_read.same⟩, fun _ => misses_of_empty _ _ _ _ _ rfl,
   by decide, by decide, by decide, by simp only [matches_iff]; decide⟩

/-- A live state with every slot taken for other reads. -/
def slotless : State := { live with slots := Vector.replicate 4 (.pending { slotA with hostAddr := 0x10080 }) }

theorem witness_ReadIsGivenASlot :
    live.portFree = true ∧ QuietLaw live ∧ Passes live .read 0x10000 0xF 0 0 0 .four ∧ (∀ o, Misses live 0 0 o .four) ∧
      (∀ k, ¬Matches (vget live.slots k) (accessAddr 0x10000 0) .four) ∧ vget live.slots 0 = .free ∧
      live.hostQueue.length < 16 ∧ Width.four.bytes ≤ (live.entry 0).widthLimit.bytes ∧
      (∀ k, vget slotless.slots k ≠ .free) ∧ (∀ k, ¬Matches (vget slotless.slots k) (accessAddr 0x10000 0) .four) ∧
      QuietLaw (powered .asleep live) ∧
      (QuietLaw narrow ∧ Passes narrow .read 0x10000 0xF 0 0 0 .four ∧ (∀ o, Misses narrow 0 0 o .four) ∧
        (∀ k, ¬Matches (vget narrow.slots k) (accessAddr 0x10000 0) .four) ∧ vget narrow.slots 0 = .free ∧
        narrow.hostQueue = [] ∧ narrow.hostOnLink = false ∧
        (narrow.entry 0).widthLimit.bytes < Width.four.bytes ∧ narrow.timing.hostHold ≠ 0) ∧
      (QuietLaw (carrying (.host writeA false) writeA.payload .sending live) ∧
        (carrying (.host writeA false) writeA.payload .sending live).hostOnLink = true) :=
  ⟨by decide, quiet_of_check _ (by decide), passes_read, fun _ => misses_of_empty _ _ _ _ _ rfl,
   by simp only [matches_iff]; decide, by decide, by decide, by decide, by decide, by simp only [matches_iff]; decide,
   quiet_of_check _ (by decide),
   ⟨quiet_of_check _ (by decide), passes_narrow _ _ passes_read, fun _ => misses_of_empty _ _ _ _ _ rfl,
    by simp only [matches_iff]; decide, by decide, by decide, by decide, by decide, by decide⟩,
   ⟨quiet_of_check _ (by decide), by decide⟩⟩

/-- A live state with an access held. -/
def holding (w : HeldFor) (s : State) : State := { s with port := { s.port with held := some ⟨w, 20, 20⟩ } }

/-- The read of the first word of window 0 as it waits for a place. -/
def accA : ReadAccess := ⟨0x10000, .four, 0, 0, 1, 0x100, true⟩

theorem witness_HeldAccessEnds :
    (holding (.writePlace writeA) live).pins.hold = false ∧
      (holding (.writePlace writeA) live).port.held = some ⟨.writePlace writeA, 20, 20⟩ ∧
      QuietLaw (holding (.writePlace writeA) live) ∧ headCheck writeA (holding (.writePlace writeA) live) = none ∧
      (∀ k, vget (holding (.readPlace accA) slotless).slots k ≠ .free) ∧
      QuietLaw (holding (.readPlace accA) { live with hostQueue := List.replicate 15 writeA }) ∧
      vget (holding (.readPlace accA) live).slots 0 = .free ∧
      (QuietLaw (holding (.writePlace writeA) (powered .asleep live)) ∧
        headCheck writeA (holding (.writePlace writeA) (powered .asleep live)) = none) ∧
      (let h := holding (.readPlace accA) (carrying (.host writeA false) writeA.payload .sending live)
       QuietLaw h ∧ h.hostOnLink = true ∧ vget h.slots 0 = .free) :=
  ⟨by decide, by decide, quiet_of_check _ (by decide), by decide, by decide, quiet_of_check _ (by decide), by decide,
   ⟨quiet_of_check _ (by decide), by decide⟩, ⟨quiet_of_check _ (by decide), by decide, by decide⟩⟩

/-! #### Register writes -/

theorem witness_PartialRegisterWriteGetsError :
    live.portFree = true ∧ writeLanes (.mbxGoNoCommand 0x7) = some 0x7 ∧ (0x7 : BitVec 4) ≠ 0xF ∧
      writeLanes (.registerWrite 0x080 0x0 0) = some 0x0 := by decide

/-- A live state with an autoload run in progress. -/
def loading : State := { live with autoload := { live.autoload with phase := .reading }, disc := {} }

theorem witness_WindowRegisterWrites :
    live.portFree = true ∧ loading.portFree = true ∧ loading.autoloadRuns = true ∧ (vget live.windows 0).enabled = true ∧
      live.autoloadRuns = false ∧ (vget live.windows 7).enabled = false ∧
      ((3 : Word).extractLsb' 0 2 = 3#2) ∧ ((2 : Word).extractLsb' 0 2 = BitVec.ofNat 2 Width.four.code) ∧
      (let w := { windowA with enabled := false, limitPage := 0xFF, remoteBase := 0 }
       w.base ≤ w.limit ∧ 1 ≤ w.target.toNat ∧ w.target.toNat ≤ 14 ∧ w.remoteBase.toNat + (w.limit - w.base) ≤ 0xFFFF ∧
         w.width.bytes ∣ w.remoteBase.toNat) ∧
      ¬(1 ≤ (vget live.windows 7).target.toNat) := by decide +kernel

theorem witness_FaultAndSelectionWrites :
    live.portFree = true ∧ (1 ≤ ((14 : Word).extractLsb' 0 4).toNat ∧ ((14 : Word).extractLsb' 0 4).toNat ≤ 14) ∧
      ¬(1 ≤ ((0 : Word).extractLsb' 0 4).toNat) ∧ ¬(((15 : Word).extractLsb' 0 4).toNat ≤ 14) := by decide

theorem witness_TimingWrites :
    live.portFree = true ∧ loading.autoloadRuns = true ∧ ¬InTimingTable .discardTime (0 : Word).toNat ∧
      live.autoloadRuns = false ∧ InTimingTable .discardTime (1 : Word).toNat ∧
      InTimingTable .discardTime (255 : Word).toNat ∧ QuietLaw live ∧
      vget (withSlot 3 (.complete slotA .ok (some 1) 1000) live).slots 3 = .complete slotA .ok (some 1) 1000 ∧
      QuietLaw (withSlot 3 (.complete slotA .ok (some 1) 1000) live) ∧
      InTimingTable .pollInterval (1 : Word).toNat ∧ live.power.state = .active ∧ (live.entry 0).state = .online ∧
      (live.entry 0).pollTimer = some 0 ∧
      (let q := withEntry (fun e => { e with state := .quarantined, pollTimer := some 10000 }) live
       QuietLaw q ∧ (q.entry 0).state = .quarantined ∧ (q.entry 0).pollTimer = some 10000 ∧
         InTimingTable .quarPollInterval (10 : Word).toNat) :=
  ⟨by decide, by decide, fun h => by have k := (paramAccepts_iff _ _).mpr h; revert k; decide, by decide,
   (paramAccepts_iff _ _).mp (by decide), (paramAccepts_iff _ _).mp (by decide), quiet_of_check _ (by decide), by decide,
   quiet_of_check _ (by decide), (paramAccepts_iff _ _).mp (by decide), by decide, by decide, by decide,
   ⟨quiet_of_check _ (by decide), by decide, by decide, (paramAccepts_iff _ _).mp (by decide)⟩⟩

theorem test_timing_ranges_end_where_the_table_says :
    (∀ x ∈ [(Param.respTimeout, 20), (.respTimeout, 2000), (.retryLimit, 7), (.busyLimit, 15), (.busyHoldoff, 50), (.busyHoldoff, 5000),
        (.pollInterval, 255), (.discoveryInterval, 1), (.quarThreshold, 15), (.departThreshold, 1), (.quarPollInterval, 2550),
        (.hostHold, 0), (.discardTime, 255), (.settleTime, 255), (.linkRate, 250)], paramAccepts x.1 x.2 = true) ∧
      ∀ x ∈ [(Param.respTimeout, 10), (.respTimeout, 2010), (.respTimeout, 25), (.retryLimit, 8), (.busyLimit, 16), (.busyHoldoff, 60),
        (.pollInterval, 0), (.quarPollInterval, 2555), (.hostHold, 256), (.discardTime, 0), (.linkRate, 750)],
        paramAccepts x.1 x.2 = false := by decide

theorem witness_EventRegisterWrites :
    live.portFree = true ∧ (3 : Word).toNat = routeCode .suppress ∧ live.autoloadRuns = false ∧
      (0 : Word).toNat = routeCode .none ∧ loading.autoloadRuns = true ∧ 3 < (4 : Word).toNat ∧ (2 : Word) ≠ 0 ∧
      (2 : Word) ≠ 1 := by decide

/-- A live state with one held ATTENTION record at the head, its entry HELD. -/
def holdingWord (m : EvtMode) : State :=
  { withEntry (fun e => { e with attention := .held, clearBits := some 3 }) live with
    events := { live.events with list := [⟨255, .attention, some 0, 0, 3, 1, 0, .line1, true⟩], mode := m }
    attn := { live.attn with mode := .held } }

theorem witness_PopRemovesTheHead :
    live.portFree = true ∧ QuietLaw live ∧ laneGroup? 0x8 = some (3, .one) ∧ live.events.list = [] ∧
      live.events.mode = .pop ∧ QuietLaw (holdingWord .pop) ∧ (holdingWord .pop).events.list ≠ [] ∧
      (holdingWord .release).events.mode = .release ∧ laneGroup? 0x0 = none ∧ laneGroup? 0x6 = none ∧
      (let r : State := { live with events := { live.events with mode := .release } }
       r.portFree = true ∧ r.events.list = [] ∧ r.events.mode = .release) :=
  ⟨by decide, quiet_of_check _ (by decide), by decide, by decide, by decide, quiet_of_check _ (by decide), by decide,
   by decide, by decide, by decide, by decide⟩

theorem test_pop_without_a_lane_group_is_refused :
    (after (.evtPop 0x6) (holdingWord .pop)).port.answer = some ⟨.error, some 0xFFFFFFFF⟩ ∧
      (after (.evtPop 0x6) (holdingWord .pop)).events = (holdingWord .pop).events := by decide

theorem witness_ReleaseNamesTheHead :
    (holdingWord .release).portFree = true ∧ QuietLaw (holdingWord .release) ∧ (holdingWord .release).events.mode = .release ∧
      ((holdingWord .release).events.list.map fun r => r.seq.toNat) = [(255 : Word).toNat] ∧ (256 : Word).toNat ≠ 255 ∧
      ({ live.events with mode := .release } : EventUnit).list = [] :=
  ⟨by decide, quiet_of_check _ (by decide), by decide, by decide, by decide, by decide⟩

theorem witness_AttentionModeWrites :
    live.portFree = true ∧ QuietLaw live ∧ live.attn.mode = .auto ∧ QuietLaw (holdingWord .pop) ∧
      (holdingWord .pop).attn.mode = .held :=
  ⟨by decide, quiet_of_check _ (by decide), by decide, quiet_of_check _ (by decide), by decide⟩

/-- A live state with SLEEP_REQ set, in a power state, and a write queued. -/
def sleepy (p : PowerState) : State :=
  { powered p live with power := { live.power with state := p, sleepReq := true }, hostQueue := [writeA] }

theorem witness_PowerControlWrites :
    live.portFree = true ∧ QuietLaw live ∧ live.power.sleepReq = false ∧ live.power.state = .active ∧
      QuietLaw (powered .waking live) ∧ (∀ p, QuietLaw (sleepy p)) ∧ (sleepy .asleep).power.sleepReq = true ∧
      (sleepy .asleep).timing.settleTime ≠ 0 :=
  ⟨by decide, quiet_of_check _ (by decide), by decide, by decide, quiet_of_check _ (by decide),
   fun p => by cases p <;> exact quiet_of_check _ (by decide), by decide, by decide⟩

theorem witness_MailboxRegisterWrites :
    live.portFree = true ∧ (mailboxIn .waiting live).mbx.busy = true ∧ (mailboxIn .failed live).mbx.busy = false := by decide

/-- The mailbox, the description and the records as the views show them: a state with a slot of each kind, a module with a
capability, a record at the head and a join in progress. -/
def shown : State :=
  { withEntry (fun e => { e with capabilities := [⟨1, 3, 1, 0⟩], uniqueId := some 0x00A1000000004C21 }) busy with
    slots := vset (vset live.slots 3 (.complete slotA .refused none 7)) 2 (.pending slotA)
    events := { busy.events with line0En := true } }

theorem witness_OtherRegisterWrites :
    live.portFree = true ∧ (2 : Word) ≠ 0 ∧ (2 : Word) ≠ 1 ∧ QueueLaw shown ∧ EventLaw shown ∧
      (laneGroup? 0x5 = none ∧ laneGroup? 0x4 = some (2, .one)) ∧
      ((powered .draining live).power.state = .draining ∧ live.power.state ≠ .draining) ∧
      (let j := withEntry (fun e => { e with state := .describing }) { live with disc := { live.disc with state := .joining } }
       j.disc.state = .joining ∧ (j.entry 0).state = .describing ∧
         ∀ b, (j.entry b).state = .joining ∨ (j.entry b).state = .describing → b = 0) ∧
      (live.events.list = [] ∧ ∃ r rest, shown.events.list = r :: rest ∧ r.route = .line0) ∧
      (vget shown.slots 0 = .free ∧ vget shown.slots 3 = .complete slotA .refused none 7) ∧
      (modAddr? shown.port.modSel = some 0 ∧ (shown.entry 0).failureRun ≤ 15 ∧ (shown.entry 0).departCount ≤ 15 ∧
        (shown.entry 0).capabilities.length ≤ 8 ∧ (shown.entry 0).capabilities[0]? = some ⟨1, 3, 1, 0⟩ ∧
        (shown.entry 0).capabilities[7]? = none) ∧
      ((vget shown.windows 0).enabled = true ∧ WindowLaw shown) ∧ shown.line0Active = true ∧ live.line0Active = false := by
  refine ⟨by decide, by decide, by decide, by unfold QueueLaw; decide +kernel, by unfold EventLaw; decide +kernel, by decide,
    by decide, by decide +kernel, ⟨by decide, _, _, rfl, by decide⟩, by decide +kernel, by decide +kernel, ?_, by decide +kernel, by decide⟩
  exact ⟨by decide +kernel, by unfold WindowLaw; decide +kernel⟩

/-! #### The command mailbox -/

theorem goTaken_of_check (s : State) (h : (s.portFree && !s.mbx.busy && !s.autoloadRuns) = true) : GoTaken s := by
  simpa [GoTaken, and_assoc] using h

theorem witness_GoWithoutACommand :
    .mbxGoNoCommand 0xF#4 ∈ goCommands ∧ live.portFree = true ∧ QuietLaw (mailboxIn .active live) ∧
      (mailboxIn .active live).mbx.busy = true ∧ QuietLaw loading ∧ loading.mbx.busy = false ∧ loading.autoloadRuns = true ∧
      loading.mbx.op = 0 ∧ 10 < (mailbox 11 1 live).mbx.op.toNat ∧ QuietLaw (mailbox 6 1 loading) ∧
      (mailbox 6 1 loading).mbx.doneAddress = some 0 :=
  ⟨by decide, by decide, quiet_of_check _ (by decide), by decide, quiet_of_check _ (by decide), by decide, by decide,
   by decide, by decide, quiet_of_check _ (by decide), by decide⟩

theorem witness_LinkCommandsAreQueued :
    GoTaken (mailbox 0 1 live) ∧ QuietLaw (mailbox 0 1 live) ∧ QuietLaw (mailbox 2 1 (powered .asleep live)) ∧
      modAddr? (mailbox 1 15 live).mbx.target = none ∧ modAddr? (mailbox 0 1 live).mbx.target = some 0 ∧
      255 < (256 : Half).toNat ∧ ((mailbox 0 14 live).entry 13).state = .empty ∧
      QuietLaw (mailbox 0 1 full) ∧ 16 ≤ (mailbox 0 1 full).hostQueue.length ∧
      Width.two.bytes = (mailbox 0 1 live).mbx.width.toNat ∧
      (mailbox 0 1 live).mbx.offset.toNat % (mailbox 0 1 live).mbx.width.toNat = 0 ∧
      Width.two.bytes ≤ ((mailbox 0 1 live).entry 0).widthLimit.bytes ∧
      (let h := mailbox 1 1 (carrying (.host readA false) readA.payload .sending live)
       GoTaken h ∧ QuietLaw h ∧ h.hostOnLink = true ∧ h.hostQueue = []) :=
  ⟨goTaken_of_check _ (by decide), quiet_of_check _ (by decide), quiet_of_check _ (by decide), by decide, by decide,
   by decide, by decide, quiet_of_check _ (by decide), by decide, by decide, by decide, by decide,
   ⟨goTaken_of_check _ (by decide), quiet_of_check _ (by decide), by decide, by decide⟩⟩

/-- A live state with one binding, and BIND's operands. -/
def bindingState (op : Byte) (target : BitVec 4) (data : Word) : State :=
  let s := mailbox op target live
  { s with bindings := vset live.bindings 4 (some ⟨0x0000000000000009, .strict⟩), mbx := { s.mbx with data := data } }

theorem witness_BindChangesTheTable :
    (∀ d, GoTaken (bindingState 3 5 d)) ∧ (∀ d, QuietLaw (bindingState 3 5 d)) ∧ (bindingState 3 5 9).mbx.op = 3 ∧
      modAddr? (bindingState 3 0 9).mbx.target = none ∧ modAddr? (bindingState 3 5 9).mbx.target = some 4 ∧
      2 ≤ (2 : BitVec 2).toNat ∧ (bindingState 3 5 9).mbx.flagMode.toNat < 2 ∧ (bindingState 3 5 9).mbx.replace = false ∧
      vget (bindingState 3 5 9).bindings 4 = some ⟨9, .strict⟩ ∧
      (bindingState 3 5 9).mbx.xdata ++ (bindingState 3 5 9).mbx.data = (9 : UniqueId) ∧
      (bindingState 3 5 8).mbx.xdata ++ (bindingState 3 5 8).mbx.data ≠ (9 : UniqueId) ∧
      (∀ x, vget live.bindings x = none) :=
  ⟨fun _ => goTaken_of_check _ (by rfl), fun _ => quiet_of_check _ (by rfl), by decide, by decide, by decide, by decide,
   by decide, by decide, by decide, by decide, by decide, by decide⟩

theorem witness_UnbindChangesTheTable :
    GoTaken (bindingState 4 0 9) ∧ QuietLaw (bindingState 4 0 9) ∧ (bindingState 4 0 9).mbx.op = 4 ∧
      vget (bindingState 4 0 9).bindings 4 = some ⟨9, .strict⟩ ∧ (∀ x, vget (mailbox 4 0 live).bindings x = none) :=
  ⟨goTaken_of_check _ (by decide), quiet_of_check _ (by decide), by decide, by decide, by decide⟩

/-- A join in progress at address 2: its entry in a state. -/
def joiningAt (st : ModState) : State :=
  { live with modules := vset live.modules 1 { state := st, generation := 1, uniqueId := some 0x00B2000000009E07, seq := 8 }
              disc := { live.disc with state := .joining, queryTimer := none } }

theorem witness_JoinsAndLeaves :
    live.engine.resetPending = false ∧ ({ live.engine with resetPending := true } : LinkEngine).resetPending = true ∧
      (∀ a, (live.entry a).state ≠ .empty → (live.entry a).uniqueId ≠ some 0x00B2000000009E07) ∧
      (ModuleLaw live ∧ (live.entry 0).state ≠ .empty ∧ (live.entry 0).uniqueId = some (BitVec.ofNat 64 (leNat
        [0x21, 0x4C, 0, 0, 0, 0, 0xA1, 0]))) ∧
      (BindingLaw busy ∧ vget busy.bindings 13 = some ⟨5, .strict⟩ ∧ (busy.entry 13).state = .empty) ∧
      ((live.entry 0).state ≠ .empty ∧ LowestFree live 1 ∧ FreeUnnamed live 13 ∧
        (∀ c b, vget live.bindings c = some b → b.id ≠ 5)) ∧
      ((joiningAt .joining).entry 1).state = .joining ∧ ((joiningAt .describing).entry 1).state = .describing ∧
      2 < (3 : Byte).toNat ∧ bits 0x00001000 8 8 = 16 ∧ bits 0x00000F00 8 8 = 15 ∧ bits 0x05000003 8 8 = 0 ∧
      (∀ c, ((withEntry (fun e => { e with releaseFor := some c }) live).entry 0).releaseFor = some c) ∧
      (live.entry 0).generation ≠ 2 ∧ (live.entry 1).state = .empty ∧ (live.entry 0).state ≠ .joining := by
  refine ⟨by decide, by decide, by decide +kernel, ⟨fun a b _ ha hb _ _ => ?_, by decide +kernel, by decide +kernel⟩,
    ⟨witness_BindingLawKept, by decide +kernel, by decide +kernel⟩,
    ⟨by decide, by unfold LowestFree FreeUnnamed; decide +kernel, by unfold FreeUnnamed; decide +kernel, fun c b hb => ?_⟩,
    by decide +kernel, by decide +kernel, by decide, by decide, by decide, by decide, fun c => by cases c <;> decide +kernel,
    by decide, by decide, by decide⟩
  · have h : ∀ c : ModAddr, (live.entry c).state ≠ .empty → c = 0 := by decide +kernel
    rw [h a ha, h b hb]
  · have h : ∀ c : ModAddr, vget live.bindings c = none := by decide +kernel
    rw [h c] at hb; cases hb

theorem test_every_choice_is_made :
    let s : State := { live with bindings := vset (vset live.bindings 0 (some ⟨7, .strict⟩)) 1 (some ⟨9, .preferred⟩) }
    choose 7 none s = .conflict 0 ∧ choose 9 none s = .address 1 .bound ∧ choose 3 (some 5) s = .address 5 .unbound ∧
      choose 3 (some 1) s = .address 2 .unbound ∧ choose 3 none s = .address 2 .unbound ∧
      choose 7 none { s with bindings := vset s.bindings 0 (some ⟨7, .preferred⟩) } = .address 2 .fallback ∧
      choose 3 none { s with modules := Vector.replicate 14 moduleA } = .full := by decide +kernel

theorem test_chain_of_one_record_makes_the_module_online :
    let d := mgmtOutcome (.descRead 1 1 2) .ok false [0x42, 0x04, 0x01, 0x03] (joiningAt .describing)
    let t := mgmtOutcome (.descRead 1 1 3) .ok false [0x03, 0x01, 0x00, 0x05] d
    d.disc.waiting = some (.descRead 1 1 3) ∧ (t.entry 1).state = .online ∧ (t.entry 1).moduleClass = some 0x0442 ∧
      (t.entry 1).pacing = 5 ∧ t.disc.waiting = some .joinQuery ∧
      (t.events.list.map fun r => (r.kind, r.detailA)) = [(.moduleJoined, 0x00009E07)] := by decide +kernel

/-- A QUARANTINED module in a power state, and READMIT's or FORGET's operands. -/
def quarantined (op : Byte) (p : PowerState) : State :=
  powered p (withEntry (fun e => { e with state := .quarantined }) (mailbox op 1 live))

theorem witness_CommandsThatTakeTime :
    let d := mailbox 7 0 { powered .draining live with hostQueue := [writeA] }
    (GoTaken (mailbox 7 0 live) ∧ QuietLaw (mailbox 7 0 live) ∧ (mailbox 7 0 live).suspended = false ∧
      (mailbox 7 0 live).disc.state = .idle) ∧
      (let s := { mailbox 7 0 live with disc := { live.disc with state := .querying } }
       GoTaken s ∧ QuietLaw s ∧ s.suspended = false) ∧
      (GoTaken d ∧ QuietLaw d ∧ d.power.state = .draining ∧ d.disc.state = .disabled) ∧
      (GoTaken (mailbox 8 0 live) ∧ QuietLaw (mailbox 8 0 live)) ∧ (GoTaken (mailbox 10 0 live) ∧ QuietLaw (mailbox 10 0 live)) ∧
      (∀ op, GoTaken (mailbox op 0 live) ∧ QuietLaw (mailbox op 0 live) ∧ modAddr? (mailbox op 0 live).mbx.target = none) ∧
      (GoTaken (mailbox 5 1 live) ∧ ((mailbox 5 1 live).entry 0).state ≠ .quarantined ∧
        modAddr? (mailbox 6 14 live).mbx.target = some 13 ∧ ((mailbox 6 14 live).entry 13).state = .empty) ∧
      (∀ p, GoTaken (quarantined 5 p)) ∧ (QuietLaw (quarantined 5 .active) ∧ QuietLaw (quarantined 5 .asleep) ∧
        QuietLaw (quarantined 5 .waking) ∧ ((quarantined 5 .active).entry 0).state = .quarantined ∧
        modAddr? (quarantined 5 .active).mbx.target = some 0 ∧ (quarantined 5 .active).attn.level = false) ∧
      (let s := { quarantined 5 .active with attn := { live.attn with level := true } }
       QuietLaw s ∧ s.attn.level = true ∧ s.attn.sweep = none) ∧
      (GoTaken (mailbox 6 1 live) ∧ QuietLaw (mailbox 6 1 live) ∧ ((mailbox 6 1 live).entry 0).state = .online) ∧
      (GoTaken (quarantined 6 .active) ∧ QuietLaw (quarantined 6 .active)) :=
  ⟨⟨goTaken_of_check _ (by decide), quiet_of_check _ (by decide), by decide, by decide⟩,
   ⟨goTaken_of_check _ (by decide), quiet_of_check _ (by decide), by decide⟩,
   ⟨goTaken_of_check _ (by decide), quiet_of_check _ (by decide), by decide, by decide⟩,
   ⟨goTaken_of_check _ (by decide), quiet_of_check _ (by decide)⟩,
   ⟨goTaken_of_check _ (by decide), quiet_of_check _ (by decide)⟩,
   fun _ => ⟨goTaken_of_check _ rfl, quiet_of_check _ rfl, rfl⟩,
   ⟨goTaken_of_check _ (by decide), by decide, by decide, by decide⟩, fun _ => goTaken_of_check _ rfl,
   ⟨quiet_of_check _ (by decide), quiet_of_check _ (by decide), quiet_of_check _ (by decide), by decide, by decide, by decide⟩,
   ⟨quiet_of_check _ (by decide), by decide, by decide⟩,
   ⟨goTaken_of_check _ (by decide), quiet_of_check _ (by decide), by decide⟩,
   ⟨goTaken_of_check _ (by decide), quiet_of_check _ (by decide)⟩⟩

/-- READMIT and FORGET complete: the module is ONLINE with the sweep armed, and its RELEASE is queued. -/
theorem test_readmit_and_forget :
    ((after (.readmit 0xF) (quarantined 5 .active)).entry 0).state = .online ∧
      (after (.readmit 0xF) (quarantined 5 .active)).attn.armed = true ∧
      (after (.readmit 0xF) (quarantined 5 .active)).mbx.state = .done ∧
      (after (.forget 0xF) (mailbox 6 1 live)).mgmtQueue = [.release 0 1] ∧
      (after (.forget 0xF) (mailbox 6 1 live)).mbx.state = .active := by decide +kernel

theorem witness_FlushCacheEmptiesTheCache :
    GoTaken (mailbox 9 0 cached) ∧ QuietLaw (mailbox 9 0 cached) ∧ (mailbox 9 0 cached).mbx.op = 9 :=
  ⟨goTaken_of_check _ (by decide), quiet_of_check _ (by decide), by decide⟩

theorem witness_WaitingCommandAndAbort :
    let w := mailboxIn .waiting (mailbox 0 1 { live with hostQueue := List.replicate 15 writeA })
    (QuietLaw w ∧ w.pins.hold = false ∧ w.mbx.state = .waiting ∧ w.hostQueue ≠ [] ∧ w.hostQueue.length < 16 ∧
      modAddr? w.mbx.target = some 0 ∧ Width.two.bytes = w.mbx.width.toNat ∧ w.mbx.offset.toNat % Width.two.bytes = 0 ∧
      w.portFree = true ∧ w.mbx.op.toNat ≤ 2) ∧
      (let q : State := { mailboxIn .queued live with hostQueue := [writeA, mailA] }
       QuietLaw q ∧ q.portFree = true ∧ q.mbx.state = .queued ∧ writeA.origin ≠ .mailbox) ∧
      (let q : State := { mailboxIn .queued live with hostQueue := [mailA] }
       QuietLaw q ∧ q.portFree = true ∧ mailA.origin = .mailbox ∧ q.hostOnLink = false ∧ MailboxLaw q ∧ DueLaw q) ∧
      (let q : State := { mailboxIn .queued (reading .sending) with hostQueue := [mailA] }
       QuietLaw q ∧ q.portFree = true ∧ q.hostOnLink = true) ∧
      (let q := mailboxIn .waiting (mailbox 1 1 (reading .sending))
       QuietLaw q ∧ q.hostOnLink = true ∧ q.hostQueue.length < 16) ∧
      QuietLaw (mailboxIn .active live) ∧ QuietLaw live ∧ live.mbx.state = .idle := by
  refine ⟨⟨quiet_of_check _ (by decide), by decide, by decide, by decide, by decide, by decide, by decide, by decide, by decide,
     by decide⟩,
   ⟨quiet_of_check _ (by decide), by decide, by decide, by decide⟩,
   ⟨quiet_of_check _ (by decide), by decide, by decide, by decide, ⟨by decide, by decide, fun r e hr => ?_⟩,
    by unfold DueLaw; decide +kernel⟩,
   ⟨quiet_of_check _ (by decide), by decide, by decide⟩, ⟨quiet_of_check _ (by decide), by decide, by decide⟩,
   quiet_of_check _ (by decide), quiet_of_check _ (by decide), by decide⟩
  cases hr

/-! #### The span link -/

theorem witness_ArbiterGrants :
    let b : State := { live with engine := { live.engine with resetPending := true }, disc := {} }
    (live.pins.hold = false ∧ QuietLaw b ∧ b.engine.link = .free ∧ b.power.state = .active ∧ b.autoload.phase = .idle) ∧
      (let h : State := { live with hostQueue := [writeA, readA] }
       QuietLaw h ∧ h.engine.resetPending = false ∧ h.pacingLeft 0 = 0 ∧ headCheck readA h = none ∧ h.mgmtQueue = []) ∧
      (let m : State := { live with mgmtQueue := [.joinQuery, .ping 0 1] }
       QuietLaw m ∧ m.destPacingLeft (MgmtEntry.joinQuery).payload.dest = 0 ∧ (MgmtEntry.joinQuery).payload.dest = 0 ∧
         m.hostQueue = [] ∧ m.suspended = false) ∧
      (let m : State := { live with mgmtQueue := [.ping 0 1], hostQueue := [writeA] }
       QuietLaw m ∧ m.engine.lastTurn = .host) ∧
      modAddr? (MgmtEntry.ping 13 1).payload.dest = some 13 :=
  ⟨⟨by decide, quiet_of_check _ (by decide), by decide, by decide, by decide⟩,
   ⟨quiet_of_check _ (by decide), by decide, by decide, by decide, by decide⟩,
   ⟨quiet_of_check _ (by decide), by decide, by decide, by decide, by decide⟩, ⟨quiet_of_check _ (by decide), by decide⟩,
   by decide⟩

/-- A live state with the broadcast on the link, and a LINK_RESET in progress. -/
def broadcast : State :=
  { mailboxIn .active (mailbox 8 0 (carrying .broadcast broadcastPayload .sending live)) with hostQueue := [writeA, writeA] }

theorem witness_BroadcastClearsTheTable :
    broadcast.pins.hold = false ∧ broadcast.broadcasting = true ∧ EmptyLaw broadcast ∧ MailboxLaw broadcast ∧
      broadcast.mbx.state = .active ∧ broadcast.mbx.op = 8 ∧ broadcast.engine.resetPending = false ∧
      broadcast.power.state = .active ∧ (∀ e ∈ broadcast.hostQueue, e.origin = .windowWrite ∧ e.cancelled = false) ∧
      (let s : State := { live with engine := { live.engine with link := .settling 5000 5000 }, disc := {} }
       QuietLaw s ∧ s.engine.link = .settling 5000 5000 ∧ s.disc.state = .disabled) := by
  refine ⟨by decide, by decide, by unfold EmptyLaw; decide +kernel, ⟨by decide, by decide, fun r e hr hs => ?_⟩, by decide,
    by decide, by decide, by decide, by decide, quiet_of_check _ (by decide), by decide, by decide⟩
  cases hr; cases hs

theorem test_posted_writes_fail_in_order :
    ((after .broadcastSent broadcast).events.list.map fun r => (r.kind, r.code)) =
      [(.moduleLeft, 4), (.mailboxDone, 1), (.writeFailed, 6), (.writeFailed, 6)] := by decide +kernel

theorem witness_AttemptsOnTheLine :
    (∃ r, (reading .sending).engine.link = .carrying r ∧ r.attempt = .sending ∧ r.source ≠ .broadcast) ∧
      (∃ r, (reading (.awaiting 199)).engine.link = .carrying r ∧ r.attempt = .awaiting 199) ∧
      (∃ r, (reading (.gap 0)).engine.link = .carrying r ∧ r.attempt = .gap 0) ∧ (reading .sending).pins.hold = false ∧
      (∃ r, (heldOff 499).engine.link = .holdoff r 499) ∧
      (∃ r, (reading .resend).engine.link = .carrying r ∧ r.attempt = .resend) :=
  ⟨⟨_, rfl, rfl, by decide⟩, ⟨_, rfl, rfl⟩, ⟨_, rfl, rfl⟩, by decide, ⟨_, rfl⟩, ⟨_, rfl, rfl⟩⟩

/-- An OK response to the read on the link. -/
def okFrame : List Byte := responseFields ⟨1, .ok, false, 5, [0x78, 0x56, 0x34, 0x12]⟩

/-- A live state with a mailbox read on the link. -/
def mailReading : State := mailboxIn .active (carrying (.host mailA false) mailA.payload .receiving live)

theorem witness_FinalResponseEndsTheRequest :
    (∃ r, (reading .receiving).engine.link = .carrying r ∧ r.attempt = .receiving ∧ r.source = .host readA false ∧
      r.payload = readA.payload ∧ r.payload.dest = 1 ∧ r.seq = 5) ∧
      MailboxLaw (reading .receiving) ∧
      parseResponse readA.payload.op readA.payload.length okFrame = some ⟨1, .ok, false, 5, [0x78, 0x56, 0x34, 0x12]⟩ ∧
      readA.origin = .windowRead ∧ readA.slot = some 0 ∧ vget (reading .receiving).slots 0 = .pending slotA ∧
      (reading .receiving).port.held = none ∧ MailboxLaw mailReading ∧ mailA.origin = .mailbox ∧
      parseResponse mailA.payload.op mailA.payload.length (responseFields ⟨1, .noRegister, true, 5, []⟩) =
        some ⟨1, .noRegister, true, 5, []⟩ ∧
      (let h := holding (.slot 0) (reading .receiving)
       h.port.held = some ⟨.slot 0, 20, 20⟩ ∧ h.pins.hold = false) ∧
      (readA.cacheable = true ∧ slotA.noFill = false ∧ ((reading .receiving).entry 0).state = .online ∧
        ((reading .receiving).entry 0).generation = readA.gen) ∧
      (writeA.origin = .windowWrite ∧ live.hostQueue = [] ∧ live.power.state = .active) ∧
      (∃ r, (carrying (.management (.assign 1 1 7)) (MgmtEntry.assign 1 1 7).payload .receiving live).engine.link =
        .carrying r ∧ r.source = .management (.assign 1 1 7) ∧ r.expectedSource = 2) ∧
      (∃ r, (reading (.awaiting 3)).engine.link = .carrying r ∧ r.attempt = .awaiting 3) ∧
      HeadLaw busy ∧ headCheck { writeA with gen := 2 } live = some .stale ∧ headCheck writeA live = none := by
  refine ⟨⟨_, rfl, rfl, rfl, rfl, by decide, by decide⟩, ⟨by decide, by decide, fun r e hr hs ho => ?_⟩, by decide +kernel,
    by decide, by decide, by decide, by decide, ⟨by decide, by decide, fun r e hr hs ho => ?_⟩, by decide, by decide +kernel,
    by decide, by decide, by decide, ⟨_, rfl, rfl, by decide⟩, ⟨_, rfl, rfl⟩, witness_QuietLawKept.1.head, by decide, by decide⟩
  · cases hr; cases hs; cases ho
  · exact ⟨by decide, by decide⟩

theorem test_held_read_is_answered_by_its_slot :
    let s := after (.responseReceived okFrame .ownerFirst) (holding (.slot 0) (reading .receiving))
    s.port.answer = some ⟨.ok, some 0x12345678⟩ ∧ vget s.slots 0 = .free ∧ s.cache.count = 1 := by decide +kernel

theorem test_failed_write_is_reported :
    ((after (.responseReceived (responseFields ⟨1, .refused, false, 5, []⟩) .ownerFirst)
      (carrying (.host writeA false) writeA.payload .receiving live)).events.list.map fun r => (r.kind, r.code)) =
      [(.writeFailed, 2)] := by decide +kernel

theorem witness_FailedAttemptsAreRepeated :
    (∃ r, (reading .receiving).engine.link = .carrying r ∧ r.attempt = .receiving ∧ r.retransUsed < r.params.retryLimit ∧
      r.busyUsed < r.params.busyLimit ∧ r.expectedSource = 1 ∧ r.seq = 5) ∧
      parseResponse .read 4 [] = none ∧
      parseResponse .read 4 (responseFields ⟨2, .busy, false, 6, []⟩) = some ⟨2, .busy, false, 6, []⟩ ∧
      parseResponse .read 4 (responseFields ⟨1, .busy, false, 5, []⟩) = some ⟨1, .busy, false, 5, []⟩ ∧
      (∃ r, (reading (.awaiting 0)).engine.link = .carrying r ∧ r.attempt = .awaiting 0 ∧
        r.retransUsed < r.params.retryLimit) ∧
      ({ Timing.linkParams {} with retryLimit := 0 } : LinkParams).retryLimit = 0 ∧ (live.entry 0).state = .online ∧
      (live.entry 0).generation = readA.gen ∧ (live.entry 0).failureRun + 1 < live.timing.quarThreshold ∧
      live.timing.quarThreshold ≤ 3 + 1 ∧
      reportFor (.host writeA false) = some (0, (live.entry 0).generation) ∧
      reportFor (.management (.ping 0 1)) = some (0, (live.entry 0).generation) ∧
      (live.entry 0).releaseFor ≠ some .forget ∧
      ((withEntry (fun e => { e with releaseFor := some .forget }) live).entry 0).releaseFor = some .forget ∧
      ((withEntry (fun e => { e with state := .quarantined, departCount := 2 }) live).entry 0).departCount + 1 =
        live.timing.departThreshold ∧
      ({ reading .receiving with hostQueue := [writeA] } : State).hostOnLink = true ∧
      HeadLaw { heldOff 0 with hostQueue := [writeA] } :=
  ⟨⟨_, rfl, rfl, by decide, by decide, by decide, by decide⟩, by decide, by decide +kernel, by decide +kernel,
   ⟨_, rfl, rfl, by decide⟩, by decide, by decide, by decide, by decide, by decide, by decide, by decide, by decide, by decide,
   by decide, by decide, fun h => by cases h⟩

theorem test_silent_quarantined_module_departs :
    let s := after (.responseTimeout .ownerFirst) { withEntry (fun e => { e with state := .quarantined, departCount := 2 }) live with
      engine := { live.engine with link := .carrying ⟨.management (.ping 0 1), (MgmtEntry.ping 0 1).payload, 5, 3, 0,
                                                      Timing.linkParams {}, false, .awaiting 0⟩ } }
    (s.entry 0).state = .empty ∧ (s.events.list.map fun r => (r.kind, r.code)) = [(.moduleLeft, 1)] := by decide +kernel

theorem witness_TimersRunOut :
    (live.pins.hold = false ∧ QuietLaw live ∧ live.disc.state = .idle ∧ live.disc.queryTimer = some 0 ∧
      live.suspended = false) ∧
      ((live.entry 0).state = .online ∧ (live.entry 0).pollTimer = some 0 ∧ live.power.state = .active) ∧
      (let q := withEntry (fun e => { e with state := .quarantined, pollTimer := some 100000 }) live
       QuietLaw q ∧ (q.entry 0).state = .quarantined ∧ (q.entry 0).pollTimer = some 100000) ∧
      QuietLaw (withSlot 3 (.complete slotA .ok none 50000) live) ∧
      (let h : State := { live with hostQueue := [writeA] }
       QuietLaw h ∧ h.engine.link = .free ∧ h.engine.resetPending = false ∧ h.mgmtQueue = [] ∧
         (h.entry writeA.addr).lastResponse ≠ none) :=
  ⟨⟨by decide, quiet_of_check _ (by decide), by decide, by decide, by decide⟩, ⟨by decide, by decide, by decide⟩,
   ⟨quiet_of_check _ (by decide), by decide, by decide⟩, quiet_of_check _ (by decide),
   ⟨quiet_of_check _ (by decide), by decide, by decide, by decide, by decide⟩⟩

/-! #### Autoload, sleep and the event unit -/

/-- The run of a state as one that a RELOAD in progress started. -/
def reloads (s : State) : State :=
  { s with autoload := { s.autoload with startedBy := .reload }, mbx := { s.mbx with op := 10, state := .active } }

theorem witness_AutoloadReads :
    loading.pins.hold = false ∧ loading.autoload.phase = .reading ∧ loading.autoload.staging = [] ∧
      loading.autoload.startedBy = .cold ∧ QuietLaw loading ∧ ¬((0xFF : Byte) = 0x5B ∧ (0xFF : Byte) = 0xC3) ∧
      ([0x5B, 0xC3] : List Byte).length = 2 ∧ (10 ≤ (10 : Byte).toNat + 256 * (0 : Byte).toNat) ∧
      (0 : Byte).toNat + 256 * (8 : Byte).toNat ≤ 2048 ∧ 1 ≤ (40 : Byte).toNat ∧ (40 : Byte).toNat ≤ 40 ∧
      ¬((41 : Byte).toNat ≤ 40) ∧ 6 + 4 = (([0x5B, 0xC3, 1, 1, 10, 0] : List Byte).getD 4 0).toNat ∧
      (QuietLaw (reloads loading) ∧ (reloads loading).autoload.startedBy = .reload ∧ (reloads loading).mbx.runs opReload = true ∧
        (reloads loading).disc.state = .disabled) :=
  ⟨by decide, by decide, by decide, by decide, quiet_of_check _ (by decide), by decide, by decide, by decide, by decide,
   by decide, by decide, by decide, by decide, ⟨quiet_of_check _ (by decide), by decide, by decide, by decide⟩⟩

/-- An image of the header, a WINDOW, a TIMING and the END record, with its check. -/
def image : List Byte :=
  let b : List Byte := [0x5B, 0xC3, 1, 3, 28, 0] ++ [1, 11, 5, 0, 0x10, 0x10, 0, 0, 0, 0, 0, 0, 0] ++ [3, 3, 8, 6, 0]
  b ++ [15, 2] ++ leBytes 2 (crc16 b).toNat

/-- A live state at the end of a verification. -/
def verifying (img : List Byte) : State :=
  { live with autoload := { live.autoload with phase := .verifying, staging := img }, disc := {} }

/-- An image of the header, a BINDING, a ROUTE and the END record, with its check. -/
def imageB : List Byte :=
  let b : List Byte :=
    [0x5B, 0xC3, 1, 3, 26, 0] ++ [2, 10, 9, 0, 0, 0, 0, 0, 0, 0, 14, 1] ++ [4, 2, 13, 2]
  b ++ [15, 2] ++ leBytes 2 (crc16 b).toNat

theorem witness_AutoloadVerifies :
    (∀ img, (verifying img).pins.hold = false ∧ (verifying img).autoload.phase = .verifying ∧
      (verifying img).autoload.startedBy = .cold ∧ QuietLaw (verifying img)) ∧
      verify (image.set 6 9) = .fault ⟨.type, 1⟩ ∧ verify (image.set 7 10) = .fault ⟨.recordLength, 1⟩ ∧
      verify (image.set 8 8) = .fault ⟨.check, 3⟩ ∧
      (∀ img, QuietLaw (reloads (verifying img)) ∧ (reloads (verifying img)).autoload.startedBy = .reload ∧
        (reloads (verifying img)).mbx.runs opReload = true ∧ (verifying img).power.state = .active) ∧
      (∃ l, verify image = .records l ∧ (l.map ImageRec.type) = [.window, .timing, .end_]) := by
  refine ⟨fun img => ⟨rfl, rfl, rfl, quiet_of_check _ rfl⟩, by decide +kernel, by decide +kernel, by decide +kernel,
    fun img => ⟨quiet_of_check _ rfl, rfl, rfl, rfl⟩, ?_⟩
  exact ⟨[⟨.window, [5, 0, 0x10, 0x10, 0, 0, 0, 0, 0, 0, 0]⟩, ⟨.timing, [8, 6, 0]⟩,
    ⟨.end_, leBytes 2 (crc16 (image.take 24)).toNat⟩], by decide +kernel, by decide⟩

theorem test_bindings_and_routes_are_loaded :
    let s := after .autoloadVerifyEnd (reloads { verifying imageB with bindings := vset live.bindings 0 (some ⟨3, .strict⟩) })
    s.autoload.lastOutcome = .loaded ∧ vget s.bindings 0 = none ∧ vget s.bindings 13 = some ⟨9, .preferred⟩ ∧
      s.events.routeOf .decodeMiss = .line1 ∧ s.mbx.state = .done ∧ s.mbx.result = .loaded ∧
      (s.events.list.map fun r => (r.kind, r.code)) = [(.autoloadDone, 1), (.mailboxDone, 31)] := by decide +kernel

theorem test_failed_reload_ends_its_command :
    let s := after (.autoloadMarkerRead 0xFF 0xFF) (reloads loading)
    s.mbx.state = .failed ∧ s.mbx.result = .loadFailed ∧ s.mbx.data = 2 := by decide +kernel

/-- A drained link. -/
def drained : State := powered .draining live

theorem witness_DrainAndWake :
    (drained.pins.hold = false ∧ drained.power.state = .draining ∧ drained.drained = true ∧ drained.attn.armed = false) ∧
      (let a : State := { drained with attn := { drained.attn with level := true, armed := true } }
       a.drained = true ∧ a.attn.level = true ∧ a.attn.armed = true) ∧
      (let w : State := { live with power := { live.power with state := .waking, wakeTimer := some 5000
                                                               wakeSettle := some 5000 }
                                    disc := {} }
       w.pins.hold = false ∧ w.power.state = .waking ∧ w.power.wakeTimer = some 5000 ∧ w.power.wakeSettle = some 5000 ∧
         QuietLaw w ∧ w.mbx.runs opDiscoverNow = false ∧ (w.entry 0).state = .online ∧ w.power.sleepReq = false) ∧
      live.timing.settleTime ≠ 0 ∧ ({ live.timing with settleTime := 0 } : Timing).settleTime = 0 :=
  ⟨⟨by decide, by decide, by decide, by decide⟩, ⟨by decide, by decide, by decide⟩,
   ⟨by decide, by decide, by decide, by decide, quiet_of_check _ (by decide), by decide, by decide, by decide⟩, by decide,
   by decide⟩

/-- An event unit with `n` ordinary records. -/
def records (n : Nat) : EventUnit := { list := List.replicate n recA }

theorem witness_PostedRecordIsTaken :
    ((EventUnit.setRoute {} .wake .suppress).routeOf .wake = .suppress) ∧ ((records 30).routeOf .wake ≠ .suppress) ∧
      ({ list := [{ recA with kind := .overflow }] } : EventUnit).overflowPresent = true ∧
      ((records 30).overflowPresent = false ∧ (records 30).ordinaryCount + (records 30).reservations < 31) ∧
      (records 31).ordinaryCount + (records 31).reservations = 31 := by decide +kernel

theorem witness_ReservationsAreKept :
    ((records 30).overflowPresent = false ∧ (records 30).ordinaryCount + (records 30).reservations < 31) ∧
      31 ≤ (records 31).ordinaryCount + (records 31).reservations ∧ 0 < busy.events.reservations ∧
      (busy.fetchRec 0 = some ⟨1, true⟩ ∧ (busy.entry 0).generation = 1 ∧ (busy.entry 0).state ≠ .empty) ∧
      (∀ f, live.fetchRec 0 = some f → f.gen ≠ (live.entry 0).generation) ∧
      (BitVec.ofNat 16 (leNat [0x00, 0x80]) = (0x8000 : Half) ∧ (0x8000 : Half).getLsbD 15 = true) := by
  refine ⟨by decide +kernel, by decide +kernel, by decide +kernel, by decide +kernel, fun f hf => ?_, by decide +kernel⟩
  rw [show live.fetchRec 0 = none by decide +kernel] at hf
  cases hf

theorem test_reserved_fetch_is_held_and_reports_contents_changed :
    let s := mgmtOutcome (.attnFetch 0 1) .ok false [0x01, 0x80] (withSlot 1 (.pending slotA) busy)
    (s.entry 0).attention = .held ∧ s.events.reservations = 0 ∧ s.cache.count = 0 ∧
      (s.events.list.map EventRec.kind) = [.wake, .wake, .attention] ∧
      vget s.slots 1 = .pending { slotA with noFill := true } := by decide +kernel

/-! #### Further forms: a held write, a DISCARDED request, a sleeping link, parked discovery -/

/-- The live state with a DISCARDED read on the link and a write at the head of the queue. -/
def discarded : State := { carrying (.host readA true) readA.payload .receiving live with hostQueue := [writeA] }

theorem witness_MailboxLawKept_of_a_held_write :
    let s := holding (.writePlace writeA) busy
    MailboxLaw s ∧ HeldWriteLaw s ∧ s.port.held = some ⟨.writePlace writeA, 20, 20⟩ ∧ writeA.origin = .windowWrite := by
  refine ⟨⟨by decide +kernel, by decide +kernel, fun r e hr => ?_⟩, fun h e hh he => ?_, rfl, rfl⟩
  · cases hr
  · cases hh; cases he; rfl

theorem witness_QuietLawKept_of_a_discarded_request :
    QuietLaw discarded ∧ HoldLaw discarded ∧ discarded.hostOnLink = false ∧
      (∃ r, discarded.engine.link = .carrying r ∧ r.source = .host readA true) ∧ headCheck writeA discarded = none ∧
      (let b : State := { carrying .broadcast broadcastPayload .sending live with disc := {} }
       QuietLaw b ∧ HoldLaw b ∧ b.suspended = true) :=
  ⟨quiet_of_check _ (by decide), (fun h => by cases h), by decide, ⟨_, rfl, rfl⟩, by decide,
   quiet_of_check _ (by decide), (fun h => by cases h), by decide⟩

theorem witness_HostPortResetRetains_of_each_block :
    (let s := retaining { busy with engine := (heldOff 499).engine }
     s.pins.host = false ∧ s.power.retain = true ∧ (s.entry 0).attention = .fetching ∧
       ∃ r, s.engine.link = .holdoff r 499 ∧ r.source = .host readA false) ∧
      ((retaining (holdingWord .pop)).entry 0).attention = .held ∧
      (∃ r, (retaining (carrying .broadcast broadcastPayload .sending live)).engine.link.request? = some r ∧
        ∀ e d, r.source ≠ .host e d) ∧
      (retaining { live with engine := { live.engine with link := .settling 4 5000 } }).engine.link = .settling 4 5000 := by
  refine ⟨⟨by decide, by decide, by decide, _, rfl, rfl⟩, by decide, ⟨_, rfl, fun e d h => by cases h⟩, rfl⟩

theorem witness_accesses_beside_a_discarded_request :
    let s : State := { narrow with engine := discarded.engine }
    QuietLaw s ∧ s.hostQueue = [] ∧ s.hostOnLink = false ∧ s.portFree = true ∧ DueLaw s ∧
      (s.entry 0).widthLimit.bytes < Width.four.bytes :=
  ⟨quiet_of_check _ (by decide), by decide, by decide, by decide, by unfold DueLaw; decide +kernel, by decide⟩

/-- A state in which the registers of every block have something to show: an OVERFLOW record, a binding under BIND_SEL. -/
def shownMore : State :=
  { shown with
    events := { shown.events with list := shown.events.list ++ [{ recA with kind := .overflow, seq := 9, detailA := 3 }], nextSeq := 10 }
    bindings := vset live.bindings 0 (some ⟨5, .preferred⟩), autoload := { live.autoload with recordCount := 40, faultRecord := 40 } }

theorem witness_OtherRegisterWrites_of_every_view :
    vget shown.slots 2 = .pending slotA ∧ vget shown.slots 0 = .free ∧
      (shownMore.autoload.recordCount < 64 ∧ shownMore.autoload.faultRecord < 64) ∧ TimingLaw shownMore ∧
      (∀ r ∈ shown.events.list, r.kind ≠ .overflow) ∧ EventLaw shownMore ∧
      (∃ r ∈ shownMore.events.list, r.kind = .overflow ∧ r.detailA = 3) ∧
      modAddr? shownMore.port.bindSel = some 0 ∧ vget shownMore.bindings 0 = some ⟨5, .preferred⟩ ∧ vget shown.bindings 0 = none := by
  refine ⟨by decide +kernel, by decide +kernel, by decide, witness_ConfigurationLawKept.2.2.1, by decide +kernel,
    by unfold EventLaw; decide +kernel, by decide +kernel, by decide, by decide +kernel, by decide +kernel⟩

theorem witness_OtherRegisterWrites_of_the_pins :
    (let s : State := { live with port := { live.port with held := some ⟨.slot 0, 9, 0⟩ } }
     s.port.held = some ⟨.slot 0, 9, 0⟩) ∧ live.port.held = none ∧
      (SleepLaw (powered .asleep live) ∧ (powered .asleep live).power.state = .asleep) ∧
      HoldLaw State.reset ∧ State.reset.pins.hold = true := by
  refine ⟨by decide, by decide, ⟨by unfold SleepLaw; decide, by decide⟩, by unfold HoldLaw; decide, by decide⟩

theorem test_pins :
    { live with port := { live.port with answer := some ⟨.ok, none⟩ } }.ready = true ∧ loading.bootSelect = true ∧
      live.drivesSpan = false := by decide +kernel

theorem test_views_of_every_block :
    Shows shownMore 0x008 [(8, 6, 40), (24, 6, 40)] ∧ Shows shownMore 0x0E4 [(0, 32, 3)] ∧ Shows shown 0x0E4 [] ∧
      Shows shownMore 0x204 [(0, 1, 1), (1, 1, 1)] ∧ Shows shown 0x204 [] ∧ Shows shownMore 0x070 [(0, 16, 5)] ∧
      Shows shown 0x190 [(0, 2, 1), (4, 3, 4), (12, 4, 1), (16, 16, 0x100)] ∧ Shows shown 0x194 [(0, 17, 0x10000)] ∧
      Shows shown 0x418 [(0, 16, 0), (16, 16, 0xFF)] ∧ Shows shown 0x018 [(0, 6, 1)] := by
  unfold Shows; decide +kernel

theorem test_code_tables :
    [LinkOutcome.ok, .discarded].map outcomeCode = [1, 10] ∧ resultCode .loadFailed = 32 ∧ faultCode .duplicate = 9 := by decide

theorem witness_LinkCommandsAreQueued_of_a_sleeping_link :
    (∀ op, GoTaken (mailbox op 1 (powered .asleep live)) ∧ QuietLaw (mailbox op 1 (powered .asleep live))) ∧
      (mailbox 0 1 (powered .asleep live)).power.state = .asleep ∧ modAddr? (mailbox 0 0 (powered .asleep live)).mbx.target = none ∧
      QuietLaw (mailbox 0 1 (powered .asleep full)) ∧
      (let n := { mailbox 0 1 narrow with mbx := { (mailbox 0 1 narrow).mbx with width := 4 } }
       GoTaken n ∧ QuietLaw n ∧ DueLaw n ∧ n.hostQueue = [] ∧ n.hostOnLink = false ∧ Width.four.bytes = n.mbx.width.toNat ∧
         n.mbx.offset.toNat % n.mbx.width.toNat = 0 ∧ (n.entry 0).widthLimit.bytes < Width.four.bytes) :=
  ⟨fun _ => ⟨goTaken_of_check _ rfl, quiet_of_check _ rfl⟩, by decide, by decide, quiet_of_check _ (by decide),
   goTaken_of_check _ (by decide), quiet_of_check _ (by decide), by unfold DueLaw; decide +kernel, by decide, by decide,
   by decide, by decide, by decide⟩

theorem test_sleeping_link_is_woken_for_a_mailbox_read :
    let s := after (.mbxRead 0xF) (mailbox 0 1 (powered .asleep live))
    s.power.state = .waking ∧ s.mbx.state = .queued ∧ s.hostQueue = [mailA] ∧
      (s.events.list.map fun r => (r.kind, r.code)) = [(.wake, 1)] := by decide +kernel

/-- BIND's and UNBIND's operands with discovery parked. -/
def parked (op : Byte) (target : BitVec 4) (data : Word) : State :=
  { bindingState op target data with disc := { live.disc with state := .parkedConflict, queryTimer := none } }

theorem witness_binding_changes_while_parked :
    GoTaken (parked 3 4 8) ∧ QuietLaw (parked 3 4 8) ∧ (parked 3 4 8).disc.state = .parkedConflict ∧
      vget (parked 3 4 8).bindings 3 = none ∧ GoTaken (parked 4 0 9) ∧ QuietLaw (parked 4 0 9) ∧
      vget (parked 4 0 9).bindings 4 = some ⟨9, .strict⟩ :=
  ⟨goTaken_of_check _ (by decide), quiet_of_check _ (by decide), by decide, by decide, goTaken_of_check _ (by decide),
   quiet_of_check _ (by decide), by decide⟩

theorem test_binding_changes_unpark_discovery :
    (after (.bind 0xF) (parked 3 4 8)).disc.state = .querying ∧ (after (.bind 0xF) (parked 3 4 8)).mgmtQueue = [.joinQuery] ∧
      (after (.unbind 0xF) (parked 4 0 9)).disc.state = .querying := by decide +kernel

theorem witness_CommandsThatTakeTime_of_a_sleeping_link :
    (∀ op, GoTaken (mailbox op 1 (powered .asleep live)) ∧ QuietLaw (mailbox op 1 (powered .asleep live)) ∧
      modAddr? (mailbox op 1 (powered .asleep live)).mbx.target = some 0 ∧
      ((mailbox op 1 (powered .asleep live)).entry 0).state = .online) ∧
      modAddr? (mailbox 6 0 (powered .asleep live)).mbx.target = none ∧
      (let p := { mailbox 7 0 live with disc := { live.disc with state := .parkedFull, queryTimer := none } }
       GoTaken p ∧ QuietLaw p ∧ p.suspended = false) :=
  ⟨fun _ => ⟨goTaken_of_check _ rfl, quiet_of_check _ rfl, rfl, rfl⟩, by decide,
   goTaken_of_check _ (by decide), quiet_of_check _ (by decide), by decide⟩

theorem witness_AttemptsOnTheLine_of_the_frames :
    (worked.length, (2#2)) ∈ [(0, 0#2), (1, 1#2), (2, 2#2), (4, 3#2)] ∧ readA.op = .read ∧ writeA.op = .write ∧
      ({ mailA with op := .descRead } : HostEntry).op = .descRead ∧ (3 : Nat) < writeA.width.bytes := by decide

theorem witness_AttemptsOnTheLine_of_the_characters :
    (250, 40) ∈ [(250, 40), (500, 20), (1000, 10)] ∧ (∃ r, (reading .sending).engine.link = .carrying r ∧ r.attempt = .sending) ∧
      (∀ r, (reading .resend).engine.link = .carrying r → r.attempt ≠ .sending) :=
  ⟨by decide, ⟨_, rfl, rfl⟩, fun r h => by cases h; decide⟩

theorem test_lead_in_alternates :
    charBits 0x55 = [.start, .data true, .data false, .data true, .data false, .data true, .data false, .data true, .data false,
      .stop] := by decide

theorem test_module_answers_at_the_rate_of_the_request :
    (answerOn (onWire 250 (requestFrame writeA.payload 5 false)) ⟨1, .ok, false, 5, []⟩).rate = 250 := by decide +kernel

theorem test_grant_puts_the_frame_on_the_wire :
    let s := after .arbiterGrant { live with hostQueue := [writeA] }
    s.spanFrame = some (onWire 1000 (requestFrame writeA.payload ((live.entry 0).seq + 1) false)) ∧
      (after .requestFrameSent s).spanFrame = none := by decide +kernel

theorem test_frames_of_both_queues :
    writeA.payload = ⟨1, .write, 0x100, 4, [7, 0, 0, 0]⟩ ∧ (MgmtEntry.attnClear 13 1 0x8001).payload = ⟨14, .attnClear, 0, 2, [0x01, 0x80]⟩ ∧
      crcOf [0x31, 0x32, 0x33, 0x34, 0x35, 0x36, 0x37, 0x38, 0x39] = 0x29B1 := by decide +kernel

theorem witness_FinalResponseEndsTheRequest_of_a_discarded_request :
    discarded.pins.hold = false ∧ HeadLaw discarded ∧
      ∃ r, discarded.engine.link = .carrying r ∧ r.attempt = .receiving ∧ r.source = .host readA true ∧ r.expectedSource = 1 ∧
        r.seq = 5 ∧ (parseResponse r.payload.op r.payload.length okFrame).map Response.status = some .ok :=
  ⟨rfl, witness_QuietLawKept_of_a_discarded_request.1.head, _, rfl, rfl, rfl, by decide, by decide, by decide +kernel⟩

theorem test_discarded_read_reaches_nobody :
    let s := after (.responseReceived okFrame .ownerFirst) (withSlot 0 .free discarded)
    s.engine.link = .free ∧ s.port = live.port ∧ s.slots = live.slots ∧ s.cache = {} ∧ s.hostQueue = [writeA] := by decide +kernel

theorem witness_AutoloadVerifies_of_a_pending_reset :
    (∀ img, (verifying img).disc.state = .disabled ∧ (verifying img).engine.link = .free ∧
      (verifying img).engine.resetPending = false) ∧
      (∀ img, let p : State := { verifying img with engine := { live.engine with resetPending := true } }
       QuietLaw p ∧ p.engine.resetPending = true ∧ p.disc.state = .disabled) ∧
      (∃ l, verify imageB = .records l ∧ ∀ rec ∈ l, rec.type = .timing → (rec.byte 1).toNat ≠ Param.index .discardTime) := by
  refine ⟨fun _ => ⟨rfl, rfl, rfl⟩, fun _ => ⟨quiet_of_check _ rfl, rfl, rfl⟩, ?_⟩
  exact ⟨[⟨.binding, [9, 0, 0, 0, 0, 0, 0, 0, 14, 1]⟩, ⟨.route, [13, 2]⟩, ⟨.end_, leBytes 2 (crc16 (imageB.take 22)).toNat⟩],
    by decide +kernel, by decide⟩

theorem test_end_of_a_run_restarts_discovery :
    (after .autoloadVerifyEnd (reloads (verifying imageB))).disc.state = .querying ∧
      (after .autoloadVerifyEnd (reloads (verifying imageB))).mgmtQueue = [.joinQuery] := by decide +kernel

/-! #### Further forms: heads that fail at once, drains given up, sweeps that start, a forgotten RELOAD -/

/-- The live state after the module at address 1 has left. -/
def gone : State := withEntry (fun e => { generation := e.generation, seq := e.seq }) live

theorem witness_HeldAccessEnds_of_a_head_that_fails :
    let e : HostEntry := { readA with slot := some 0 }
    (let w := holding (.writePlace writeA) gone
     w.pins.hold = false ∧ writeA.origin = .windowWrite ∧ w.hostQueue = [] ∧ w.hostOnLink = false ∧
       headCheck writeA w = some .stale ∧ w.power.state = .active) ∧
      (let r := holding (.readPlace accA) gone
       QuietLaw r ∧ r.hostQueue = [] ∧ r.hostOnLink = false ∧ vget r.slots 0 = .free ∧ headCheck e r = some .stale) ∧
      (let r := holding (.readPlace accA) live
       QuietLaw r ∧ r.hostQueue.length < 16 ∧ headCheck e r = none) ∧
      (let r := holding (.readPlace accA) (powered .asleep live)
       QuietLaw r ∧ headCheck e r = none ∧ r.power.state = .asleep) :=
  ⟨⟨by decide, by decide, by decide, by decide, by decide, by decide⟩,
   ⟨quiet_of_check _ (by decide), by decide, by decide, by decide, by decide⟩,
   ⟨quiet_of_check _ (by decide), by decide, by decide⟩, ⟨quiet_of_check _ (by decide), by decide, by decide⟩⟩

theorem test_held_accesses_fail_as_heads :
    let w := after .heldAccessEnqueue (holding (.writePlace writeA) gone)
    let r := after .heldAccessEnqueue (holding (.readPlace accA) gone)
    w.port.answer = some ⟨.ok, none⟩ ∧ w.hostQueue = [] ∧ (w.events.list.map fun e => (e.kind, e.code)) = [(.writeFailed, 6)] ∧
      r.port.answer = some ⟨.error, some 0xFFFFFFFF⟩ ∧ r.port.readFault = ⟨some .stale, 0x10000, 4, 0⟩ ∧
      r.slots = live.slots := by decide +kernel

/-- A DISCOVER_NOW in progress with discovery DISABLED, for a reset is pending. -/
def discovering : State :=
  { mailbox 7 0 live with
    mbx := { (mailbox 7 0 live).mbx with state := .active }, engine := { live.engine with resetPending := true }, disc := {} }

/-- ATTN ASSERTED and the sweep armed. -/
def pulled (s : State) : State := { s with attn := { s.attn with level := true, armed := true } }

/-- A link at the end of its wake, SLEEP_REQ set or not. -/
def settling (sleepReq : Bool) (s : State) : State :=
  { s with power := { s.power with state := .waking, sleepReq := sleepReq, wakeTimer := some 5000, wakeSettle := some 5000 }, disc := {} }

theorem witness_PowerControlWrites_of_each_further_clause :
    (QuietLaw discovering ∧ discovering.portFree = true ∧ discovering.power.sleepReq = false ∧
      discovering.power.state = .active ∧ discovering.mbx.runs opDiscoverNow = true ∧ ¬DiscCarried discovering) ∧
      (let d := pulled (sleepy .draining)
       QuietLaw d ∧ d.power.sleepReq = true ∧ d.power.state = .draining ∧ d.attn.armed = true ∧ d.attn.level = true ∧
         d.attn.sweep = none ∧ sweepSet d = [0]) ∧
      (let z := { sleepy .asleep with timing := { live.timing with settleTime := 0 } }
       QuietLaw z ∧ z.power.sleepReq = true ∧ z.power.state = .asleep ∧ z.timing.settleTime = 0) :=
  ⟨⟨quiet_of_check _ (by decide), by decide, by decide, by decide, by decide, by unfold DiscCarried; decide⟩,
   ⟨quiet_of_check _ (by decide), by decide, by decide, by decide, by decide, by decide, by decide⟩,
   ⟨quiet_of_check _ (by decide), by decide, by decide, by decide⟩⟩

theorem test_drain_is_given_up_and_sweep_starts :
    (after (.sleepRequest true 0xF) discovering).power.state = .active ∧
      (after (.sleepRequest true 0xF) discovering).power.sleepReq = false ∧
      (after (.sleepCancel false 0xF) (pulled (sleepy .draining))).attn.sweep = some [0] ∧
      (after (.sleepCancel false 0xF) (pulled (sleepy .draining))).attn.armed = false := by decide +kernel

theorem test_wake_without_settle_time_is_over_at_once :
    let z := after (.sleepCancel false 0xF) { sleepy .asleep with timing := { live.timing with settleTime := 0 } }
    z.power.state = .active ∧ z.power.lastWake = .host ∧ z.attn.armed = true ∧ MgmtEntry.ping 0 1 ∈ z.mgmtQueue := by
  decide +kernel

theorem witness_DrainAndWake_of_each_further_clause :
    (let w := { settling false live with attn := { live.attn with level := true } }
     QuietLaw w ∧ w.power.state = .waking ∧ w.power.sleepReq = false ∧ w.attn.level = true ∧ w.attn.sweep = none) ∧
      (let w := settling true discovering
       QuietLaw w ∧ w.power.sleepReq = true ∧ w.mbx.runs opDiscoverNow = true ∧ ¬DiscCarried w) :=
  ⟨⟨quiet_of_check _ (by decide), by decide, by decide, by decide, by decide⟩,
   ⟨quiet_of_check _ (by decide), by decide, by decide, by unfold DiscCarried; decide⟩⟩

theorem witness_WaitingCommandAndAbort_of_an_empty_queue :
    (let w := mailboxIn .waiting (mailbox 0 1 live)
     QuietLaw w ∧ w.mbx.state = .waiting ∧ w.hostQueue = [] ∧ w.hostOnLink = false ∧
       headCheck { mailA with offset := w.mbx.offset } w = none) ∧
      (let w := mailboxIn .waiting (mailbox 1 1 gone)
       QuietLaw w ∧ w.mbx.state = .waiting ∧ w.hostQueue = [] ∧ w.hostOnLink = false ∧
         headCheck { mailA with op := .write, offset := w.mbx.offset } w = some .stale ∧ w.power.state = .active ∧
         modAddr? w.mbx.target = some 0) :=
  ⟨⟨quiet_of_check _ (by decide), by decide, by decide, by decide, by decide⟩,
   ⟨quiet_of_check _ (by decide), by decide, by decide, by decide, by decide, by decide, by decide⟩⟩

theorem test_waiting_command_fails_stale_after_a_link_reset :
    let t := after .mbxWaitingEnqueue (mailboxIn .waiting (mailbox 0 1 gone))
    t.mbx.state = .failed ∧ t.mbx.result = .outcome .stale ∧ t.hostQueue = [] ∧
      (t.events.list.map fun r => (r.kind, r.address, r.code)) = [(.mailboxDone, some 0, 6)] := by decide +kernel

/-- A run that RELOAD started, its command forgotten by a retaining reset. -/
def forgotten (s : State) : State := { s with autoload := { s.autoload with startedBy := .reload } }

theorem witness_autoload_of_a_forgotten_reload :
    (QuietLaw (forgotten loading) ∧ (forgotten loading).autoload.startedBy = .reload ∧
      (forgotten loading).mbx.runs opReload = false) ∧
      ∀ img, QuietLaw (forgotten (verifying img)) ∧ (forgotten (verifying img)).mbx.runs opReload = false :=
  ⟨⟨quiet_of_check _ (by decide), by decide, by decide⟩, fun _ => ⟨quiet_of_check _ rfl, rfl⟩⟩

theorem test_forgotten_reload_ends_with_its_record_alone :
    let t := after .autoloadVerifyEnd (forgotten (verifying image))
    t.mbx = live.mbx ∧ (t.events.list.map fun r => (r.kind, r.code)) = [(.autoloadDone, 1)] := by decide +kernel

/-! #### What verification answers, heads that fail in a drain, and an arbiter that grants nothing -/

/-- A staged image with a record count and bytes behind its header. -/
def staged (count : Byte) (bs : List Byte) : List Byte := [0x5B, 0xC3, 1, count, 0, 0] ++ bs

/-- A TIMING record of a DISCARD_TIME of 6 ms. -/
def timingA : ImageRec := ⟨.timing, [12, 6, 0]⟩

/-- A TIMING record of a DISCARD_TIME of 0 ms, which is outside the range of the timing table. -/
def timingB : ImageRec := ⟨.timing, [12, 0, 0]⟩

/-- An image of the records `l` and END, with its check. -/
def checked (l : List ImageRec) : List Byte :=
  let b := staged (BitVec.ofNat 8 (l.length + 1)) (l.flatMap recordBytes)
  b ++ [15, 2] ++ leBytes 2 (crc16 b).toNat

theorem witness_AutoloadVerifies_of_the_walk :
    ReadsAs (staged 2 (recordBytes timingA)) [timingA] [] ∧
      (ReadsAs (staged 1 [5, 2]) [] (5 :: [2]) ∧ ∀ ty, (5 : Byte).toNat ≠ (recordForm ty).1) ∧
      (ReadsAs (staged 1 [15]) [] [15] ∧ (15 : Byte).toNat = (recordForm .end_).1) ∧
      (ReadsAs (staged 1 [1, 10, 0]) [] (1 :: 10 :: [0]) ∧ (1 : Byte).toNat = (recordForm .window).1 ∧
        (10 : Byte).toNat ≠ (recordForm .window).2) ∧
      (ReadsAs (staged 1 [3, 3, 0, 0]) [] (3 :: 3 :: [0, 0]) ∧ [(0 : Byte), 0].length < (recordForm .timing).2) ∧
      (ReadsAs (staged 2 [15, 2, 0, 0]) [] (recordBytes ⟨.end_, [0, 0]⟩ ++ []) ∧ 0 + 1 ≠ ((staged 2 []).getD 3 0).toNat) ∧
      ReadsAs (staged 1 [15, 2, 0, 0, 0]) [] (recordBytes ⟨.end_, [0, 0]⟩ ++ [0]) ∧
      (ReadsAs (staged 1 [3, 3, 12, 6, 0]) [] (recordBytes timingA ++ []) ∧ timingA.type ≠ .end_) := by
  unfold ReadsAs
  refine ⟨by decide, ⟨by decide, fun ty => by cases ty <;> decide⟩, ?_⟩
  decide

theorem witness_AutoloadVerifies_of_the_tests :
    (EndsAs (staged 1 [15, 2, 0, 0]) [] 0 0 ∧ ¬CheckHolds (staged 1 [15, 2, 0, 0]) [] 0 0) ∧
      (∃ lo hi, EndsAs (checked [timingA]) [timingA] lo hi ∧ CheckHolds (checked [timingA]) [timingA] lo hi) ∧
      AllPass [timingA] ∧ ¬RecordValid timingB ∧
      (∃ lo hi, EndsAs (checked [timingA, timingB]) ([timingA] ++ timingB :: []) lo hi ∧
        CheckHolds (checked [timingA, timingB]) ([timingA] ++ timingB :: []) lo hi) ∧
      (∃ lo hi, EndsAs (checked [timingA, timingA]) ([timingA] ++ timingA :: []) lo hi ∧
        CheckHolds (checked [timingA, timingA]) ([timingA] ++ timingA :: []) lo hi) ∧
      NamesTheSame timingA timingA := by
  refine ⟨⟨by unfold EndsAs ReadsAs; decide, by unfold CheckHolds; decide +kernel⟩,
    ⟨(checked [timingA]).getD 13 0, (checked [timingA]).getD 14 0,
      by unfold EndsAs ReadsAs; decide +kernel, by unfold CheckHolds; decide +kernel⟩,
    ⟨fun r hr => by rw [List.mem_singleton.mp hr]; exact (contentPasses_iff _).mp (by decide), by simp⟩,
    fun h => by have k := (contentPasses_iff _).mpr h; revert k; decide,
    ⟨(checked [timingA, timingB]).getD 18 0, (checked [timingA, timingB]).getD 19 0,
      by unfold EndsAs ReadsAs; decide +kernel, by unfold CheckHolds; decide +kernel⟩,
    ⟨(checked [timingA, timingA]).getD 18 0, (checked [timingA, timingA]).getD 19 0,
      by unfold EndsAs ReadsAs; decide +kernel, by unfold CheckHolds; decide +kernel⟩,
    (duplicates_iff _ _).mp (by decide)⟩

theorem test_value_comes_before_duplicate :
    verify (checked [timingA, timingB]) = .fault ⟨.value, 2⟩ ∧ verify (checked [timingA, timingA]) = .fault ⟨.duplicate, 2⟩ := by
  decide +kernel

theorem witness_heads_that_fail_in_a_drain :
    let d : State := { powered .draining gone with mgmtQueue := [.ping 1 0] }
    let w := holding (.writePlace writeA) d
    w.pins.hold = false ∧ w.hostQueue = [] ∧ w.hostOnLink = false ∧ headCheck writeA w = some .stale ∧
      w.power.state = .draining ∧ d.drained = false := by decide

theorem test_failed_head_ends_the_drain :
    let w := after .heldAccessEnqueue (holding (.writePlace writeA) { powered .draining gone with
      mgmtQueue := [], power := { live.power with state := .draining, sleepReq := true } })
    w.power.state = .asleep ∧ w.hostQueue = [] ∧ (w.events.list.map fun e => (e.kind, e.code)) = [(.writeFailed, 6)] := by
  decide +kernel

theorem witness_TimersRunOut_of_the_pacing :
    (live.entry 0).lastResponse = some 0 ∧ (live.entry 1).lastResponse = none := by decide

theorem witness_ArbiterGrants_of_nothing :
    let p : State := withEntry (fun e => { e with pacing := 1 }) { live with mgmtQueue := [.ping 0 1], hostQueue := [writeA] }
    (QuietLaw p ∧ p.engine.link = .free ∧ p.power.state = .active ∧ p.engine.resetPending = false ∧
      modAddr? (MgmtEntry.ping 0 1).payload.dest = some 0 ∧ (p.entry 0).lastResponse = some 0 ∧
      ¬(0 + 10 * (p.entry 0).pacing.toNat ≤ p.now)) ∧
      (loading.autoload.phase ≠ .idle ∧ loading.autoload.startedBy = .cold) ∧
      (reading .sending).engine.link ≠ .free ∧ (reloads loading).autoload.startedBy = .reload :=
  ⟨⟨quiet_of_check _ (by decide), by decide, by decide, by decide, by decide, by decide, by decide⟩, ⟨by decide, by decide⟩,
   by decide, by decide⟩

theorem test_paced_heads_are_not_granted :
    let p : State := withEntry (fun e => { e with pacing := 1 }) { live with mgmtQueue := [.ping 0 1], hostQueue := [writeA] }
    after .arbiterGrant p = p ∧ (after (.pacingIntervalEnd 0) p).mgmtQueue = [] := by decide +kernel

/-- Only the interval that is written is compared: an ONLINE entry's timer is not touched by QUAR_POLL_INTERVAL. -/
theorem test_each_interval_rules_its_own_timers :
    let s := withEntry (fun e => { e with pollTimer := some 20000 }) live
    ((after (.timingWrite .quarPollInterval 0xF 10) s).entry 0).pollTimer = some 20000 ∧
      ((after (.timingWrite .pollInterval 0xF 10) s).entry 0).pollTimer = none := by decide +kernel

end Sys2Proof.Tests
end

section
/-! PROOFS. Delayed reads and the read cache: which path a passing window read takes, and the obligations about it. -/

namespace Sys2Proof.Machine

/-! ### What a passing window read comes to -/

/-- The access that a passing read hands to the read path (R71, R99). -/
def passedRead (s : State) (addr : BitVec 17) (n : Fin 8) (a : ModAddr) (lane : Nat) (w : Width) : ReadAccess :=
  { hostAddr := accessAddr addr lane, width := w, window := n, target := a, gen := (s.entry a).generation
    offset := remoteOffset (vget s.windows n) (winOffset (accessAddr addr lane)), cacheable := (vget s.windows n).cacheable }

theorem exec_windowRead (addr : BitVec 17) (lanes : BitVec 4) (s : State) :
    exec (.windowRead addr lanes) s = execWindowRead addr lanes s := rfl

/-- A read that the port takes and the window's tests pass goes down the read path (R65 to R71, R99). -/
theorem exec_windowRead_of_passes {s : State} {addr : BitVec 17} {lanes : BitVec 4} {n : Fin 8} {a : ModAddr} {lane : Nat}
    {w : Width} (hfree : s.portFree = true) (hpass : Passes s .read addr lanes n a lane w) :
    exec (.windowRead addr lanes) s = .next (readPath (passedRead s addr n a lane w) s) := by
  rw [exec_windowRead, execWindowRead, if_pos hpass.space, hostAccess_free _ _ hfree, windowReadAccess,
    decodeAccess_passes s .read addr lanes n a lane w hpass]
  rfl

/-! ### The cache lookup and the slot that a read matches -/

/-- A read that misses has no line to hit (R113). -/
theorem cacheLookup_eq_none_of_misses {s : State} {addr : BitVec 17} {n : Fin 8} {a : ModAddr} {lane : Nat} {w : Width}
    (hmiss : Misses s n a (remoteOffset (vget s.windows n) (winOffset (accessAddr addr lane))) w) :
    cacheLookup (passedRead s addr n a lane w) s = none := by
  unfold cacheLookup
  split
  case isFalse => rfl
  case isTrue hcache =>
    refine List.find?_eq_none.mpr fun i _ hline => ?_
    obtain ⟨l, hl, hkey⟩ := (Option.any_eq_true _ _).mp hline
    exact hmiss hcache i l hl (of_decide_eq_true hkey)

/-- The model's test of one slot is `Matches` (R101). -/
theorem slotTest_iff_matches (x : Slot) (access : BitVec 17) (w : Width) :
    (x.info?.any fun i => decide (i.hostAddr = access ∧ i.width = w)) = true ↔ Matches x access w := by
  simp [Matches, Option.any_eq_true]

/-- The slot found is the first that matches (R101). -/
theorem matchSlot_eq_some_iff (s : State) (access : BitVec 17) (w : Width) (j : Fin 4) :
    s.matchSlot access w = some j ↔
      Matches (vget s.slots j) access w ∧ ∀ k < j, ¬Matches (vget s.slots k) access w := by
  have hslots : allSlots = List.ofFn (fun i : Fin 4 => i) := rfl
  simp only [State.matchSlot, hslots, List.find?_ofFn_eq_some, exists_eq_left, slotTest_iff_matches]

/-- A read that finds no line and whose slot is PENDING is answered RETRY (R106). -/
theorem readPath_of_pending {acc : ReadAccess} {s : State} {j : Fin 4} {x : SlotInfo} (hline : cacheLookup acc s = none)
    (hslot : s.matchSlot acc.hostAddr acc.width = some j) (hpend : vget s.slots j = .pending x) :
    readPath acc s = s.reply retryAnswer := by
  simp only [readPath, hline, hslot, hpend]

/-! ### The obligations -/

/-- Settles O28: the read path's second step finds the PENDING slot, and its answer is the only change (R106). -/
theorem pendingSlotGivesRetry : Obligations.PendingSlotGivesRetry := by
  intro s addr lanes n a lane w j x hfree hpass hmiss hpend haddr hwidth hfirst
  have hmatch : Matches (vget s.slots j) (accessAddr addr lane) w := ⟨x, by rw [hpend]; rfl, haddr, hwidth⟩
  have hslot : s.matchSlot (accessAddr addr lane) w = some j := (matchSlot_eq_some_iff s _ w j).mpr ⟨hmatch, hfirst⟩
  rw [exec_windowRead_of_passes hfree hpass, readPath_of_pending (cacheLookup_eq_none_of_misses hmiss) hslot hpend]
  rfl

end Sys2Proof.Machine
end

section
/-! PROOFS. FLUSH_CACHE: what the command makes of the state, and the obligation about it. -/

namespace Sys2Proof.Machine

/-- Every line of an empty cache is invalid. -/
theorem vget_emptyCache_lines (i : Fin 32) : vget ({} : Cache).lines i = none := vget_replicate none i

/-- MBX_OP 9 names FLUSH_CACHE (R202). -/
theorem cmdOf_flushCache {s : State} (hop : s.mbx.op = 9) : cmdOf? s.mbx.op = some .flushCache := by
  rw [hop]; rfl

/-- FLUSH_CACHE names no module, so its MAILBOX_DONE carries no address (R136). -/
theorem doneAddress_of_flushCache {s : State} (hop : s.mbx.op = 9) : s.mbx.doneAddress = none := by
  simp only [Mailbox.doneAddress, cmdOf_flushCache hop]

/-- FLUSH_CACHE and its answer: the command has ended DONE with result OK, and the cache is empty (R118, R133). -/
theorem flushCommand_reply {s : State} (hop : s.mbx.op = 9) :
    (flushCommand (resultCleared s)).reply okWrite = { mailboxEnded s .done (.outcome .ok) none with cache := {} } := by
  rw [← doneAddress_of_flushCache hop]; rfl

/-- FLUSH_CACHE leaves the host request queue and the module table alone, and so a head that passes. -/
theorem flushCommand_headLaw {s : State} (hhead : HeadLaw s) : HeadLaw (flushCommand s) := headLaw_modules hhead rfl rfl rfl

/-- Settles O48: the GO starts FLUSH_CACHE, which needs no link, and what closes the event touches neither the slots, the cache nor
the mailbox (R133). -/
theorem flushCacheEmptiesTheCache : Obligations.FlushCacheEmptiesTheCache := by
  intro s hgo hquiet hop
  have hstart : takeGo s = flushCommand (resultCleared s) :=
    takeGo_accepted s hgo .flushCache (cmdOf_flushCache hop) (.inl rfl)
  have hhead : HeadLaw (flushCommand (resultCleared s)) := flushCommand_headLaw (resultCleared_head s hquiet.head)
  obtain ⟨t, hexec, hfollow⟩ := go_followUp s _ _ hgo.1 hstart hhead (flushCommand_reply hop).symm
  obtain ⟨-, -, -, -, -, -, -, hslots, hcache, hmbx, -, -, -⟩ := hfollow.fields
  refine ⟨t, (exec_go _ (by simp [goCommands]) s).trans hexec, hfollow, hslots, fun i => ?_, ?_, ?_⟩
  · rw [hcache]; exact vget_emptyCache_lines i
  · rw [hmbx]; rfl
  · rw [hmbx]; rfl

end Sys2Proof.Machine
end

section
/-! PROOFS. The event unit: what becomes of a posted record, how the head is removed, and the obligations about both. -/

namespace Sys2Proof.Machine

/-! ### A posted record (R156, R157) -/

/-- A place is free while overflow is absent and fewer than 31 places are taken (R156, R158). -/
theorem EventUnit.hasPlace_iff (u : EventUnit) :
    u.hasPlace = true ↔ u.overflowPresent = false ∧ u.ordinaryCount + u.reservations < 31 := by
  simp only [EventUnit.hasPlace, Bool.and_eq_true, Bool.not_eq_true', decide_eq_true_eq]
  exact Iff.rfl

theorem EventUnit.post_of_suppressed {u : EventUnit} {p : Posted} (hroute : u.routeOf p.kind = .suppress) : u.post p = u :=
  if_pos hroute

theorem EventUnit.post_of_overflow {u : EventUnit} {p : Posted} (hroute : u.routeOf p.kind ≠ .suppress)
    (hover : u.overflowPresent = true) : u.post p = u.countLost := by
  rw [EventUnit.post, if_neg hroute, if_pos hover]

theorem EventUnit.post_of_place {u : EventUnit} {p : Posted} (hroute : u.routeOf p.kind ≠ .suppress)
    (hplace : u.hasPlace = true) : u.post p = u.append p false := by
  have hover : ¬u.overflowPresent = true := Bool.eq_false_iff.mp (u.hasPlace_iff.mp hplace).1
  rw [EventUnit.post, if_neg hroute, if_neg hover, if_pos hplace]

/-- The first record that finds no place makes the OVERFLOW record, which counts it (R157). -/
theorem EventUnit.post_of_full {u : EventUnit} {p : Posted} (hroute : u.routeOf p.kind ≠ .suppress)
    (hover : u.overflowPresent = false) (hfull : ¬u.hasPlace = true) :
    u.post p = u.append ⟨.overflow, none, 0, 1, 0, 0⟩ false := by
  rw [EventUnit.post, if_neg hroute, if_neg (Bool.eq_false_iff.mp hover), if_neg hfull]

/-- Settles O59: each row of R156's table is one branch of `post`, and the counts say whether a place is free. -/
theorem postedRecordIsTaken : Obligations.PostedRecordIsTaken := by
  intro u p
  refine ⟨EventUnit.post_of_suppressed, EventUnit.post_of_overflow, fun hroute hover hcount => ?_,
    fun hroute hover hcount => ?_⟩
  · exact EventUnit.post_of_place hroute (u.hasPlace_iff.mpr ⟨hover, hcount⟩)
  · have hfull : ¬u.hasPlace = true := fun hplace => by
      have := (u.hasPlace_iff.mp hplace).2
      omega
    exact EventUnit.post_of_full hroute hover hfull

/-! ### The removal of the head (R147, R164) -/

theorem heldRemoved_frame (a : ModAddr) (s : State) : heldRemoved a s = { s with modules := (heldRemoved a s).modules } := by
  unfold heldRemoved
  dsimp only
  split <;> rfl

/-- The report of a held record's removal moves its entry, and no other, from HELD to CLEAR_DUE (R147). -/
theorem entry_heldRemoved (a b : ModAddr) (s : State) :
    (heldRemoved a s).entry b = { s.entry b with attention :=
      if a = b ∧ (s.entry b).attention = .held then .clearDue else (s.entry b).attention } := by
  by_cases hab : a = b
  · subst hab
    by_cases hheld : (s.entry a).attention = .held <;> simp [heldRemoved, hheld]
  · have hother : (heldRemoved a s).entry b = s.entry b := by
      unfold heldRemoved
      dsimp only
      split
      · exact entry_setEntry_ne s a b _ hab
      · rfl
    simp [hother, hab]

theorem removeHead_of_empty {s : State} (hlist : s.events.list = []) : removeHead s = s := by
  simp only [removeHead, hlist]

/-- The list without its head, and nothing reported yet (R164). -/
abbrev headTaken (s : State) (rest : List EventRec) : State := { s with events := { s.events with list := rest } }

/-- A removal is reported where the record is ATTENTION with held set (R164). -/
theorem removeHead_of_held {s : State} {r : EventRec} {rest : List EventRec} {a : ModAddr} (hlist : s.events.list = r :: rest)
    (hheld : r.kind = .attention ∧ r.held = true) (haddr : r.address = some a) :
    removeHead s = heldRemoved a (headTaken s rest) := by
  simp only [removeHead, hlist, if_pos hheld, haddr]

/-- Any other record just leaves the list (R164). -/
theorem removeHead_of_plain {s : State} {r : EventRec} {rest : List EventRec} (hlist : s.events.list = r :: rest)
    (hplain : ¬((r.kind = .attention ∧ r.held = true) ∧ r.address.isSome = true)) : removeHead s = headTaken s rest := by
  simp only [removeHead, hlist]
  split
  · next hheld =>
    cases haddr : r.address with
    | none => rfl
    | some a => exact absurd ⟨hheld, by simp [haddr]⟩ hplain
  · rfl

/-- What the removal of the head `r` and the answer to the host make of `s`, before the follow-up work: `rest` is the list, and
the entry of a held ATTENTION record has gone from HELD to CLEAR_DUE. -/
def HeadRemoved (s : State) (r : EventRec) (rest : List EventRec) (answer : Answer) (u : State) : Prop :=
  u = { s with port := { s.port with answer := some answer }, events := { s.events with list := rest }
               modules := u.modules } ∧
    ∀ a, u.entry a = { s.entry a with attention :=
      if r.kind = .attention ∧ r.held = true ∧ r.address = some a ∧ (s.entry a).attention = .held then .clearDue
      else (s.entry a).attention }

theorem headRemoved_removeHead {s : State} {r : EventRec} {rest : List EventRec} (hlist : s.events.list = r :: rest)
    (answer : Answer) : HeadRemoved s r rest answer ((removeHead s).reply answer) := by
  by_cases hreport : (r.kind = .attention ∧ r.held = true) ∧ r.address.isSome = true
  · obtain ⟨hheld, hsome⟩ := hreport
    obtain ⟨a, haddr⟩ := Option.isSome_iff_exists.mp hsome
    rw [removeHead_of_held hlist hheld haddr]
    refine ⟨?_, fun b => ?_⟩
    · rw [heldRemoved_frame]
      rfl
    · refine (entry_heldRemoved a b (headTaken s rest)).trans ?_
      simp only [hheld, haddr, Option.some.injEq, true_and]
      rfl
  · rw [removeHead_of_plain hlist hreport]
    refine ⟨rfl, fun b => ?_⟩
    have hno : ¬(r.kind = .attention ∧ r.held = true ∧ r.address = some b ∧ (s.entry b).attention = .held) :=
      fun ⟨hkind, hheld, haddr, _⟩ => hreport ⟨⟨hkind, hheld⟩, by simp [haddr]⟩
    rw [if_neg hno]
    rfl

/-- A removal changes nothing that the head checks read. -/
theorem removeHead_headLaw {s : State} (hhead : HeadLaw s) : HeadLaw (removeHead s) := by
  cases hlist : s.events.list with
  | nil => rwa [removeHead_of_empty hlist]
  | cons r rest =>
    obtain ⟨hframe, hentry⟩ := headRemoved_removeHead hlist okWrite
    have hqueue : ((removeHead s).reply okWrite).hostQueue = s.hostQueue := by rw [hframe]
    have hengine : ((removeHead s).reply okWrite).engine = s.engine := by rw [hframe]
    refine headLaw_congr hhead hqueue hengine fun a => ?_
    have hsame : (removeHead s).entry a = _ := hentry a
    rw [hsame]
    exact ⟨rfl, rfl, rfl⟩

/-- A host access that removes the head, in an event that closes with `settle`: the removal, the answer, and follow-up work. -/
theorem removal_followUp {s : State} {r : EventRec} {rest : List EventRec} (hhead : HeadLaw s)
    (hlist : s.events.list = r :: rest) (answer : Answer) :
    ∃ u, FollowUp u ((settle (removeHead s)).reply answer) ∧ HeadRemoved s r rest answer u :=
  ⟨_, followUp_settle_reply _ answer (removeHead_headLaw hhead), headRemoved_removeHead hlist answer⟩

/-! ### The two accesses that may remove the head (R161, R162) -/

theorem exec_evtPop {s : State} (lanes : BitVec 4) (hfree : s.portFree = true) :
    exec (.evtPop lanes) s = .next (popAccess lanes s) :=
  congrArg Host.Outcome.next (hostAccess_free _ s hfree)

theorem exec_evtRelease {s : State} (data : Word) (hfree : s.portFree = true) :
    exec (.evtRelease 0xF#4 data) s = .next (writeRelease data s) :=
  congrArg Host.Outcome.next (registerWrite_taken _ s hfree)

theorem exec_evtRelease_narrow {s : State} {lanes : BitVec 4} (data : Word) (hfree : s.portFree = true)
    (hnarrow : lanes ≠ 0xF#4) : exec (.evtRelease lanes data) s = .next (s.reply (errorAnswer .write)) :=
  congrArg Host.Outcome.next ((hostAccess_free _ s hfree).trans (fullWrite_partial lanes _ s hnarrow))

theorem exec_evtStatusClear {s : State} (data : Word) (hfree : s.portFree = true) :
    exec (.evtStatusClear 0xF#4 data) s = .next (writeEvtStatus data s) :=
  congrArg Host.Outcome.next (registerWrite_taken _ s hfree)

theorem headDetail_of_empty {u : EventUnit} (hlist : u.list = []) (f : EventRec → Word) : headDetail u f = 0 := by
  simp only [headDetail, hlist]

theorem headDetail_of_cons {u : EventUnit} {r : EventRec} {rest : List EventRec} (hlist : u.list = r :: rest)
    (f : EventRec → Word) : headDetail u f = f r := by
  simp only [headDetail, hlist]

theorem enabledLanes_zero (lane : Nat) (w : Width) : enabledLanes lane w 0 = 0 := BitVec.zero_and

theorem popAccess_of_lanes {s : State} {lanes : BitVec 4} {lane : Nat} {w : Width}
    (hlanes : laneGroup? lanes = some (lane, w)) : popAccess lanes s = popRead lane w s := by
  simp only [popAccess, hlanes]

theorem popAccess_of_laneFault {s : State} {lanes : BitVec 4} (hlanes : laneGroup? lanes = none) :
    popAccess lanes s = s.reply (errorAnswer .read) := by
  simp only [popAccess, hlanes]

/-- In POP mode a read of EVT_W3 removes the head and closes the event (R161). -/
theorem popRead_of_pop {s : State} {lane : Nat} {w : Width} (hmode : s.events.mode = .pop) :
    popRead lane w s =
      (settle (removeHead s)).reply (okRead (enabledLanes lane w (headDetail s.events EventRec.detailC))) := by
  simp only [popRead, if_pos hmode]

/-- In RELEASE mode a read of EVT_W3 is answered, and that is all (R161). -/
theorem popRead_of_release {s : State} {lane : Nat} {w : Width} (hmode : s.events.mode = .release) :
    popRead lane w s = s.reply (okRead (enabledLanes lane w (headDetail s.events EventRec.detailC))) := by
  simp [popRead, hmode]

/-- In POP mode a write to EVT_RELEASE gets ERROR (R161). -/
theorem writeRelease_of_pop {s : State} (data : Word) (hmode : s.events.mode = .pop) :
    writeRelease data s = s.reply (errorAnswer .write) := if_pos hmode

/-- A written value is the seq of a record, in 32 bits, exactly where the two are the same number (R162). -/
theorem eq_setWidth_seq_iff (data : Word) (seq : Byte) : data = seq.setWidth 32 ↔ data.toNat = seq.toNat := by
  rw [← BitVec.toNat_inj, BitVec.toNat_setWidth_of_le (by decide)]

/-- In RELEASE mode a write of the head's seq removes the head and closes the event (R162). -/
theorem writeRelease_of_seq {s : State} {data : Word} {r : EventRec} {rest : List EventRec} (hmode : s.events.mode = .release)
    (hlist : s.events.list = r :: rest) (hseq : data.toNat = r.seq.toNat) :
    writeRelease data s = (settle (removeHead s)).reply okWrite := by
  have hnames : data = r.seq.setWidth 32 := (eq_setWidth_seq_iff data r.seq).mpr hseq
  simp [writeRelease, acceptWrite, hmode, hlist, hnames]

/-- In RELEASE mode a write that names no head sets STALE_RELEASE (R162). -/
theorem writeRelease_of_stale {s : State} {data : Word} (hmode : s.events.mode = .release)
    (hstale : ∀ r ∈ s.events.list.head?, data.toNat ≠ r.seq.toNat) :
    writeRelease data s = State.reply { s with events := { s.events with staleRelease := true } } okWrite := by
  have hno : ¬(s.events.list.head?.any fun r => data = r.seq.setWidth 32) = true := fun hany => by
    obtain ⟨r, hr, hnames⟩ := (Option.any_eq_true _ _).mp hany
    exact hstale r hr ((eq_setWidth_seq_iff data r.seq).mp (of_decide_eq_true hnames))
  rw [writeRelease, if_neg (by simp [hmode]), if_neg hno, acceptWrite]

/-! ### The obligations -/

/-- Settles O36: the lane group, the mode and the list choose the branch, and the one branch that removes anything is
`removal_followUp` (R161, R164). -/
theorem popRemovesTheHead : Obligations.PopRemovesTheHead := by
  intro s lanes hfree
  rw [exec_evtPop lanes hfree]
  refine ⟨fun hlanes => ?_, fun lane w hquiet hlanes hlist hmode => ?_, fun lane w hlanes hlist hmode => ?_,
    fun lane w r rest hlanes hlist hmode => ?_, fun lane w r rest hquiet hlanes hlist hmode => ?_, fun hmode data => ?_⟩
  · rw [popAccess_of_laneFault hlanes]
    rfl
  · rw [popAccess_of_lanes hlanes, popRead_of_pop hmode, removeHead_of_empty hlist, headDetail_of_empty hlist,
      enabledLanes_zero]
    exact ⟨_, rfl, followUp_settle_reply s (okRead 0) hquiet.head⟩
  · rw [popAccess_of_lanes hlanes, popRead_of_release hmode, headDetail_of_empty hlist, enabledLanes_zero]
    rfl
  · rw [popAccess_of_lanes hlanes, popRead_of_release hmode, headDetail_of_cons hlist]
    rfl
  · rw [popAccess_of_lanes hlanes, popRead_of_pop hmode, headDetail_of_cons hlist]
    obtain ⟨u, hfollow, hremoved⟩ := removal_followUp hquiet.head hlist (okRead (enabledLanes lane w r.detailC))
    exact ⟨_, u, rfl, hfollow, hremoved⟩
  · rw [exec_evtRelease data hfree, writeRelease_of_pop data hmode]
    rfl

/-- Settles O37: a write that names the head's seq is `removal_followUp`, and any other leaves the list alone (R162). -/
theorem releaseNamesTheHead : Obligations.ReleaseNamesTheHead := by
  intro s data hfree hquiet hmode
  rw [exec_evtRelease data hfree]
  refine ⟨fun lanes hnarrow => exec_evtRelease_narrow data hfree hnarrow, fun r rest hlist hseq => ?_,
    fun r rest hlist hseq => ?_, fun hlist => ?_, ?_⟩
  · rw [writeRelease_of_seq hmode hlist hseq]
    obtain ⟨u, hfollow, hremoved⟩ := removal_followUp hquiet.head hlist okWrite
    exact ⟨_, u, rfl, hfollow, hremoved⟩
  · rw [writeRelease_of_stale hmode (by simpa [hlist] using hseq)]
    rfl
  · rw [writeRelease_of_stale hmode (by simp [hlist])]
    rfl
  · have hclear : (s.events.staleRelease && !(1 : Word).getLsbD 0) = false := by simp
    rw [exec_evtStatusClear 1 hfree, writeEvtStatus, hclear]
    rfl

end Sys2Proof.Machine
end

section
/-! PROOFS. What any command can do to the blocks, said once: `Act` lists the single acts out of which every meaning is made, each
with what the laws need of it; a law that every act keeps is kept by every command. -/

namespace Sys2Proof.Machine

/-! ### Entries -/

/-- An entry that holds the EMPTY column of section 2.1 (log entry 18). -/
def Entry.IsBlank (e : Entry) : Prop := e = { generation := e.generation, seq := e.seq, lastResponse := e.lastResponse }

/-- A change of an entry that no law of the module table, the cache or the attention unit notices: the same incarnation, EMPTY and
ONLINE kept, a fetch neither begun nor ended. -/
structure Entry.Tame (e f : Entry) : Prop where
  gen   : f.generation = e.generation
  id    : f.uniqueId = e.uniqueId
  state : f.state = e.state ∨ e.state ≠ .empty ∧ e.state ≠ .online ∧ f.state ≠ .empty
  fetch : f.attention = .fetching ↔ e.attention = .fetching
  blank : e.state = .empty → e.IsBlank → f.IsBlank

theorem Entry.Tame.refl (e : Entry) : e.Tame e := ⟨rfl, rfl, .inl rfl, .rfl, fun _ h => h⟩

/-- A change of an entry that is not EMPTY and stays in its state. -/
theorem Entry.Tame.of_live {e f : Entry} (hlive : e.state ≠ .empty) (hgen : f.generation = e.generation)
    (hid : f.uniqueId = e.uniqueId) (hstate : f.state = e.state) (hfetch : f.attention = .fetching ↔ e.attention = .fetching) :
    e.Tame f := ⟨hgen, hid, .inl hstate, hfetch, fun h => absurd h hlive⟩

theorem Entry.IsBlank.fields {e : Entry} (h : e.IsBlank) :
    e.attention = .none ∧ e.pingDue = false ∧ e.releaseDue = false ∧ e.hasAttention = false ∧ e.clearBits = none ∧
      e.pollTimer = none := by
  rw [h]; exact ⟨rfl, rfl, rfl, rfl, rfl, rfl⟩

/-! ### The event unit -/

/-- One act of the event unit on its own list and registers; reservations belong to the attention unit's acts. -/
inductive EventAct (u : EventUnit) : EventUnit → Prop
  | post (p : Posted) : EventAct u (u.post p)
  | clearHeld (a : ModAddr) : EventAct u (u.clearHeld a)
  | remove (r : EventRec) (rest : List EventRec) (h : u.list = r :: rest) : EventAct u { u with list := rest }
  | flags (m : EvtMode) (l0 l1 st : Bool) : EventAct u { u with mode := m, line0En := l0, line1En := l1, staleRelease := st }
  | routes (R : Vector Route 17)
      (h : ∀ k, k = .attention ∨ k = .overflow → u.routeOf k ≠ .suppress → vget R (kindIndex k) ≠ .suppress) :
      EventAct u { u with routes := R }

/-! ### The acts -/

/-- No request of the mailbox stands in the host request queue or is on the link, but for one to be discarded. -/
def MailboxFree (s : State) : Prop :=
  (∀ e ∈ s.hostQueue, e.origin ≠ .mailbox) ∧
    ∀ r e, s.engine.link.request? = some r → r.source = .host e false → e.origin ≠ .mailbox

/-- The link may change so: what it carries for the host it carried already. -/
def Link.HostFrom (l k : Link) : Prop :=
  ∀ r e, k.request? = some r → r.source = .host e false → ∃ q, l.request? = some q ∧ q.source = .host e false

/-- One act of a command, with what the laws need of it. `P` and `Q` stand for what is known of the state that the command began in:
`P` that the module table obeyed its law, `Q` that the mailbox and a held write obeyed theirs. -/
inductive Act (P Q : Prop) (s : State) : State → Prop
  | inner (n : Nat) (v : Vector Slot 4) (al : Autoload) (d : Discovery) (level armed : Bool) (m : AttnMode)
      (w : Option (List ModAddr)) :
      Act P Q s { s with now := n, slots := v, autoload := al, disc := d
                         attn := { s.attn with level := level, mode := m, armed := armed, sweep := w } }
  | port (p : HostPort) (hbind : p.bindSel = s.port.bindSel ∨ (modAddr? p.bindSel).isSome = true)
      (hmod : p.modSel = s.port.modSel ∨ (modAddr? p.modSel).isSome = true)
      (hheld : ∀ h e, p.held = some h → h.what = .writePlace e →
        e.origin = .windowWrite ∨ ∃ h', s.port.held = some h' ∧ h'.what = .writePlace e) :
      Act P Q s { s with port := p }
  | events (u : EventUnit) (h : EventAct s.events u) : Act P Q s { s with events := u }
  | mgmt (q : List MgmtEntry) (h : q.length ≤ s.mgmtQueue.length ∨ q.length ≤ Config.mgmtQueueCapacity) :
      Act P Q s { s with mgmtQueue := q }
  | modules (m : Vector Entry 14) (h : ∀ a, (s.entry a).Tame (vget m a)) : Act P Q s { s with modules := m }
  | cache (c : Cache) (h : ∀ i l, vget c.lines i = some l → vget s.cache.lines i = some l) : Act P Q s { s with cache := c }
  | fill (l : Line) (h : (s.entry l.addr).state = .online ∧ (s.entry l.addr).generation = l.gen) :
      Act P Q s { s with cache := s.cache.fill l }
  | mailbox (m : Mailbox)
      (h : Q → MailboxLaw s → m.state = s.mbx.state ∧ m.op = s.mbx.op ∨ MailboxFree s) : Act P Q s { s with mbx := m }
  | engine (g : LinkEngine) (hs : g.link = .free ∨ s.engine.link ≠ .free ∨ (s.power.state ≠ .asleep ∧ s.power.state ≠ .waking))
      (hm : s.engine.link.HostFrom g.link) : Act P Q s { s with engine := g }
  | power (p : Power) (h : p.state = .asleep ∨ p.state = .waking →
        s.engine.link = .free ∨ s.power.state = .asleep ∨ s.power.state = .waking) : Act P Q s { s with power := p }
  | windows (W : Vector Window 8) (h : WindowLaw s → WindowLaw { s with windows := W }) : Act P Q s { s with windows := W }
  | bindings (B : Vector (Option Binding) 14) (h : BindingLaw s → BindingLaw { s with bindings := B }) :
      Act P Q s { s with bindings := B }
  | timing (T : Timing) (h : TimingLaw s → TimingLaw { s with timing := T }) : Act P Q s { s with timing := T }
  | push (e : HostEntry) (hroom : s.hostQueue.length < Config.hostQueueCapacity) (h : Q → e.origin ≠ .mailbox) :
      Act P Q s { s with hostQueue := s.hostQueue ++ [e] }
  | cancel : Act P Q s { s with hostQueue := s.hostQueue.map cancelEntry }
  | pop (e : HostEntry) (rest : List HostEntry) (h : s.hostQueue = e :: rest) : Act P Q s { s with hostQueue := rest }
  | command (e : HostEntry) (hroom : s.hostQueue.length < Config.hostQueueCapacity) (hop : s.mbx.op.toNat ≤ 2)
      (h : MailboxLaw s → MailboxFree s) :
      Act P Q s { s with hostQueue := s.hostQueue ++ [e], mbx := { s.mbx with state := .queued } }
  | finish (e : HostEntry) (rest : List HostEntry) (m : Mailbox) (h : s.hostQueue = e :: rest) (he : e.origin = .mailbox) :
      Act P Q s { s with hostQueue := rest, mbx := m }
  | grant (e : HostEntry) (rest : List HostEntry) (g : LinkEngine) (r : Request) (h : s.hostQueue = e :: rest)
      (hl : g.link = .carrying r) (hr : r.source = .host e false) (hp : s.power.state ≠ .asleep ∧ s.power.state ≠ .waking) :
      Act P Q s { s with hostQueue := rest, engine := g
                         mbx := if e.origin = .mailbox then { s.mbx with state := .active } else s.mbx }
  | quarantine (a : ModAddr) (e : Entry) (hlive : (s.entry a).state ≠ .empty) (hstate : e.state = .quarantined)
      (hgen : e.generation = (s.entry a).generation) (hid : e.uniqueId = (s.entry a).uniqueId)
      (hfetch : e.attention = (s.entry a).attention) : Act P Q s (dropLinesOf a (s.setEntry a e))
  | leave (a : ModAddr) (e : Entry) (hstate : e.state = .empty) (hblank : e.IsBlank) :
      Act P Q s { dropLinesOf a (s.setEntry a e) with
        attn := { s.attn with fetches := if (s.entry a).attention = .fetching then vset s.attn.fetches a none else s.attn.fetches }
        events := if (s.entry a).attention = .fetching ∧ (s.fetchRec a).any (·.reserved) = true then s.events.release
                  else s.events }
  | join (a : ModAddr) (e : Entry) (id : UniqueId) (hfree : (s.entry a).state = .empty) (hlive : e.state ≠ .empty)
      (hid : e.uniqueId = some id) (hattn : e.attention = .none)
      (hfresh : P → ∀ b, (s.entry b).state ≠ .empty → (s.entry b).uniqueId ≠ some id) : Act P Q s (s.setEntry a e)
  | fetch (a : ModAddr) (reserved : Bool) (hdue : (s.entry a).attention = .fetchDue)
      (hplace : reserved = true → s.events.hasPlace = true) :
      Act P Q s { s.setEntry a { s.entry a with attention := .fetching } with
        attn := { s.attn with fetches := vset s.attn.fetches a (some ⟨(s.entry a).generation, reserved⟩) }
        events := if reserved then s.events.take else s.events }
  | fetched (a : ModAddr) (f : FetchRec) (e : Entry) (hrec : s.fetchRec a = some f) (hgen : e.generation = (s.entry a).generation)
      (hid : e.uniqueId = (s.entry a).uniqueId) (hstate : e.state = (s.entry a).state) (hlive : e.state ≠ .empty)
      (hattn : e.attention ≠ .fetching) (u : EventUnit)
      (hu : u = (if f.reserved then s.events.release else s.events) ∨
        f.reserved = true ∧ ∃ word gen held, u = s.events.fill a word gen held) :
      Act P Q s { s.setEntry a e with attn := { s.attn with fetches := vset s.attn.fetches a none }, events := u }
  | retain : Act P Q s (retainBlocks s)

/-- Any number of acts. -/
def Acts (P Q : Prop) : State → State → Prop := Relation.ReflTransGen (Act P Q)

/-- What every act keeps, any number of acts keeps. -/
theorem Acts.keeps {P Q : Prop} {L : State → Prop} (hact : ∀ s t, Act P Q s t → L s → L t) {s t : State} (h : Acts P Q s t)
    (hs : L s) : L t := by
  induction h with
  | refl => exact hs
  | tail _ hlast ih => exact hact _ _ hlast ih

/-! ### What no act touches -/

theorem Act.untouched {P Q : Prop} {s t : State} (h : Act P Q s t) : t.pending = s.pending ∧ t.pins = s.pins := by
  cases h <;> exact ⟨rfl, rfl⟩

theorem Acts.untouched {P Q : Prop} {s t : State} (h : Acts P Q s t) : t.pending = s.pending ∧ t.pins = s.pins :=
  h.keeps (L := fun u => u.pending = s.pending ∧ u.pins = s.pins)
    (fun _ _ hact ⟨hq, hp⟩ => ⟨hact.untouched.1.trans hq, hact.untouched.2.trans hp⟩) ⟨rfl, rfl⟩

end Sys2Proof.Machine
end

section
/-! PROOFS. The laws that every act keeps. -/

namespace Sys2Proof.Machine

variable {P Q : Prop}

/-! ### The event unit (R153, R155, R156, R165) -/

/-- A list whose records are changed in nothing that the event queue's laws read. -/
theorem map_kept_kinds (f : EventRec → EventRec) (hf : ∀ r, (f r).kind = r.kind) (p : Kind → Bool) (l : List EventRec) :
    ((l.map f).filter fun r => p r.kind).length = (l.filter fun r => p r.kind).length := by
  rw [List.filter_map, List.length_map]
  congr 2
  funext r
  exact congrArg p (hf r)

/-- The three counts of the law of the event queue, of an event unit alone (R155). -/
def EventUnit.Fits (u : EventUnit) : Prop :=
  (u.list.filter fun r => r.kind = .overflow).length ≤ 1 ∧ u.ordinaryCount + u.reservations ≤ Config.ordinaryPlaces

/-- The ordinary records and the OVERFLOW records are all the records (R155). -/
theorem EventUnit.length_list (u : EventUnit) :
    u.list.length = (u.list.filter fun r => r.kind = .overflow).length + u.ordinaryCount := by
  have h := List.length_eq_length_filter_add (l := u.list) (fun r => decide (r.kind = .overflow))
  simpa [EventUnit.ordinaryCount] using h

theorem eventLaw_iff (s : State) : EventLaw s ↔ s.events.Fits := by
  have h := s.events.length_list
  constructor
  · exact fun ⟨_, ho, hp⟩ => ⟨ho, hp⟩
  · intro ⟨ho, hp⟩
    refine ⟨?_, ho, hp⟩
    simp only [Config.ordinaryPlaces] at hp
    omega

theorem EventUnit.no_overflow {u : EventUnit} (h : u.overflowPresent = false) :
    (u.list.filter fun r => r.kind = .overflow).length = 0 := by
  simpa [EventUnit.overflowPresent] using h

/-- A record appended (R156). -/
theorem EventUnit.append_counts (u : EventUnit) (p : Posted) (held : Bool) :
    ((u.append p held).list.filter fun r => r.kind = .overflow).length =
        (u.list.filter fun r => r.kind = .overflow).length + (if p.kind = .overflow then 1 else 0) ∧
      (u.append p held).ordinaryCount = u.ordinaryCount + (if p.kind = .overflow then 0 else 1) ∧
      (u.append p held).reservations = u.reservations := by
  by_cases h : p.kind = .overflow <;> simp [EventUnit.append, EventUnit.ordinaryCount, h]

theorem EventUnit.Fits.countLost {u : EventUnit} (h : u.Fits) : u.countLost.Fits := by
  have hk : ∀ r : EventRec, (if r.kind = .overflow then
      { r with detailA := if r.detailA = 0xFFFFFFFF#32 then r.detailA else r.detailA + 1 } else r).kind = r.kind := by
    intro r; split <;> rfl
  refine ⟨?_, ?_⟩
  · exact (map_kept_kinds _ hk (fun k => decide (k = .overflow)) u.list).trans_le h.1
  · have := map_kept_kinds _ hk (fun k => decide (k ≠ .overflow)) u.list
    have h2 := h.2
    simp only [EventUnit.ordinaryCount, EventUnit.countLost] at h2 ⊢
    omega

theorem EventUnit.Fits.clearHeld {u : EventUnit} (h : u.Fits) (a : ModAddr) : (u.clearHeld a).Fits := by
  have hk : ∀ r : EventRec, (if r.kind = .attention ∧ r.address = some a ∧ r.held = true then
      { r with held := false } else r).kind = r.kind := by
    intro r; split <;> rfl
  refine ⟨?_, ?_⟩
  · exact (map_kept_kinds _ hk (fun k => decide (k = .overflow)) u.list).trans_le h.1
  · have := map_kept_kinds _ hk (fun k => decide (k ≠ .overflow)) u.list
    have h2 := h.2
    simp only [EventUnit.ordinaryCount, EventUnit.clearHeld] at h2 ⊢
    omega

theorem EventUnit.Fits.post {u : EventUnit} (h : u.Fits) (p : Posted) : (u.post p).Fits := by
  unfold EventUnit.post
  split
  · exact h
  · split
    · exact h.countLost
    · rename_i hover
      have h0 := u.no_overflow (by simpa using hover)
      have h2 := h.2
      split
      · rename_i hplace
        have hplace := (u.hasPlace_iff.mp hplace).2
        obtain ⟨c1, c2, c3⟩ := u.append_counts p false
        refine ⟨?_, ?_⟩
        · rw [c1]; split <;> omega
        · rw [c2, c3]; simp only [Config.ordinaryPlaces] at *; split <;> omega
      · obtain ⟨c1, c2, c3⟩ := u.append_counts ⟨.overflow, none, 0, 1, 0, 0⟩ false
        refine ⟨?_, ?_⟩
        · rw [c1, h0]; simp
        · rw [c2, c3]; simpa using h2

theorem EventUnit.Fits.release {u : EventUnit} (h : u.Fits) : u.release.Fits :=
  ⟨h.1, le_trans (Nat.add_le_add_left (Nat.sub_le _ _) _) h.2⟩

theorem EventUnit.Fits.take {u : EventUnit} (h : u.Fits) : u.take.Fits := by
  unfold EventUnit.take
  split
  · rename_i hplace
    have hplace := (u.hasPlace_iff.mp hplace).2
    exact ⟨h.1, by simp only [EventUnit.ordinaryCount, Config.ordinaryPlaces] at *; omega⟩
  · exact h

theorem EventUnit.Fits.fill {u : EventUnit} (h : u.Fits) (a : ModAddr) (word gen : Half) (held : Bool) :
    (u.fill a word gen held).Fits := by
  unfold EventUnit.fill
  split
  · rename_i hres
    obtain ⟨c1, c2, c3⟩ := ({ u with reservations := u.reservations - 1 } : EventUnit).append_counts
      ⟨.attention, some a, 0, word.setWidth 32, gen.setWidth 32, 0⟩ held
    have h1 := h.1
    have h2 := h.2
    refine ⟨?_, ?_⟩
    · rw [c1]; simpa using h1
    · rw [c2, c3]; simp only [EventUnit.ordinaryCount, Config.ordinaryPlaces, reduceCtorEq, if_false] at *; omega
  · exact h

theorem EventAct.fits {u v : EventUnit} (h : EventAct u v) (hu : u.Fits) : v.Fits := by
  cases h with
  | post p => exact hu.post p
  | clearHeld a => exact hu.clearHeld a
  | remove r rest hl =>
    have h1 := hu.1
    have h2 := hu.2
    rw [EventUnit.ordinaryCount, hl] at h2
    rw [hl] at h1
    refine ⟨le_trans ?_ h1, le_trans ?_ h2⟩
    · exact ((List.sublist_cons_self r rest).filter _).length_le
    · exact Nat.add_le_add_right ((List.sublist_cons_self r rest).filter _).length_le _
  | flags => exact hu
  | routes => exact hu

theorem Act.eventLaw {s t : State} (h : Act P Q s t) (hs : EventLaw s) : EventLaw t := by
  rw [eventLaw_iff] at hs ⊢
  cases h with
  | events u hu => exact hu.fits hs
  | leave a e => show EventUnit.Fits (if _ then _ else _); split; exacts [hs.release, hs]
  | fetch a r => show EventUnit.Fits (if _ then _ else _); split; exacts [hs.take, hs]
  | fetched a f e hrec hgen hid hstate hlive hattn u hu =>
    show u.Fits
    obtain rfl | ⟨_, word, gen, held, rfl⟩ := hu
    · split; exacts [hs.release, hs]
    · exact hs.fill a word gen held
  | retain => exact ⟨Nat.zero_le 1, Nat.zero_le 31⟩
  | _ => exact hs

/-- The law of the routes, of an event unit alone (R153, R165). -/
def EventUnit.Routed (u : EventUnit) : Prop :=
  (∀ r ∈ u.list, r.route ≠ .suppress) ∧ u.routeOf .attention ≠ .suppress ∧ u.routeOf .overflow ≠ .suppress

theorem EventUnit.Routed.append {u : EventUnit} (h : u.Routed) (p : Posted) (held : Bool) (hp : u.routeOf p.kind ≠ .suppress) :
    (u.append p held).Routed := by
  refine ⟨fun r hr => ?_, h.2⟩
  obtain hr | hr := List.mem_append.mp hr
  · exact h.1 r hr
  · rw [List.mem_singleton.mp hr]; exact hp

theorem EventUnit.Routed.map {u : EventUnit} (h : u.Routed) (f : EventRec → EventRec) (hf : ∀ r, (f r).route = r.route) :
    EventUnit.Routed { u with list := u.list.map f } := by
  refine ⟨fun r hr => ?_, h.2⟩
  obtain ⟨q, hq, rfl⟩ := List.mem_map.mp hr
  rw [hf]; exact h.1 q hq

theorem EventUnit.Routed.post {u : EventUnit} (h : u.Routed) (p : Posted) : (u.post p).Routed := by
  unfold EventUnit.post
  split
  · exact h
  · rename_i hp
    split
    · exact h.map _ fun r => by split <;> rfl
    · split
      · exact h.append p false hp
      · exact h.append _ false h.2.2

theorem EventAct.routed {u v : EventUnit} (h : EventAct u v) (hu : u.Routed) : v.Routed := by
  cases h with
  | post p => exact hu.post p
  | clearHeld a => exact hu.map _ fun r => by split <;> rfl
  | remove r rest hl => exact ⟨fun q hq => hu.1 q (hl ▸ List.mem_cons_of_mem r hq), hu.2⟩
  | flags => exact hu
  | routes R hR => exact ⟨hu.1, hR .attention (.inl rfl) hu.2.1, hR .overflow (.inr rfl) hu.2.2⟩

theorem Act.routeLaw {s t : State} (h : Act P Q s t) (hs : RouteLaw s) : RouteLaw t := by
  change s.events.Routed at hs
  show t.events.Routed
  cases h with
  | events u hu => exact hu.routed hs
  | leave a e => show EventUnit.Routed (if _ then _ else _); split <;> exact hs
  | fetch a r => show EventUnit.Routed (if _ then _ else _); split; exacts [by rw [take_fields]; exact hs, hs]
  | fetched a f e hrec hgen hid hstate hlive hattn u hu =>
    show u.Routed
    obtain rfl | ⟨_, word, gen, held, rfl⟩ := hu
    · split <;> exact hs
    · unfold EventUnit.fill
      split
      · exact EventUnit.Routed.append (u := { s.events with reservations := s.events.reservations - 1 }) hs _ held hs.2.1
      · exact hs
  | retain => exact ⟨fun r hr => absurd hr List.not_mem_nil, hs.2⟩
  | _ => exact hs

/-- The law of the seq values, of an event unit alone (R156). -/
def EventUnit.Numbered (u : EventUnit) : Prop :=
  ∀ i r, u.list[i]? = some r → r.seq + BitVec.ofNat 8 (u.list.length - i) = u.nextSeq

theorem EventUnit.Numbered.append {u : EventUnit} (h : u.Numbered) (p : Posted) (held : Bool) : (u.append p held).Numbered := by
  intro i r hr
  have hlen : (u.append p held).list.length = u.list.length + 1 := by simp [EventUnit.append]
  rw [hlen]
  show r.seq + _ = u.nextSeq + 1
  rcases Nat.lt_or_ge i u.list.length with hi | hi
  · have hr' : u.list[i]? = some r := by rw [← hr]; exact (List.getElem?_append_left hi).symm
    rw [← h i r hr', BitVec.add_assoc]
    congr 1
    apply BitVec.eq_of_toNat_eq
    simp
    omega
  · rw [EventUnit.append, List.getElem?_append_right hi] at hr
    obtain ⟨hlt, heq⟩ := List.getElem?_eq_some_iff.mp hr
    have hi0 : i = u.list.length := by simp at hlt; omega
    subst hi0
    rw [← heq]
    simp

theorem EventUnit.Numbered.map {u : EventUnit} (h : u.Numbered) (f : EventRec → EventRec) (hf : ∀ r, (f r).seq = r.seq) :
    EventUnit.Numbered { u with list := u.list.map f } := by
  intro i r hr
  simp only [List.getElem?_map, Option.map_eq_some_iff] at hr
  obtain ⟨q, hq, rfl⟩ := hr
  rw [hf]
  simpa using h i q hq

theorem EventUnit.Numbered.post {u : EventUnit} (h : u.Numbered) (p : Posted) : (u.post p).Numbered := by
  unfold EventUnit.post
  split
  · exact h
  · split
    · exact h.map _ fun r => by split <;> rfl
    · split <;> exact h.append _ false

theorem EventAct.numbered {u v : EventUnit} (h : EventAct u v) (hu : u.Numbered) : v.Numbered := by
  cases h with
  | post p => exact hu.post p
  | clearHeld a => exact hu.map _ fun r => by split <;> rfl
  | remove r rest hl =>
    intro i q hq
    have := hu (i + 1) q (by rw [hl]; simpa using hq)
    rw [hl] at this
    simpa using this
  | flags => exact hu
  | routes => exact hu

theorem Act.seqLaw {s t : State} (h : Act P Q s t) (hs : SeqLaw s) : SeqLaw t := by
  change s.events.Numbered at hs
  show t.events.Numbered
  cases h with
  | events u hu => exact hu.numbered hs
  | leave a e => show EventUnit.Numbered (if _ then _ else _); split <;> exact hs
  | fetch a r => show EventUnit.Numbered (if _ then _ else _); split; exacts [by rw [take_fields]; exact hs, hs]
  | fetched a f e hrec hgen hid hstate hlive hattn u hu =>
    show u.Numbered
    obtain rfl | ⟨_, word, gen, held, rfl⟩ := hu
    · split <;> exact hs
    · unfold EventUnit.fill
      split
      · exact EventUnit.Numbered.append (u := { s.events with reservations := s.events.reservations - 1 }) hs _ held
      · exact hs
  | retain => intro i r hr; exact absurd hr (by simp [retainBlocks, EventUnit.retain])
  | _ => exact hs

/-! ### The queues (R26, R77) -/

theorem Act.queueLaw {s t : State} (h : Act P Q s t) (hs : QueueLaw s) : QueueLaw t := by
  obtain ⟨hhost, hmgmt⟩ := hs
  cases h with
  | mgmt q hq => exact ⟨hhost, hq.elim (fun h => h.trans hmgmt) id⟩
  | push e hroom => exact ⟨by simpa using hroom, hmgmt⟩
  | cancel => exact ⟨by simpa using hhost, hmgmt⟩
  | pop e rest h => exact ⟨by simp [h] at hhost ⊢; omega, hmgmt⟩
  | command e hroom => exact ⟨by simpa using hroom, hmgmt⟩
  | finish e rest m h => exact ⟨by simp [h] at hhost ⊢; omega, hmgmt⟩
  | grant e rest g r h => exact ⟨by simp [h] at hhost ⊢; omega, hmgmt⟩
  | retain => exact ⟨Nat.zero_le _, hmgmt⟩
  | _ => exact ⟨hhost, hmgmt⟩

/-! ### The configuration (R49, R63, R203, R204) -/

theorem Act.windowLaw {s t : State} (h : Act P Q s t) (hs : WindowLaw s) : WindowLaw t := by
  cases h with
  | windows W hW => exact hW hs
  | _ => exact hs

theorem Act.bindingLaw {s t : State} (h : Act P Q s t) (hs : BindingLaw s) : BindingLaw t := by
  cases h with
  | bindings B hB => exact hB hs
  | _ => exact hs

theorem Act.timingLaw {s t : State} (h : Act P Q s t) (hs : TimingLaw s) : TimingLaw t := by
  cases h with
  | timing T hT => exact hT hs
  | _ => exact hs

theorem Act.selectLaw {s t : State} (h : Act P Q s t) (hs : SelectLaw s) : SelectLaw t := by
  cases h with
  | port p hbind hmod =>
    exact ⟨hbind.elim (fun h => (congrArg (fun d => (modAddr? d).isSome) h).trans hs.1) id,
      hmod.elim (fun h => (congrArg (fun d => (modAddr? d).isSome) h).trans hs.2) id⟩
  | _ => exact hs

/-! ### The module table (R24, R25) -/

theorem entry_modules (s : State) (m : Vector Entry 14) (a : ModAddr) : State.entry { s with modules := m } a = vget m a := rfl

/-- Two tables in which every entry's state and unique ID agree, or the entry is EMPTY in the second. -/
theorem moduleLaw_of {s t : State} (hs : ModuleLaw s)
    (h : ∀ a, (t.entry a).state ≠ .empty → (s.entry a).state ≠ .empty ∧ (t.entry a).uniqueId = (s.entry a).uniqueId) :
    ModuleLaw t := by
  intro a b id ha hb hia hib
  obtain ⟨ha', hia'⟩ := h a ha
  obtain ⟨hb', hib'⟩ := h b hb
  exact hs a b id ha' hb' (hia' ▸ hia) (hib' ▸ hib)

theorem Entry.Tame.live {e f : Entry} (h : e.Tame f) : f.state ≠ .empty ↔ e.state ≠ .empty := by
  obtain h' | ⟨h1, _, h3⟩ := h.state
  · rw [h']
  · exact ⟨fun _ => h1, fun _ => h3⟩

/-- The same of a table in which one entry has been replaced. -/
theorem entry_cases {s t : State} {a : ModAddr} {e : Entry} (ht : t.modules = (s.setEntry a e).modules) (b : ModAddr) :
    t.entry b = if a = b then e else s.entry b :=
  (entry_of_modules _ _ ht b).trans (entry_setEntry s a b e)

/-- The same of a table in which one entry has been replaced by another of its kind, or made EMPTY. -/
theorem moduleLaw_entry {s t : State} {a : ModAddr} {e : Entry} (ht : t.modules = (s.setEntry a e).modules) (hs : ModuleLaw s)
    (he : e.state ≠ .empty → (s.entry a).state ≠ .empty ∧ e.uniqueId = (s.entry a).uniqueId) : ModuleLaw t := by
  refine moduleLaw_of hs fun b hb => ?_
  rw [entry_cases ht] at hb ⊢
  split
  · rename_i hab; subst hab; rw [if_pos rfl] at hb; exact he hb
  · rename_i hab; rw [if_neg hab] at hb; exact ⟨hb, rfl⟩

theorem tame_retainEntry (e : Entry) : (retainEntry e).state = e.state ∧ (retainEntry e).uniqueId = e.uniqueId ∧
    (retainEntry e).generation = e.generation ∧ (retainEntry e).attention ≠ .fetching ∧ (e.IsBlank → (retainEntry e).IsBlank) := by
  unfold retainEntry
  split
  · rename_i h
    refine ⟨rfl, rfl, rfl, by simp, fun hb => ?_⟩
    have := hb.fields.1
    simp_all
  · rename_i h
    exact ⟨rfl, rfl, rfl, fun k => h (.inr k), id⟩

theorem entry_retainBlocks (s : State) (a : ModAddr) : (retainBlocks s).entry a = retainEntry (s.entry a) :=
  vget_vmap retainEntry s.modules a

theorem Act.moduleLaw {s t : State} (hP : P) (h : Act P Q s t) (hs : ModuleLaw s) : ModuleLaw t := by
  cases h with
  | modules m hm => exact moduleLaw_of hs fun a ha => ⟨(hm a).live.mp ha, (hm a).id⟩
  | quarantine a e hlive hstate hgen hid => exact moduleLaw_entry (s := s) (a := a) (e := e) rfl hs fun _ => ⟨hlive, hid⟩
  | leave a e hstate => exact moduleLaw_entry (s := s) (a := a) (e := e) rfl hs fun h => absurd hstate h
  | join a e id hfree hlive hid hattn hfresh =>
    intro b c i hb hc hib hic
    rw [entry_setEntry] at hb hc hib hic
    by_cases hab : a = b <;> by_cases hac : a = c
    · exact hab.symm.trans hac
    · rw [if_pos hab] at hib; rw [if_neg hac] at hc hic
      exact absurd (hic.trans (hib.symm.trans hid)) (hfresh hP c hc)
    · rw [if_pos hac] at hic; rw [if_neg hab] at hb hib
      exact absurd (hib.trans (hic.symm.trans hid)) (hfresh hP b hb)
    · rw [if_neg hab] at hb hib; rw [if_neg hac] at hc hic
      exact hs b c i hb hc hib hic
  | fetch a r =>
    exact moduleLaw_entry (s := s) (a := a) (e := { s.entry a with attention := .fetching }) rfl hs fun h => ⟨h, rfl⟩
  | fetched a f e hrec hgen hid hstate hlive =>
    exact moduleLaw_entry (s := s) (a := a) (e := e) rfl hs fun _ => ⟨hstate ▸ hlive, hid⟩
  | retain =>
    refine moduleLaw_of hs fun b hb => ?_
    rw [entry_retainBlocks] at hb ⊢
    obtain ⟨h1, h2, _⟩ := tame_retainEntry (s.entry b)
    exact ⟨h1 ▸ hb, h2⟩
  | _ => exact hs

/-- A table in which every EMPTY entry was EMPTY and stays blank, or is blank now. -/
theorem emptyLaw_of_entry {s t : State} {a : ModAddr} {e : Entry} (ht : t.modules = (s.setEntry a e).modules) (hs : EmptyLaw s)
    (he : e.state = .empty → e.IsBlank) : EmptyLaw t := by
  intro b hb
  show (t.entry b).IsBlank
  rw [entry_cases ht] at hb ⊢
  split
  · rename_i hab; rw [if_pos hab] at hb; exact he hb
  · rename_i hab; rw [if_neg hab] at hb; exact hs b hb

theorem Act.emptyLaw {s t : State} (h : Act P Q s t) (hs : EmptyLaw s) : EmptyLaw t := by
  cases h with
  | modules m hm =>
    intro a ha
    have hlive : (s.entry a).state = .empty := by
      by_contra hne; exact (hm a).live.mpr hne ha
    exact (hm a).blank hlive (hs a hlive)
  | quarantine a e hlive hstate => exact emptyLaw_of_entry rfl hs fun h => by simp [hstate] at h
  | leave a e hstate hblank => exact emptyLaw_of_entry (s := s) (a := a) (e := e) rfl hs fun _ => hblank
  | join a e id hfree hlive => exact emptyLaw_of_entry rfl hs fun h => absurd h hlive
  | fetch a r hdue =>
    refine emptyLaw_of_entry (s := s) (a := a) (e := { s.entry a with attention := .fetching }) rfl hs fun h => ?_
    have hnone := (Entry.IsBlank.fields (hs a h)).1
    rw [hdue] at hnone
    exact absurd hnone (by simp)
  | fetched a f e hrec hgen hid hstate hlive =>
    exact emptyLaw_of_entry (s := s) (a := a) (e := e) rfl hs fun h => absurd h hlive
  | retain =>
    intro a ha
    rw [entry_retainBlocks] at ha ⊢
    obtain ⟨h1, -, -, -, h5⟩ := tame_retainEntry (s.entry a)
    exact h5 (hs a (h1 ▸ ha))
  | _ => exact hs

/-! ### The cache (R112) -/

/-- No line is new, and the entry of every line that is left is ONLINE at its generation as it was. -/
theorem cacheLaw_of {s t : State} (hs : CacheLaw s)
    (hl : ∀ i l, vget t.cache.lines i = some l → vget s.cache.lines i = some l ∧
      ((s.entry l.addr).state = .online → (t.entry l.addr).state = .online ∧
        (t.entry l.addr).generation = (s.entry l.addr).generation)) : CacheLaw t := by
  refine ⟨fun i l h => ?_, fun i j l m hi hj => hs.2 i j l m (hl i l hi).1 (hl j m hj).1⟩
  obtain ⟨hline, hentry⟩ := hl i l h
  obtain ⟨hon, hgen⟩ := hs.1 i l hline
  exact ⟨(hentry hon).1, (hentry hon).2.trans hgen⟩

theorem vget_drop (c : Cache) (p : Line → Bool) (i : Fin 32) :
    vget (c.drop p).lines i = (vget c.lines i).filter fun l => !p l := by
  simp [Cache.drop]

theorem drop_lines {c : Cache} {p : Line → Bool} {i : Fin 32} {l : Line} (h : vget (c.drop p).lines i = some l) :
    vget c.lines i = some l ∧ p l = false := by
  rw [vget_drop, Option.filter_eq_some_iff] at h
  exact ⟨h.1, by simpa using h.2⟩

/-- A line of the cache after a fill: the new one, or an old one that covers no byte of it (R115). -/
theorem fill_lines {c : Cache} {l m : Line} {i : Fin 32} (h : vget (c.fill l).lines i = some m) :
    m = l ∧ i = (c.drop fun m => m.addr = l.addr ∧ bytesOverlap m.offset m.width l.offset l.width).victim ∨
      i ≠ (c.drop fun m => m.addr = l.addr ∧ bytesOverlap m.offset m.width l.offset l.width).victim ∧
      vget c.lines i = some m ∧ (m.addr = l.addr → bytesOverlap m.offset m.width l.offset l.width = false) := by
  simp only [Cache.fill, Cache.touch] at h
  rw [vget_vset] at h
  split at h
  · rename_i hi; exact .inl ⟨(Option.some.inj h).symm, hi.symm⟩
  · rename_i hi
    obtain ⟨hline, hno⟩ := drop_lines h
    exact .inr ⟨fun h => hi h.symm, hline, fun ha => by simpa [ha] using hno⟩

theorem bytesOverlap_comm (o₁ o₂ : Half) (w₁ w₂ : Width) : bytesOverlap o₁ w₁ o₂ w₂ = bytesOverlap o₂ w₂ o₁ w₁ := by
  simp only [bytesOverlap, Bool.and_comm]

theorem cacheLaw_fill {s : State} (hs : CacheLaw s) {l : Line}
    (hon : (s.entry l.addr).state = .online ∧ (s.entry l.addr).generation = l.gen) :
    CacheLaw { s with cache := s.cache.fill l } := by
  refine ⟨fun i m h => ?_, fun i j m n hi hj hij haddr => ?_⟩
  · obtain ⟨rfl, -⟩ | ⟨-, hline, -⟩ := fill_lines h
    · exact hon
    · exact hs.1 i m hline
  · obtain ⟨rfl, rfl⟩ | ⟨-, hline, hno⟩ := fill_lines hi <;> obtain ⟨rfl, rfl⟩ | ⟨-, hline', hno'⟩ := fill_lines hj
    · exact absurd rfl hij
    · rw [bytesOverlap_comm]; exact hno' haddr.symm
    · exact hno haddr
    · exact hs.2 i j m n hline hline' hij haddr

/-- An entry replaced by one of the same state and generation leaves the law of the cache alone. -/
theorem cacheLaw_entry {s t : State} {a : ModAddr} {e : Entry} (ht : t.modules = (s.setEntry a e).modules)
    (hc : t.cache = s.cache) (hs : CacheLaw s) (he : (s.entry a).state = .online → e.state = .online ∧
      e.generation = (s.entry a).generation) : CacheLaw t := by
  refine cacheLaw_of hs fun i l h => ⟨hc ▸ h, fun hon => ?_⟩
  rw [entry_cases ht]
  split
  · rename_i hab; rw [← hab] at hon ⊢; exact he hon
  · exact ⟨hon, rfl⟩

/-- An entry whose lines go may be replaced by any. -/
theorem cacheLaw_dropped {s t : State} {a : ModAddr} {e : Entry} (ht : t.modules = (s.setEntry a e).modules)
    (hc : t.cache = (dropLinesOf a s).cache) (hs : CacheLaw s) : CacheLaw t := by
  refine cacheLaw_of hs fun i l h => ?_
  rw [hc] at h
  obtain ⟨hline, hno⟩ := drop_lines h
  refine ⟨hline, fun hon => ?_⟩
  rw [entry_cases ht, if_neg (fun hab => by simp [← hab] at hno)]
  exact ⟨hon, rfl⟩

theorem Act.cacheLaw {s t : State} (h : Act P Q s t) (hs : CacheLaw s) : CacheLaw t := by
  cases h with
  | cache c hc => exact cacheLaw_of hs fun i l h => ⟨hc i l h, fun hon => ⟨hon, rfl⟩⟩
  | fill l hon => exact cacheLaw_fill hs hon
  | modules m hm =>
    refine cacheLaw_of hs fun i l h => ⟨h, fun hon => ⟨?_, (hm l.addr).gen⟩⟩
    obtain h' | ⟨-, h', -⟩ := (hm l.addr).state
    · exact h'.trans hon
    · exact absurd hon h'
  | quarantine a e => exact cacheLaw_dropped rfl rfl hs
  | leave a e => exact cacheLaw_dropped (s := s) (a := a) (e := e) rfl rfl hs
  | join a e id hfree => exact cacheLaw_entry rfl rfl hs fun hon => by simp [hfree] at hon
  | fetch a r =>
    exact cacheLaw_entry (s := s) (a := a) (e := { s.entry a with attention := .fetching }) rfl rfl hs fun hon => ⟨hon, rfl⟩
  | fetched a f e hrec hgen hid hstate =>
    exact cacheLaw_entry (s := s) (a := a) (e := e) rfl rfl hs fun hon => ⟨hstate.trans hon, hgen⟩
  | retain => exact cacheLaw_of hs fun i l h => absurd h (by simp [retainBlocks])
  | _ => exact hs

/-! ### The link asleep (R190, R192) -/

theorem retain_free (l : Link) : l.retain = .free ↔ l = .free := by cases l <;> simp [Link.retain]

theorem Act.sleepLaw {s t : State} (h : Act P Q s t) (hs : SleepLaw s) : SleepLaw t := by
  cases h with
  | engine g hg =>
    intro hp
    have hfree := hs hp
    obtain h | h | ⟨h1, h2⟩ := hg
    · exact h
    · exact absurd hfree h
    · exact absurd hp (by rintro (h | h); exacts [h1 h, h2 h])
  | power p hp =>
    intro ht
    obtain h | h | h := hp ht
    exacts [h, hs (.inl h), hs (.inr h)]
  | grant e rest g r h hl hr hp =>
    intro ht
    exact absurd ht (by rintro (h | h); exacts [hp.1 h, hp.2 h])
  | retain => exact fun hp => (retain_free _).mpr (hs hp)
  | _ => exact hs

/-! ### A held write (R82) -/

theorem Act.heldWriteLaw {s t : State} (h : Act P Q s t) (hs : HeldWriteLaw s) : HeldWriteLaw t := by
  cases h with
  | port p _ _ hheld =>
    intro h e hh he
    obtain h1 | ⟨h', hh', he'⟩ := hheld h e hh he
    exacts [h1, hs h' e hh' he']
  | retain => exact fun h e hh => absurd hh (by simp [retainBlocks])
  | _ => exact hs

end Sys2Proof.Machine
end

section
/-! PROOFS. The laws of the attention unit and of the mailbox, kept by every act. -/

namespace Sys2Proof.Machine

variable {P Q : Prop}

/-! ### The attention unit (R143, R158) -/

theorem nodup_allAddrs : allAddrs.Nodup := by decide

/-- Two tests that differ at one element of a list without repetitions. -/
theorem length_filter_of_agree {α : Type*} [DecidableEq α] {l : List α} (hl : l.Nodup) {a : α} (ha : a ∈ l) {p q : α → Bool}
    (h : ∀ b, b ≠ a → p b = q b) : (l.filter p).length + (q a).toNat = (l.filter q).length + (p a).toNat := by
  have hperm := List.perm_cons_erase ha
  have hp := (hperm.filter p).length_eq
  have hq := (hperm.filter q).length_eq
  have hrest : (l.erase a).filter p = (l.erase a).filter q :=
    List.filter_congr fun b hb => h b fun hba => (List.Nodup.mem_erase_iff hl).mp hb |>.1 hba
  rw [hp, hq, List.filter_cons, List.filter_cons, hrest]
  cases p a <;> cases q a <;> simp

/-- The reserved fetch records (R143). -/
def reservedIn (F : Vector (Option FetchRec) 14) : Nat := (allAddrs.filter fun a => (vget F a).any fun f => f.reserved).length

/-- Does this record hold a reservation? -/
def holds (o : Option FetchRec) : Nat := (o.any fun f => f.reserved).toNat

theorem reservedIn_vset (F : Vector (Option FetchRec) 14) (a : ModAddr) (o : Option FetchRec) :
    reservedIn (vset F a o) + holds (vget F a) = reservedIn F + holds o := by
  have h := length_filter_of_agree nodup_allAddrs (mem_allAddrs a)
    (p := fun b => (vget (vset F a o) b).any fun f => f.reserved) (q := fun b => (vget F b).any fun f => f.reserved)
    (fun b hb => by rw [vget_vset, if_neg (Ne.symm hb)])
  simpa [reservedIn, holds, vget_vset] using h

/-- The law of the attention unit, of its parts. -/
theorem attnLaw_iff (s : State) : AttnLaw s ↔
    (∀ a, (s.fetchRec a).isSome = true ↔ (s.entry a).attention = .fetching) ∧ reservedIn s.attn.fetches = s.events.reservations :=
  Iff.rfl

/-- The table and the records change at one address. -/
theorem attnLaw_at {s t : State} {a : ModAddr} {e : Entry} {o : Option FetchRec} (hs : AttnLaw s)
    (hm : t.modules = (s.setEntry a e).modules) (hf : t.attn.fetches = vset s.attn.fetches a o)
    (ho : o.isSome = true ↔ e.attention = .fetching)
    (hr : t.events.reservations + holds (s.fetchRec a) = s.events.reservations + holds o) : AttnLaw t := by
  rw [attnLaw_iff] at hs ⊢
  refine ⟨fun b => ?_, ?_⟩
  · rw [entry_cases hm, State.fetchRec, hf, vget_vset]
    split
    · exact ho
    · exact hs.1 b
  · have h := reservedIn_vset s.attn.fetches a o
    have hs2 := hs.2
    rw [hf]
    simp only [State.fetchRec] at hr
    omega

/-- The table changes at one address and the attention unit does not. -/
theorem attnLaw_entry {s t : State} {a : ModAddr} {e : Entry} (hs : AttnLaw s) (hm : t.modules = (s.setEntry a e).modules)
    (hf : t.attn.fetches = s.attn.fetches) (hr : t.events.reservations = s.events.reservations)
    (he : e.attention = .fetching ↔ (s.entry a).attention = .fetching) : AttnLaw t := by
  rw [attnLaw_iff] at hs ⊢
  refine ⟨fun b => ?_, by rw [hf, hr]; exact hs.2⟩
  rw [entry_cases hm, State.fetchRec, hf]
  split
  · rename_i hab; subst hab; rw [he]; exact hs.1 a
  · exact hs.1 b

/-- A record that holds a reservation is one of those counted. -/
theorem holds_le_reservations {s : State} (hs : AttnLaw s) (a : ModAddr) : holds (s.fetchRec a) ≤ s.events.reservations := by
  have h := reservedIn_vset s.attn.fetches a none
  have h0 : holds none = 0 := rfl
  have hs2 := ((attnLaw_iff s).mp hs).2
  simp only [State.fetchRec] at *
  omega

theorem EventUnit.post_reservations (u : EventUnit) (p : Posted) : (u.post p).reservations = u.reservations := by
  unfold EventUnit.post
  split
  · rfl
  · split
    · rfl
    · split <;> rfl

theorem EventAct.reservations {u v : EventUnit} (h : EventAct u v) : v.reservations = u.reservations := by
  cases h with
  | post p => exact u.post_reservations p
  | _ => rfl

theorem EventUnit.fill_reservations (u : EventUnit) (a : ModAddr) (word gen : Half) (held : Bool) :
    (u.fill a word gen held).reservations = u.reservations - 1 := by
  unfold EventUnit.fill
  split
  · rfl
  · omega

theorem holds_some (f : FetchRec) : holds (some f) = if f.reserved = true then 1 else 0 := by
  cases h : f.reserved <;> simp [holds, h]

theorem Act.attnLaw {s t : State} (h : Act P Q s t) (hs : AttnLaw s) (hempty : EmptyLaw s) : AttnLaw t := by
  have hpos := holds_le_reservations hs
  have hs' := (attnLaw_iff s).mp hs
  have h0 : holds none = 0 := rfl
  cases h with
  | events u hu => exact ⟨hs.1, hs.2.trans hu.reservations.symm⟩
  | modules m hm => exact ⟨fun a => (hs.1 a).trans (hm a).fetch.symm, hs.2⟩
  | quarantine a e hlive hstate hgen hid hfetch => exact attnLaw_entry (a := a) (e := e) hs rfl rfl rfl (by rw [hfetch])
  | leave a e hstate hblank =>
    have hattn : e.attention = .none := hblank.fields.1
    by_cases hf : (s.entry a).attention = .fetching
    · refine attnLaw_at (o := none) (a := a) (e := e) hs rfl (by simp [hf]) (by simp [hattn]) ?_
      have := hpos a
      simp only [hf, true_and]
      split
      · rename_i hres
        simp only [EventUnit.release, holds, hres, Option.any_none, Bool.toNat_false, Bool.toNat_true] at *
        omega
      · rename_i hres
        simp only [holds, Bool.not_eq_true] at *
        simp [hres]
    · exact attnLaw_entry (a := a) (e := e) hs rfl (by simp [hf]) (by simp [hf]) (by simp [hattn, hf])
  | join a e id hfree hlive hid hattn =>
    have hnone := (Entry.IsBlank.fields (hempty a hfree)).1
    exact attnLaw_entry (a := a) (e := e) hs rfl rfl rfl (by rw [hattn, hnone])
  | fetch a r hdue hplace =>
    have hnone : s.fetchRec a = none := by
      rw [← Option.not_isSome_iff_eq_none, hs'.1 a, hdue]; simp
    refine attnLaw_at (a := a) (e := { s.entry a with attention := .fetching }) (o := some ⟨(s.entry a).generation, r⟩) hs rfl rfl
      (by simp) ?_
    rw [hnone, h0, holds_some]
    cases r with
    | false => rfl
    | true => simp [EventUnit.take, hplace rfl]
  | fetched a f e hrec hgen hid hstate hlive hattn u hu =>
    refine attnLaw_at (a := a) (e := e) (o := none) hs rfl rfl (by simp [hattn]) ?_
    have hle := hpos a
    rw [hrec, holds_some] at hle ⊢
    show u.reservations + _ = _
    obtain rfl | ⟨hres, word, gen, held, rfl⟩ := hu
    · split
      · rename_i hres
        rw [if_pos hres] at hle
        show s.events.reservations - 1 + _ = _
        omega
      · rfl
    · rw [EventUnit.fill_reservations, if_pos hres] at *
      omega
  | retain =>
    refine ⟨fun a => ?_, ?_⟩
    · obtain ⟨-, -, -, h4, -⟩ := tame_retainEntry (s.entry a)
      rw [entry_retainBlocks]
      simp [State.fetchRec, retainBlocks, vget_replicate, h4]
    · show reservedIn (Vector.replicate 14 none) = 0
      decide
  | _ => exact hs

/-! ### The mailbox (R122, R125, R126, R137) -/

theorem mailboxLaw_of_free {s : State} (h : MailboxFree s) : MailboxLaw s := by
  refine ⟨?_, fun e he ho => absurd ho (h.1 e he), fun r e hr hsrc ho => absurd ho (h.2 r e hr hsrc)⟩
  rw [List.filter_eq_nil_iff.mpr fun e he => by simpa using h.1 e he]
  exact Nat.zero_le 1

/-- With the mailbox's entry at the head, nothing else of the mailbox is under way. -/
theorem mailboxFree_tail {s t : State} (hs : MailboxLaw s) {e : HostEntry} {rest : List HostEntry} (h : s.hostQueue = e :: rest)
    (he : e.origin = .mailbox) (ht : t.hostQueue = rest) (hl : t.engine = s.engine) : MailboxFree t := by
  obtain ⟨hone, hqueued, hactive⟩ := hs
  have hqueued' := (hqueued e (h ▸ List.mem_cons_self) he).1
  refine ⟨fun f hf ho => ?_, fun r f hr hsrc ho => ?_⟩
  · rw [ht] at hf
    rw [h, List.filter_cons_of_pos (by simpa using he), List.length_cons] at hone
    have hmem : f ∈ rest.filter fun e => e.origin = .mailbox := List.mem_filter.mpr ⟨hf, by simpa using ho⟩
    have := List.length_pos_of_mem hmem
    omega
  · rw [hl] at hr
    have := (hactive r f hr hsrc ho).1
    rw [hqueued'] at this
    exact absurd this (by simp)

theorem cancelEntry_origin (e : HostEntry) : (cancelEntry e).origin = e.origin := by
  unfold cancelEntry; split <;> rfl

theorem request?_retain {l : Link} {r : Request} (h : l.retain.request? = some r) (e : HostEntry) : r.source ≠ .host e false := by
  have key : ∀ q : Request, q.discard.source ≠ .host e false := by
    intro q hq
    cases hsrc : q.source <;> simp [Request.discard, hsrc] at hq
  cases l <;> simp only [Link.retain, Link.request?, reduceCtorEq, Option.some.injEq] at h
  · exact h ▸ key _
  · exact h ▸ key _

theorem Act.mailboxLaw {s t : State} (hQ : Q) (h : Act P Q s t) (hs : MailboxLaw s) : MailboxLaw t := by
  have hs' := hs
  obtain ⟨hone, hqueued, hactive⟩ := hs
  cases h with
  | mailbox m hm =>
    obtain ⟨hst, hop⟩ | hfree := hm hQ hs'
    · exact ⟨hone, fun e he ho => by rw [hst, hop]; exact hqueued e he ho, fun r e hr hsrc ho => by
        rw [hst, hop]; exact hactive r e hr hsrc ho⟩
    · exact mailboxLaw_of_free hfree
  | engine g hg hm =>
    refine ⟨hone, hqueued, fun r e hr hsrc ho => ?_⟩
    obtain ⟨q, hq, hqs⟩ := hm r e hr hsrc
    exact hactive q e hq hqs ho
  | push e hroom he =>
    have he := he hQ
    refine ⟨by simpa [List.filter_append, he] using hone, fun f hf ho => ?_, hactive⟩
    obtain hf | hf := List.mem_append.mp hf
    · exact hqueued f hf ho
    · rw [List.mem_singleton.mp hf] at ho; exact absurd ho he
  | cancel =>
    refine ⟨?_, fun f hf ho => ?_, hactive⟩
    · show ((s.hostQueue.map cancelEntry).filter _).length ≤ 1
      rw [List.filter_map, List.length_map]
      simpa [Function.comp_def, cancelEntry_origin] using hone
    · obtain ⟨e, he, rfl⟩ := List.mem_map.mp hf
      exact hqueued e he (cancelEntry_origin e ▸ ho)
  | pop e rest h =>
    rw [h] at hone hqueued
    exact ⟨(((List.sublist_cons_self e rest).filter _).length_le).trans hone,
      fun f hf ho => hqueued f (List.mem_cons_of_mem e hf) ho, hactive⟩
  | command e hroom hop hfree =>
    obtain ⟨hq, hl⟩ := hfree hs'
    have hnil : (s.hostQueue.filter fun e => e.origin = .mailbox) = [] :=
      List.filter_eq_nil_iff.mpr fun e he => by simpa using hq e he
    refine ⟨?_, fun f hf ho => ⟨rfl, hop⟩, fun r f hr hsrc ho => absurd ho (hl r f hr hsrc)⟩
    show ((s.hostQueue ++ [e]).filter _).length ≤ 1
    rw [List.filter_append, hnil]
    simpa using List.length_filter_le (fun e : HostEntry => decide (e.origin = .mailbox)) [e]
  | finish e rest m h he => exact mailboxLaw_of_free (mailboxFree_tail (t := { s with hostQueue := rest, mbx := m }) hs' h he rfl rfl)
  | grant e rest g r h hl hr =>
    have hon : ∀ q f, g.link.request? = some q → q.source = .host f false → f = e := by
      intro q f hq hsrc
      rw [hl] at hq
      obtain rfl : r = q := by simpa [Link.request?] using hq
      rw [hr] at hsrc
      injection hsrc with h; exact h.symm
    by_cases he : e.origin = .mailbox
    · have hfree := mailboxFree_tail (t := { s with hostQueue := rest }) hs' h he rfl rfl
      obtain ⟨-, hop⟩ := hqueued e (h ▸ List.mem_cons_self) he
      refine ⟨(mailboxLaw_of_free hfree).1, fun f hf ho => absurd ho (hfree.1 f hf), fun q f hq hsrc ho => ?_⟩
      simp only [if_pos he]
      exact ⟨trivial, hop⟩
    · rw [h] at hone hqueued
      refine ⟨(((List.sublist_cons_self e rest).filter _).length_le).trans hone, fun f hf ho => ?_, fun q f hq hsrc ho => ?_⟩
      · simp only [if_neg he]; exact hqueued f (List.mem_cons_of_mem e hf) ho
      · rw [hon q f hq hsrc] at ho; exact absurd ho he
  | retain =>
    exact mailboxLaw_of_free ⟨fun f hf => absurd hf List.not_mem_nil, fun r f hr hsrc => absurd hsrc (request?_retain hr f)⟩
  | _ => exact hs'

end Sys2Proof.Machine
end

section
/-! PROOFS. The shared operations as acts. -/

namespace Sys2Proof.Machine

variable {P Q : Prop}

theorem Act.acts {s t : State} (h : Act P Q s t) : Acts P Q s t := .single h

theorem Acts.refl {s : State} : Acts P Q s s := Relation.ReflTransGen.refl

theorem Acts.trans {s t u : State} (h : Acts P Q s t) (k : Acts P Q t u) : Acts P Q s u := Relation.ReflTransGen.trans h k

/-- A list gone through, with what is known at each of its elements. -/
theorem acts_foldl {α : Type*} {f : State → α → State} (I : State → Prop) (hI : ∀ a t, I t → I (f t a)) {l : List α}
    (h : ∀ a ∈ l, ∀ t, I t → Acts P Q t (f t a)) {s : State} (hs : I s) : Acts P Q s (l.foldl f s) := by
  induction l generalizing s with
  | nil => exact .refl
  | cons a l ih =>
    exact (h a List.mem_cons_self s hs).trans (ih (fun b hb => h b (List.mem_cons_of_mem a hb)) (hI a s hs))

/-! ### Parts of the state -/

theorem acts_inner (s : State) (n : Nat) (v : Vector Slot 4) (al : Autoload) (d : Discovery) (l ar : Bool) (m : AttnMode)
    (w : Option (List ModAddr)) : Acts P Q s { s with now := n, slots := v, autoload := al, disc := d
                                                      attn := { s.attn with level := l, mode := m, armed := ar, sweep := w } } :=
  (Act.inner n v al d l ar m w).acts

theorem acts_setSlot (s : State) (i : Fin 4) (x : Slot) : Acts P Q s (s.setSlot i x) :=
  acts_inner s s.now _ s.autoload s.disc s.attn.level s.attn.armed s.attn.mode s.attn.sweep

theorem acts_slots (s : State) (v : Vector Slot 4) : Acts P Q s { s with slots := v } :=
  acts_inner s s.now _ s.autoload s.disc s.attn.level s.attn.armed s.attn.mode s.attn.sweep

theorem acts_disc (s : State) (d : Discovery) : Acts P Q s { s with disc := d } :=
  acts_inner s s.now s.slots s.autoload d s.attn.level s.attn.armed s.attn.mode s.attn.sweep

theorem acts_autoload (s : State) (al : Autoload) : Acts P Q s { s with autoload := al } :=
  acts_inner s s.now s.slots al s.disc s.attn.level s.attn.armed s.attn.mode s.attn.sweep

/-- A change of the port that holds no new access and selects nothing new. -/
theorem acts_port (s : State) (p : HostPort) (hb : p.bindSel = s.port.bindSel) (hm : p.modSel = s.port.modSel)
    (hh : ∀ h, p.held = some h → ∃ h', s.port.held = some h' ∧ h'.what = h.what) : Acts P Q s { s with port := p } :=
  (Act.port p (.inl hb) (.inl hm) fun h _ hp he => .inr (by
    obtain ⟨h', hh', hw⟩ := hh h hp; exact ⟨h', hh', hw.trans he⟩)).acts

theorem acts_reply (s : State) (r : Answer) : Acts P Q s (s.reply r) := acts_port s _ rfl rfl fun h hh => ⟨h, hh, rfl⟩

theorem acts_post (p : Posted) (s : State) : Acts P Q s (post p s) := (Act.events _ (.post p)).acts

theorem acts_mgmt (s : State) (q : List MgmtEntry) (h : q.length ≤ s.mgmtQueue.length) :
    Acts P Q s { s with mgmtQueue := q } := (Act.mgmt q (.inl h)).acts

theorem acts_pushMgmt (m : MgmtEntry) (s : State) (h : s.mgmtRoom = true) : Acts P Q s (pushMgmt m s) :=
  (Act.mgmt _ (.inr (by
    have : s.mgmtQueue.length < Config.mgmtQueueCapacity := by simpa [State.mgmtRoom] using h
    simpa using this))).acts

/-- One entry changed in nothing that a law notices. -/
theorem acts_setEntry (s : State) (a : ModAddr) (e : Entry) (h : (s.entry a).Tame e) : Acts P Q s (s.setEntry a e) :=
  (Act.modules _ fun b => by
    rw [vget_vset]
    split
    · rename_i hab; exact hab ▸ h
    · exact .refl _).acts

/-- A change of one entry that is not EMPTY. -/
theorem acts_setLive (s : State) (a : ModAddr) (e : Entry) (hlive : (s.entry a).state ≠ .empty)
    (h : e.generation = (s.entry a).generation ∧ e.uniqueId = (s.entry a).uniqueId ∧ e.state = (s.entry a).state ∧
      (e.attention = .fetching ↔ (s.entry a).attention = .fetching)) : Acts P Q s (s.setEntry a e) :=
  acts_setEntry s a e (.of_live hlive h.1 h.2.1 h.2.2.1 h.2.2.2)

theorem acts_power (s : State) (p : Power) (h : p.state = .asleep ∨ p.state = .waking →
    s.engine.link = .free ∨ s.power.state = .asleep ∨ s.power.state = .waking) : Acts P Q s { s with power := p } :=
  (Act.power p h).acts

/-- The engine changed without a new link. -/
theorem acts_engine_same (s : State) (g : LinkEngine) (h : g.link = s.engine.link) : Acts P Q s { s with engine := g } :=
  (Act.engine g (by
    by_cases hf : s.engine.link = .free
    · exact .inl (h.trans hf)
    · exact .inr (.inl hf)) fun r e hr hsrc => ⟨r, h ▸ hr, hsrc⟩).acts

/-! ### The read cache and the slots -/

theorem acts_drop (s : State) (p : Line → Bool) : Acts P Q s { s with cache := s.cache.drop p } :=
  (Act.cache _ fun _ _ h => (drop_lines h).1).acts

theorem acts_clearCache (s : State) : Acts P Q s (clearCache s) :=
  (Act.cache _ fun i l h => by simp at h).acts

theorem acts_touch (s : State) (i : Fin 32) : Acts P Q s { s with cache := s.cache.touch i } :=
  (Act.cache (s.cache.touch i) fun _ _ h => h).acts

theorem acts_offerFill (l : Line) (s : State) : Acts P Q s (offerFill l s) := by
  unfold offerFill
  split
  · rename_i h; exact (Act.fill l h).acts
  · exact .refl

theorem acts_collect (i : Fin 4) (x : SlotInfo) (o : LinkOutcome) (data : Option Word) (s : State) :
    Acts P Q s (collect i x o data s) := by
  have h := (acts_setSlot (P := P) (Q := Q) s i .free).trans (acts_reply _ (slotAnswer x o data))
  unfold collect
  dsimp only
  split
  · exact h
  · exact h.trans (acts_port _ _ rfl rfl fun h hh => ⟨h, hh, rfl⟩)

theorem acts_endHold (s : State) : Acts P Q s (endHold s) := acts_port s _ rfl rfl fun h hh => absurd hh (by simp)

theorem acts_completeSlot (i : Fin 4) (e : HostEntry) (o : LinkOutcome) (data : Option Word) (s : State) :
    Acts P Q s (completeSlot i e o data s) := by
  unfold completeSlot
  cases vget s.slots i with
  | free => exact .refl
  | complete => exact .refl
  | pending x =>
    dsimp only
    have key : ∀ kept : Option Word, Acts P Q s
        (if s.port.held.any (fun h => h.what = .slot i) = true then collect i x o kept (endHold s)
         else s.setSlot i (.complete x o kept 0)) := fun kept => by
      split
      · exact (acts_endHold s).trans (acts_collect i x o kept _)
      · exact acts_setSlot s i _
    split
    · exact (key _).trans (acts_offerFill _ _)
    · exact key _

theorem acts_overwriteSlot (a : ModAddr) (offset : Half) (w : Width) (s : State) (i : Fin 4) :
    Acts P Q s (overwriteSlot a offset w s i) := by
  unfold overwriteSlot
  cases vget s.slots i with
  | free => exact .refl
  | pending x => dsimp only; split; exacts [acts_setSlot s i _, .refl]
  | complete x => dsimp only; split; exacts [(acts_setSlot s i .free).trans (acts_post _ _), .refl]

theorem acts_writeEffects (a : ModAddr) (offset : Half) (w : Width) (s : State) : Acts P Q s (writeEffects a offset w s) :=
  (acts_drop s _).trans
    (acts_foldl (fun _ => True) (fun _ _ _ => trivial) (fun i _ t _ => acts_overwriteSlot a offset w t i) trivial)

theorem acts_contentsChanged (a : ModAddr) (s : State) : Acts P Q s (contentsChanged a s) :=
  (acts_drop s _).trans (acts_slots _ _)

theorem acts_discardSlot (i : Fin 4) (s : State) : Acts P Q s (discardSlot i s) := by
  unfold discardSlot
  cases vget s.slots i with
  | complete x => exact (acts_setSlot s i .free).trans (acts_post _ _)
  | free => exact .refl
  | pending => exact .refl

/-! ### The mailbox's endings -/

/-- A command that ends: the mailbox changes as one act and MAILBOX_DONE is posted. -/
theorem acts_ended (s : State) (m : Mailbox) (p : Posted) (h : Q → MailboxLaw s → MailboxFree s) :
    Acts P Q s (post p { s with mbx := m }) :=
  (Act.mailbox m fun hQ hs => .inr (h hQ hs)).acts.trans (acts_post p _)

/-- A link command's end changes the mailbox and posts one record. -/
theorem endLinkCommand_ends (e : HostEntry) (o : LinkOutcome) (data : Option Word) (s : State) :
    ∃ m p, endLinkCommand e o data s = post p { s with mbx := m } := by
  unfold endLinkCommand
  split
  · split
    · exact ⟨_, _, rfl⟩
    · exact ⟨_, _, rfl⟩
  · exact ⟨_, _, rfl⟩

/-- So does an outcome delivered to the mailbox. -/
theorem deliver_mailbox_ends {e : HostEntry} (ho : e.origin = .mailbox) (o : LinkOutcome) (data : Option Word) (s : State) :
    ∃ m p, deliver e o data s = post p { s with mbx := m } := by
  unfold deliver
  rw [ho]
  exact endLinkCommand_ends e o data s

/-- Any ending of a command, with its arguments as they stand. -/
theorem acts_endMailbox (st : MbxState) (r : Result) (addr : Option ModAddr) (d : Word) (s : State)
    (h : Q → MailboxLaw s → MailboxFree s) : Acts P Q s (endMailbox st r addr d s) := acts_ended s _ _ h

/-- The law of the mailbox where its command is no link command: nothing of it is under way. -/
theorem MailboxLaw.free_of_op {s : State} (h : MailboxLaw s) (hop : 2 < s.mbx.op.toNat) : MailboxFree s :=
  ⟨fun e he ho => absurd (h.2.1 e he ho).2 (by omega), fun r e hr hsrc ho => absurd (h.2.2 r e hr hsrc ho).2 (by omega)⟩

/-- The law of the mailbox where no command is QUEUED or ACTIVE. -/
theorem MailboxLaw.free_of_state {s : State} (h : MailboxLaw s) (hq : s.mbx.state ≠ .queued) (ha : s.mbx.state ≠ .active) :
    MailboxFree s :=
  ⟨fun e he ho => hq (h.2.1 e he ho).1, fun r e hr hsrc ho => ha (h.2.2 r e hr hsrc ho).1⟩

theorem MailboxLaw.free_of_runs {s : State} {op : Byte} (h : MailboxLaw s) (hr : s.mbx.runs op = true) (hop : 2 < op.toNat) :
    MailboxFree s := h.free_of_op (by rw [(runs_iff s.mbx op).mp hr |>.2]; exact hop)

theorem acts_discoverReport (d : DiscEnd) (s : State) : Acts P Q s (discoverReport d s) := by
  unfold discoverReport
  split
  · rename_i hr
    have hfree : Q → MailboxLaw s → MailboxFree s := fun _ hs => hs.free_of_runs hr (by decide)
    cases d with
    | joined a gen => exact acts_ended s _ _ hfree
    | noneWaiting => exact acts_endMailbox _ _ _ _ s hfree
    | collision => exact acts_endMailbox _ _ _ _ s hfree
    | describeFailed => exact acts_endMailbox _ _ _ _ s hfree
    | tableFull => exact acts_endMailbox _ _ _ _ s hfree
    | bindingConflict => exact acts_endMailbox _ _ _ _ s hfree
  · exact .refl

theorem acts_forgetEnds (a : ModAddr) (c : LeaveCause) (s : State) : Acts P Q s (forgetEnds a c s) := by
  unfold forgetEnds
  split
  · rename_i h; exact acts_endMailbox _ _ _ _ s fun _ hs => hs.free_of_runs h.1 (by decide)
  · exact .refl

/-! ### The host request queue's completions and head checks -/

/-- An outcome delivered to the host port. -/
theorem acts_deliver_window (e : HostEntry) (o : LinkOutcome) (data : Option Word) (s : State) (he : e.origin ≠ .mailbox) :
    Acts P Q s (deliver e o data s) := by
  unfold deliver
  cases ho : e.origin with
  | mailbox => exact absurd ho he
  | windowWrite => dsimp only; split; exacts [.refl, acts_post _ s]
  | windowRead =>
    dsimp only
    cases e.slot with
    | none => exact .refl
    | some i => exact acts_completeSlot i e o data s

/-- An outcome delivered by origin, the mailbox having nothing else under way. -/
theorem acts_deliver (e : HostEntry) (o : LinkOutcome) (data : Option Word) (s : State)
    (h : Q → e.origin = .mailbox → MailboxFree s) : Acts P Q s (deliver e o data s) := by
  by_cases ho : e.origin = .mailbox
  · obtain ⟨m, p, heq⟩ := deliver_mailbox_ends ho o data s
    rw [heq]
    exact acts_ended s m p fun hQ _ => h hQ ho
  · exact acts_deliver_window e o data s ho

/-- A head that fails its checks goes, and its outcome is delivered. -/
theorem acts_headFails (e : HostEntry) (rest : List HostEntry) (o : LinkOutcome) (s : State) (hq : s.hostQueue = e :: rest) :
    Acts P Q s (deliver e o none { s with hostQueue := rest }) := by
  by_cases ho : e.origin = .mailbox
  · obtain ⟨m, p, heq⟩ := deliver_mailbox_ends ho o none { s with hostQueue := rest }
    rw [heq]
    exact (Act.finish e rest m hq ho).acts.trans (acts_post p _)
  · exact (Act.pop e rest hq).acts.trans (acts_deliver_window e o none _ ho)

theorem acts_failHeads (n : Nat) (s : State) : Acts P Q s (failHeads n s) := by
  induction n generalizing s with
  | zero => exact .refl
  | succ n ih =>
    unfold failHeads
    cases hq : s.hostQueue with
    | nil => exact .refl
    | cons e rest =>
      dsimp only
      cases headCheck e s with
      | none => exact .refl
      | some o => exact (acts_headFails e rest o s hq).trans (ih _)

theorem acts_headChecks (s : State) : Acts P Q s (headChecks s) := by
  unfold headChecks
  split
  · exact .refl
  · exact acts_failHeads _ s

/-! ### Attention, discovery and leaves -/

theorem acts_attn (s : State) (l ar : Bool) (m : AttnMode) (w : Option (List ModAddr)) :
    Acts P Q s { s with attn := { s.attn with level := l, mode := m, armed := ar, sweep := w } } :=
  acts_inner s s.now s.slots s.autoload s.disc l ar m w

theorem acts_armSweep (s : State) : Acts P Q s (armSweep s) := acts_attn s s.attn.level true s.attn.mode s.attn.sweep

theorem acts_leaveSweep (a : ModAddr) (s : State) : Acts P Q s (leaveSweep a s) := by
  rw [leaveSweep_eq]; exact acts_attn s s.attn.level s.attn.armed s.attn.mode _

theorem acts_queryNow (s : State) : Acts P Q s (queryNow s) := acts_disc s _

theorem acts_endDiscovery (b : Bool) (s : State) : Acts P Q s (endDiscovery b s) := by
  rw [endDiscovery_eq]; exact acts_disc s _

theorem acts_unpark (s : State) : Acts P Q s (unpark s) := by
  rw [unpark_ended]; exact acts_disc s _

theorem acts_removeWork (a : ModAddr) (s : State) : Acts P Q s (removeWork a s) :=
  (acts_mgmt s _ (List.length_filter_le _ _)).trans (acts_disc _ _)

/-- The entry that a leave leaves behind. -/
theorem leftEntry_isBlank (e : Entry) : Entry.IsBlank { generation := e.generation, seq := e.seq } := rfl

/-- What the attention unit does at a leave besides dropping a fetch. -/
theorem acts_attnLeave (a : ModAddr) (e : Entry) (hempty : e.state = .empty) (hblank : e.IsBlank) (s : State) :
    Acts P Q s ((attnLeave a (dropLinesOf a s)).setEntry a e) := by
  have hleave := (Act.leave (P := P) (Q := Q) (s := s) a e hempty hblank).acts
  rw [attnLeave_eq]
  refine hleave.trans ((acts_attn _ s.attn.level
    (if (s.entry a).attention = .held ∨ (s.entry a).attention = .clearDue then true else s.attn.armed) s.attn.mode
    (s.attn.sweep.bind fun l => if l.filter (· ≠ a) = [] then none else some (l.filter (· ≠ a)))).trans ?_)
  by_cases hf : (s.entry a).attention = .fetching ∧ (s.fetchRec a).any (·.reserved) = true
  · have h1 : ((dropLinesOf a s).entry a).attention = .fetching ∧ ((dropLinesOf a s).fetchRec a).any (·.reserved) = true := hf
    rw [if_pos hf, if_pos h1]
    exact .refl
  · have h1 : ¬(((dropLinesOf a s).entry a).attention = .fetching ∧
      ((dropLinesOf a s).fetchRec a).any (·.reserved) = true) := hf
    rw [if_neg hf, if_neg h1]
    by_cases hh : (s.entry a).attention = .held
    · have h2 : ((dropLinesOf a s).entry a).attention = .held := hh
      rw [if_pos h2]
      exact .single (.events _ (.clearHeld a))
    · have h2 : ((dropLinesOf a s).entry a).attention ≠ .held := hh
      rw [if_neg h2]
      exact .refl

/-- Leave handling. -/
theorem acts_leave (a : ModAddr) (c : LeaveCause) (s : State) : Acts P Q s (leave a c s) :=
  (acts_removeWork a s).trans <|
    (acts_attnLeave a { generation := (s.entry a).generation, seq := (s.entry a).seq } rfl rfl (removeWork a s)).trans <|
      (acts_post (leaveRecord c a (s.entry a)) _).trans <| (acts_unpark _).trans (acts_forgetEnds a c _)

/-! ### Due work and the sweep -/

theorem tame_pingDue {e : Entry} (h : e.state ≠ .empty) (b : Bool) : e.Tame { e with pingDue := b } :=
  .of_live h rfl rfl rfl .rfl

theorem acts_setPingDue (a : ModAddr) (s : State) (h : (s.entry a).state ≠ .empty) : Acts P Q s (setPingDue a s) := by
  unfold setPingDue
  dsimp only
  split
  · exact .refl
  · exact acts_setEntry s a _ (tame_pingDue h true)

theorem setPingDue_state (a b : ModAddr) (s : State) : ((setPingDue a s).entry b).state = (s.entry b).state := by
  unfold setPingDue
  dsimp only
  split
  · rfl
  · rw [entry_setEntry]; split
    · rename_i h; rw [h]
    · rfl

/-- PINGs made due on entries of a list that are not EMPTY. -/
theorem acts_pings (l : List ModAddr) (p : State → ModAddr → Bool) (s : State)
    (h : ∀ a ∈ l, ∀ t, (∀ b, (t.entry b).state = (s.entry b).state) → p t a = true → (t.entry a).state ≠ .empty) :
    Acts P Q s (l.foldl (fun t a => if p t a then setPingDue a t else t) s) :=
  acts_foldl (fun t => ∀ b, (t.entry b).state = (s.entry b).state)
    (fun a t ht b => by split; exacts [(setPingDue_state a b t).trans (ht b), ht b])
    (fun a ha t ht => by split; exacts [acts_setPingDue a t (h a ha t ht ‹_›), .refl]) fun _ => rfl

theorem acts_startSweep (s : State) : Acts P Q s (startSweep s) := by
  unfold startSweep
  split
  · dsimp only
    have h := acts_pings (P := P) (Q := Q)
      (allAddrs.filter fun a => (s.entry a).state = .online ∧ (s.entry a).attention = .none) (fun _ _ => true)
    refine (acts_attn s s.attn.level false s.attn.mode _).trans ((h _ fun a ha t ht _ => ?_))
    have hon : (s.entry a).state = .online := by
      have := (List.mem_filter.mp ha).2
      exact (of_decide_eq_true this).1
    rw [ht a]
    show (s.entry a).state ≠ .empty
    rw [hon]; simp
  · exact .refl

theorem acts_addWaiting (s : State) : Acts P Q s (addWaiting s) := by
  unfold addWaiting
  split
  · exact .refl
  · split
    · rename_i h; exact (acts_disc s _).trans (acts_pushMgmt _ _ h)
    · exact .refl

theorem acts_addRelease (a : ModAddr) (s : State) : Acts P Q s (addRelease a s) := by
  unfold addRelease
  dsimp only
  split
  · rename_i h
    refine (acts_setEntry s a { s.entry a with releaseDue := false } ⟨rfl, rfl, .inl rfl, .rfl, fun _ hb => ?_⟩).trans ?_
    swap
    · exact acts_pushMgmt _ _ h.2
    have := hb.fields.2.2.1
    rw [h.1] at this; exact absurd this (by simp)
  · exact .refl

theorem acts_addClear (a : ModAddr) (s : State) : Acts P Q s (addClear a s) := by
  unfold addClear
  dsimp only
  split
  · rename_i h; exact acts_pushMgmt _ _ h.2.2
  · exact .refl

theorem acts_addFetch (a : ModAddr) (s : State) : Acts P Q s (addFetch a s) := by
  unfold addFetch
  dsimp only
  split
  · rename_i h
    obtain ⟨hdue, hperm, hroom⟩ := h
    refine (Act.fetch a (s.attn.mode = .held : Bool) hdue fun hm => ?_).acts.trans
      (acts_pushMgmt (.attnFetch a (s.entry a).generation) _ hroom)
    simp only [State.fetchPermitted, Bool.and_eq_true, Bool.or_eq_true, decide_eq_true_eq] at hperm hm
    obtain ⟨-, h | h⟩ := hperm
    · rw [hm] at h; exact absurd h (by simp)
    · exact h
  · exact .refl

theorem acts_addPing (a : ModAddr) (s : State) : Acts P Q s (addPing a s) := by
  unfold addPing
  dsimp only
  split
  · rename_i h
    refine (acts_setEntry s a { s.entry a with pingDue := false } ⟨rfl, rfl, .inl rfl, .rfl, fun _ hb => ?_⟩).trans ?_
    swap
    · exact acts_pushMgmt _ _ h.2
    have := hb.fields.2.1
    rw [h.1] at this; exact absurd this (by simp)
  · exact .refl

theorem acts_addWorkFor (s : State) (a : ModAddr) : Acts P Q s (addWorkFor s a) :=
  (acts_addRelease a s).trans ((acts_addClear a _).trans ((acts_addFetch a _).trans (acts_addPing a _)))

theorem acts_addDueWork (s : State) : Acts P Q s (addDueWork s) :=
  (acts_addWaiting s).trans
    (acts_foldl (fun _ => True) (fun _ _ _ => trivial) (fun a _ t _ => acts_addWorkFor t a) trivial)

/-! ### Power -/

theorem acts_pingPresent (s : State) : Acts P Q s (pingPresent s) := by
  have h := acts_pings (P := P) (Q := Q) allAddrs
    (fun t a => (t.entry a).state = .online ∨ (t.entry a).state = .quarantined) s
    (fun a _ t _ hp => by
      have hp := of_decide_eq_true hp
      rintro he; rw [he] at hp; simp at hp)
  simpa [pingPresent] using h

theorem acts_endWaking (s : State) : Acts P Q s (endWaking s) :=
  acts_power s _ fun h => by
    dsimp only at h
    split at h <;> simp at h

theorem acts_leaveWaking (s : State) : Acts P Q s (leaveWaking s) :=
  (acts_endWaking s).trans ((acts_pingPresent _).trans (acts_armSweep _))

/-- A wake, of a link that sleeps. -/
theorem acts_wakeLink (r : WakeReason) (s : State) (h : s.power.state = .asleep) : Acts P Q s (wakeLink r s) := by
  have h1 := (acts_power (P := P) (Q := Q) s
    { s.power with state := .waking, sleepReq := false, lastWake := r, wakeTimer := some 0
                   wakeSettle := some (s.timing.settleTime * 1000) } fun _ => .inr (.inl h)).trans (acts_post (wakeRecord r) _)
  unfold wakeLink
  dsimp only
  split
  · exact h1.trans (acts_leaveWaking _)
  · exact h1

theorem acts_hostWake (s : State) : Acts P Q s (hostWake s) := by
  unfold hostWake
  split
  · rename_i h; exact acts_wakeLink _ s h
  · exact .refl

theorem acts_attentionWake (s : State) : Acts P Q s (attentionWake s) := by
  unfold attentionWake
  split
  · rename_i h
    simp only [State.attentionWakes, Bool.and_eq_true, decide_eq_true_eq] at h
    exact acts_wakeLink _ s h.1.1
  · exact .refl

theorem acts_cancelDrain (s : State) : Acts P Q s (cancelDrain s) := by
  unfold cancelDrain
  split
  · exact acts_power s _ fun h => by simp at h
  · exact .refl

/-! ### What every event closes with -/

theorem acts_disableDiscovery (s : State) : Acts P Q s (disableDiscovery s) := acts_disc s _

theorem acts_suspendDiscovery (s : State) : Acts P Q s (suspendDiscovery s) := by
  unfold suspendDiscovery
  cases s.disc.state with
  | querying =>
    dsimp only
    split
    · exact .refl
    · exact (acts_mgmt s _ (List.length_filter_le _ _)).trans (acts_disableDiscovery _)
  | idle => exact acts_disableDiscovery s
  | parkedFull => exact acts_disableDiscovery s
  | parkedConflict => exact acts_disableDiscovery s
  | joining => exact .refl
  | disabled => exact .refl

theorem acts_updateDiscovery (s : State) : Acts P Q s (updateDiscovery s) := by
  unfold updateDiscovery
  split
  · exact acts_suspendDiscovery s
  · split
    · exact acts_queryNow s
    · exact .refl

theorem drained_link {s : State} (h : s.drained = true) : s.engine.link = .free := by
  simp only [State.drained, State.drainLink, Bool.and_eq_true, decide_eq_true_eq] at h
  exact h.1.1.1.1.2.1

theorem acts_drainIfDone (s : State) : Acts P Q s (drainIfDone s) := by
  unfold drainIfDone
  split
  · rename_i h; exact acts_power s _ fun _ => .inl (drained_link h.2)
  · exact .refl

theorem acts_followChange (s : State) : Acts P Q s (followChange s) :=
  (acts_updateDiscovery s).trans <| (acts_cancelDrain _).trans <| (acts_updateDiscovery _).trans <|
    (acts_startSweep _).trans <| (acts_addDueWork _).trans (acts_headChecks _)

theorem acts_settle (s : State) : Acts P Q s (settle s) := by
  have h := (acts_followChange (P := P) (Q := Q) s).trans (acts_drainIfDone _)
  unfold settle
  dsimp only
  split
  · exact h.trans ((acts_attentionWake _).trans (acts_followChange _))
  · exact h

/-! ### The passing of time -/

theorem later_free (d : Nat) (l : Link) : l.later d = .free ↔ l = .free := by
  cases l with
  | holdoff r e => simp only [Link.later]; split <;> simp
  | _ => simp [Link.later]

theorem request?_later {d : Nat} {l : Link} {r : Request} (h : (l.later d).request? = some r) :
    ∃ q, l.request? = some q ∧ q.source = r.source := by
  cases l with
  | free => simp [Link.later, Link.request?] at h
  | settling => simp [Link.later, Link.request?] at h
  | carrying q =>
    refine ⟨q, rfl, ?_⟩
    simp only [Link.later, Link.request?, Option.some.injEq] at h
    rw [← h]
  | holdoff q e =>
    refine ⟨q, rfl, ?_⟩
    simp only [Link.later] at h
    split at h <;> simp only [Link.request?, Option.some.injEq] at h <;> rw [← h]

/-- The link goes on with what it carries. -/
theorem acts_engine (s : State) (g : LinkEngine) (hs : s.engine.link ≠ .free ∨ g.link = .free)
    (h : ∀ r, g.link.request? = some r → (∃ q, s.engine.link.request? = some q ∧ q.source = r.source) ∨
      ∀ e, r.source ≠ .host e false) : Acts P Q s { s with engine := g } :=
  (Act.engine g (hs.elim (fun h => .inr (.inl h)) .inl) fun r e hr hsrc => by
    obtain ⟨q, hq, hqs⟩ | hno := h r hr
    · exact ⟨q, hq, hqs.trans hsrc⟩
    · exact absurd hsrc (hno e)).acts

theorem Entry.IsBlank.later {e : Entry} (h : e.IsBlank) (d : Nat) :
    Entry.IsBlank { e with pollTimer := e.pollTimer.map (· + d) } := by
  rw [Entry.IsBlank] at h ⊢
  rw [h]; rfl

theorem acts_advance (d : Nat) (s : State) : Acts P Q s (advance d s) := by
  have h1 := acts_inner (P := P) (Q := Q) s (s.now + d) (vmap (Slot.later d) s.slots) s.autoload
    { s.disc with queryTimer := s.disc.queryTimer.map (· + d) } s.attn.level s.attn.armed s.attn.mode s.attn.sweep
  refine Acts.trans h1 (Acts.trans (acts_port _ { s.port with held := s.port.held.map fun h => { h with elapsed := h.elapsed + d } }
    rfl rfl fun h hh => ?_) (Acts.trans (acts_engine _ { s.engine with link := s.engine.link.later d } ?_ fun r hr => .inl
      (request?_later hr)) (Acts.trans (.single (.modules (if s.pollsRun then
        vmap (fun e => { e with pollTimer := e.pollTimer.map (· + d) }) s.modules else s.modules) fun a => ?_))
        ?_)))
  · obtain ⟨h', hh', rfl⟩ := Option.map_eq_some_iff.mp hh
    exact ⟨h', hh', rfl⟩
  · by_cases hf : s.engine.link = .free
    · exact .inr ((later_free d _).mpr hf)
    · exact .inl hf
  · split
    · rw [vget_vmap]
      exact ⟨rfl, rfl, .inl rfl, .rfl, fun _ hb => hb.later d⟩
    · exact .refl _
  · exact acts_power _ { s.power with wakeTimer := s.power.wakeTimer.map (· + d) } fun h => .inr h

theorem acts_stopPoll (a : ModAddr) (n : Option Nat) (s : State) (h : (s.entry a).state ≠ .empty) :
    Acts P Q s (setPingDue a (s.setEntry a { s.entry a with pollTimer := n })) :=
  (acts_setLive s a { s.entry a with pollTimer := n } h ⟨rfl, rfl, rfl, .rfl⟩).trans (acts_setPingDue a _ (by rw [entry_setEntry_same s]; exact h))

theorem acts_comparePolls (st : ModState) (ms : Nat) (s : State) (h : st ≠ .empty) : Acts P Q s (comparePolls st ms s) := by
  unfold comparePolls
  split
  · refine acts_foldl (fun _ => True) (fun _ _ _ => trivial) (fun a _ t _ => ?_) trivial
    dsimp only
    split
    · split
      · rename_i hc; exact acts_stopPoll a none t (by rw [hc.1]; exact h)
      · exact .refl
    · exact .refl
  · exact .refl

theorem acts_compareDiscards (s : State) : Acts P Q s (compareDiscards s) := by
  refine acts_foldl (fun _ => True) (fun _ _ _ => trivial) (fun i _ t _ => ?_) trivial
  split
  · split
    · exact acts_discardSlot i t
    · exact .refl
  · exact .refl
  · exact .refl

end Sys2Proof.Machine
end

section
/-! PROOFS. The ends of requests and the link engine's events as acts. -/

namespace Sys2Proof.Machine

variable {P Q : Prop}

/-! ### Supervision (section 2.5) -/

theorem acts_silentOnline (a : ModAddr) (s : State) (h : (s.entry a).state = .online) : Acts P Q s (silentOnline a s) := by
  have hlive : (s.entry a).state ≠ .empty := by rw [h]; simp
  unfold silentOnline
  dsimp only
  split
  · refine Acts.trans (.single (.quarantine a { s.entry a with
      state := .quarantined, failureRun := s.timing.quarThreshold, departCount := 0, responding := false, pollTimer := some 0 }
      hlive rfl rfl rfl rfl)) ?_
    exact acts_post _ _
  · exact acts_setLive s a _ hlive ⟨rfl, rfl, rfl, .rfl⟩

theorem acts_silentQuarantined (a : ModAddr) (s : State) (h : (s.entry a).state ≠ .empty) :
    Acts P Q s (silentQuarantined a s) := by
  have h1 := acts_setLive (P := P) (Q := Q) s a { s.entry a with
    failureRun := s.timing.quarThreshold, departCount := (s.entry a).departCount + 1, pollTimer := some 0 } h
    ⟨rfl, rfl, rfl, .rfl⟩
  unfold silentQuarantined
  dsimp only
  split
  · exact h1.trans (acts_leave a _ _)
  · exact h1

theorem acts_answeredQuarantined (a : ModAddr) (s : State) (h : (s.entry a).state ≠ .empty) :
    Acts P Q s (answeredQuarantined a s) := by
  have h1 := acts_setLive (P := P) (Q := Q) s a { s.entry a with
    failureRun := 0, departCount := 0, responding := true, pollTimer := some 0 } h ⟨rfl, rfl, rfl, .rfl⟩
  unfold answeredQuarantined
  dsimp only
  split
  · exact h1
  · exact h1.trans (acts_post _ _)

theorem acts_takeReport (a : ModAddr) (o : LinkOutcome) (s : State) : Acts P Q s (takeReport a o s) := by
  unfold takeReport
  cases h : (s.entry a).state with
  | online =>
    have hlive : (s.entry a).state ≠ .empty := by rw [h]; simp
    dsimp only
    split
    · exact acts_silentOnline a s h
    · exact acts_setLive s a { s.entry a with failureRun := 0, pollTimer := some 0 } hlive ⟨rfl, rfl, rfl, .rfl⟩
  | quarantined =>
    have hlive : (s.entry a).state ≠ .empty := by rw [h]; simp
    dsimp only
    split
    · exact acts_silentQuarantined a s hlive
    · exact acts_answeredQuarantined a s hlive
  | empty => exact .refl
  | joining => exact .refl
  | describing => exact .refl

theorem acts_failureReport (src : Source) (o : LinkOutcome) (s : State) : Acts P Q s (failureReport src o s) := by
  unfold failureReport
  split
  · exact .refl
  · split
    · exact acts_takeReport _ o s
    · exact .refl

/-! ### Joins (sections 2.3 and 3.3) -/

theorem lowestFree_empty {s : State} {a : ModAddr} (h : s.lowestFree = some a) : (s.entry a).state = .empty := by
  have := List.find?_some h
  simp only [Bool.and_eq_true, State.addrFree, decide_eq_true_eq] at this
  exact this.1

theorem chooseLowest_empty {s : State} {a : ModAddr} {how b : Bound} (h : chooseLowest how s = .address a b) :
    (s.entry a).state = .empty := by
  unfold chooseLowest at h
  split at h
  · rename_i hl
    injection h with h; exact h ▸ lowestFree_empty hl
  · exact absurd h (by simp)

/-- The address chosen for a join is free (section 3.3). -/
theorem choose_empty {id : UniqueId} {r : Option ModAddr} {s : State} {a : ModAddr} {how : Bound}
    (h : choose id r s = .address a how) : (s.entry a).state = .empty := by
  have free : ∀ b, s.addrFree b = true → (s.entry b).state = .empty := fun b hb => by
    simpa [State.addrFree] using hb
  unfold choose at h
  split at h
  · split at h
    · rename_i hf
      injection h with h _; exact h ▸ free _ hf
    · split at h
      · exact absurd h (by simp)
      · exact chooseLowest_empty h
  · split at h
    · split at h
      · rename_i hf
        simp only [Bool.and_eq_true] at hf
        injection h with h _; exact h ▸ free _ hf.1
      · exact chooseLowest_empty h
    · exact chooseLowest_empty h

theorem acts_setWaiting (m : MgmtEntry) (s : State) : Acts P Q s (setWaiting m s) := acts_disc s _

/-- No entry that is not EMPTY has this unique ID (R25). -/
def State.Fresh (s : State) (id : UniqueId) : Prop := ∀ b, (s.entry b).state ≠ .empty → (s.entry b).uniqueId ≠ some id

theorem acts_startJoin (a : ModAddr) (id : UniqueId) (how : Bound) (s : State) (hfree : (s.entry a).state = .empty)
    (hfresh : P → s.Fresh id) : Acts P Q s (startJoin a id how s) :=
  Acts.trans (.single (.join a { state := .joining, generation := (s.entry a).generation + 1, seq := (s.entry a).seq
                                 uniqueId := some id, bound := how } id hfree (by simp) rfl rfl hfresh)) (acts_disc _ _)

theorem acts_park (st : DiscState) (p : Posted) (d : DiscEnd) (s : State) : Acts P Q s (park st p d s) :=
  Acts.trans (acts_disc s _) (Acts.trans (acts_post p _) (acts_discoverReport d _))

theorem acts_carryOutChoice (id : UniqueId) (r : Option ModAddr) (s : State) (hfresh : P → s.Fresh id) :
    Acts P Q s (carryOutChoice id (choose id r s) s) := by
  unfold carryOutChoice
  cases h : choose id r s with
  | address a how => exact acts_startJoin a id how s (choose_empty h) hfresh
  | conflict a => exact acts_park _ _ _ s
  | full => exact acts_park _ _ _ s

theorem entry_leave (a b : ModAddr) (c : LeaveCause) (s : State) :
    (leave a c s).entry b =
      if a = b then { generation := (s.entry a).generation, seq := (s.entry a).seq } else s.entry b := by
  have h : (leave a c s).modules = (s.setEntry a { generation := (s.entry a).generation, seq := (s.entry a).seq }).modules := by
    rw [leave_eq]; unfold entryLeft; dsimp only; split <;> rfl
  exact entry_cases h b

theorem acts_idReturned (id : UniqueId) (s : State) (hs : P → ModuleLaw s) : Acts P Q s (idReturned id s) := by
  unfold idReturned
  cases h : s.holderOf id with
  | none =>
    refine acts_carryOutChoice id none s fun _ b hb hid => ?_
    have := List.find?_eq_none.mp h b (mem_allAddrs b)
    simp [hb, hid] at this
  | some a =>
    have ha := List.find?_some h
    simp only [decide_eq_true_eq] at ha
    refine (acts_leave a .reappeared s).trans (acts_carryOutChoice id (some a) _ fun hP b hb hid => ?_)
    rw [entry_leave] at hb hid
    split at hb
    · exact hb rfl
    · rename_i hab
      rw [if_neg hab] at hid
      exact hab (hs hP a b id ha.1 hb ha.2 hid)

theorem acts_queryCollides (s : State) : Acts P Q s (queryCollides s) :=
  (acts_post _ s).trans ((acts_endDiscovery false _).trans (acts_discoverReport _ _))

theorem acts_joinQueryOutcome (o : LinkOutcome) (garbled : Bool) (data : List Byte) (s : State) (hs : P → ModuleLaw s) :
    Acts P Q s (joinQueryOutcome o garbled data s) := by
  unfold joinQueryOutcome
  cases o with
  | ok => dsimp only; split; exacts [acts_disableDiscovery s, acts_idReturned _ s hs]
  | noResponse =>
    dsimp only
    split
    · exact acts_queryCollides s
    · exact (acts_endDiscovery false s).trans (acts_discoverReport _ _)
  | refused => exact acts_queryCollides s
  | noRegister => exact acts_queryCollides s
  | busyExhausted => exact acts_queryCollides s
  | _ => exact .refl

theorem acts_releaseAfter (a : ModAddr) (c : ReleaseCause) (s : State) (h : (s.entry a).state ≠ .empty) :
    Acts P Q s (releaseAfter a c s) := acts_setLive s a _ h ⟨rfl, rfl, rfl, .rfl⟩

theorem acts_assignOutcome (a : ModAddr) (gen : Half) (o : LinkOutcome) (s : State) :
    Acts P Q s (assignOutcome a gen o s) := by
  unfold assignOutcome
  split
  · exact .refl
  · rename_i hj
    rw [not_not] at hj
    split
    · refine Acts.trans (acts_setEntry s a { s.entry a with state := .describing } ⟨rfl, rfl, .inr ?_, .rfl, ?_⟩)
        (acts_setWaiting _ _)
      · rw [hj]; simp
      · rw [hj]; simp
    · exact acts_releaseAfter a _ s (by rw [hj]; simp)

/-! ### Descriptors (section 2.4) -/

theorem acts_becomeOnline (a : ModAddr) (s : State) (h : (s.entry a).state = .describing) : Acts P Q s (becomeOnline a s) :=
  (acts_setEntry s a (onlineEntry (s.entry a)) ⟨rfl, rfl, .inr (by rw [h]; simp [onlineEntry]), .rfl, by rw [h]; simp⟩).trans <|
    (acts_armSweep _).trans <| (acts_post (joinedRecord a (s.entry a)) _).trans <| (acts_endDiscovery true _).trans
      (acts_discoverReport (.joined a (s.entry a).generation) _)

/-- An entry in DESCRIBING that changes in what its descriptor gives. -/
theorem acts_describes (s : State) (a : ModAddr) (e : Entry) (h : (s.entry a).state = .describing)
    (he : e.generation = (s.entry a).generation ∧ e.uniqueId = (s.entry a).uniqueId ∧ e.state = (s.entry a).state ∧
      e.attention = (s.entry a).attention) :
    Acts P Q s (s.setEntry a e) ∧ ((s.setEntry a e).entry a).state = .describing :=
  ⟨acts_setLive s a e (by rw [h]; simp) ⟨he.1, he.2.1, he.2.2.1, by rw [he.2.2.2]⟩,
    by rw [entry_setEntry_same, he.2.2.1, h]⟩

theorem acts_truncateChain (a : ModAddr) (s : State) (h : (s.entry a).state = .describing) :
    Acts P Q s (truncateChain a s) := by
  obtain ⟨h1, h2⟩ := acts_describes (P := P) (Q := Q) s a { s.entry a with truncated := true } h ⟨rfl, rfl, rfl, rfl⟩
  exact h1.trans ((acts_post _ _).trans (acts_becomeOnline a _ h2))

theorem acts_followPointer (a : ModAddr) (gen : Half) (ptr : Byte) (s : State) (h : (s.entry a).state = .describing) :
    Acts P Q s (followPointer a gen ptr s) := by
  unfold followPointer
  dsimp only
  split
  · exact acts_becomeOnline a s h
  · split
    · exact acts_truncateChain a s h
    · exact acts_setWaiting _ s

theorem acts_compareId (a : ModAddr) (gen : Half) (w half : Word) (next : Byte) (s : State)
    (h : (s.entry a).state ≠ .empty) : Acts P Q s (compareId a gen w half next s) := by
  unfold compareId
  split
  · exact acts_setWaiting _ s
  · exact acts_releaseAfter a _ s h

theorem acts_recordWord (a : ModAddr) (gen : Half) (word : Byte) (w : Word) (s : State)
    (h : (s.entry a).state = .describing) : Acts P Q s (recordWord a gen word w s) := by
  unfold recordWord
  dsimp only
  split
  · exact acts_truncateChain a s h
  · obtain ⟨h1, h2⟩ := acts_describes (P := P) (Q := Q) s a { s.entry a with capabilities := (s.entry a).capabilities ++
      [{ type := w.extractLsb' 0 8, word := word, length := w.extractLsb' 8 8, value := w.extractLsb' 24 8 }] } h
      ⟨rfl, rfl, rfl, rfl⟩
    exact h1.trans (acts_followPointer a gen _ _ h2)

theorem acts_headerWord (a : ModAddr) (gen : Half) (w : Word) (s : State) (h : (s.entry a).state = .describing) :
    Acts P Q s (headerWord a gen w s) := by
  obtain ⟨h1, h2⟩ := acts_describes (P := P) (Q := Q) s a { s.entry a with
    moduleClass := some (w.extractLsb' 0 16), revision := some (w.extractLsb' 16 8) } h ⟨rfl, rfl, rfl, rfl⟩
  exact h1.trans (acts_followPointer a gen _ _ h2)

theorem acts_descOutcome (a : ModAddr) (gen : Half) (word : Byte) (o : LinkOutcome) (w : Word) (s : State) :
    Acts P Q s (descOutcome a gen word o w s) := by
  unfold descOutcome
  dsimp only
  split
  · exact .refl
  · rename_i hd
    rw [not_not] at hd
    have hlive : (s.entry a).state ≠ .empty := by rw [hd]; simp
    split
    · split
      · exact acts_compareId a gen w _ _ s hlive
      · split
        · exact acts_compareId a gen w _ _ s hlive
        · split
          · exact acts_headerWord a gen w s hd
          · exact acts_recordWord a gen word w s hd
    · split
      · exact acts_truncateChain a s hd
      · exact acts_releaseAfter a _ s hlive

/-! ### Attention (sections 8.4 and 8.5) -/

theorem acts_takeFlag (a : ModAddr) (flag : Bool) (s : State) : Acts P Q s (takeFlag a flag s) := by
  unfold takeFlag
  dsimp only
  split
  · rename_i h
    refine acts_setEntry s a _ ⟨rfl, rfl, .inl rfl, by simp [h.2.2], fun _ hb => ?_⟩
    have := hb.fields.2.2.2.1
    rw [h.2.1] at this; exact absurd this (by simp)
  · exact .refl

theorem acts_applyWord (a : ModAddr) (word : Half) (f : FetchRec) (s : State) (hrec : s.fetchRec a = some f)
    (hlive : (s.entry a).state ≠ .empty) : Acts P Q s (applyWord a word f.reserved s) := by
  unfold applyWord
  dsimp only
  cases hr : f.reserved with
  | true =>
    exact .single (.fetched a f { s.entry a with
      attention := if (true && (s.attn.mode = .held : Bool)) = true then .held else .clearDue, clearBits := some word }
      hrec rfl rfl rfl hlive (by dsimp only; split <;> simp) _ (.inr ⟨hr, word, _, _, rfl⟩))
  | false =>
    refine Acts.trans (.single (.fetched a f { s.entry a with attention := .clearDue, clearBits := some word }
      hrec rfl rfl rfl hlive (by simp) s.events (.inl (by simp [hr])))) (acts_post _ _)

theorem acts_fetchEndsEmpty (a : ModAddr) (f : FetchRec) (s : State) (hrec : s.fetchRec a = some f)
    (hlive : (s.entry a).state ≠ .empty) : Acts P Q s (fetchEndsEmpty a s) := by
  have h := (Act.fetched (P := P) (Q := Q) (s := s) a f { s.entry a with attention := .none } hrec rfl rfl rfl hlive (by simp) _
    (.inl rfl)).acts
  unfold fetchEndsEmpty dropFetch
  dsimp only
  rw [hrec]
  cases hr : f.reserved with
  | true => rw [if_pos (by simp [hr])]; rw [hr] at h; exact h
  | false => rw [if_neg (by simp [hr])]; rw [hr] at h; exact h

theorem acts_fetchOutcome (a : ModAddr) (o : LinkOutcome) (word : Half) (s : State) (hlive : (s.entry a).state ≠ .empty) :
    Acts P Q s (fetchOutcome a o word s) := by
  unfold fetchOutcome
  cases hrec : s.fetchRec a with
  | none => exact .refl
  | some f =>
    dsimp only
    split
    · exact .refl
    · split
      · split
        · exact (acts_applyWord a word f s hrec hlive).trans (acts_contentsChanged a _)
        · exact acts_applyWord a word f s hrec hlive
      · exact acts_fetchEndsEmpty a f s hrec hlive

theorem acts_clearOutcome (a : ModAddr) (s : State) (hlive : (s.entry a).state ≠ .empty) : Acts P Q s (clearOutcome a s) := by
  unfold clearOutcome
  dsimp only
  split
  · rename_i h
    exact (acts_setLive s a { s.entry a with attention := .none, clearBits := none } hlive
      ⟨rfl, rfl, rfl, by simp [h]⟩).trans (acts_armSweep _)
  · exact .refl

/-! ### The outcomes of management requests -/

theorem acts_joinEnds (a : ModAddr) (c : LeaveCause) (d : DiscEnd) (s : State) :
    Acts P Q s (discoverReport d (endDiscovery false (leave a c s))) :=
  (acts_leave a c s).trans ((acts_endDiscovery false _).trans (acts_discoverReport d _))

theorem acts_releaseOutcome (a : ModAddr) (o : LinkOutcome) (s : State) : Acts P Q s (releaseOutcome a o s) := by
  unfold releaseOutcome
  split
  · exact .refl
  · exact acts_leave a _ s
  · exact acts_joinEnds a _ _ s
  · exact acts_joinEnds a _ _ s
  · exact acts_joinEnds a _ _ s

theorem acts_mgmtOutcome (m : MgmtEntry) (o : LinkOutcome) (garbled : Bool) (data : List Byte) (s : State)
    (hs : P → ModuleLaw s) : Acts P Q s (mgmtOutcome m o garbled data s) := by
  unfold mgmtOutcome
  cases m with
  | joinQuery => exact acts_joinQueryOutcome o garbled data s hs
  | assign a g w => dsimp only [MgmtEntry.concerns]; split; exacts [acts_assignOutcome a g o s, .refl]
  | descRead a g w => dsimp only [MgmtEntry.concerns]; split; exacts [acts_descOutcome a g w o _ s, .refl]
  | ping a g => dsimp only [MgmtEntry.concerns]; split; exacts [acts_leaveSweep a s, .refl]
  | attnFetch a g =>
    dsimp only [MgmtEntry.concerns]
    split
    · rename_i h; exact acts_fetchOutcome a o _ s h.2
    · exact .refl
  | attnClear a g b =>
    dsimp only [MgmtEntry.concerns]
    split
    · rename_i h; exact acts_clearOutcome a s h.2
    · exact .refl
  | release a g => dsimp only [MgmtEntry.concerns]; split; exacts [acts_releaseOutcome a o s, .refl]

end Sys2Proof.Machine
end

section
/-! PROOFS. The link engine's events as acts. -/

namespace Sys2Proof.Machine

variable {P Q : Prop}

/-! ### A request that ends -/

theorem leave_queues (a : ModAddr) (c : LeaveCause) (s : State) :
    (leave a c s).hostQueue = s.hostQueue ∧ (leave a c s).engine = s.engine := by
  rw [leave_eq]; unfold entryLeft; dsimp only; split <;> exact ⟨rfl, rfl⟩

/-- The failure-run report leaves the host request queue and the link alone. -/
theorem failureReport_queues (src : Source) (o : LinkOutcome) (s : State) :
    (failureReport src o s).hostQueue = s.hostQueue ∧ (failureReport src o s).engine = s.engine := by
  have hq : ∀ a, (silentQuarantined a s).hostQueue = s.hostQueue ∧ (silentQuarantined a s).engine = s.engine := fun a => by
    unfold silentQuarantined
    dsimp only
    split
    · exact leave_queues a _ _
    · exact ⟨rfl, rfl⟩
  have ha : ∀ a, (answeredQuarantined a s).hostQueue = s.hostQueue ∧ (answeredQuarantined a s).engine = s.engine := fun a => by
    unfold answeredQuarantined; dsimp only; split <;> exact ⟨rfl, rfl⟩
  have ho : ∀ a, (silentOnline a s).hostQueue = s.hostQueue ∧ (silentOnline a s).engine = s.engine := fun a => by
    unfold silentOnline; dsimp only; split <;> exact ⟨rfl, rfl⟩
  unfold failureReport
  split
  · exact ⟨rfl, rfl⟩
  · split
    · rename_i a _ _ _
      unfold takeReport
      cases (s.entry a).state with
      | online => dsimp only; split; exacts [ho a, ⟨rfl, rfl⟩]
      | quarantined => dsimp only; split; exacts [hq a, ha a]
      | empty => exact ⟨rfl, rfl⟩
      | joining => exact ⟨rfl, rfl⟩
      | describing => exact ⟨rfl, rfl⟩
    · exact ⟨rfl, rfl⟩

/-- What the acts need to be known where a request ends: the law of the module table, for a join; and that no entry of the mailbox
stands behind a request of the mailbox. -/
structure CanEnd (P Q : Prop) (src : Source) (s : State) : Prop where
  modules : P → ModuleLaw s
  mailbox : Q → ∀ e, src = .host e false → e.origin = .mailbox → ∀ f ∈ s.hostQueue, f.origin ≠ .mailbox

theorem CanEnd.of_link {s : State} {r : Request} (hP : P → ModuleLaw s) (hQ : Q → MailboxLaw s)
    (h : s.engine.link.request? = some r) : CanEnd P Q r.source s :=
  ⟨hP, fun q e hsrc ho f hf hm => by
    have h1 := ((hQ q).2.2 r e h hsrc ho).1
    have h2 := ((hQ q).2.1 f hf hm).1
    rw [h1] at h2; exact absurd h2 (by simp)⟩

theorem Acts.moduleLaw {s t : State} (hP : P) (h : Acts P Q s t) (hs : ModuleLaw s) : ModuleLaw t :=
  h.keeps (fun _ _ hact hu => hact.moduleLaw hP hu) hs

theorem CanEnd.step {src : Source} {s t : State} (h : CanEnd P Q src s) (hacts : Acts P Q s t) (hq : t.hostQueue = s.hostQueue) :
    CanEnd P Q src t :=
  ⟨fun hP => hacts.moduleLaw hP (h.modules hP), fun q e hsrc ho f hf => h.mailbox q e hsrc ho f (hq ▸ hf)⟩

theorem acts_ownerTakes (r : Request) (o : LinkOutcome) (data : List Byte) (s : State) (h : CanEnd P Q r.source s)
    (hl : s.engine.link = .free) : Acts P Q s (ownerTakes r o data s) := by
  unfold ownerTakes
  cases hsrc : r.source with
  | broadcast => exact .refl
  | management m => exact acts_mgmtOutcome m o r.garbled data s h.modules
  | host e d =>
    cases d with
    | true => exact .refl
    | false =>
      exact acts_deliver e o (dataWord data) s fun q ho => ⟨h.mailbox q e hsrc ho, fun r' e' hr => by simp [hl, Link.request?] at hr⟩

/-- The seq of an entry may change, whatever its state (R24: an EMPTY entry keeps one). -/
theorem tame_seq (e : Entry) (q : BitVec 4) : e.Tame { e with seq := q } :=
  ⟨rfl, rfl, .inl rfl, .rfl, fun _ hb => by rw [Entry.IsBlank] at hb ⊢; rw [hb]⟩

/-- The time of the last response may change, whatever the entry's state (log entry 18). -/
theorem tame_lastResponse (e : Entry) (n : Option Nat) : e.Tame { e with lastResponse := n } :=
  ⟨rfl, rfl, .inl rfl, .rfl, fun _ hb => by rw [Entry.IsBlank] at hb ⊢; rw [hb]⟩

theorem acts_seqFromAssign (r : Request) (o : LinkOutcome) (s : State) : Acts P Q s (seqFromAssign r o s) := by
  unfold seqFromAssign
  split
  · split
    · exact acts_setEntry s _ _ (tame_seq _ _)
    · exact .refl
  · exact .refl

theorem seqFromAssign_queues (r : Request) (o : LinkOutcome) (s : State) :
    (seqFromAssign r o s).hostQueue = s.hostQueue ∧ (seqFromAssign r o s).engine = s.engine := by
  unfold seqFromAssign
  split
  · split <;> exact ⟨rfl, rfl⟩
  · exact ⟨rfl, rfl⟩

theorem acts_linkFree (s : State) : Acts P Q s { s with engine := { s.engine with link := .free } } :=
  acts_engine s _ (.inr rfl) fun r hr => by simp [Link.request?] at hr

theorem acts_endRequest (order : PostOrder) (r : Request) (o : LinkOutcome) (data : List Byte) (s : State)
    (h : CanEnd P Q r.source s) : Acts P Q s (endRequest order r o data s) := by
  have h1 := (acts_linkFree (P := P) (Q := Q) s).trans (acts_seqFromAssign r o _)
  obtain ⟨hq, he⟩ := seqFromAssign_queues r o { s with engine := { s.engine with link := .free } }
  have hc := h.step h1 hq
  have hl : (seqFromAssign r o { s with engine := { s.engine with link := .free } }).engine.link = .free := by rw [he]
  unfold endRequest
  cases order with
  | ownerFirst => exact h1.trans ((acts_ownerTakes r o data _ hc hl).trans ((acts_failureReport r.source o _).trans (acts_settle _)))
  | managerFirst =>
    have h2 := acts_failureReport (P := P) (Q := Q) r.source o (seqFromAssign r o { s with engine := { s.engine with link := .free } })
    obtain ⟨hq2, he2⟩ := failureReport_queues r.source o (seqFromAssign r o { s with engine := { s.engine with link := .free } })
    exact h1.trans (h2.trans ((acts_ownerTakes r o data _ (hc.step h2 hq2) (he2 ▸ hl)).trans (acts_settle _)))

/-! ### Attempts -/

/-- The link carries its request on, in a new condition. -/
theorem acts_newLink (s : State) (l : Link) (line : List Byte) (r q : Request) (h : s.engine.link.request? = some q)
    (hl : l.request? = some r) (hsrc : r.source = q.source) :
    Acts P Q s { s with engine := { s.engine with link := l, line := line } } :=
  acts_engine s _ (.inl fun hf => by rw [hf] at h; simp [Link.request?] at h) fun r' hr' => .inl ⟨q, h, by
    rw [show l.request? = some r' from hr', Option.some.injEq] at hl; rw [hl, hsrc]⟩

theorem acts_carry (r q : Request) (s : State) (h : s.engine.link.request? = some q) (hsrc : r.source = q.source) :
    Acts P Q s (carry r s) := acts_newLink s (.carrying r) s.engine.line r q h rfl hsrc

theorem acts_attemptFails (order : PostOrder) (r q : Request) (idle : Nat) (s : State) (h : s.engine.link.request? = some q)
    (hsrc : r.source = q.source) (hc : CanEnd P Q q.source s) : Acts P Q s (attemptFails order r idle s) := by
  unfold attemptFails
  split
  · exact acts_carry { r with retransUsed := r.retransUsed + 1, attempt := .gap idle } q s h hsrc
  · exact acts_endRequest order r .noResponse [] s (hsrc ▸ hc)

theorem acts_sendAgain (r q : Request) (s : State) (h : s.engine.link.request? = some q) (hsrc : r.source = q.source) :
    Acts P Q s (sendAgain r s) := acts_newLink s _ _ { r with attempt := .sending } q h rfl hsrc

theorem acts_noteResponse (p : Response) (s : State) :
    Acts P Q s (noteResponse p s) ∧ (noteResponse p s).hostQueue = s.hostQueue ∧ (noteResponse p s).engine = s.engine := by
  unfold noteResponse
  cases modAddr? p.source with
  | none => exact ⟨.refl, rfl, rfl⟩
  | some a =>
    refine ⟨(acts_setEntry s a { s.entry a with lastResponse := some s.now } (tame_lastResponse _ _)).trans
      (acts_takeFlag a p.attention _), ?_⟩
    unfold takeFlag
    dsimp only
    split <;> exact ⟨rfl, rfl⟩

theorem acts_validResponse (order : PostOrder) (r : Request) (p : Response) (s : State) (h : s.engine.link = .carrying r)
    (hc : CanEnd P Q r.source s) : Acts P Q s (validResponse order r p s) := by
  obtain ⟨h1, hq, he⟩ := acts_noteResponse (P := P) (Q := Q) p s
  have hr : (noteResponse p s).engine.link.request? = some r := by rw [he, h]; rfl
  unfold validResponse
  dsimp only
  split
  · exact h1.trans (Acts.trans
      (acts_newLink _ (.holdoff { r with busyUsed := r.busyUsed + 1 } 0) _ { r with busyUsed := r.busyUsed + 1 } r hr rfl rfl)
      (acts_settle _))
  · exact h1.trans (acts_endRequest order r _ p.data _ (hc.step h1 hq))

theorem acts_checkResponse (order : PostOrder) (r : Request) (frame : List Byte) (s : State) (h : s.engine.link = .carrying r)
    (hc : CanEnd P Q r.source s) : Acts P Q s (checkResponse order r frame s) := by
  have hr : s.engine.link.request? = some r := by rw [h]; rfl
  unfold checkResponse
  split
  · exact acts_attemptFails order { r with garbled := true } r 0 s hr rfl hc
  · split
    · exact acts_validResponse order r _ s h hc
    · exact acts_attemptFails order r r 0 s hr rfl hc

section
variable {s : State} (hP : P → ModuleLaw s) (hQ : Q → MailboxLaw s)
include hP hQ

theorem acts_takeResponse (order : PostOrder) (frame : List Byte) : Acts P Q s (takeResponse order frame s) := by
  unfold takeResponse
  cases h : s.engine.link with
  | carrying r =>
    have hc : CanEnd P Q r.source s := .of_link hP hQ (by rw [h]; rfl)
    dsimp only
    cases r.attempt with
    | awaiting n => exact acts_checkResponse order r frame s h hc
    | receiving => exact acts_checkResponse order r frame s h hc
    | _ => exact .refl
  | _ => exact .refl

theorem acts_timeoutExpires (order : PostOrder) : Acts P Q s (timeoutExpires order s) := by
  unfold timeoutExpires
  cases h : s.engine.link with
  | carrying r =>
    have hc : CanEnd P Q r.source s := .of_link hP hQ (by rw [h]; rfl)
    dsimp only
    cases r.attempt with
    | awaiting n =>
      have h1 := acts_advance (P := P) (Q := Q) (r.params.respTimeout - n) s
      exact h1.trans (acts_attemptFails order r { r with attempt := r.attempt.later (r.params.respTimeout - n) } _ _
        (by simp [advance, h, Link.later, Link.request?]) rfl (hc.step h1 rfl))
    | _ => exact .refl
  | _ => exact .refl

end

theorem acts_frameSent (s : State) : Acts P Q s (frameSent s) := by
  unfold frameSent
  cases h : s.engine.link with
  | carrying r =>
    dsimp only
    split
    · exact acts_carry _ r s (by rw [h]; rfl) rfl
    · exact .refl
  | _ => exact .refl

theorem acts_leadIn (s : State) : Acts P Q s (leadIn s) := by
  unfold leadIn
  cases h : s.engine.link with
  | carrying r =>
    dsimp only
    cases r.attempt with
    | awaiting n => exact acts_carry _ r s (by rw [h]; rfl) rfl
    | _ => exact .refl
  | _ => exact .refl

/-- The link still carries its request when a while has passed. -/
theorem request?_advance {d : Nat} {s : State} {r : Request} (h : s.engine.link.request? = some r) :
    ∃ q, (advance d s).engine.link.request? = some q ∧ r.source = q.source := by
  show ∃ q, (s.engine.link.later d).request? = some q ∧ r.source = q.source
  cases hl : s.engine.link with
  | free => rw [hl] at h; simp [Link.request?] at h
  | settling => rw [hl] at h; simp [Link.request?] at h
  | carrying q =>
    rw [hl] at h
    obtain rfl : q = r := by simpa [Link.request?] using h
    exact ⟨_, rfl, rfl⟩
  | holdoff q n =>
    rw [hl] at h
    obtain rfl : q = r := by simpa [Link.request?] using h
    simp only [Link.later]
    split <;> exact ⟨_, rfl, rfl⟩

/-- The frame sent again after a while. -/
theorem acts_sendAgain_later (r : Request) (d : Nat) (s : State) (h : s.engine.link.request? = some r) :
    Acts P Q s (sendAgain r (advance d s)) := by
  obtain ⟨q, hq, hsrc⟩ := request?_advance (d := d) h
  exact (acts_advance d s).trans (acts_sendAgain r q _ hq hsrc)

theorem acts_retransmit (s : State) : Acts P Q s (retransmit s) := by
  unfold retransmit
  cases h : s.engine.link with
  | carrying r =>
    dsimp only
    cases r.attempt with
    | gap n => exact acts_sendAgain_later r _ s (by rw [h]; rfl)
    | _ => exact .refl
  | _ => exact .refl

theorem acts_holdoffEnds (s : State) : Acts P Q s (holdoffEnds s) := by
  unfold holdoffEnds
  cases h : s.engine.link with
  | holdoff r n => exact acts_sendAgain_later r _ s (by rw [h]; rfl)
  | carrying r =>
    dsimp only
    cases r.attempt with
    | resend => exact acts_sendAgain_later r _ s (by rw [h]; rfl)
    | _ => exact .refl
  | _ => exact .refl

/-! ### Grants -/

/-- The link may begin a request (R22, R192). -/
def State.linkAwake (s : State) : Prop := s.power.state ≠ .asleep ∧ s.power.state ≠ .waking

theorem acts_advanceSeq (d : BitVec 4) (s : State) : Acts P Q s (advanceSeq d s) := by
  unfold advanceSeq
  split
  · exact acts_setEntry s _ _ (tame_seq _ _)
  · split
    · exact acts_engine_same s _ rfl
    · exact .refl

theorem advanceSeq_with (d : BitVec 4) (s : State) (q : List HostEntry) :
    advanceSeq d { s with hostQueue := q } = { advanceSeq d s with hostQueue := q } ∧ (advanceSeq d s).hostQueue = s.hostQueue ∧
      (advanceSeq d s).power = s.power := by
  unfold advanceSeq
  cases modAddr? d with
  | some a => exact ⟨rfl, rfl, rfl⟩
  | none => dsimp only; split <;> exact ⟨rfl, rfl, rfl⟩

/-- A request that is not the host's begins. -/
theorem acts_beginRequest (src : Source) (p : Payload) (s : State) (hp : s.linkAwake) (hsrc : ∀ e, src ≠ .host e false) :
    Acts P Q s (beginRequest src p s) := by
  refine (acts_advanceSeq p.dest s).trans (.single (.engine _ (.inr (.inr ?_)) fun r e hr hs => ?_))
  · rw [(advanceSeq_with p.dest s []).2.2]; exact hp
  · have hr : newRequest src p s = r := by simpa [Link.request?] using hr
    rw [← hr] at hs
    exact absurd hs (hsrc e)

theorem acts_grantMgmt (m : MgmtEntry) (rest : List MgmtEntry) (s : State) (hp : s.linkAwake) (h : s.mgmtQueue = m :: rest) :
    Acts P Q s (grantMgmt m rest s) :=
  Acts.trans (acts_mgmt s rest (by simp [h])) <|
    Acts.trans (acts_engine_same _ { s.engine with lastTurn := .management } rfl) (acts_beginRequest _ _ _ hp (by simp))

theorem acts_grantHost (e : HostEntry) (rest : List HostEntry) (s : State) (hp : s.linkAwake) (h : s.hostQueue = e :: rest) :
    Acts P Q s (grantHost e rest s) := by
  have h1 := (acts_engine_same (P := P) (Q := Q) s { s.engine with lastTurn := .host } rfl).trans (acts_advanceSeq e.payload.dest _)
  obtain ⟨hw, hq, hpow⟩ := advanceSeq_with e.payload.dest { s with engine := { s.engine with lastTurn := .host } } rest
  have h2 := (Act.grant (P := P) (Q := Q) (s := advanceSeq e.payload.dest { s with engine := { s.engine with lastTurn := .host } })
    e rest { (advanceSeq e.payload.dest { s with engine := { s.engine with lastTurn := .host } }).engine with
      link := .carrying (newRequest (.host e false) e.payload s), line := requestFrame e.payload (nextSeq e.payload.dest s) false }
    (newRequest (.host e false) e.payload s) (hq.trans h) rfl rfl (by rw [hpow]; exact hp)).acts
  refine h1.trans ?_
  unfold grantHost beginRequest
  dsimp only
  rw [hw]
  by_cases ho : e.origin = .mailbox
  · rw [if_pos ho] at h2 ⊢
    exact h2
  · rw [if_neg ho] at h2 ⊢
    exact h2

theorem acts_sendBroadcast (s : State) (hp : s.linkAwake) : Acts P Q s (sendBroadcast s) :=
  Acts.trans (acts_engine_same s { s.engine with resetPending := false } rfl) (acts_beginRequest _ _ _ hp (by simp))

theorem mgmtHead_eq {s : State} {m : MgmtEntry} {rest : List MgmtEntry} (h : s.mgmtHead = some (m, rest)) :
    s.mgmtQueue = m :: rest := by
  unfold State.mgmtHead at h
  split at h
  · exact absurd h (by simp)
  · split at h
    · rename_i hq _
      simp only [Option.some.injEq, Prod.mk.injEq] at h
      rw [hq, h.1, h.2]
    · exact absurd h (by simp)

theorem hostHead_eq {s : State} {e : HostEntry} {rest : List HostEntry} (h : s.hostHead = some (e, rest)) :
    s.hostQueue = e :: rest := by
  unfold State.hostHead at h
  split at h
  · exact absurd h (by simp)
  · split at h
    · rename_i hq _
      simp only [Option.some.injEq, Prod.mk.injEq] at h
      rw [hq, h.1, h.2]
    · exact absurd h (by simp)

theorem acts_takeTurn (s : State) (hp : s.linkAwake) : Acts P Q s (takeTurn s) := by
  unfold takeTurn
  cases hm : s.mgmtHead with
  | none =>
    cases hh : s.hostHead with
    | none => exact .refl
    | some h => exact acts_grantHost h.1 h.2 s hp (hostHead_eq hh)
  | some m =>
    cases hh : s.hostHead with
    | none => exact acts_grantMgmt m.1 m.2 s hp (mgmtHead_eq hm)
    | some h =>
      dsimp only
      split
      · exact acts_grantMgmt m.1 m.2 s hp (mgmtHead_eq hm)
      · exact acts_grantHost h.1 h.2 s hp (hostHead_eq hh)

end Sys2Proof.Machine
end

section
/-! PROOFS. The configuration, the host's accesses and the timers as acts, and so every command. -/

namespace Sys2Proof.Machine

variable {P Q : Prop}

/-! ### The arbiter, the broadcast, timers and power -/

theorem arbiterActs_awake {s : State} (h : s.arbiterActs = true) : s.linkAwake := by
  simp only [State.arbiterActs, Bool.and_eq_true, Bool.or_eq_true, decide_eq_true_eq] at h
  unfold State.linkAwake
  obtain ⟨-, h | h⟩ := h <;> rw [h] <;> simp

theorem acts_arbiterAct (s : State) : Acts P Q s (arbiterAct s) := by
  unfold arbiterAct
  split
  · rename_i ha
    have hp := arbiterActs_awake ha
    split
    · split
      · exact .refl
      · exact (acts_sendBroadcast s hp).trans (acts_settle _)
    · have hp' : (headChecks s).linkAwake := by unfold State.linkAwake; rw [(headsKeep_headChecks s).power]; exact hp
      exact (acts_headChecks s).trans ((acts_takeTurn _ hp').trans (acts_settle _))
  · exact .refl

theorem acts_pacingEnds (a : ModAddr) (s : State) : Acts P Q s (pacingEnds a s) := by
  unfold pacingEnds
  split
  · exact .refl
  · exact (acts_advance _ s).trans (acts_arbiterAct _)

/-- The entries leave one after another (R46). -/
theorem acts_leaves (l : List ModAddr) (s : State) :
    Acts P Q s (l.foldl (fun t a => if (t.entry a).state = .empty then t else leave a .linkReset t) s) :=
  acts_foldl (fun _ => True) (fun _ _ _ => trivial) (fun a _ t _ => by split; exacts [.refl, acts_leave a _ t]) trivial

theorem acts_clearTable (s : State) : Acts P Q s (clearTable s) := by
  have h1 := acts_leaves (P := P) (Q := Q) allAddrs s
  unfold clearTable
  generalize allAddrs.foldl (fun t a => if (t.entry a).state = .empty then t else leave a .linkReset t) s = t at h1
  exact h1.trans <| Acts.trans (acts_mgmt t [] (Nat.zero_le _)) <|
    Acts.trans (acts_attn _ t.attn.level t.attn.armed t.attn.mode none) <| (acts_clearCache _).trans (acts_disableDiscovery _)

theorem acts_linkResetEnds (s : State) : Acts P Q s (linkResetEnds s) := by
  unfold linkResetEnds
  split
  · rename_i h; exact acts_endMailbox _ _ _ _ s fun _ hs => hs.free_of_runs h.1 (by decide)
  · exact .refl

theorem acts_broadcastSent (s : State) : Acts P Q s (broadcastSent s) := by
  unfold broadcastSent
  split
  · rename_i h
    have hl : s.engine.link ≠ .free := by
      intro hf
      simp [State.broadcasting, hf, Link.request?] at h
    refine Acts.trans (acts_engine s _ (.inl hl) fun r hr => ?_)
      ((acts_clearTable (beginSettle s)).trans ((acts_linkResetEnds _).trans (acts_settle _)))
    dsimp only at hr
    split at hr <;> simp [Link.request?] at hr
  · exact .refl

theorem acts_settledEnds (s : State) : Acts P Q s (settledEnds s) := by
  unfold settledEnds
  cases s.engine.link with
  | settling n w => exact (acts_advance _ s).trans ((acts_linkFree _).trans (acts_settle _))
  | _ => exact .refl

theorem acts_queryTimerExpires (s : State) : Acts P Q s (queryTimerExpires s) := by
  unfold queryTimerExpires
  split
  · split
    · exact (acts_advance _ s).trans ((acts_queryNow _).trans (acts_settle _))
    · exact .refl
  · exact .refl

theorem advance_state (d : Nat) (s : State) (a : ModAddr) : ((advance d s).entry a).state = (s.entry a).state := by
  show (vget (if s.pollsRun then _ else s.modules) a).state = _
  split
  · exact (congrArg Entry.state (vget_vmap (fun e => { e with pollTimer := e.pollTimer.map (· + d) }) s.modules a)).trans rfl
  · rfl

theorem acts_pollTimerExpires (a : ModAddr) (s : State) : Acts P Q s (pollTimerExpires a s) := by
  unfold pollTimerExpires
  split
  · split
    · rename_i l n hl hn hp
      have hlive : (s.entry a).state ≠ .empty := by
        intro h; simp [State.pollLimit, h] at hl
      refine (acts_advance (l - n) s).trans ((acts_stopPoll a none _ ?_).trans (acts_settle _))
      rw [advance_state]; exact hlive
    · exact .refl
  · exact .refl

theorem acts_discardTimerExpires (i : Fin 4) (s : State) : Acts P Q s (discardTimerExpires i s) := by
  unfold discardTimerExpires
  cases vget s.slots i with
  | complete => exact (acts_advance _ s).trans ((acts_discardSlot i _).trans (acts_settle _))
  | _ => exact .refl

theorem acts_writePwr (sleepReq retain : Bool) (s : State) : Acts P Q s (writePwr sleepReq retain s) := by
  have h1 := acts_power (P := P) (Q := Q) s { s.power with retain := retain } fun h => .inr h
  have h2 : ∀ t : State, Acts P Q t (setSleepReq t) := fun t => acts_power t _ fun h => by
    dsimp only at h
    split at h
    · simp at h
    · exact .inr h
  have h3 : ∀ t : State, Acts P Q t (clearSleepReq t) := fun t => by
    unfold clearSleepReq
    split
    · rename_i h; exact acts_wakeLink _ t h
    · refine acts_power t _ fun h => ?_
      dsimp only at h
      split at h
      · simp at h
      · exact .inr h
  unfold writePwr
  dsimp only
  refine Acts.trans (t := settle _) (Acts.trans ?_ (acts_settle _)) (acts_reply _ _)
  split
  · exact h1
  · split
    · exact h1.trans (h2 _)
    · exact h1.trans (h3 _)

theorem acts_attnRises (s : State) : Acts P Q s (attnRises s) := by
  unfold attnRises
  split
  · exact .refl
  · exact Acts.trans (acts_attn s true s.attn.armed s.attn.mode s.attn.sweep) ((acts_armSweep _).trans (acts_settle _))

theorem acts_attnFalls (s : State) : Acts P Q s (attnFalls s) := acts_attn s false s.attn.armed s.attn.mode s.attn.sweep

theorem acts_drainEnds (s : State) : Acts P Q s (drainEnds s) := by
  unfold drainEnds
  split
  · exact (acts_drainIfDone s).trans (acts_settle _)
  · exact .refl

theorem acts_wakeSettles (s : State) : Acts P Q s (wakeSettles s) := by
  unfold wakeSettles
  split
  · split
    · exact (acts_advance _ s).trans ((acts_leaveWaking _).trans (acts_settle _))
    · exact .refl
  · exact .refl

/-! ### The configuration (R49, R63, R165, R203) -/

/-- What the law of the window table asks of an enabled window (R63). -/
def Window.Legal (w : Window) : Prop :=
  w.base ≤ w.limit ∧ 1 ≤ w.target.toNat ∧ w.target.toNat ≤ 14 ∧ w.remoteBase.toNat + (w.limit - w.base) ≤ 0xFFFF ∧
    w.width.bytes ∣ w.remoteBase.toNat

theorem Window.legal_of_tests {w : Window} (h : w.enableTests = true) : w.Legal := by
  simp only [Window.enableTests, Bool.and_eq_true, decide_eq_true_eq, modAddr?_isSome] at h
  obtain ⟨⟨⟨h1, h2⟩, h3⟩, h4⟩ := h
  refine ⟨?_, h2.1, h2.2, h3, Nat.dvd_of_mod_eq_zero h4⟩
  unfold Window.base Window.limit
  omega

/-- A window replaced by one that is disabled or legal. -/
theorem acts_setWindow (s : State) (n : Fin 8) (w : Window) (h : w.enabled = true → w.Legal) :
    Acts P Q s (s.setWindow n w) :=
  .single (.windows _ fun hs m hm => by
    dsimp only at hm ⊢
    rw [vget_vset] at hm ⊢
    split at hm
    · rename_i hnm; rw [if_pos hnm]; exact h hm
    · rename_i hnm; rw [if_neg hnm]; exact hs m hm)

/-- Enabling a window that passes the tests leaves what they read (R63). -/
theorem Window.Legal.enable {w : Window} (h : w.Legal) (b : Bool) : Window.Legal { w with enabled := b } := h

theorem timing_set_value (t : Timing) (p q : Param) (v : Nat) : (t.set p v).value q = if p = q then v else t.value q := by
  cases p <;> cases q <;> rfl

theorem acts_setTiming (s : State) (p : Param) (v : Nat) (h : paramAccepts p v = true) :
    Acts P Q s { s with timing := s.timing.set p v } :=
  .single (.timing _ fun hs q => by
    show InTimingTable q ((s.timing.set p v).value q)
    rw [timing_set_value]
    split
    · rename_i hpq; subst hpq; exact (paramAccepts_iff p v).mp h
    · exact hs q)

theorem kindIndex_inj {j k : Kind} : kindIndex j = kindIndex k → j = k := by cases j <;> cases k <;> decide

theorem acts_setRoute (s : State) (k : Kind) (r : Route) (h : routeAllowed k r = true) :
    Acts P Q s { s with events := s.events.setRoute k r } :=
  .single (.events _ (.routes _ fun j hj hno => by
    rw [vget_vset]
    split
    · rename_i hkj
      have hkj := kindIndex_inj hkj
      subst hkj
      rintro rfl
      obtain rfl | rfl := hj <;> simp [routeAllowed] at h
    · exact hno))

theorem acts_compareAfter (p : Param) (s : State) : Acts P Q s (compareAfter p s) := by
  cases p with
  | pollInterval => exact acts_comparePolls _ _ s (by simp)
  | quarPollInterval => exact acts_comparePolls _ _ s (by simp)
  | discardTime => exact acts_compareDiscards s
  | _ => exact .refl

/-! ### The application of an image (R181) -/

theorem acts_compareRecord (s : State) (r : ImageRec) : Acts P Q s (compareRecord s r) := by
  unfold compareRecord
  split
  · split
    · exact acts_compareAfter _ s
    · exact .refl
  · exact .refl

/-- A BINDING record takes effect where no binding in the table has its ID. -/
theorem acts_applyBinding (s : State) (a : ModAddr) (b : Binding) (h : ∀ c x, vget s.bindings c = some x → x.id ≠ b.id) :
    Acts P Q s { s with bindings := vset s.bindings a (some b) } :=
  .single (.bindings _ fun hs c d x y hx hy hxy => by
    dsimp only at hx hy
    rw [vget_vset] at hx hy
    split at hx <;> split at hy
    · rename_i h1 h2; exact h1.symm.trans h2
    · rw [Option.some.injEq] at hx; subst hx; exact absurd hxy.symm (h d y hy)
    · rw [Option.some.injEq] at hy; subst hy; exact absurd hxy (h c x hx)
    · exact hs c d x y hx hy hxy)

/-- One record takes effect: it passes its content tests, and a BINDING record finds no binding with its ID (R179, R180). -/
theorem acts_applyRecord (s : State) (r : ImageRec) (hr : contentPasses r = true)
    (hb : r.type = .binding → ∀ c x, vget s.bindings c = some x → x.id ≠ r.id) : Acts P Q s (applyRecord s r) := by
  unfold applyRecord
  unfold contentPasses at hr
  cases hty : r.type with
  | window =>
    rw [hty] at hr
    refine acts_setWindow s _ r.window fun hen => Window.legal_of_tests ?_
    simp only [Bool.and_eq_true, Bool.or_eq_true, decide_eq_true_eq] at hr
    obtain ⟨-, h0 | h⟩ := hr
    · simp [ImageRec.window, h0] at hen
    · exact h
  | binding =>
    dsimp only
    split
    · exact acts_applyBinding s _ _ (hb hty)
    · exact .refl
  | timing =>
    rw [hty] at hr
    dsimp only at hr ⊢
    split
    · rename_i p hp
      rw [hp] at hr
      exact acts_setTiming s p _ hr
    · exact .refl
  | route =>
    rw [hty] at hr
    dsimp only at hr ⊢
    split
    · rename_i k rt hk hrt
      rw [hk, hrt] at hr
      exact acts_setRoute s k rt hr
    · exact .refl
  | end_ => exact .refl

/-- The bindings after one record (R181). -/
theorem applyRecord_binding {s : State} {r : ImageRec} {c : ModAddr} {x : Binding} (h : vget (applyRecord s r).bindings c = some x) :
    vget s.bindings c = some x ∨ r.type = .binding ∧ x.id = r.id := by
  unfold applyRecord at h
  split at h
  · exact .inl h
  · rename_i hty
    split at h
    · dsimp only at h
      rw [vget_vset] at h
      split at h
      · rw [Option.some.injEq] at h; exact .inr ⟨hty, h ▸ rfl⟩
      · exact .inl h
    · exact .inl h
  · split at h <;> exact .inl h
  · split at h <;> exact .inl h
  · exact .inl h

/-- The records take effect one after another; every binding in the table has the ID of an earlier record, where the image names
bindings at all. -/
theorem acts_applyRecords (l earlier : List ImageRec) (n : Nat) (s : State) (hl : contentFault earlier n l = none)
    (hb : (∃ r ∈ l, r.type = .binding) → ∀ c x, vget s.bindings c = some x → ∃ q ∈ earlier, q.type = .binding ∧ x.id = q.id) :
    Acts P Q s (l.foldl applyRecord s) := by
  induction l generalizing earlier n s with
  | nil => exact .refl
  | cons r l ih =>
    rw [contentFault] at hl
    split at hl
    · exact absurd hl (by simp)
    · rename_i hr
      split at hl
      · exact absurd hl (by simp)
      · rename_i hdup
        refine (acts_applyRecord s r (by simpa using hr) fun hty c x hx hid => ?_).trans (ih (earlier ++ [r]) (n + 1) _ hl ?_)
        · obtain ⟨q, hq, hqty, hqid⟩ := hb ⟨r, List.mem_cons_self, hty⟩ c x hx
          refine hdup (List.any_eq_true.mpr ⟨q, hq, ?_⟩)
          unfold duplicates
          rw [hty]
          simp [hqty, ← hqid, hid]
        · intro ⟨q, hq, hqty⟩ c x hx
          obtain hx | ⟨hty, hid⟩ := applyRecord_binding hx
          · obtain ⟨q', hq', h'⟩ := hb ⟨q, List.mem_cons_of_mem r hq, hqty⟩ c x hx
            exact ⟨q', List.mem_append_left _ hq', h'⟩
          · exact ⟨r, List.mem_append_right _ (List.mem_singleton.mpr rfl), hty, hid⟩

/-- A verified image's records pass the content and duplicate tests (R179, R180). -/
theorem verify_records {staging : List Byte} {l : List ImageRec} (h : verify staging = .records l) : contentFault [] 1 l = none := by
  unfold verify at h
  split at h
  · exact absurd h (by simp)
  · split at h
    · split at h
      · exact absurd h (by simp)
      · rename_i hc
        injection h with h; exact h ▸ hc
    · exact absurd h (by simp)

theorem acts_applyImage (l : List ImageRec) (s : State) (hl : contentFault [] 1 l = none) : Acts P Q s (applyImage l s) := by
  have hcmp : ∀ t : State, Acts P Q t (l.foldl compareRecord t) := fun t =>
    acts_foldl (fun _ => True) (fun _ _ _ => trivial) (fun r _ u _ => acts_compareRecord u r) trivial
  unfold applyImage
  dsimp only
  cases hany : l.any fun r => r.type = .binding with
  | true =>
    have h1 : Acts P Q s { s with bindings := Vector.replicate 14 none } :=
      .single (.bindings _ fun _ a b x y hx => by simp [vget_replicate] at hx)
    rw [if_pos rfl]
    refine h1.trans ((acts_applyRecords l [] 1 _ hl fun _ c x hx => ?_).trans ((hcmp _).trans (acts_unpark _)))
    simp [vget_replicate] at hx
  | false =>
    refine Acts.trans (acts_applyRecords l [] 1 s hl fun ⟨r, hr, hty⟩ => ?_) (hcmp _)
    have := List.any_eq_false.mp hany r hr
    simp [hty] at this

theorem acts_reloadEnds (o : LoadOutcome) (s : State) : Acts P Q s (reloadEnds o s) := by
  unfold reloadEnds
  split
  · rename_i hr
    have hfree : Q → MailboxLaw s → MailboxFree s := fun _ hs => hs.free_of_runs hr (by decide)
    split
    · exact acts_endMailbox _ _ _ _ s hfree
    · exact acts_ended s _ _ hfree
  · exact .refl

theorem acts_endRun (e : RunEnd) (s : State) : Acts P Q s (endRun e s) := by
  have h1 := Acts.trans (acts_autoload (P := P) (Q := Q) s ⟨.idle, e.outcome, e.count, e.reason, e.record, s.autoload.startedBy, []⟩)
    (acts_post ⟨.autoloadDone, none, loadCode e.outcome, BitVec.ofNat 32 e.detail, 0, 0⟩ _)
  unfold endRun
  dsimp only
  split
  · exact h1.trans ((acts_reloadEnds _ _).trans (acts_settle _))
  · exact h1.trans (acts_settle _)

theorem acts_stage (bs : List Byte) (s : State) : Acts P Q s (stage bs s) := acts_autoload s _

theorem acts_markerRead (b1 b2 : Byte) (s : State) : Acts P Q s (markerRead b1 b2 s) := by
  unfold markerRead
  split
  · split
    · exact acts_stage _ s
    · exact acts_endRun _ s
  · exact .refl

theorem acts_headerRead (v c l h : Byte) (s : State) : Acts P Q s (headerRead v c l h s) := by
  unfold headerRead
  split
  · split
    · exact acts_endRun _ s
    · exact acts_stage _ s
  · exact .refl

theorem acts_imageRead (bs : List Byte) (s : State) : Acts P Q s (imageRead bs s) := by
  unfold imageRead
  dsimp only
  split
  · exact acts_autoload s _
  · exact .refl

theorem acts_verifyEnds (s : State) : Acts P Q s (verifyEnds s) := by
  unfold verifyEnds
  split
  · dsimp only
    split
    · exact acts_endRun _ s
    · rename_i l hl
      exact (acts_applyImage l s (verify_records hl)).trans (acts_endRun _ _)
  · exact .refl

end Sys2Proof.Machine
end

section
/-! PROOFS. The host's accesses as acts, and so every command; the laws of the blocks (O4, O7 to O13, O16, O18). -/

namespace Sys2Proof.Machine

variable {P Q : Prop}

/-! ### Window accesses -/

theorem acts_captureFault (r : WinFaultReason) (d : Dir) (x : BitVec 17) (n : BitVec 4) (s : State) :
    Acts P Q s (captureFault r d x n s) := acts_port s _ rfl rfl fun h hh => ⟨h, hh, rfl⟩

/-- An access held for anything but a write's place. -/
theorem acts_hold (s : State) (h : Held) (ans : Option Answer) (hw : ∀ e, h.what = .writePlace e → e.origin = .windowWrite) :
    Acts P Q s { s with port := { s.port with held := some h, answer := ans } } :=
  .single (.port _ (.inl rfl) (.inl rfl) fun g e hg he => .inl (by
    rw [← Option.some.inj hg] at he; exact hw e he))

theorem acts_holdAccess (what : HeldFor) (s : State) (hw : ∀ e, what = .writePlace e → e.origin = .windowWrite) :
    Acts P Q s (holdAccess what s) := acts_hold s ⟨what, s.timing.hostHold, 0⟩ none hw

theorem hostRoom_wake {s : State} (h : s.hostRoom = true) : (hostWake s).hostQueue.length < Config.hostQueueCapacity := by
  rw [(wakeKeeps_hostWake s).fields.2.2.2.2.2.2.1]
  simpa [State.hostRoom] using h

theorem acts_postWrite (e : HostEntry) (s : State) (hroom : s.hostRoom = true) (he : Q → e.origin ≠ .mailbox) :
    Acts P Q s (postWrite e s) :=
  (acts_hostWake s).trans <| Acts.trans (.single (.push e (hostRoom_wake hroom) he)) <|
    (acts_writeEffects _ _ _ _).trans <| (acts_reply _ okWrite).trans (acts_settle _)

theorem acts_takeWrite (e : HostEntry) (s : State) (he : e.origin = .windowWrite) : Acts P Q s (takeWrite e s) := by
  unfold takeWrite
  split
  · exact acts_postWrite e s ‹_› fun _ => by rw [he]; simp
  · split
    · exact acts_reply s _
    · exact acts_holdAccess _ s fun e' h => by injection h with h; exact h ▸ he

theorem acts_allocate (acc : ReadAccess) (i : Fin 4) (s : State) (hroom : s.hostRoom = true) :
    Acts P Q s (allocate acc i (hostWake s)) :=
  (acts_hostWake s).trans <| (acts_setSlot _ i (pendingSlot acc)).trans
    (.single (.push (readEntry acc i) (hostRoom_wake hroom) fun _ => by simp [readEntry]))

theorem acts_takeSlot (acc : ReadAccess) (i : Fin 4) (s : State) (hroom : s.hostRoom = true) :
    Acts P Q s (takeSlot acc i s) := by
  unfold takeSlot
  dsimp only
  refine (acts_allocate acc i s hroom).trans (Acts.trans ?_ (acts_settle _))
  split
  · exact acts_reply _ _
  · exact acts_holdAccess _ _ (by simp)

theorem acts_readFresh (acc : ReadAccess) (s : State) : Acts P Q s (readFresh acc s) := by
  unfold readFresh
  split
  · exact acts_reply s _
  · split
    · exact acts_takeSlot acc _ s ‹_›
    · split
      · exact acts_reply s _
      · exact acts_holdAccess _ s (by simp)

theorem acts_hitCollects (acc : ReadAccess) (s : State) : Acts P Q s (hitCollects acc s) := by
  unfold hitCollects
  split
  · exact .refl
  · split
    · exact acts_setSlot s _ _
    · exact .refl
    · exact .refl

theorem acts_readPath (acc : ReadAccess) (s : State) : Acts P Q s (readPath acc s) := by
  unfold readPath
  split
  · exact (acts_touch s _).trans ((acts_hitCollects acc _).trans (acts_reply _ _))
  · split
    · split
      · exact acts_collect _ _ _ _ s
      · exact acts_reply s _
      · exact acts_readFresh acc s
    · exact acts_readFresh acc s

theorem acts_refuseLanes (d : Dir) (x : BitVec 17) (s : State) : Acts P Q s (refuseLanes d x s) :=
  (acts_captureFault _ _ _ _ s).trans (acts_reply _ _)

theorem acts_refuseUnmapped (d : Dir) (x : BitVec 17) (s : State) : Acts P Q s (refuseUnmapped d x s) :=
  (acts_captureFault _ _ _ _ s).trans ((acts_reply _ _).trans (acts_post _ _))

theorem acts_refuseTested (d : Dir) (n : Fin 8) (x : BitVec 17) (r : WinFaultReason) (s : State) :
    Acts P Q s (refuseTested d n x r s) := (acts_captureFault _ _ _ _ s).trans (acts_reply _ _)

theorem acts_windowReadAccess (addr : BitVec 17) (lanes : BitVec 4) (s : State) : Acts P Q s (windowReadAccess addr lanes s) := by
  unfold windowReadAccess
  split
  · exact acts_refuseLanes _ _ s
  · exact acts_refuseUnmapped _ _ s
  · exact acts_refuseTested _ _ _ _ s
  · exact acts_readPath _ s

theorem acts_windowWriteAccess (addr : BitVec 17) (lanes : BitVec 4) (data : Word) (s : State) :
    Acts P Q s (windowWriteAccess addr lanes data s) := by
  unfold windowWriteAccess
  split
  · exact acts_refuseLanes _ _ s
  · exact acts_refuseUnmapped _ _ s
  · exact acts_refuseTested _ _ _ _ s
  · exact acts_takeWrite _ s rfl

theorem acts_heldEnqueue (s : State) (hs : Q → HeldWriteLaw s) : Acts P Q s (heldEnqueue s) := by
  unfold heldEnqueue
  split
  · rename_i hroom
    split
    · exact .refl
    · rename_i h hh
      split
      · rename_i e he
        exact (acts_endHold s).trans (acts_postWrite e _ hroom fun q => by rw [hs q h e hh he]; simp)
      · split
        · exact (acts_endHold s).trans (acts_reply _ _)
        · exact (acts_allocate _ _ s hroom).trans (Acts.trans (acts_hold _ _ _ (by simp)) (acts_settle _))
      · exact .refl
  · exact .refl

theorem acts_holdExpires (s : State) : Acts P Q s (holdExpires s) := by
  unfold holdExpires
  split
  · exact .refl
  · dsimp only
    split
    · exact (acts_advance _ s).trans ((acts_endHold _).trans (acts_reply _ _))
    · exact (acts_advance _ s).trans ((acts_endHold _).trans (acts_reply _ _))
    · exact (acts_advance _ s).trans ((acts_endHold _).trans (acts_reply _ _))

/-! ### The mailbox's commands -/

/-- A mailbox with no command in progress has nothing under way. -/
theorem MailboxLaw.free_of_idle {s : State} (h : MailboxLaw s) (hb : s.mbx.busy = false) : MailboxFree s := by
  simp only [Mailbox.busy, Bool.or_eq_false_iff, decide_eq_false_iff_not] at hb
  exact h.free_of_state hb.1.2 hb.2

theorem acts_mbx (s : State) (m : Mailbox) (hb : s.mbx.busy = false) : Acts P Q s { s with mbx := m } :=
  .single (.mailbox m fun _ hs => .inr (hs.free_of_idle hb))

theorem acts_failCommand (r : Result) (s : State) (hb : s.mbx.busy = false) : Acts P Q s (failCommand r s) :=
  acts_endMailbox _ _ _ _ s fun _ hs => hs.free_of_idle hb

theorem acts_completeCommand (s : State) (hb : s.mbx.busy = false) : Acts P Q s (completeCommand s) :=
  acts_endMailbox _ _ _ _ s fun _ hs => hs.free_of_idle hb

theorem acts_enqueueMailbox (op : HostOp) (a : ModAddr) (w : Width) (s : State) (hroom : s.hostRoom = true)
    (hop : s.mbx.op.toNat ≤ 2) (hfree : MailboxLaw s → MailboxFree s) : Acts P Q s (enqueueMailbox op a w s) := by
  have h1 : Acts P Q s (setMbxState .queued (pushHost (mailboxEntry op a w s) s)) :=
    .single (.command _ (by simpa [State.hostRoom] using hroom) hop hfree)
  unfold enqueueMailbox
  dsimp only
  split
  · exact h1.trans (acts_writeEffects _ _ _ _)
  · exact h1

theorem acts_linkCommand (op : HostOp) (s : State) (hop : s.mbx.op.toNat ≤ 2) (hb : s.mbx.busy = false) :
    Acts P Q s (linkCommand op s) := by
  unfold linkCommand
  split
  · exact acts_failCommand _ s hb
  · split
    · exact acts_failCommand _ s hb
    · split
      · split
        · exact acts_enqueueMailbox op _ _ s ‹_› hop fun hs => hs.free_of_idle hb
        · exact acts_mbx s _ hb
      · exact acts_failCommand _ s hb

/-- A binding change that keeps the law of the table, and its command's end (R53, R128). -/
theorem acts_bindingChange (s : State) (B : Vector (Option Binding) 14) (hb : s.mbx.busy = false)
    (hB : BindingLaw s → BindingLaw { s with bindings := B }) : Acts P Q s (completeCommand (unpark { s with bindings := B })) :=
  Acts.trans (.single (.bindings B hB)) ((acts_unpark _).trans (acts_completeCommand _ (by rw [unpark_ended]; exact hb)))

theorem acts_bindCommand (s : State) (hb : s.mbx.busy = false) : Acts P Q s (bindCommand s) := by
  unfold bindCommand
  split
  · exact acts_failCommand _ s hb
  · rename_i a b _
    refine acts_bindingChange s _ hb fun hs c d x y hx hy hxy => ?_
    have key : ∀ c x, vget (rebind a b s.bindings) c = some x →
        a = c ∧ x = b ∨ a ≠ c ∧ vget s.bindings c = some x ∧ x.id ≠ b.id := fun c x hx => by
      unfold rebind at hx
      rw [vget_vset] at hx
      split at hx
      · rename_i h; exact .inl ⟨h, (Option.some.inj hx).symm⟩
      · rename_i h
        rw [vget_vmap, Option.filter_eq_some_iff] at hx
        exact .inr ⟨h, hx.1, by simpa using hx.2⟩
    obtain ⟨rfl, rfl⟩ | ⟨-, hx, hxb⟩ := key c x hx <;> obtain ⟨rfl, rfl⟩ | ⟨-, hy, hyb⟩ := key d y hy
    · rfl
    · exact absurd hxy.symm hyb
    · exact absurd hxy hxb
    · exact hs c d x y hx hy hxy

theorem acts_unbindCommand (s : State) (hb : s.mbx.busy = false) : Acts P Q s (unbindCommand s) := by
  unfold unbindCommand
  by_cases h : (allAddrs.any fun x => (vget s.bindings x).any fun b => b.id = s.mbx.id) = true
  · rw [if_pos h]
    refine acts_bindingChange s _ hb fun hs c d x y hx hy hxy => ?_
    have key : ∀ (p : Binding → Bool) c x, vget (vmap (fun o => o.filter p) s.bindings) c = some x →
        vget s.bindings c = some x := fun p c x hx => by
      rw [vget_vmap, Option.filter_eq_some_iff] at hx; exact hx.1
    exact hs c d x y (key _ c x hx) (key _ d y hy) hxy
  · rw [if_neg h]
    exact acts_failCommand _ s hb

theorem acts_readmitCommand (s : State) (hb : s.mbx.busy = false) : Acts P Q s (readmitCommand s) := by
  unfold readmitCommand
  split
  · exact acts_failCommand _ s hb
  · dsimp only
    split
    · rename_i a _ hq
      refine Acts.trans (acts_setEntry s a { s.entry a with
        state := .online, failureRun := 0, departCount := 0, responding := false, pollTimer := some 0 }
        ⟨rfl, rfl, .inr ?_, .rfl, by rw [hq]; simp⟩) ((acts_armSweep _).trans (acts_completeCommand _ hb))
      rw [hq]; simp
    · exact acts_failCommand _ s hb

theorem acts_forgetCommand (s : State) (hb : s.mbx.busy = false) : Acts P Q s (forgetCommand s) := by
  unfold forgetCommand
  split
  · exact acts_failCommand _ s hb
  · dsimp only
    split
    · rename_i a _ hq
      exact Acts.trans (acts_setLive s a { s.entry a with
          releaseDue := !s.mgmtHas (MgmtEntry.isReleaseFor a (s.entry a).generation), releaseFor := some .forget }
        (by rintro h; rw [h] at hq; simp at hq) ⟨rfl, rfl, rfl, .rfl⟩) (acts_mbx _ _ hb)
    · exact acts_failCommand _ s hb

theorem acts_discoverNowCommand (s : State) (hb : s.mbx.busy = false) : Acts P Q s (discoverNowCommand s) := by
  unfold discoverNowCommand
  dsimp only
  split
  · exact (acts_mbx s _ hb).trans (acts_queryNow _)
  · exact acts_mbx s _ hb

theorem acts_linkResetCommand (s : State) (hb : s.mbx.busy = false) : Acts P Q s (linkResetCommand s) :=
  (acts_mbx s _ hb).trans (acts_engine_same _ _ rfl)

theorem acts_reloadCommand (s : State) (hb : s.mbx.busy = false) : Acts P Q s (reloadCommand s) :=
  (acts_autoload s _).trans (acts_mbx _ _ hb)

/-- The three link commands have the lowest codes (R202). -/
theorem op_le_of_link {op : Byte} {c : MbxCmd} (h : cmdOf? op = some c) (hc : c = .read ∨ c = .write ∨ c = .descRead) :
    op.toNat ≤ 2 := by
  revert op c
  decide

theorem acts_startCommand (c : MbxCmd) (s : State) (hb : s.mbx.busy = false) (hc : cmdOf? s.mbx.op = some c) :
    Acts P Q s (startCommand c s) := by
  cases c with
  | read => exact acts_linkCommand _ s (op_le_of_link hc (by simp)) hb
  | write => exact acts_linkCommand _ s (op_le_of_link hc (by simp)) hb
  | descRead => exact acts_linkCommand _ s (op_le_of_link hc (by simp)) hb
  | bind => exact acts_bindCommand s hb
  | unbind => exact acts_unbindCommand s hb
  | readmit => exact acts_readmitCommand s hb
  | forget => exact acts_forgetCommand s hb
  | discoverNow => exact acts_discoverNowCommand s hb
  | linkReset => exact acts_linkResetCommand s hb
  | flushCache => exact (acts_clearCache s).trans (acts_completeCommand _ hb)
  | reload => exact acts_reloadCommand s hb

theorem acts_acceptGo (s : State) (hb : s.mbx.busy = false) : Acts P Q s (acceptGo s) := by
  have h1 := acts_mbx (P := P) (Q := Q) s { s.mbx with result := .none } hb
  unfold acceptGo
  dsimp only
  split
  · exact h1.trans (acts_failCommand _ _ hb)
  · rename_i c hc
    split
    · have hm := (wakeKeeps_hostWake { s with mbx := { s.mbx with result := .none } }).fields.2.2.2.2.2.2.2.2.2.1
      exact h1.trans ((acts_hostWake _).trans (acts_startCommand c _ (by rw [hm]; exact hb) (by rw [hm]; exact hc)))
    · exact h1.trans (acts_startCommand c _ hb hc)

theorem acts_takeGo (s : State) : Acts P Q s (takeGo s) := by
  unfold takeGo
  split
  · exact .single (.mailbox _ fun _ _ => .inl ⟨rfl, rfl⟩)
  · rename_i hb
    have hb : s.mbx.busy = false := by simpa using hb
    split
    · exact acts_failCommand _ s hb
    · exact acts_acceptGo s hb

theorem acts_writeGo (s : State) : Acts P Q s (writeGo s) := (acts_takeGo s).trans ((acts_settle _).trans (acts_reply _ _))

theorem linkOp_le {m : Mailbox} {op : HostOp} (h : linkOp? m = some op) : m.op.toNat ≤ 2 := by
  unfold linkOp? at h
  split at h
  · exact op_le_of_link ‹_› (by simp)
  · exact op_le_of_link ‹_› (by simp)
  · exact op_le_of_link ‹_› (by simp)
  · exact absurd h (by simp)

theorem acts_addWaitingCommand (s : State) : Acts P Q s (addWaitingCommand s) := by
  unfold addWaitingCommand
  split
  · rename_i h
    split
    · rename_i hop _
      split
      · exact (acts_enqueueMailbox _ _ _ s h.2 (linkOp_le hop) fun hs =>
          hs.free_of_state (by rw [h.1]; simp) (by rw [h.1]; simp)).trans (acts_settle _)
      · exact .refl
    · exact .refl
  · exact .refl

theorem acts_takeAbort (s : State) : Acts P Q s (takeAbort s) := by
  unfold takeAbort
  cases h : s.mbx.state with
  | waiting =>
    exact acts_endMailbox _ _ _ _ s fun _ hs => hs.free_of_state (by rw [h]; simp) (by rw [h]; simp)
  | queued => exact .single .cancel
  | active => exact .single (.mailbox _ fun _ _ => .inl ⟨h ▸ rfl, rfl⟩)
  | _ => exact .refl

theorem acts_writeAbort (s : State) : Acts P Q s (writeAbort s) :=
  (acts_takeAbort s).trans ((acts_settle _).trans (acts_reply _ _))

end Sys2Proof.Machine
end

section
/-! PROOFS. The control registers' writes as acts, and so every command; the laws of the blocks (O4, O7 to O13, O16 to O18). -/

namespace Sys2Proof.Machine

variable {P Q : Prop}

/-! ### Register writes -/

theorem acts_refuseWrite (s : State) : Acts P Q s (refuseWrite s) := acts_reply s _

theorem acts_acceptWrite (s : State) : Acts P Q s (acceptWrite s) := acts_reply s _

theorem setWinField_enabled {f : WinField} {data : Word} {w v : Window} (h : setWinField f data w = some v) :
    v.enabled = w.enabled := by
  cases f with
  | attr =>
    simp only [setWinField] at h
    split at h
    · rw [← Option.some.inj h]
    · exact absurd h (by simp)
  | _ => rw [← Option.some.inj h]

theorem acts_writeWinField (n : Fin 8) (f : WinField) (data : Word) (s : State) : Acts P Q s (writeWinField n f data s) := by
  unfold writeWinField
  split
  · exact acts_refuseWrite s
  · rename_i h
    split
    · rename_i w hw
      refine (acts_setWindow s n w fun hen => ?_).trans (acts_acceptWrite _)
      rw [setWinField_enabled hw] at hen
      exact absurd (.inr hen) h
    · exact acts_refuseWrite s

theorem acts_enableWindow (n : Fin 8) (s : State) : Acts P Q s (enableWindow n s) := by
  unfold enableWindow
  dsimp only
  split
  · exact acts_refuseWrite s
  · split
    · exact acts_acceptWrite s
    · split
      · rename_i h
        exact (acts_setWindow s n _ fun _ => (Window.legal_of_tests h).enable true).trans (acts_acceptWrite _)
      · exact acts_refuseWrite s

theorem acts_disableWindow (n : Fin 8) (s : State) : Acts P Q s (disableWindow n s) := by
  unfold disableWindow
  split
  · exact acts_refuseWrite s
  · exact (acts_setWindow s n _ (by simp)).trans (acts_acceptWrite _)

theorem acts_resetWinFault (s : State) : Acts P Q s (resetWinFault s) :=
  Acts.trans (acts_port s { s.port with winFault := {} } rfl rfl fun h hh => ⟨h, hh, rfl⟩) (acts_acceptWrite _)

theorem acts_resetReadFault (s : State) : Acts P Q s (resetReadFault s) :=
  Acts.trans (acts_port s { s.port with readFault := {} } rfl rfl fun h hh => ⟨h, hh, rfl⟩) (acts_acceptWrite _)

theorem acts_writeBindSel (data : Word) (s : State) : Acts P Q s (writeBindSel data s) := by
  unfold writeBindSel
  split
  · rename_i h
    exact Acts.trans (.single (.port { s.port with bindSel := data.extractLsb' 0 4 } (.inr h) (.inl rfl) fun g e hg he =>
      .inr ⟨g, hg, he⟩)) (acts_acceptWrite _)
  · exact acts_refuseWrite s

theorem acts_writeModSel (data : Word) (s : State) : Acts P Q s (writeModSel data s) := by
  unfold writeModSel
  split
  · rename_i h
    exact Acts.trans (.single (.port { s.port with modSel := data.extractLsb' 0 4 } (.inl rfl) (.inr h) fun g e hg he =>
      .inr ⟨g, hg, he⟩)) (acts_acceptWrite _)
  · exact acts_refuseWrite s

theorem acts_writeTiming (p : Param) (data : Word) (s : State) : Acts P Q s (writeTiming p data s) := by
  unfold writeTiming
  split
  · exact acts_refuseWrite s
  · rename_i h
    rw [not_or, Bool.not_eq_false] at h
    exact (acts_setTiming s p _ h.2).trans ((acts_compareAfter p _).trans ((acts_settle _).trans (acts_acceptWrite _)))

theorem acts_writeRoute (k : Kind) (data : Word) (s : State) : Acts P Q s (writeRoute k data s) := by
  unfold writeRoute
  split
  · exact acts_refuseWrite s
  · split
    · exact acts_refuseWrite s
    · rename_i h
      rw [not_or, Bool.not_eq_false] at h
      exact (acts_setRoute s k _ h.2).trans (acts_acceptWrite _)

/-- The event unit's registers change. -/
theorem acts_flags (s : State) (m : EvtMode) (l0 l1 st : Bool) :
    Acts P Q s { s with events := { s.events with mode := m, line0En := l0, line1En := l1, staleRelease := st } } :=
  .single (.events _ (.flags m l0 l1 st))

theorem acts_writeEvtMode (data : Word) (s : State) : Acts P Q s (writeEvtMode data s) := by
  unfold writeEvtMode
  split
  · exact Acts.trans (acts_flags s .pop s.events.line0En s.events.line1En s.events.staleRelease) (acts_acceptWrite _)
  · split
    · exact Acts.trans (acts_flags s .release s.events.line0En s.events.line1En s.events.staleRelease) (acts_acceptWrite _)
    · exact acts_refuseWrite s

theorem acts_writeLineEn (data : Word) (s : State) : Acts P Q s (writeLineEn data s) :=
  Acts.trans (acts_flags s s.events.mode (data.getLsbD 0) (data.getLsbD 1) s.events.staleRelease) (acts_acceptWrite _)

theorem acts_writeEvtStatus (data : Word) (s : State) : Acts P Q s (writeEvtStatus data s) :=
  Acts.trans (acts_flags s s.events.mode s.events.line0En s.events.line1En (s.events.staleRelease && !data.getLsbD 0))
    (acts_acceptWrite _)

/-- An entry in HELD goes to CLEAR_DUE (R147, R149). -/
theorem acts_clearFallsDue (s : State) (a : ModAddr) (h : (s.entry a).attention = .held) :
    Acts P Q s (s.setEntry a { s.entry a with attention := .clearDue }) :=
  acts_setEntry s a _ ⟨rfl, rfl, .inl rfl, by simp [h], fun _ hb => by
    have := hb.fields.1
    rw [h] at this; exact absurd this (by simp)⟩

theorem acts_heldRemoved (a : ModAddr) (s : State) : Acts P Q s (heldRemoved a s) := by
  unfold heldRemoved
  dsimp only
  split
  · exact acts_clearFallsDue s a ‹_›
  · exact .refl

theorem acts_removeHead (s : State) : Acts P Q s (removeHead s) := by
  unfold removeHead
  split
  · exact .refl
  · rename_i r rest hl
    have h1 : Acts P Q s { s with events := { s.events with list := rest } } := .single (.events _ (.remove r rest hl))
    dsimp only
    split
    · split
      · exact h1.trans (acts_heldRemoved _ _)
      · exact h1
    · exact h1

theorem acts_popAccess (lanes : BitVec 4) (s : State) : Acts P Q s (popAccess lanes s) := by
  unfold popAccess
  split
  · unfold popRead
    dsimp only
    split
    · exact (acts_removeHead s).trans ((acts_settle _).trans (acts_reply _ _))
    · exact acts_reply s _
  · exact acts_reply s _

theorem acts_writeRelease (data : Word) (s : State) : Acts P Q s (writeRelease data s) := by
  unfold writeRelease
  split
  · exact acts_refuseWrite s
  · split
    · exact (acts_removeHead s).trans ((acts_settle _).trans (acts_acceptWrite _))
    · exact Acts.trans (acts_flags s s.events.mode s.events.line0En s.events.line1En true) (acts_acceptWrite _)

theorem acts_unholdEntry (s : State) (a : ModAddr) : Acts P Q s (unholdEntry s a) := by
  unfold unholdEntry
  split
  · exact Acts.trans (acts_clearFallsDue s a ‹_›) (.single (.events _ (.clearHeld a)))
  · exact .refl

theorem unholdEntries_attn (l : List ModAddr) (s : State) : (l.foldl unholdEntry s).attn = s.attn := by
  induction l generalizing s with
  | nil => rfl
  | cons a l ih =>
    rw [List.foldl_cons, ih]
    unfold unholdEntry
    split <;> rfl

theorem acts_writeAuto (s : State) : Acts P Q s (writeAuto s) := by
  unfold writeAuto
  split
  · exact acts_acceptWrite s
  · have h1 : Acts P Q s (allAddrs.foldl unholdEntry s) :=
      acts_foldl (fun _ => True) (fun _ _ _ => trivial) (fun a _ t _ => acts_unholdEntry t a) trivial
    have hattn := unholdEntries_attn allAddrs s
    generalize allAddrs.foldl unholdEntry s = t at h1 hattn
    rw [← hattn]
    exact h1.trans <| Acts.trans (acts_attn t t.attn.level t.attn.armed .auto t.attn.sweep) <|
      (acts_settle _).trans (acts_acceptWrite _)

theorem acts_writeHeld (s : State) : Acts P Q s (writeHeld s) :=
  Acts.trans (acts_attn s s.attn.level s.attn.armed .held s.attn.sweep) ((acts_settle _).trans (acts_acceptWrite _))

theorem acts_writeMbxStatus (data : Word) (s : State) : Acts P Q s (writeMbxStatus data s) :=
  Acts.trans (.single (.mailbox { s.mbx with refused := s.mbx.refused && !data.getLsbD 8
                                             abortLate := s.mbx.abortLate && !data.getLsbD 9 } fun _ _ => .inl ⟨rfl, rfl⟩))
    (acts_acceptWrite _)

theorem acts_writeArg (f : Mailbox → Mailbox) (s : State) : Acts P Q s (writeArg f s) := by
  unfold writeArg
  split
  · exact acts_refuseWrite s
  · rename_i hb
    exact (acts_mbx s (f s.mbx) (by simpa using hb)).trans (acts_acceptWrite _)

theorem acts_writeAttnMode (data : Word) (s : State) : Acts P Q s (writeAttnMode data s) := by
  unfold writeAttnMode
  split
  · exact acts_writeAuto s
  · split
    · exact acts_writeHeld s
    · exact acts_refuseWrite s

theorem acts_writeReg (r : Reg) (data : Word) (s : State) : Acts P Q s (writeReg r data s) := by
  cases r with
  | pwrCtrl => exact acts_writePwr _ _ s
  | attnMode => exact acts_writeAttnMode data s
  | winFault => exact acts_resetWinFault s
  | readFault => exact acts_resetReadFault s
  | timing p => exact acts_writeTiming p data s
  | mbxOp => rw [writeReg]; exact acts_writeArg _ s
  | mbxTarget => rw [writeReg]; exact acts_writeArg _ s
  | mbxOffset => rw [writeReg]; exact acts_writeArg _ s
  | mbxWidth => rw [writeReg]; exact acts_writeArg _ s
  | mbxData => rw [writeReg]; exact acts_writeArg _ s
  | mbxXdata => rw [writeReg]; exact acts_writeArg _ s
  | mbxFlags => rw [writeReg]; exact acts_writeArg _ s
  | mbxGo => exact acts_writeGo s
  | mbxAbort => exact acts_writeAbort s
  | mbxStatus => exact acts_writeMbxStatus data s
  | evtRelease => exact acts_writeRelease data s
  | evtMode => exact acts_writeEvtMode data s
  | evtLineEn => exact acts_writeLineEn data s
  | evtStatus => exact acts_writeEvtStatus data s
  | evtRoute k => exact acts_writeRoute k data s
  | bindSel => exact acts_writeBindSel data s
  | modSel => exact acts_writeModSel data s
  | win n f => exact acts_writeWinField n f data s
  | winEnable n => simp only [writeReg]; split; exacts [acts_enableWindow n s, acts_disableWindow n s]
  | _ => exact acts_refuseWrite s

/-! ### When an event takes place -/

theorem acts_whenLive {f : State → State} {s : State} (h : Acts P Q s (f s)) : Acts P Q s (whenLive f s) := by
  unfold whenLive; split; exacts [.refl, h]

theorem acts_hostAccess {f : State → State} {s : State} (h : Acts P Q s (f s)) : Acts P Q s (hostAccess f s) := by
  unfold hostAccess; split; exacts [h, .refl]

theorem acts_fullWrite (lanes : BitVec 4) {f : State → State} {s : State} (h : Acts P Q s (f s)) :
    Acts P Q s (fullWrite lanes f s) := by
  unfold fullWrite; split; exacts [h, acts_reply s _]

theorem acts_fullAccess (lanes : BitVec 4) {f : State → State} {s : State} (h : Acts P Q s (f s)) :
    Acts P Q s (hostAccess (fullWrite lanes f) s) := acts_hostAccess (acts_fullWrite lanes h)

theorem acts_registerAccess (offset : BitVec 12) (lanes : BitVec 4) (data : Word) (s : State) :
    Acts P Q s (registerAccess offset lanes data s) := by
  unfold registerAccess
  split
  · exact acts_fullWrite lanes (acts_writeReg _ data s)
  · exact acts_refuseWrite s

theorem acts_goAccess (lanes : BitVec 4) (s : State) : Acts P Q s (goAccess lanes s) := acts_fullAccess lanes (acts_writeGo s)

/-! ### Every command -/

/-- What is known of the state that a command begins in. -/
def LawsOf (s : State) : Prop := MailboxLaw s ∧ HeldWriteLaw s

/-- What a command does: the cold reset, or any number of acts, behind a change of the reset inputs' levels. -/
inductive Does (s : State) : State → Prop
  | cold (p : Pins) : Does s (coldState { s with pins := p })
  | acts (p : Pins) (t : State) (hp : p.hold = true → s.pins.hold = true)
      (h : Acts (ModuleLaw s) (LawsOf s) { s with pins := p } t) : Does s t

theorem does_of_acts {s t : State} (h : Acts (ModuleLaw s) (LawsOf s) s t) : Does s t := .acts s.pins t id h

theorem acts_retainingReset (s : State) : Acts P Q s (retainingReset s) :=
  Acts.trans (.single .retain) ((acts_post _ _).trans (acts_settle _))

theorem assertHost_does (s : State) : Does s (assertHost s) := by
  unfold assertHost
  split
  · exact does_of_acts .refl
  · dsimp only
    split
    · exact .acts { s.pins with host := true } _ id (acts_retainingReset _)
    · exact .cold _

theorem releasePin_does (pin : ResetPin) (s : State) : Does s (releasePin pin s) := by
  unfold releasePin
  dsimp only
  split
  · exact .acts { s.pins.release pin with hold := false } _ (fun h => absurd h (by simp)) (acts_autoload _ _)
  · exact .acts (s.pins.release pin) _ (fun h => by cases pin <;> exact h) .refl

theorem assertCold_does (s : State) : Does s (assertCold s) := by
  unfold assertCold
  split
  · exact does_of_acts .refl
  · exact .cold _

/-- Every command answers a next state, which it reaches by acts or by a cold reset. -/
theorem exec_does (c : Instr) (s : State) : ∃ t, exec c s = .next t ∧ Does s t := by
  cases c with
  | coldReset pin =>
    cases pin with
    | coldRst => exact ⟨_, rfl, assertCold_does s⟩
    | hostRst => exact ⟨_, rfl, assertHost_does s⟩
  | windowRead addr lanes =>
    refine ⟨_, rfl, does_of_acts ?_⟩
    split
    · exact acts_hostAccess (acts_windowReadAccess addr lanes s)
    · exact .refl
  | windowWrite addr lanes data =>
    refine ⟨_, rfl, does_of_acts ?_⟩
    split
    · exact acts_hostAccess (acts_windowWriteAccess addr lanes data s)
    · exact .refl
  | noTargetAccess dir addr lanes =>
    refine ⟨_, rfl, does_of_acts ?_⟩
    split
    · exact acts_hostAccess (acts_reply s _)
    · exact .refl
  | hostPortReset => exact ⟨_, rfl, assertHost_does s⟩
  | resetRelease pin => exact ⟨_, rfl, releasePin_does pin s⟩
  | attnAsserted => exact ⟨_, rfl, does_of_acts (acts_whenLive (acts_attnRises s))⟩
  | attnReleased => exact ⟨_, rfl, does_of_acts (acts_whenLive (acts_attnFalls s))⟩
  | heldAccessEnqueue => exact ⟨_, rfl, does_of_acts (acts_whenLive (acts_heldEnqueue s And.right))⟩
  | hostHoldExpiry => exact ⟨_, rfl, does_of_acts (acts_whenLive (acts_holdExpires s))⟩
  | registerWrite offset lanes data => exact ⟨_, rfl, does_of_acts (acts_hostAccess (acts_registerAccess offset lanes data s))⟩
  | winFieldWrite n f lanes data => exact ⟨_, rfl, does_of_acts (acts_fullAccess _ (acts_writeWinField n f data s))⟩
  | winEnable n lanes => exact ⟨_, rfl, does_of_acts (acts_fullAccess _ (acts_enableWindow n s))⟩
  | winDisable n lanes => exact ⟨_, rfl, does_of_acts (acts_fullAccess _ (acts_disableWindow n s))⟩
  | winFaultReset lanes => exact ⟨_, rfl, does_of_acts (acts_fullAccess _ (acts_resetWinFault s))⟩
  | readFaultReset lanes => exact ⟨_, rfl, does_of_acts (acts_fullAccess _ (acts_resetReadFault s))⟩
  | bindSelWrite lanes data => exact ⟨_, rfl, does_of_acts (acts_fullAccess _ (acts_writeBindSel data s))⟩
  | modSelWrite lanes data => exact ⟨_, rfl, does_of_acts (acts_fullAccess _ (acts_writeModSel data s))⟩
  | timingWrite p lanes data => exact ⟨_, rfl, does_of_acts (acts_fullAccess _ (acts_writeTiming p data s))⟩
  | routeWrite k lanes data => exact ⟨_, rfl, does_of_acts (acts_fullAccess _ (acts_writeRoute k data s))⟩
  | evtModeWrite lanes data => exact ⟨_, rfl, does_of_acts (acts_fullAccess _ (acts_writeEvtMode data s))⟩
  | evtLineEnWrite lanes data => exact ⟨_, rfl, does_of_acts (acts_fullAccess _ (acts_writeLineEn data s))⟩
  | evtStatusClear lanes data => exact ⟨_, rfl, does_of_acts (acts_fullAccess _ (acts_writeEvtStatus data s))⟩
  | evtPop lanes => exact ⟨_, rfl, does_of_acts (acts_hostAccess (acts_popAccess lanes s))⟩
  | evtRelease lanes data => exact ⟨_, rfl, does_of_acts (acts_fullAccess _ (acts_writeRelease data s))⟩
  | attnModeAuto lanes => exact ⟨_, rfl, does_of_acts (acts_fullAccess _ (acts_writeAuto s))⟩
  | attnModeHeld lanes => exact ⟨_, rfl, does_of_acts (acts_fullAccess _ (acts_writeHeld s))⟩
  | sleepRequest retain lanes => exact ⟨_, rfl, does_of_acts (acts_fullAccess _ (acts_writePwr true retain s))⟩
  | sleepCancel retain lanes => exact ⟨_, rfl, does_of_acts (acts_fullAccess _ (acts_writePwr false retain s))⟩
  | retainWrite retain lanes => exact ⟨_, rfl, does_of_acts (acts_fullAccess _ (acts_writePwr s.power.sleepReq retain s))⟩
  | mbxStatusClear lanes data => exact ⟨_, rfl, does_of_acts (acts_fullAccess _ (acts_writeMbxStatus data s))⟩
  | mbxWaitingEnqueue => exact ⟨_, rfl, does_of_acts (acts_whenLive (acts_addWaitingCommand s))⟩
  | mbxAbort lanes => exact ⟨_, rfl, does_of_acts (acts_fullAccess _ (acts_writeAbort s))⟩
  | arbiterGrant => exact ⟨_, rfl, does_of_acts (acts_whenLive (acts_arbiterAct s))⟩
  | broadcastSent => exact ⟨_, rfl, does_of_acts (acts_whenLive (acts_broadcastSent s))⟩
  | settled => exact ⟨_, rfl, does_of_acts (acts_whenLive (acts_settledEnds s))⟩
  | responseReceived frame order => exact ⟨_, rfl, does_of_acts (acts_whenLive (acts_takeResponse id And.left order frame))⟩
  | responseTimeout order => exact ⟨_, rfl, does_of_acts (acts_whenLive (acts_timeoutExpires id And.left order))⟩
  | retransmission => exact ⟨_, rfl, does_of_acts (acts_whenLive (acts_retransmit s))⟩
  | holdoffEnd => exact ⟨_, rfl, does_of_acts (acts_whenLive (acts_holdoffEnds s))⟩
  | pacingIntervalEnd a => exact ⟨_, rfl, does_of_acts (acts_whenLive (acts_pacingEnds a s))⟩
  | discoveryTimerExpiry => exact ⟨_, rfl, does_of_acts (acts_whenLive (acts_queryTimerExpires s))⟩
  | pollTimerExpiry a => exact ⟨_, rfl, does_of_acts (acts_whenLive (acts_pollTimerExpires a s))⟩
  | discardTimerExpiry i => exact ⟨_, rfl, does_of_acts (acts_whenLive (acts_discardTimerExpires i s))⟩
  | autoloadMarkerRead b1 b2 => exact ⟨_, rfl, does_of_acts (acts_whenLive (acts_markerRead b1 b2 s))⟩
  | autoloadHeaderRead v c l h => exact ⟨_, rfl, does_of_acts (acts_whenLive (acts_headerRead v c l h s))⟩
  | autoloadImageRead bs => exact ⟨_, rfl, does_of_acts (acts_whenLive (acts_imageRead bs s))⟩
  | autoloadVerifyEnd => exact ⟨_, rfl, does_of_acts (acts_whenLive (acts_verifyEnds s))⟩
  | drainComplete => exact ⟨_, rfl, does_of_acts (acts_whenLive (acts_drainEnds s))⟩
  | wakeSettleEnd => exact ⟨_, rfl, does_of_acts (acts_whenLive (acts_wakeSettles s))⟩
  | hostRstRelease => exact ⟨_, rfl, releasePin_does .hostRst s⟩
  | requestFrameSent => exact ⟨_, rfl, does_of_acts (acts_whenLive (acts_frameSent s))⟩
  | responseLeadIn => exact ⟨_, rfl, does_of_acts (acts_whenLive (acts_leadIn s))⟩
  | mbxRead lanes => exact ⟨_, rfl, does_of_acts (acts_goAccess lanes s)⟩
  | mbxWrite lanes => exact ⟨_, rfl, does_of_acts (acts_goAccess lanes s)⟩
  | mbxDescRead lanes => exact ⟨_, rfl, does_of_acts (acts_goAccess lanes s)⟩
  | bind lanes => exact ⟨_, rfl, does_of_acts (acts_goAccess lanes s)⟩
  | unbind lanes => exact ⟨_, rfl, does_of_acts (acts_goAccess lanes s)⟩
  | readmit lanes => exact ⟨_, rfl, does_of_acts (acts_goAccess lanes s)⟩
  | forget lanes => exact ⟨_, rfl, does_of_acts (acts_goAccess lanes s)⟩
  | discoverNow lanes => exact ⟨_, rfl, does_of_acts (acts_goAccess lanes s)⟩
  | linkReset lanes => exact ⟨_, rfl, does_of_acts (acts_goAccess lanes s)⟩
  | flushCache lanes => exact ⟨_, rfl, does_of_acts (acts_goAccess lanes s)⟩
  | reload lanes => exact ⟨_, rfl, does_of_acts (acts_goAccess lanes s)⟩
  | mbxGoNoCommand lanes => exact ⟨_, rfl, does_of_acts (acts_goAccess lanes s)⟩

/-- What a command does, of its next state. -/
theorem does_of_exec {c : Instr} {s t : State} (h : exec c s = .next t) : Does s t := by
  obtain ⟨u, hu, hd⟩ := exec_does c s
  rw [h] at hu
  injection hu with hu
  exact hu ▸ hd

/-! ### What every step keeps -/

/-- A law that no change of the reset inputs' levels, the commands waiting or the clock touches, that a cold reset establishes, and
that every act keeps, is kept by every step. -/
theorem keptByStep_of_acts {L : State → Prop}
    (hlevels : ∀ s q p, L s → L { s with pending := q, pins := p }) (hcold : ∀ s, L (coldState s))
    (hacts : ∀ s t, L s → Acts (ModuleLaw s) (LawsOf s) s t → L t) : KeptByStep L := by
  intro s t hs hstep
  unfold step at hstep
  split at hstep
  · injection hstep with hstep
    exact hstep ▸ hacts s _ hs (acts_advance 1 s)
  · rename_i c rest _
    cases does_of_exec hstep with
    | cold p => exact hcold _
    | acts p t _ h => exact hacts { s with pending := rest, pins := p } t (hlevels s rest p hs) h

/-- A law that every act keeps by itself. -/
theorem keptByStep_of_act {L : State → Prop} (hlevels : ∀ s q p, L s → L { s with pending := q, pins := p })
    (hcold : ∀ s, L (coldState s)) (hact : ∀ (P Q : Prop) s t, Act P Q s t → L s → L t) : KeptByStep L :=
  keptByStep_of_acts hlevels hcold fun _ _ hs h => h.keeps (hact _ _) hs

/-! ### The cold reset (R197) -/

theorem cold_entry (s : State) (a : ModAddr) : (coldState s).entry a = {} := vget_replicate _ a

theorem cold_eventLaw (s : State) : EventLaw (coldState s) ∧ RouteLaw (coldState s) := by
  refine ⟨⟨?_, ?_, ?_⟩, ⟨fun r hr => absurd hr List.not_mem_nil, ?_, ?_⟩⟩
  · exact Nat.zero_le 32
  · exact Nat.zero_le 1
  · exact Nat.zero_le 31
  · show vget coldRoutes (kindIndex .attention) ≠ .suppress; decide
  · show vget coldRoutes (kindIndex .overflow) ≠ .suppress; decide

theorem cold_configuration (s : State) :
    WindowLaw (coldState s) ∧ BindingLaw (coldState s) ∧ TimingLaw (coldState s) ∧ SelectLaw (coldState s) := by
  refine ⟨fun n hn => ?_, fun a b x y hx => ?_, fun p => ?_, ?_⟩
  · have : vget (coldState s).windows n = {} := vget_replicate _ n
    rw [this] at hn; exact absurd hn (by simp)
  · have : vget (coldState s).bindings a = none := vget_replicate _ a
    rw [this] at hx; exact absurd hx (by simp)
  · refine (paramAccepts_iff p _).mp ?_
    show paramAccepts p (({} : Timing).value p) = true
    cases p <;> decide
  · exact ⟨rfl, rfl⟩

theorem cold_moduleTable (s : State) : ModuleLaw (coldState s) ∧ EmptyLaw (coldState s) := by
  refine ⟨fun a b id ha => ?_, fun a _ => ?_⟩
  · rw [cold_entry] at ha; exact absurd rfl ha
  · rw [cold_entry]

theorem cold_cacheLaw (s : State) : CacheLaw (coldState s) := by
  have h : ∀ i, vget (coldState s).cache.lines i = none := fun i => vget_replicate _ i
  exact ⟨fun i l hi => by rw [h] at hi; exact absurd hi (by simp), fun i j l m hi => by rw [h] at hi; exact absurd hi (by simp)⟩

theorem cold_mailboxLaw (s : State) : MailboxLaw (coldState s) ∧ HeldWriteLaw (coldState s) :=
  ⟨mailboxLaw_of_free ⟨fun e he => absurd he List.not_mem_nil, fun r e hr => absurd hr (by simp [coldState, Link.request?])⟩,
    fun h e hh => absurd hh (by simp [coldState])⟩

theorem cold_attnLaw (s : State) : AttnLaw (coldState s) := by
  refine ⟨fun a => ?_, ?_⟩
  · rw [cold_entry]
    simp [State.fetchRec, coldState, vget_replicate]
  · show reservedIn (Vector.replicate 14 none) = 0
    decide

/-! ### The laws (O4, O7 to O13, O16, O18) -/

/-- Settles O4: no act touches the queue of commands, nor does a cold reset. -/
theorem commandsLeaveTheQueueAlone : Obligations.CommandsLeaveTheQueueAlone := by
  intro c s t h
  cases does_of_exec h with
  | cold p => rfl
  | acts p t _ h => exact h.untouched.1

/-- Settles O7: every act keeps the law of the event queue and the law of the routes. -/
theorem eventLawKept : Obligations.EventLawKept :=
  keptByStep_of_act (fun _ _ _ h => h) cold_eventLaw fun _ _ _ _ h hs => ⟨h.eventLaw hs.1, h.routeLaw hs.2⟩

/-- Settles O8: every act keeps the numbering of the event records. -/
theorem seqLawKept : Obligations.SeqLawKept :=
  keptByStep_of_act (fun _ _ _ h => h) (fun _ i r hr => absurd hr (by simp [coldState])) fun _ _ _ _ h hs => h.seqLaw hs

/-- Settles O9: every act that adds to a queue finds a place free. -/
theorem queueLawKept : Obligations.QueueLawKept :=
  keptByStep_of_act (fun _ _ _ h => h) (fun _ => ⟨Nat.zero_le 16, Nat.zero_le 8⟩) fun _ _ _ _ h hs => h.queueLaw hs

/-- Settles O10: every act on a configuration table keeps that table's law. -/
theorem configurationLawKept : Obligations.ConfigurationLawKept :=
  keptByStep_of_act (fun _ _ _ h => h) cold_configuration fun _ _ _ _ h hs =>
    ⟨h.windowLaw hs.1, h.bindingLaw hs.2.1, h.timingLaw hs.2.2.1, h.selectLaw hs.2.2.2⟩

/-- Settles O11: a join finds its unique ID fresh, the reappearance test having come first (R32), and a leave blanks its entry. -/
theorem moduleTableLawKept : Obligations.ModuleTableLawKept :=
  keptByStep_of_acts (fun _ _ _ h => h) cold_moduleTable fun _ _ hs h =>
    ⟨h.moduleLaw hs.1 hs.1, h.keeps (fun _ _ hact => hact.emptyLaw) hs.2⟩

/-- Settles O12: an entry that leaves ONLINE, or its generation, takes its lines with it, and a fill drops the lines it overlaps. -/
theorem cacheLawKept : Obligations.CacheLawKept :=
  keptByStep_of_act (fun _ _ _ h => h) cold_cacheLaw fun _ _ _ _ h hs => h.cacheLaw hs

/-- Settles O13: the mailbox changes its state together with its entry, and takes no command while one is in progress. -/
theorem mailboxLawKept : Obligations.MailboxLawKept :=
  keptByStep_of_acts (fun _ _ _ h => h) cold_mailboxLaw fun _ _ hs h =>
    ⟨h.keeps (fun _ _ hact => hact.mailboxLaw hs) hs.1, h.keeps (fun _ _ hact => hact.heldWriteLaw) hs.2⟩

/-- Settles O16: the link falls asleep drained, and begins nothing before it is awake. -/
theorem sleepLawKept : Obligations.SleepLawKept :=
  keptByStep_of_act (fun _ _ _ h => h) (fun _ _ => rfl) fun _ _ _ _ h hs => h.sleepLaw hs

/-- Settles O18: a fetch record comes and goes with its entry's FETCHING, and its reservation with it. -/
theorem attentionLawKept : Obligations.AttentionLawKept :=
  keptByStep_of_act (fun _ _ _ h => h) (fun s => ⟨cold_attnLaw s, (cold_moduleTable s).2⟩) fun _ _ _ _ h hs =>
    ⟨h.attnLaw hs.1 hs.2, h.emptyLaw hs.2⟩

/-- Settles O3: every arm answers a next state. -/
theorem commandsNeverStop : Obligations.CommandsNeverStop := fun c s =>
  let ⟨t, h, _⟩ := exec_does c s
  ⟨t, h⟩

/-! ### While a cold reset is in force (O17) -/

/-- A command that changes a reset input. -/
def changesReset : Instr → Bool
  | .coldReset _ | .hostPortReset | .resetRelease _ | .hostRstRelease => true
  | _ => false

/-- While a cold reset is in force a command that changes no reset input has no effect. -/
theorem exec_of_hold {c : Instr} {s : State} (h : s.pins.hold = true) (hc : changesReset c = false) : exec c s = .next s := by
  have hlive : ∀ f : State → State, Host.Outcome.next (whenLive f s) = (.next s : Host.Outcome State Fault Refusal) :=
    fun f => congrArg _ (whenLive_hold f s h)
  have hhost : ∀ f : State → State, Host.Outcome.next (hostAccess f s) = (.next s : Host.Outcome State Fault Refusal) :=
    fun f => congrArg _ (hostAccess_busy f s (by simp [State.portFree, State.resetAsserted, h]))
  have hif : ∀ (b : Bool) (f : State → State),
      Host.Outcome.next (if b then hostAccess f s else s) = (.next s : Host.Outcome State Fault Refusal) := fun b f => by
    cases b
    · rfl
    · exact hhost f
  cases c with
  | coldReset => exact absurd hc (by simp [changesReset])
  | hostPortReset => exact absurd hc (by simp [changesReset])
  | resetRelease => exact absurd hc (by simp [changesReset])
  | hostRstRelease => exact absurd hc (by simp [changesReset])
  | windowRead => exact hif _ _
  | windowWrite => exact hif _ _
  | noTargetAccess => exact hif _ _
  | attnAsserted => exact hlive _
  | attnReleased => exact hlive _
  | heldAccessEnqueue => exact hlive _
  | hostHoldExpiry => exact hlive _
  | mbxWaitingEnqueue => exact hlive _
  | arbiterGrant => exact hlive _
  | broadcastSent => exact hlive _
  | settled => exact hlive _
  | responseReceived => exact hlive _
  | responseTimeout => exact hlive _
  | retransmission => exact hlive _
  | holdoffEnd => exact hlive _
  | pacingIntervalEnd => exact hlive _
  | discoveryTimerExpiry => exact hlive _
  | pollTimerExpiry => exact hlive _
  | discardTimerExpiry => exact hlive _
  | autoloadMarkerRead => exact hlive _
  | autoloadHeaderRead => exact hlive _
  | autoloadImageRead => exact hlive _
  | autoloadVerifyEnd => exact hlive _
  | drainComplete => exact hlive _
  | wakeSettleEnd => exact hlive _
  | requestFrameSent => exact hlive _
  | responseLeadIn => exact hlive _
  | _ => exact hhost _

theorem holdLaw_coldState (s : State) : HoldLaw (coldState s) := fun _ => rfl

/-- No timer runs in the cold values. -/
theorem advance_cold (d n : Nat) (q : List Instr) (p : Pins) :
    advance d { pending := q, now := n, pins := p } = { pending := q, now := n + d, pins := p } := by
  have hslots : vmap (Slot.later d) (Vector.replicate 4 .free) = Vector.replicate 4 .free :=
    vget_ext fun i => by rw [vget_vmap, vget_replicate]; rfl
  have hmods : vmap (fun e : Entry => { e with pollTimer := e.pollTimer.map (· + d) }) (Vector.replicate 14 {}) =
      Vector.replicate 14 {} := vget_ext fun i => by rw [vget_vmap, vget_replicate]; rfl
  simp only [advance, hslots, State.pollsRun, hmods]
  rfl

/-- A reset input released while the other is asserted leaves the blocks at their cold values (R197). -/
theorem holdLaw_releasePin (pin : ResetPin) (s : State) (hs : HoldLaw s) : HoldLaw (releasePin pin s) := by
  unfold releasePin
  dsimp only
  split
  · exact fun h => absurd h (by simp [beginRun])
  · intro h
    have hhold : s.pins.hold = true := by cases pin <;> exact h
    exact congrArg (fun u : State => { u with pins := s.pins.release pin }) (hs hhold)

theorem holdLaw_assertHost (s : State) (hs : HoldLaw s) : HoldLaw (assertHost s) := by
  unfold assertHost
  split
  · exact hs
  · dsimp only
    split
    · rename_i hr
      have hacts := acts_retainingReset (P := True) (Q := True) { s with pins := { s.pins with host := true } }
      generalize retainingReset { s with pins := { s.pins with host := true } } = t at hacts ⊢
      intro h
      rw [hacts.untouched.2] at h
      have hhold : s.pins.hold = true := h
      have hclear : s.power.retain = false := congrArg (fun u => u.power.retain) (hs hhold)
      exact absurd (hclear.symm.trans hr) (by simp)
    · exact holdLaw_coldState _

theorem exec_keeps_holdLaw {c : Instr} {s t : State} (hs : HoldLaw s) (h : exec c s = .next t) : HoldLaw t := by
  cases hhold : s.pins.hold with
  | false =>
    cases does_of_exec h with
    | cold p => exact holdLaw_coldState _
    | acts p t hp h =>
      intro ht
      rw [h.untouched.2] at ht
      exact absurd (hp ht) (by simp [hhold])
  | true =>
    cases hc : changesReset c with
    | false =>
      rw [exec_of_hold hhold hc] at h
      injection h with h; exact h ▸ hs
    | true =>
      cases c with
      | coldReset pin =>
        cases pin with
        | coldRst =>
          injection h with h
          subst h
          unfold assertCold
          split
          · exact hs
          · exact holdLaw_coldState _
        | hostRst => injection h with h; exact h ▸ holdLaw_assertHost s hs
      | hostPortReset => injection h with h; exact h ▸ holdLaw_assertHost s hs
      | resetRelease pin => injection h with h; exact h ▸ holdLaw_releasePin pin s hs
      | hostRstRelease => injection h with h; exact h ▸ holdLaw_releasePin .hostRst s hs
      | _ => exact absurd hc (by simp [changesReset])

/-- Settles O17: while a cold reset is in force only the reset inputs and the clock move. -/
theorem holdLawKept : Obligations.HoldLawKept := by
  intro s t hs hstep
  unfold step at hstep
  split at hstep
  · injection hstep with hstep
    subst hstep
    intro hhold
    rw [hs hhold, advance_cold]
  · rename_i c rest _
    exact exec_keeps_holdLaw (s := { s with pending := rest }) (fun h => congrArg (fun u : State => { u with pending := rest }) (hs h)) hstep

end Sys2Proof.Machine
end

section
/-! PROOFS. What the close of an event leaves, and what the laws of the time between events do not notice (O14, O15). -/

namespace Sys2Proof.Machine

/-! ### Places in the event queue are only lost -/

theorem EventUnit.hasPlace_post {u : EventUnit} {p : Posted} (h : (u.post p).hasPlace = true) : u.hasPlace = true := by
  unfold EventUnit.post at h
  split at h
  · exact h
  · split at h
    · rename_i hover
      have : u.countLost.overflowPresent = true := by
        simp only [EventUnit.overflowPresent, EventUnit.countLost, List.any_map] at hover ⊢
        obtain ⟨r, hr, hk⟩ := List.any_eq_true.mp hover
        refine List.any_eq_true.mpr ⟨r, hr, ?_⟩
        have hk : r.kind = .overflow := by simpa using hk
        simp [hk]
      simp [EventUnit.hasPlace, this] at h
    · split at h
      · assumption
      · simp [EventUnit.hasPlace, EventUnit.overflowPresent, EventUnit.append] at h

theorem offerFill_events (l : Line) (s : State) : (offerFill l s).events = s.events := by
  unfold offerFill; split <;> rfl

theorem collect_events (i : Fin 4) (x : SlotInfo) (o : LinkOutcome) (d : Option Word) (s : State) :
    (collect i x o d s).events = s.events := by
  unfold collect; dsimp only; split <;> rfl

theorem completeSlot_events (i : Fin 4) (e : HostEntry) (o : LinkOutcome) (d : Option Word) (s : State) :
    (completeSlot i e o d s).events = s.events := by
  have key : ∀ (x : SlotInfo) (kept : Option Word),
      (if s.port.held.any (fun h => h.what = .slot i) = true then
        collect i x o kept { s with port := { s.port with held := none } }
       else s.setSlot i (.complete x o kept 0)).events = s.events := fun x kept => by
    split
    · exact collect_events i x o kept _
    · rfl
  unfold completeSlot
  cases vget s.slots i with
  | free => rfl
  | complete => rfl
  | pending x =>
    dsimp only
    split
    · rw [offerFill_events]; exact key x _
    · exact key x _

theorem deliver_hasPlace {e : HostEntry} {o : LinkOutcome} {d : Option Word} {s : State}
    (h : (deliver e o d s).events.hasPlace = true) : s.events.hasPlace = true := by
  cases ho : e.origin with
  | mailbox =>
    obtain ⟨m, p, heq⟩ := deliver_mailbox_ends ho o d s
    rw [heq] at h
    exact EventUnit.hasPlace_post h
  | windowWrite =>
    unfold deliver at h
    rw [ho] at h
    dsimp only at h
    split at h
    · exact h
    · exact EventUnit.hasPlace_post h
  | windowRead =>
    unfold deliver at h
    rw [ho] at h
    dsimp only at h
    split at h
    · rw [completeSlot_events] at h; exact h
    · exact h

theorem failHeads_hasPlace (n : Nat) {s : State} (h : (failHeads n s).events.hasPlace = true) : s.events.hasPlace = true := by
  induction n generalizing s with
  | zero => exact h
  | succ n ih =>
    unfold failHeads at h
    split at h
    · exact h
    · split at h
      · exact h
      · rename_i e rest _ _ o _
        exact deliver_hasPlace (s := { s with hostQueue := rest }) (ih h)

theorem headChecks_hasPlace {s : State} (h : (headChecks s).events.hasPlace = true) : s.events.hasPlace = true := by
  unfold headChecks at h
  split at h
  · exact h
  · exact failHeads_hasPlace _ h

/-! ### What the close of an event leaves -/

/-- No work falls due where the tables, the queue and discovery stay and places in the event queue are only lost. -/
theorem dueLaw_of {s t : State} (hs : DueLaw s) (hq : t.mgmtQueue = s.mgmtQueue) (hd : t.disc.waiting = s.disc.waiting)
    (hl : t.mgmtOnLink = s.mgmtOnLink) (hm : t.attn.mode = s.attn.mode)
    (hp : t.events.hasPlace = true → s.events.hasPlace = true)
    (he : ∀ a, (t.entry a).pingDue = (s.entry a).pingDue ∧ (t.entry a).releaseDue = (s.entry a).releaseDue ∧
      (t.entry a).attention = (s.entry a).attention ∧ (t.entry a).generation = (s.entry a).generation) : DueLaw t := by
  have hhas : ∀ p, t.mgmtHas p = s.mgmtHas p := fun p => by unfold State.mgmtHas; rw [hq, hl]
  intro hroom
  obtain ⟨hw, ha⟩ := hs (by unfold State.mgmtRoom at hroom ⊢; rw [← hq]; exact hroom)
  refine ⟨hd.trans hw, fun a => ?_⟩
  obtain ⟨h1, h2, h3, h4⟩ := ha a
  obtain ⟨e1, e2, e3, e4⟩ := he a
  refine ⟨e1.trans h1, e2.trans h2, fun hc => ?_, fun hf => ?_⟩
  · rw [hhas, e4]; exact h3 (e3 ▸ hc)
  · have := h4 (e3 ▸ hf)
    simp only [State.fetchPermitted, hhas, hm, Bool.and_eq_false_iff, Bool.or_eq_false_iff] at this ⊢
    obtain h | ⟨h, hno⟩ := this
    · exact .inl h
    · refine .inr ⟨h, ?_⟩
      cases hplace : t.events.hasPlace with
      | false => rfl
      | true => rw [hp hplace] at hno; exact absurd hno (by simp)

/-- Discovery follows its suspension and no work is due where follow-up work has been done (R27, R29). -/
theorem followChange_laws (s : State) : HeadLaw (followChange s) ∧ DiscLaw (followChange s) ∧ DueLaw (followChange s) := by
  have hw := workFollows_dueFollows s
  have hk := headsKeep_headChecks (dueFollows s)
  have hstill := still_headChecks (dueFollows s)
  rw [followChange_eq]
  refine ⟨headChecks_headLaw _, hw.disc.congr hstill.autoload hk.power hstill.engine (by rw [hk.disc]), ?_⟩
  refine dueLaw_of hw.due hk.mgmt (by rw [hk.disc]) (mgmtOnLink_congr hstill.engine) (by rw [hk.attn]) headChecks_hasPlace fun a => ?_
  rw [entry_of_modules _ _ hk.modules a]
  exact ⟨rfl, rfl, rfl, rfl⟩

theorem drainIfDone_fields (s : State) : drainIfDone s = { s with power := (drainIfDone s).power } := by
  unfold drainIfDone; split <;> rfl

/-- A link put to sleep is suspended as it was while DRAINING (R29, R190). -/
theorem DiscLaw.drainIfDone {s : State} (h : DiscLaw s) : DiscLaw (drainIfDone s) := by
  unfold Machine.drainIfDone
  split
  · rename_i hd
    have hs : s.suspended = true := by simp [State.suspended, hd.1]
    refine ⟨fun _ => h.1 hs, fun hn => absurd hn (by simp [State.suspended])⟩
  · exact h

theorem DueLaw.drainIfDone {s : State} (h : DueLaw s) : DueLaw (drainIfDone s) := by
  rw [drainIfDone_fields]; exact h

theorem drainLaw_drainIfDone (s : State) : DrainLaw (drainIfDone s) := by
  unfold drainIfDone
  split
  · exact fun h => absurd h.1 (by simp)
  · assumption

/-- What follow-up work leaves, the close of an event leaves. -/
theorem settle_laws (s : State) : QuietLaw (settle s) ∧ DueLaw (settle s) := by
  obtain ⟨hhead, hdisc, hdue⟩ := followChange_laws s
  unfold settle
  dsimp only
  split
  · rename_i hw
    obtain ⟨hhead', hdisc', hdue'⟩ := followChange_laws (attentionWake (drainIfDone (followChange s)))
    have hawake : (attentionWake (drainIfDone (followChange s))).power.state = .active ∨
        (attentionWake (drainIfDone (followChange s))).power.state = .waking := by
      unfold attentionWake
      rw [if_pos hw]
      exact (wakeLink_awake _ _).1
    have hp : (followChange (attentionWake (drainIfDone (followChange s)))).power =
        (attentionWake (drainIfDone (followChange s))).power := by
      rw [followChange_power]
      exact beforeSweep_power _ (.inl (by rcases hawake with h | h <;> rw [h] <;> simp))
    refine ⟨⟨hhead', fun h => ?_, fun h => ?_, hdisc'⟩, hdue'⟩
    · rw [hp] at h; rcases hawake with k | k <;> rw [k] at h <;> cases h.1
    · rw [hp] at h; rcases hawake with k | k <;> rw [k] at h <;> cases h.1
  · rename_i hw
    exact ⟨⟨drainIfDone_headLaw hhead, fun h => hw ((attentionWakes_iff _).mpr h), drainLaw_drainIfDone _, hdisc.drainIfDone⟩,
      hdue.drainIfDone⟩

/-! ### What the laws between events do not notice -/

/-- What a link carries, but for the condition it is carried in. -/
inductive LinkShape where
  | free
  | request (src : Source)
  | settling

/-- The shape of a link. -/
def Link.shape : Link → LinkShape
  | .free => .free
  | .carrying r => .request r.source
  | .holdoff r _ => .request r.source
  | .settling _ _ => .settling

/-- A change of state that leaves a quiet state quiet: it may mark work as due, and that is all that the laws read. -/
structure Calm (s t : State) : Prop where
  queue  : t.hostQueue = s.hostQueue
  mgmt   : t.mgmtQueue = s.mgmtQueue
  link   : t.engine.link.shape = s.engine.link.shape
  reset  : t.engine.resetPending = s.engine.resetPending
  entry  : ∀ a, (t.entry a).state = (s.entry a).state ∧ (t.entry a).generation = (s.entry a).generation ∧
             (t.entry a).widthLimit = (s.entry a).widthLimit
  disc   : t.disc.state = s.disc.state
  power  : t.power.state = s.power.state
  attn   : (t.attn.armed = true → s.attn.armed = true) ∧ (t.attn.level = true → s.attn.level = true)
  runs   : t.autoloadRuns = s.autoloadRuns
  reads  : t.drainReads = true → s.drainReads = true
  mbx    : t.mbx.busy = false → s.mbx.busy = false

theorem shape_free {l : Link} : l = .free ↔ l.shape = .free := by cases l <;> simp [Link.shape]

/-- What the flags read of a link is its shape. -/
theorem onLink_of_shape {s t : State} (h : t.engine.link.shape = s.engine.link.shape) :
    t.mgmtOnLink = s.mgmtOnLink ∧ t.hostOnLink = s.hostOnLink ∧ t.broadcasting = s.broadcasting := by
  unfold State.mgmtOnLink State.hostOnLink State.broadcasting
  cases hs : s.engine.link <;> cases ht : t.engine.link <;> rw [hs, ht] at h <;>
    simp only [Link.shape, reduceCtorEq, LinkShape.request.injEq] at h <;> simp [Link.request?, h]

theorem Calm.suspended {s t : State} (h : Calm s t) : t.suspended = s.suspended := by
  unfold State.suspended
  rw [h.runs, h.power, h.reset, (onLink_of_shape h.link).2.2]
  congr 1
  have hl := h.link
  cases hs : s.engine.link <;> cases ht : t.engine.link <;> rw [hs, ht] at hl <;>
    simp only [Link.shape, reduceCtorEq] at hl

theorem Calm.drained {s t : State} (h : Calm s t) (hd : t.drained = true) : s.drained = true := by
  have hfree : (t.engine.link = .free) = (s.engine.link = .free) := by
    rw [shape_free, shape_free, h.link]
  have hjoin : t.drainJoin = s.drainJoin := by
    unfold State.drainJoin
    congr 1; funext a
    rw [(h.entry a).1]
  simp only [State.drained, State.drainQueues, State.drainLink, State.drainMailbox, State.drainAutoload, Bool.and_eq_true,
    Bool.not_eq_true', hjoin, h.queue, h.mgmt, h.reset, h.runs, hfree] at hd ⊢
  obtain ⟨⟨⟨h1, h2⟩, h3⟩, h4⟩ := hd
  exact ⟨⟨⟨h1, h.reads h2⟩, h.mbx h3⟩, h4⟩

theorem Calm.quietLaw {s t : State} (h : Calm s t) (hs : QuietLaw s) : QuietLaw t where
  head := by
    intro hl e rest hq
    rw [(onLink_of_shape h.link).2.1] at hl
    rw [headCheck_congr e s t h.entry]
    exact hs.head hl e rest (h.queue ▸ hq)
  wake := fun ⟨h1, h2, h3⟩ => hs.wake ⟨h.power ▸ h1, h.attn.2 h2, h.attn.1 h3⟩
  drain := fun ⟨h1, h2⟩ => hs.drain ⟨h.power ▸ h1, h.drained h2⟩
  disc := by
    unfold DiscLaw
    rw [h.suspended, h.disc, (onLink_of_shape h.link).1]
    exact hs.disc

/-- A change of state that the laws of the time between events do not notice. -/
structure Unnoticed (s t : State) : Prop where
  queue  : t.hostQueue = s.hostQueue
  mgmt   : t.mgmtQueue = s.mgmtQueue
  link   : t.engine.link.shape = s.engine.link.shape
  reset  : t.engine.resetPending = s.engine.resetPending
  entry  : ∀ a, t.entry a = { s.entry a with pollTimer := (t.entry a).pollTimer }
  disc   : t.disc.state = s.disc.state ∧ t.disc.waiting = s.disc.waiting
  power  : t.power.state = s.power.state
  attn   : t.attn.mode = s.attn.mode ∧ t.attn.armed = s.attn.armed ∧ (t.attn.level = true → s.attn.level = true)
  runs   : t.autoloadRuns = s.autoloadRuns
  reads  : t.drainReads = true → s.drainReads = true
  mbx    : t.mbx.busy = s.mbx.busy
  place  : t.events.hasPlace = true → s.events.hasPlace = true

theorem Unnoticed.refl (s : State) : Unnoticed s s :=
  ⟨rfl, rfl, rfl, rfl, fun _ => rfl, ⟨rfl, rfl⟩, rfl, ⟨rfl, rfl, id⟩, rfl, id, rfl, id⟩

theorem Unnoticed.trans {s t u : State} (h : Unnoticed s t) (k : Unnoticed t u) : Unnoticed s u where
  queue := k.queue.trans h.queue
  mgmt := k.mgmt.trans h.mgmt
  link := k.link.trans h.link
  reset := k.reset.trans h.reset
  entry a := by
    have h1 := h.entry a
    have h2 := k.entry a
    generalize u.entry a = x at h2 ⊢
    generalize t.entry a = y at h1 h2
    rw [h2, h1]
  disc := ⟨k.disc.1.trans h.disc.1, k.disc.2.trans h.disc.2⟩
  power := k.power.trans h.power
  attn := ⟨k.attn.1.trans h.attn.1, k.attn.2.1.trans h.attn.2.1, h.attn.2.2 ∘ k.attn.2.2⟩
  runs := k.runs.trans h.runs
  reads := h.reads ∘ k.reads
  mbx := k.mbx.trans h.mbx
  place := h.place ∘ k.place

/-- What goes unnoticed is calm. -/
theorem Unnoticed.calm {s t : State} (h : Unnoticed s t) : Calm s t where
  queue := h.queue
  mgmt := h.mgmt
  link := h.link
  reset := h.reset
  entry a := by rw [h.entry a]; exact ⟨rfl, rfl, rfl⟩
  disc := h.disc.1
  power := h.power
  attn := ⟨fun ha => h.attn.2.1 ▸ ha, h.attn.2.2⟩
  runs := h.runs
  reads := h.reads
  mbx := fun hb => h.mbx ▸ hb

theorem Unnoticed.quietLaw {s t : State} (h : Unnoticed s t) (hs : QuietLaw s) : QuietLaw t := h.calm.quietLaw hs

theorem Unnoticed.dueLaw {s t : State} (h : Unnoticed s t) (hs : DueLaw s) : DueLaw t :=
  dueLaw_of hs h.mgmt h.disc.2 (onLink_of_shape h.link).1 h.attn.1 h.place fun a => by
    rw [h.entry a]; exact ⟨rfl, rfl, rfl, rfl⟩

/-! ### Changes that go unnoticed -/

/-- The host port, the windows, the clock, the timing table, the bindings, the cache and the levels of the reset inputs. -/
theorem unnoticed_outside (s : State) (p : HostPort) (w : Vector Window 8) (c : Cache) (q : List Instr) (i : Pins) :
    Unnoticed s { s with pending := q, pins := i, port := p, windows := w, cache := c } :=
  ⟨rfl, rfl, rfl, rfl, fun _ => rfl, ⟨rfl, rfl⟩, rfl, ⟨rfl, rfl, id⟩, rfl, id, rfl, id⟩

theorem unnoticed_port (s : State) (p : HostPort) : Unnoticed s { s with port := p } :=
  unnoticed_outside s p s.windows s.cache s.pending s.pins

theorem unnoticed_reply (s : State) (r : Answer) : Unnoticed s (s.reply r) := unnoticed_port s _

theorem unnoticed_mbx (s : State) (m : Mailbox) (h : m.busy = s.mbx.busy) : Unnoticed s { s with mbx := m } :=
  ⟨rfl, rfl, rfl, rfl, fun _ => rfl, ⟨rfl, rfl⟩, rfl, ⟨rfl, rfl, id⟩, rfl, id, h, id⟩

theorem unnoticed_events (s : State) (u : EventUnit) (h : u.hasPlace = true → s.events.hasPlace = true) :
    Unnoticed s { s with events := u } :=
  ⟨rfl, rfl, rfl, rfl, fun _ => rfl, ⟨rfl, rfl⟩, rfl, ⟨rfl, rfl, id⟩, rfl, id, rfl, h⟩

theorem unnoticed_post (p : Posted) (s : State) : Unnoticed s (post p s) := unnoticed_events s _ EventUnit.hasPlace_post

theorem unnoticed_autoload (s : State) (al : Autoload) (h : al.phase ≠ .idle ↔ s.autoload.phase ≠ .idle) :
    Unnoticed s { s with autoload := al } :=
  ⟨rfl, rfl, rfl, rfl, fun _ => rfl, ⟨rfl, rfl⟩, rfl, ⟨rfl, rfl, id⟩, decide_eq_decide.mpr h, id, rfl, id⟩

theorem unnoticed_engine (s : State) (l : Link) (line : List Byte) (h : l.shape = s.engine.link.shape) :
    Unnoticed s { s with engine := { s.engine with link := l, line := line } } :=
  ⟨rfl, rfl, h, rfl, fun _ => rfl, ⟨rfl, rfl⟩, rfl, ⟨rfl, rfl, id⟩, rfl, id, rfl, id⟩

theorem drainReads_iff (s : State) : s.drainReads = true ↔ ∀ i, (vget s.slots i).isPending = false := by
  simp only [State.drainReads, List.all_eq_true, Bool.not_eq_true']
  constructor
  · intro h i; exact h _ (List.getElem_mem (by simp))
  · intro h x hx
    obtain ⟨i, hi, rfl⟩ := List.getElem_of_mem hx
    exact h ⟨i, by simpa using hi⟩

/-- A slot that is not PENDING is given another content. -/
theorem unnoticed_setSlot (s : State) (i : Fin 4) (x : Slot) (h : (vget s.slots i).isPending = false) :
    Unnoticed s (s.setSlot i x) :=
  ⟨rfl, rfl, rfl, rfl, fun _ => rfl, ⟨rfl, rfl⟩, rfl, ⟨rfl, rfl, id⟩, rfl, fun hd => (drainReads_iff s).mpr fun j => by
    have := (drainReads_iff _).mp hd j
    simp only [State.setSlot] at this
    rw [vget_vset] at this
    split at this
    · rename_i hij; exact hij ▸ h
    · exact this, rfl, id⟩

theorem shape_later (d : Nat) (l : Link) : (l.later d).shape = l.shape := by
  cases l with
  | holdoff r e => simp only [Link.later]; split <;> rfl
  | _ => rfl

/-- Time passes unnoticed. -/
theorem unnoticed_advance (d : Nat) (s : State) : Unnoticed s (advance d s) where
  queue := rfl
  mgmt := rfl
  link := shape_later d _
  reset := rfl
  entry a := by
    show vget (if s.pollsRun then _ else s.modules) a = _
    unfold State.entry advance
    dsimp only
    split
    · rw [vget_vmap]
    · rfl
  disc := ⟨rfl, rfl⟩
  power := rfl
  attn := ⟨rfl, rfl, id⟩
  runs := rfl
  reads h := (drainReads_iff s).mpr fun i => by
    have := (drainReads_iff _).mp h i
    simp only [advance] at this
    rw [vget_vmap] at this
    cases hi : vget s.slots i <;> rw [hi] at this <;> exact this
  mbx := rfl
  place := id

/-! ### What every command closes with -/

/-- An event closes with the work that follows, or changes nothing that the laws between events notice. -/
inductive Closes (s : State) : State → Prop
  | settled (u t : State) (h : Unnoticed (settle u) t) : Closes s t
  | unnoticed (t : State) (h : Unnoticed s t) : Closes s t

theorem closes_settle (s u : State) : Closes s (settle u) := .settled u _ (.refl _)

theorem closes_settle_reply (s u : State) (r : Answer) : Closes s ((settle u).reply r) := .settled u _ (unnoticed_reply _ r)

theorem closes_refl (s : State) : Closes s s := .unnoticed s (.refl s)

theorem closes_reply (s : State) (r : Answer) : Closes s (s.reply r) := .unnoticed _ (unnoticed_reply s r)

/-- What goes unnoticed may come first. -/
theorem Unnoticed.closes {s t u : State} (h : Unnoticed s t) (k : Closes t u) : Closes s u := by
  cases k with
  | settled v u k => exact .settled v u k
  | unnoticed u k => exact .unnoticed u (h.trans k)

theorem Closes.laws {s t : State} (h : Closes s t) : (QuietLaw s → QuietLaw t) ∧ (DueLaw s → DueLaw t) := by
  cases h with
  | settled u t h =>
    obtain ⟨hq, hd⟩ := settle_laws u
    exact ⟨fun _ => h.quietLaw hq, fun _ => h.dueLaw hd⟩
  | unnoticed t h => exact ⟨h.quietLaw, h.dueLaw⟩

/-! ### The link engine's events -/

/-- An event that leaves the state as it is, or closes. -/
theorem closes_ite {c : Prop} [Decidable c] {s t u : State} (ht : c → Closes s t) (hu : ¬c → Closes s u) :
    Closes s (if c then t else u) := by
  split
  · exact ht ‹_›
  · exact hu ‹_›

theorem closes_endRequest (order : PostOrder) (r : Request) (o : LinkOutcome) (data : List Byte) (s : State) :
    Closes s (endRequest order r o data s) := by
  unfold endRequest
  exact closes_settle s _

/-- The link carries its request on. -/
theorem unnoticed_request {s : State} {r q : Request} (l : Link) (line : List Byte) (h : s.engine.link.request? = some q)
    (hl : l.request? = some r) (hsrc : r.source = q.source) :
    Unnoticed s { s with engine := { s.engine with link := l, line := line } } := by
  have shape : ∀ {k : Link} {p : Request}, k.request? = some p → k.shape = .request p.source := fun {k p} hk => by
    cases k <;> simp only [Link.request?, Option.some.injEq, reduceCtorEq] at hk <;> rw [← hk] <;> rfl
  exact unnoticed_engine s l line (by rw [shape h, shape hl, hsrc])

theorem unnoticed_carry {s : State} {r q : Request} (h : s.engine.link.request? = some q) (hsrc : r.source = q.source) :
    Unnoticed s (carry r s) := unnoticed_request (.carrying r) s.engine.line h rfl hsrc

theorem unnoticed_sendAgain {s : State} {r q : Request} (h : s.engine.link.request? = some q) (hsrc : r.source = q.source) :
    Unnoticed s (sendAgain r s) := unnoticed_request (r := { r with attempt := .sending }) _ _ h rfl hsrc

theorem closes_attemptFails (order : PostOrder) {r q : Request} (idle : Nat) {s : State} (h : s.engine.link.request? = some q)
    (hsrc : r.source = q.source) : Closes s (attemptFails order r idle s) :=
  closes_ite (fun _ => .unnoticed _ (unnoticed_carry h hsrc)) fun _ => closes_endRequest order r .noResponse [] s

theorem closes_validResponse (order : PostOrder) (r : Request) (p : Response) (s : State) :
    Closes s (validResponse order r p s) := by
  unfold validResponse
  dsimp only
  split
  · exact closes_settle s _
  · unfold endRequest; exact closes_settle s _

theorem closes_checkResponse (order : PostOrder) (r : Request) (frame : List Byte) (s : State) (h : s.engine.link = .carrying r) :
    Closes s (checkResponse order r frame s) := by
  have hr : s.engine.link.request? = some r := by rw [h]; rfl
  unfold checkResponse
  split
  · exact closes_attemptFails order 0 hr rfl
  · exact closes_ite (fun _ => closes_validResponse order r _ s) fun _ => closes_attemptFails order 0 hr rfl

theorem closes_takeResponse (order : PostOrder) (frame : List Byte) (s : State) : Closes s (takeResponse order frame s) := by
  unfold takeResponse
  cases h : s.engine.link with
  | carrying r =>
    dsimp only
    cases r.attempt with
    | awaiting n => exact closes_checkResponse order r frame s h
    | receiving => exact closes_checkResponse order r frame s h
    | _ => exact closes_refl s
  | _ => exact closes_refl s

theorem closes_timeoutExpires (order : PostOrder) (s : State) : Closes s (timeoutExpires order s) := by
  unfold timeoutExpires
  cases h : s.engine.link with
  | carrying r =>
    dsimp only
    cases r.attempt with
    | awaiting n =>
      obtain ⟨q, hq, hsrc⟩ := request?_advance (d := r.params.respTimeout - n) (s := s) (r := r) (by rw [h]; rfl)
      exact (unnoticed_advance _ s).closes (closes_attemptFails order _ hq hsrc)
    | _ => exact closes_refl s
  | _ => exact closes_refl s

theorem closes_frameSent (s : State) : Closes s (frameSent s) := by
  unfold frameSent
  cases h : s.engine.link with
  | carrying r => exact closes_ite (fun _ => .unnoticed _ (unnoticed_carry (q := r) (by rw [h]; rfl) rfl)) fun _ => closes_refl s
  | _ => exact closes_refl s

theorem closes_leadIn (s : State) : Closes s (leadIn s) := by
  unfold leadIn
  cases h : s.engine.link with
  | carrying r =>
    dsimp only
    cases r.attempt with
    | awaiting n => exact .unnoticed _ (unnoticed_carry (q := r) (by rw [h]; rfl) rfl)
    | _ => exact closes_refl s
  | _ => exact closes_refl s

theorem closes_sendAgain (r : Request) (d : Nat) (s : State) (h : s.engine.link.request? = some r) :
    Closes s (sendAgain r (advance d s)) := by
  obtain ⟨q, hq, hsrc⟩ := request?_advance (d := d) h
  exact .unnoticed _ ((unnoticed_advance d s).trans (unnoticed_sendAgain hq hsrc))

theorem closes_retransmit (s : State) : Closes s (retransmit s) := by
  unfold retransmit
  cases h : s.engine.link with
  | carrying r =>
    dsimp only
    cases r.attempt with
    | gap n => exact closes_sendAgain r _ s (by rw [h]; rfl)
    | _ => exact closes_refl s
  | _ => exact closes_refl s

theorem closes_holdoffEnds (s : State) : Closes s (holdoffEnds s) := by
  unfold holdoffEnds
  cases h : s.engine.link with
  | holdoff r n => exact closes_sendAgain r _ s (by rw [h]; rfl)
  | carrying r =>
    dsimp only
    cases r.attempt with
    | resend => exact closes_sendAgain r _ s (by rw [h]; rfl)
    | _ => exact closes_refl s
  | _ => exact closes_refl s

theorem closes_arbiterAct (s : State) : Closes s (arbiterAct s) := by
  unfold arbiterAct
  split
  · split
    · exact closes_ite (fun _ => closes_refl s) fun _ => closes_settle s _
    · exact closes_settle s _
  · exact closes_refl s

theorem closes_pacingEnds (a : ModAddr) (s : State) : Closes s (pacingEnds a s) :=
  closes_ite (fun _ => closes_refl s) fun _ => (unnoticed_advance _ s).closes (closes_arbiterAct _)

theorem closes_broadcastSent (s : State) : Closes s (broadcastSent s) :=
  closes_ite (fun _ => closes_settle s _) fun _ => closes_refl s

theorem closes_settledEnds (s : State) : Closes s (settledEnds s) := by
  unfold settledEnds
  cases s.engine.link with
  | settling n w => exact closes_settle s _
  | _ => exact closes_refl s

/-! ### Timers, power and the ATTN level -/

theorem closes_queryTimerExpires (s : State) : Closes s (queryTimerExpires s) := by
  unfold queryTimerExpires
  split
  · exact closes_ite (fun _ => closes_settle s _) fun _ => closes_refl s
  · exact closes_refl s

theorem closes_pollTimerExpires (a : ModAddr) (s : State) : Closes s (pollTimerExpires a s) := by
  unfold pollTimerExpires
  split
  · exact closes_ite (fun _ => closes_settle s _) fun _ => closes_refl s
  · exact closes_refl s

theorem closes_discardTimerExpires (i : Fin 4) (s : State) : Closes s (discardTimerExpires i s) := by
  unfold discardTimerExpires
  split
  · exact closes_settle s _
  · exact closes_refl s
  · exact closes_refl s

theorem closes_writePwr (sleepReq retain : Bool) (s : State) : Closes s (writePwr sleepReq retain s) :=
  closes_settle_reply s _ _

theorem closes_attnRises (s : State) : Closes s (attnRises s) :=
  closes_ite (fun _ => closes_refl s) fun _ => closes_settle s _

theorem closes_attnFalls (s : State) : Closes s (attnFalls s) :=
  .unnoticed _ ⟨rfl, rfl, rfl, rfl, fun _ => rfl, ⟨rfl, rfl⟩, rfl, ⟨rfl, rfl, fun h => absurd h (by simp [attnFalls])⟩, rfl, id, rfl, id⟩

theorem closes_drainEnds (s : State) : Closes s (drainEnds s) := closes_ite (fun _ => closes_settle s _) fun _ => closes_refl s

theorem closes_wakeSettles (s : State) : Closes s (wakeSettles s) := by
  unfold wakeSettles
  split
  · exact closes_ite (fun _ => closes_settle s _) fun _ => closes_refl s
  · exact closes_refl s

/-! ### The autoload unit -/

theorem closes_endRun (e : RunEnd) (s u : State) : Closes s (endRun e u) := by
  unfold endRun
  exact closes_settle s _

theorem closes_markerRead (b1 b2 : Byte) (s : State) : Closes s (markerRead b1 b2 s) :=
  closes_ite (fun _ => closes_ite (fun _ => .unnoticed _ (unnoticed_autoload s _ .rfl)) fun _ => closes_endRun _ s s)
    fun _ => closes_refl s

theorem closes_headerRead (v c l h : Byte) (s : State) : Closes s (headerRead v c l h s) := by
  unfold headerRead
  split
  · split
    · exact closes_endRun _ s s
    · exact .unnoticed _ (unnoticed_autoload s _ .rfl)
  · exact closes_refl s

theorem closes_imageRead (bs : List Byte) (s : State) : Closes s (imageRead bs s) := by
  unfold imageRead
  dsimp only
  split
  · rename_i h
    exact .unnoticed _ (unnoticed_autoload s _ ⟨fun _ => by rw [h.1]; simp, fun _ => by dsimp only; split <;> simp⟩)
  · exact closes_refl s

theorem closes_verifyEnds (s : State) : Closes s (verifyEnds s) := by
  unfold verifyEnds
  split
  · dsimp only
    split
    · exact closes_endRun _ s s
    · exact closes_endRun _ s _
  · exact closes_refl s

/-! ### The host's accesses -/

theorem unnoticed_holdAccess (what : HeldFor) (s : State) : Unnoticed s (holdAccess what s) := unnoticed_port s _

theorem closes_postWrite (e : HostEntry) (s u : State) : Closes s (postWrite e u) := by
  unfold postWrite
  exact closes_settle s _

theorem closes_takeWrite (e : HostEntry) (s : State) : Closes s (takeWrite e s) :=
  closes_ite (fun _ => closes_postWrite e s s) fun _ =>
    closes_ite (fun _ => closes_reply s _) fun _ => .unnoticed _ (unnoticed_holdAccess _ s)

theorem closes_takeSlot (acc : ReadAccess) (i : Fin 4) (s : State) : Closes s (takeSlot acc i s) := by
  unfold takeSlot
  exact closes_settle s _

theorem closes_readFresh (acc : ReadAccess) (s : State) : Closes s (readFresh acc s) := by
  unfold readFresh
  split
  · exact closes_reply s _
  · exact closes_ite (fun _ => closes_takeSlot acc _ s) fun _ =>
      closes_ite (fun _ => closes_reply s _) fun _ => .unnoticed _ (unnoticed_holdAccess _ s)

theorem unnoticed_collect (i : Fin 4) (x : SlotInfo) (o : LinkOutcome) (data : Option Word) (s : State)
    (h : (vget s.slots i).isPending = false) : Unnoticed s (collect i x o data s) := by
  have h1 := (unnoticed_setSlot s i .free h).trans (unnoticed_reply _ (slotAnswer x o data))
  unfold collect
  dsimp only
  split
  · exact h1
  · exact h1.trans (unnoticed_port _ _)

theorem unnoticed_hitCollects (acc : ReadAccess) (s : State) : Unnoticed s (hitCollects acc s) := by
  unfold hitCollects
  split
  · exact .refl s
  · split
    · rename_i h; exact unnoticed_setSlot s _ _ (by rw [h]; rfl)
    · exact .refl s
    · exact .refl s

theorem closes_readPath (acc : ReadAccess) (s : State) : Closes s (readPath acc s) := by
  unfold readPath
  split
  · rename_i i _
    have h1 := unnoticed_outside s s.port s.windows (s.cache.touch i) s.pending s.pins
    exact .unnoticed _ (h1.trans ((unnoticed_hitCollects acc _).trans (unnoticed_reply _ _)))
  · split
    · split
      · rename_i h; exact .unnoticed _ (unnoticed_collect _ _ _ _ s (by rw [h]; rfl))
      · exact closes_reply s _
      · exact closes_readFresh acc s
    · exact closes_readFresh acc s

theorem unnoticed_refused (s : State) (r : WinFaultReason) (d : Dir) (x : BitVec 17) (n : BitVec 4) (ans : Answer) :
    Unnoticed s ((captureFault r d x n s).reply ans) := (unnoticed_port s _).trans (unnoticed_reply _ ans)

theorem closes_windowReadAccess (addr : BitVec 17) (lanes : BitVec 4) (s : State) : Closes s (windowReadAccess addr lanes s) := by
  unfold windowReadAccess
  split
  · exact .unnoticed _ (unnoticed_refused s _ _ _ _ _)
  · exact .unnoticed _ ((unnoticed_refused s _ _ _ _ _).trans (unnoticed_post _ _))
  · exact .unnoticed _ (unnoticed_refused s _ _ _ _ _)
  · exact closes_readPath _ s

theorem closes_windowWriteAccess (addr : BitVec 17) (lanes : BitVec 4) (data : Word) (s : State) :
    Closes s (windowWriteAccess addr lanes data s) := by
  unfold windowWriteAccess
  split
  · exact .unnoticed _ (unnoticed_refused s _ _ _ _ _)
  · exact .unnoticed _ ((unnoticed_refused s _ _ _ _ _).trans (unnoticed_post _ _))
  · exact .unnoticed _ (unnoticed_refused s _ _ _ _ _)
  · exact closes_takeWrite _ s

theorem unnoticed_endHold (s : State) : Unnoticed s (endHold s) := unnoticed_port s _

theorem closes_heldEnqueue (s : State) : Closes s (heldEnqueue s) := by
  unfold heldEnqueue
  split
  · split
    · exact closes_refl s
    · split
      · exact closes_postWrite _ s _
      · split
        · exact .unnoticed _ ((unnoticed_endHold s).trans (unnoticed_reply _ _))
        · exact closes_settle s _
      · exact closes_refl s
  · exact closes_refl s

theorem closes_holdExpires (s : State) : Closes s (holdExpires s) := by
  unfold holdExpires
  split
  · exact closes_refl s
  · rename_i h _
    have h1 := (unnoticed_advance (h.period - h.elapsed) s).trans (unnoticed_endHold _)
    dsimp only
    split
    · exact .unnoticed _ (h1.trans (unnoticed_reply _ _))
    · exact .unnoticed _ (h1.trans (unnoticed_reply _ _))
    · exact .unnoticed _ (h1.trans (unnoticed_reply _ _))

/-! ### The control registers -/

theorem closes_setWindow (n : Fin 8) (w : Window) (s : State) : Closes s (acceptWrite (s.setWindow n w)) :=
  .unnoticed _ ((unnoticed_outside s s.port (vset s.windows n w) s.cache s.pending s.pins).trans (unnoticed_reply _ _))

theorem closes_writeWinField (n : Fin 8) (f : WinField) (data : Word) (s : State) : Closes s (writeWinField n f data s) := by
  unfold writeWinField
  split
  · exact closes_reply s _
  · split
    · exact closes_setWindow n _ s
    · exact closes_reply s _

theorem closes_enableWindow (n : Fin 8) (s : State) : Closes s (enableWindow n s) :=
  closes_ite (fun _ => closes_reply s _) fun _ => closes_ite (fun _ => closes_reply s _) fun _ =>
    closes_ite (fun _ => closes_setWindow n _ s) fun _ => closes_reply s _

theorem closes_disableWindow (n : Fin 8) (s : State) : Closes s (disableWindow n s) :=
  closes_ite (fun _ => closes_reply s _) fun _ => closes_setWindow n _ s

/-- A register of the host port is written. -/
theorem closes_portWrite (s : State) (p : HostPort) : Closes s (acceptWrite { s with port := p }) :=
  .unnoticed _ ((unnoticed_port s p).trans (unnoticed_reply _ _))

theorem closes_writeTiming (p : Param) (data : Word) (s : State) : Closes s (writeTiming p data s) :=
  closes_ite (fun _ => closes_reply s _) fun _ => closes_settle_reply s _ _

/-- A register of the event unit is written. -/
theorem closes_eventWrite (s : State) (u : EventUnit) (h : u.hasPlace = true → s.events.hasPlace = true) :
    Closes s (acceptWrite { s with events := u }) := .unnoticed _ ((unnoticed_events s u h).trans (unnoticed_reply _ _))

theorem closes_writeRoute (k : Kind) (data : Word) (s : State) : Closes s (writeRoute k data s) := by
  unfold writeRoute
  split
  · exact closes_reply s _
  · exact closes_ite (fun _ => closes_reply s _) fun _ => closes_eventWrite s _ id

theorem closes_writeEvtMode (data : Word) (s : State) : Closes s (writeEvtMode data s) :=
  closes_ite (fun _ => closes_eventWrite s _ id) fun _ => closes_ite (fun _ => closes_eventWrite s _ id) fun _ => closes_reply s _

theorem closes_popAccess (lanes : BitVec 4) (s : State) : Closes s (popAccess lanes s) := by
  unfold popAccess popRead
  split
  · dsimp only
    split
    · exact closes_settle_reply s _ _
    · exact closes_reply s _
  · exact closes_reply s _

theorem closes_writeRelease (data : Word) (s : State) : Closes s (writeRelease data s) :=
  closes_ite (fun _ => closes_reply s _) fun _ => closes_ite (fun _ => closes_settle_reply s _ _) fun _ =>
    closes_eventWrite s _ id

theorem closes_writeAuto (s : State) : Closes s (writeAuto s) :=
  closes_ite (fun _ => closes_reply s _) fun _ => closes_settle_reply s _ _

theorem closes_writeHeld (s : State) : Closes s (writeHeld s) := closes_settle_reply s _ _

theorem closes_writeMbxStatus (data : Word) (s : State) : Closes s (writeMbxStatus data s) :=
  .unnoticed _ ((unnoticed_mbx s { s.mbx with refused := s.mbx.refused && !data.getLsbD 8
                                              abortLate := s.mbx.abortLate && !data.getLsbD 9 } rfl).trans (unnoticed_reply _ _))

/-- The argument registers leave the mailbox's state alone. -/
theorem closes_writeArg (f : Mailbox → Mailbox) (s : State) (h : (f s.mbx).busy = s.mbx.busy) : Closes s (writeArg f s) :=
  closes_ite (fun _ => closes_reply s _) fun _ => .unnoticed _ ((unnoticed_mbx s _ h).trans (unnoticed_reply _ _))

theorem closes_writeGo (s : State) : Closes s (writeGo s) := closes_settle_reply s _ _

theorem closes_writeAbort (s : State) : Closes s (writeAbort s) := closes_settle_reply s _ _

theorem closes_addWaitingCommand (s : State) : Closes s (addWaitingCommand s) := by
  unfold addWaitingCommand
  split
  · split
    · split
      · exact closes_settle s _
      · exact closes_refl s
    · exact closes_refl s
  · exact closes_refl s

theorem closes_writeReg (r : Reg) (data : Word) (s : State) : Closes s (writeReg r data s) := by
  unfold writeReg
  cases r with
  | pwrCtrl => exact closes_writePwr _ _ s
  | attnMode =>
    exact closes_ite (fun _ => closes_writeAuto s) fun _ => closes_ite (fun _ => closes_writeHeld s) fun _ => closes_reply s _
  | winFault => exact closes_portWrite s _
  | readFault => exact closes_portWrite s _
  | timing p => exact closes_writeTiming p data s
  | mbxOp => exact closes_writeArg _ s rfl
  | mbxTarget => exact closes_writeArg _ s rfl
  | mbxOffset => exact closes_writeArg _ s rfl
  | mbxWidth => exact closes_writeArg _ s rfl
  | mbxData => exact closes_writeArg _ s rfl
  | mbxXdata => exact closes_writeArg _ s rfl
  | mbxFlags => exact closes_writeArg _ s rfl
  | mbxGo => exact closes_writeGo s
  | mbxAbort => exact closes_writeAbort s
  | mbxStatus => exact closes_writeMbxStatus data s
  | evtRelease => exact closes_writeRelease data s
  | evtMode => exact closes_writeEvtMode data s
  | evtLineEn => exact closes_eventWrite s _ id
  | evtStatus => exact closes_eventWrite s _ id
  | evtRoute k => exact closes_writeRoute k data s
  | bindSel => exact closes_ite (fun _ => closes_portWrite s _) fun _ => closes_reply s _
  | modSel => exact closes_ite (fun _ => closes_portWrite s _) fun _ => closes_reply s _
  | win n f => exact closes_writeWinField n f data s
  | winEnable n => exact closes_ite (fun _ => closes_enableWindow n s) fun _ => closes_disableWindow n s
  | _ => exact closes_reply s _

/-! ### Every command -/

theorem closes_whenLive {f : State → State} {s : State} (h : Closes s (f s)) : Closes s (whenLive f s) :=
  closes_ite (fun _ => closes_refl s) fun _ => h

theorem closes_hostAccess {f : State → State} {s : State} (h : Closes s (f s)) : Closes s (hostAccess f s) :=
  closes_ite (fun _ => h) fun _ => closes_refl s

theorem closes_fullAccess (lanes : BitVec 4) {f : State → State} {s : State} (h : Closes s (f s)) :
    Closes s (hostAccess (fullWrite lanes f) s) :=
  closes_hostAccess (closes_ite (fun _ => h) fun _ => closes_reply s _)

theorem closes_registerAccess (offset : BitVec 12) (lanes : BitVec 4) (data : Word) (s : State) :
    Closes s (registerAccess offset lanes data s) := by
  unfold registerAccess
  split
  · exact closes_ite (fun _ => closes_writeReg _ data s) fun _ => closes_reply s _
  · exact closes_reply s _

/-- How a command ends: the event closes; a cold reset; or a reset input is released. -/
inductive Ends (s : State) : State → Prop
  | closes (p : Pins) (t : State) (h : Closes { s with pins := p } t) : Ends s t
  | cold (p : Pins) : Ends s (coldState { s with pins := p })
  | released (pin : ResetPin) : Ends s (releasePin pin s)

theorem ends_of_closes {s t : State} (h : Closes s t) : Ends s t := .closes s.pins t h

theorem assertHost_ends (s : State) : Ends s (assertHost s) := by
  unfold assertHost
  split
  · exact ends_of_closes (closes_refl s)
  · dsimp only
    split
    · exact .closes { s.pins with host := true } _ (closes_settle _ _)
    · exact .cold _

theorem assertCold_ends (s : State) : Ends s (assertCold s) := by
  unfold assertCold
  split
  · exact ends_of_closes (closes_refl s)
  · exact .cold _

theorem exec_ends (c : Instr) (s : State) : ∃ t, exec c s = .next t ∧ Ends s t := by
  cases c with
  | coldReset pin =>
    cases pin with
    | coldRst => exact ⟨_, rfl, assertCold_ends s⟩
    | hostRst => exact ⟨_, rfl, assertHost_ends s⟩
  | windowRead addr lanes =>
    exact ⟨_, rfl, ends_of_closes (closes_ite (fun _ => closes_hostAccess (closes_windowReadAccess addr lanes s))
      fun _ => closes_refl s)⟩
  | windowWrite addr lanes data =>
    exact ⟨_, rfl, ends_of_closes (closes_ite (fun _ => closes_hostAccess (closes_windowWriteAccess addr lanes data s))
      fun _ => closes_refl s)⟩
  | noTargetAccess dir addr lanes =>
    exact ⟨_, rfl, ends_of_closes (closes_ite (fun _ => closes_hostAccess (closes_reply s _)) fun _ => closes_refl s)⟩
  | hostPortReset => exact ⟨_, rfl, assertHost_ends s⟩
  | resetRelease pin => exact ⟨_, rfl, .released pin⟩
  | attnAsserted => exact ⟨_, rfl, ends_of_closes (closes_whenLive (closes_attnRises s))⟩
  | attnReleased => exact ⟨_, rfl, ends_of_closes (closes_whenLive (closes_attnFalls s))⟩
  | heldAccessEnqueue => exact ⟨_, rfl, ends_of_closes (closes_whenLive (closes_heldEnqueue s))⟩
  | hostHoldExpiry => exact ⟨_, rfl, ends_of_closes (closes_whenLive (closes_holdExpires s))⟩
  | registerWrite offset lanes data => exact ⟨_, rfl, ends_of_closes (closes_hostAccess (closes_registerAccess offset lanes data s))⟩
  | winFieldWrite n f lanes data => exact ⟨_, rfl, ends_of_closes (closes_fullAccess lanes (closes_writeWinField n f data s))⟩
  | winEnable n lanes => exact ⟨_, rfl, ends_of_closes (closes_fullAccess lanes (closes_enableWindow n s))⟩
  | winDisable n lanes => exact ⟨_, rfl, ends_of_closes (closes_fullAccess lanes (closes_disableWindow n s))⟩
  | winFaultReset lanes => exact ⟨_, rfl, ends_of_closes (closes_fullAccess lanes (closes_portWrite s _))⟩
  | readFaultReset lanes => exact ⟨_, rfl, ends_of_closes (closes_fullAccess lanes (closes_portWrite s _))⟩
  | bindSelWrite lanes data => exact ⟨_, rfl, ends_of_closes (closes_fullAccess lanes (closes_writeReg .bindSel data s))⟩
  | modSelWrite lanes data => exact ⟨_, rfl, ends_of_closes (closes_fullAccess lanes (closes_writeReg .modSel data s))⟩
  | timingWrite p lanes data => exact ⟨_, rfl, ends_of_closes (closes_fullAccess lanes (closes_writeTiming p data s))⟩
  | routeWrite k lanes data => exact ⟨_, rfl, ends_of_closes (closes_fullAccess lanes (closes_writeRoute k data s))⟩
  | evtModeWrite lanes data => exact ⟨_, rfl, ends_of_closes (closes_fullAccess lanes (closes_writeEvtMode data s))⟩
  | evtLineEnWrite lanes data => exact ⟨_, rfl, ends_of_closes (closes_fullAccess lanes (closes_eventWrite s _ id))⟩
  | evtStatusClear lanes data => exact ⟨_, rfl, ends_of_closes (closes_fullAccess lanes (closes_eventWrite s _ id))⟩
  | evtPop lanes => exact ⟨_, rfl, ends_of_closes (closes_hostAccess (closes_popAccess lanes s))⟩
  | evtRelease lanes data => exact ⟨_, rfl, ends_of_closes (closes_fullAccess lanes (closes_writeRelease data s))⟩
  | attnModeAuto lanes => exact ⟨_, rfl, ends_of_closes (closes_fullAccess lanes (closes_writeAuto s))⟩
  | attnModeHeld lanes => exact ⟨_, rfl, ends_of_closes (closes_fullAccess lanes (closes_writeHeld s))⟩
  | sleepRequest retain lanes => exact ⟨_, rfl, ends_of_closes (closes_fullAccess lanes (closes_writePwr true retain s))⟩
  | sleepCancel retain lanes => exact ⟨_, rfl, ends_of_closes (closes_fullAccess lanes (closes_writePwr false retain s))⟩
  | retainWrite retain lanes => exact ⟨_, rfl, ends_of_closes (closes_fullAccess lanes (closes_writePwr s.power.sleepReq retain s))⟩
  | mbxStatusClear lanes data => exact ⟨_, rfl, ends_of_closes (closes_fullAccess lanes (closes_writeMbxStatus data s))⟩
  | mbxWaitingEnqueue => exact ⟨_, rfl, ends_of_closes (closes_whenLive (closes_addWaitingCommand s))⟩
  | mbxAbort lanes => exact ⟨_, rfl, ends_of_closes (closes_fullAccess lanes (closes_writeAbort s))⟩
  | arbiterGrant => exact ⟨_, rfl, ends_of_closes (closes_whenLive (closes_arbiterAct s))⟩
  | broadcastSent => exact ⟨_, rfl, ends_of_closes (closes_whenLive (closes_broadcastSent s))⟩
  | settled => exact ⟨_, rfl, ends_of_closes (closes_whenLive (closes_settledEnds s))⟩
  | responseReceived frame order => exact ⟨_, rfl, ends_of_closes (closes_whenLive (closes_takeResponse order frame s))⟩
  | responseTimeout order => exact ⟨_, rfl, ends_of_closes (closes_whenLive (closes_timeoutExpires order s))⟩
  | retransmission => exact ⟨_, rfl, ends_of_closes (closes_whenLive (closes_retransmit s))⟩
  | holdoffEnd => exact ⟨_, rfl, ends_of_closes (closes_whenLive (closes_holdoffEnds s))⟩
  | pacingIntervalEnd a => exact ⟨_, rfl, ends_of_closes (closes_whenLive (closes_pacingEnds a s))⟩
  | discoveryTimerExpiry => exact ⟨_, rfl, ends_of_closes (closes_whenLive (closes_queryTimerExpires s))⟩
  | pollTimerExpiry a => exact ⟨_, rfl, ends_of_closes (closes_whenLive (closes_pollTimerExpires a s))⟩
  | discardTimerExpiry i => exact ⟨_, rfl, ends_of_closes (closes_whenLive (closes_discardTimerExpires i s))⟩
  | autoloadMarkerRead b1 b2 => exact ⟨_, rfl, ends_of_closes (closes_whenLive (closes_markerRead b1 b2 s))⟩
  | autoloadHeaderRead v c l h => exact ⟨_, rfl, ends_of_closes (closes_whenLive (closes_headerRead v c l h s))⟩
  | autoloadImageRead bs => exact ⟨_, rfl, ends_of_closes (closes_whenLive (closes_imageRead bs s))⟩
  | autoloadVerifyEnd => exact ⟨_, rfl, ends_of_closes (closes_whenLive (closes_verifyEnds s))⟩
  | drainComplete => exact ⟨_, rfl, ends_of_closes (closes_whenLive (closes_drainEnds s))⟩
  | wakeSettleEnd => exact ⟨_, rfl, ends_of_closes (closes_whenLive (closes_wakeSettles s))⟩
  | hostRstRelease => exact ⟨_, rfl, .released .hostRst⟩
  | requestFrameSent => exact ⟨_, rfl, ends_of_closes (closes_whenLive (closes_frameSent s))⟩
  | responseLeadIn => exact ⟨_, rfl, ends_of_closes (closes_whenLive (closes_leadIn s))⟩
  | mbxRead lanes => exact ⟨_, rfl, ends_of_closes (closes_fullAccess lanes (closes_writeGo s))⟩
  | mbxWrite lanes => exact ⟨_, rfl, ends_of_closes (closes_fullAccess lanes (closes_writeGo s))⟩
  | mbxDescRead lanes => exact ⟨_, rfl, ends_of_closes (closes_fullAccess lanes (closes_writeGo s))⟩
  | bind lanes => exact ⟨_, rfl, ends_of_closes (closes_fullAccess lanes (closes_writeGo s))⟩
  | unbind lanes => exact ⟨_, rfl, ends_of_closes (closes_fullAccess lanes (closes_writeGo s))⟩
  | readmit lanes => exact ⟨_, rfl, ends_of_closes (closes_fullAccess lanes (closes_writeGo s))⟩
  | forget lanes => exact ⟨_, rfl, ends_of_closes (closes_fullAccess lanes (closes_writeGo s))⟩
  | discoverNow lanes => exact ⟨_, rfl, ends_of_closes (closes_fullAccess lanes (closes_writeGo s))⟩
  | linkReset lanes => exact ⟨_, rfl, ends_of_closes (closes_fullAccess lanes (closes_writeGo s))⟩
  | flushCache lanes => exact ⟨_, rfl, ends_of_closes (closes_fullAccess lanes (closes_writeGo s))⟩
  | reload lanes => exact ⟨_, rfl, ends_of_closes (closes_fullAccess lanes (closes_writeGo s))⟩
  | mbxGoNoCommand lanes => exact ⟨_, rfl, ends_of_closes (closes_fullAccess lanes (closes_writeGo s))⟩

theorem ends_of_exec {c : Instr} {s t : State} (h : exec c s = .next t) : Ends s t := by
  obtain ⟨u, hu, he⟩ := exec_ends c s
  rw [h] at hu
  injection hu with hu
  exact hu ▸ he

/-! ### The laws (O14, O15) -/

theorem cold_quietLaw (s : State) : QuietLaw (coldState s) where
  head := fun _ e rest hq => absurd hq (by simp [coldState])
  wake := fun h => absurd h.1 (by simp [coldState])
  drain := fun h => absurd h.1 (by simp [coldState])
  disc := ⟨fun _ => .inl rfl, fun h => absurd h (by simp [State.suspended, coldState])⟩

theorem cold_dueLaw (s : State) : DueLaw (coldState s) := fun _ =>
  ⟨rfl, fun a => by rw [cold_entry]; exact ⟨rfl, rfl, by simp, by simp⟩⟩

theorem releasePin_dueLaw (pin : ResetPin) {s : State} (h : DueLaw s) : DueLaw (releasePin pin s) := by
  unfold releasePin
  dsimp only
  split <;> exact h

/-- The run that begins as a cold reset ends suspends discovery, as the pending broadcast does (R29, R172). -/
theorem releasePin_quietLaw (pin : ResetPin) {s : State} (h : QuietLaw s) (hh : HoldLaw s) : QuietLaw (releasePin pin s) := by
  unfold releasePin
  dsimp only
  split
  · rename_i hp
    have hhold : s.pins.hold = true := by cases pin <;> exact hp.1
    refine ⟨h.head, h.wake, fun hd => ?_, fun _ => .inl ?_, fun hs => absurd hs (by simp [State.suspended, State.autoloadRuns, beginRun])⟩
    · have hpow : s.power.state = .active := congrArg (fun u => u.power.state) (hh hhold)
      exact absurd (hpow.symm.trans hd.1) (by simp)
    · exact congrArg (fun u => u.disc.state) (hh hhold)
  · exact (unnoticed_outside s s.port s.windows s.cache s.pending (s.pins.release pin)).quietLaw h

/-- Settles O14: every event closes with the work that follows, or touches nothing that the laws read. -/
theorem quietLawKept : Obligations.QuietLawKept := by
  intro s t hs hstep
  refine ⟨?_, holdLawKept s t hs.2 hstep⟩
  unfold step at hstep
  split at hstep
  · injection hstep with hstep
    exact hstep ▸ (unnoticed_advance 1 s).quietLaw hs.1
  · rename_i c rest _
    have hlevels : ∀ p, QuietLaw { s with pending := rest, pins := p } := fun p =>
      (unnoticed_outside s s.port s.windows s.cache rest p).quietLaw hs.1
    cases ends_of_exec hstep with
    | closes p t h => exact h.laws.1 (hlevels p)
    | cold p => exact cold_quietLaw _
    | released pin =>
      exact releasePin_quietLaw pin (hlevels s.pins) fun h => congrArg (fun u : State => { u with pending := rest }) (hs.2 h)

/-- Settles O15: as O14, of the work that is due. -/
theorem dueLawKept : Obligations.DueLawKept := by
  intro s t hs hstep
  unfold step at hstep
  split at hstep
  · injection hstep with hstep
    exact hstep ▸ (unnoticed_advance 1 s).dueLaw hs
  · rename_i c rest _
    cases ends_of_exec hstep with
    | closes p t h => exact h.laws.2 hs
    | cold p => exact cold_dueLaw _
    | released pin => exact releasePin_dueLaw pin hs

end Sys2Proof.Machine
end

section
/-! PROOFS. The machine, the reset values, and the cold reset (O1, O2, O5, O6, O19). -/

namespace Sys2Proof.Machine

/-! ### The machine -/

/-- Settles O1: by the definition of a step. -/
theorem stepRunsFrontCommand : Obligations.StepRunsFrontCommand := fun _ _ => rfl

theorem pollsRun_iff (s : State) : s.pollsRun = true ↔ s.power.state = .active ∨ s.power.state = .draining := by
  simp [State.pollsRun]

theorem advance_slots (d : Nat) (s : State) (i : Fin 4) : vget (advance d s).slots i = (vget s.slots i).later d :=
  vget_vmap _ s.slots i

theorem advance_entry (d : Nat) (s : State) (a : ModAddr) :
    (advance d s).entry a = { s.entry a with
      pollTimer := if s.power.state = .active ∨ s.power.state = .draining then (s.entry a).pollTimer.map (· + d)
                   else (s.entry a).pollTimer } := by
  show vget (if s.pollsRun then vmap _ s.modules else s.modules) a = _
  by_cases h : s.power.state = .active ∨ s.power.state = .draining
  · rw [if_pos ((pollsRun_iff s).mpr h), if_pos h, vget_vmap]; rfl
  · rw [if_neg fun hp => h ((pollsRun_iff s).mp hp), if_neg h]; rfl

/-- Time passes and nothing else changes. -/
theorem onlyTimePasses_advance (d : Nat) (s : State) : OnlyTimePasses d s (advance d s) where
  rest := rfl
  slots i := by rw [advance_slots]; cases vget s.slots i <;> rfl
  modules := advance_entry d s

/-- Settles O2: on an empty queue the step is `advance 1`. -/
theorem emptyQueueLetsAMicrosecondPass : Obligations.EmptyQueueLetsAMicrosecondPass := by
  intro s hq
  have hengine : ∀ l, s.engine.link.later 1 = l → (advance 1 s).engine = { s.engine with link := l } := fun l hl => by
    rw [← hl]; rfl
  have hsame : s.engine.link.later 1 = s.engine.link → (advance 1 s).engine = s.engine := fun h => hengine _ h
  refine ⟨advance 1 s, by rw [step, hq], onlyTimePasses_advance 1 s, rfl, fun n h => ?_, fun n h => ?_, fun a n h => ?_,
    fun i x o d n h => ?_, fun h hh => ?_, fun h => ?_, fun r h hr => ?_, fun r n h hr => ?_, fun r n h hr => ?_, fun r n h => ?_,
    fun e w h => ?_⟩
  · simp [advance, h]
  · simp [advance, h]
  · rw [advance_entry, h]
    split <;> rfl
  · rw [advance_slots, h]; rfl
  · simp [advance, hh]
  · exact hsame (by rw [h]; rfl)
  · refine hsame ?_
    rw [h]
    have hlater : r.attempt.later 1 = r.attempt := by rcases hr with hr | hr | hr <;> rw [hr] <;> rfl
    show Link.carrying { r with attempt := r.attempt.later 1 } = .carrying r
    rw [hlater]
  · rw [hengine _ rfl, h]; simp [Link.later, Attempt.later, hr]
  · rw [hengine _ rfl, h]; simp [Link.later, Attempt.later, hr]
  · rw [hengine _ rfl, h]; rfl
  · rw [hengine _ rfl, h]; rfl

/-! ### The reset values (R197) -/

theorem reset_eq_coldState : State.reset = coldState State.reset := rfl

/-- Settles O5: each value read off the cold state. -/
theorem resetValues : Obligations.ResetValues := by
  have hentry : ∀ a, State.reset.entry a = {} := fun a => vget_replicate _ a
  refine ⟨rfl, rfl, rfl, rfl, rfl, rfl, fun k => ?_, rfl, rfl, rfl, rfl, rfl, rfl, rfl, rfl, rfl, rfl, rfl, rfl, rfl, rfl, rfl, rfl,
    rfl, rfl, rfl, rfl, rfl, rfl, rfl, rfl, rfl, rfl, fun a => ?_, fun n => ?_, fun i => vget_replicate _ i, fun i => vget_replicate _ i⟩
  · cases k <;> rfl
  · rw [hentry]; exact ⟨rfl, rfl, rfl, vget_replicate _ a⟩
  · exact congrArg Window.enabled (vget_replicate _ n)

/-- Settles O6: the reset state is a cold state, and a cold state obeys every law. -/
theorem resetKeepsEveryLaw : Obligations.ResetKeepsEveryLaw := by
  unfold Obligations.ResetKeepsEveryLaw
  rw [reset_eq_coldState]
  obtain ⟨hevent, hroute⟩ := cold_eventLaw State.reset
  obtain ⟨hwindow, hbinding, htiming, hselect⟩ := cold_configuration State.reset
  obtain ⟨hmodule, hempty⟩ := cold_moduleTable State.reset
  obtain ⟨hmailbox, hheld⟩ := cold_mailboxLaw State.reset
  exact ⟨hevent, fun i r hr => absurd hr (by simp [coldState]), hroute, ⟨Nat.zero_le 16, Nat.zero_le 8⟩, hwindow, hbinding, htiming,
    hselect, hmodule, hempty, cold_cacheLaw _, hmailbox, hheld, cold_quietLaw _, cold_dueLaw _, fun _ => rfl, holdLaw_coldState _,
    cold_attnLaw _⟩

/-! ### The cold reset and its release (R172, R196, R197) -/

theorem releasePin_begins {pin : ResetPin} {s : State} (hhold : s.pins.hold = true) (hcold : (s.pins.release pin).cold = false)
    (hhost : (s.pins.release pin).host = false) : releasePin pin s = beginRun .cold { s with pins := ⟨false, false, false⟩ } := by
  have hh : (s.pins.release pin).hold = true := by cases pin <;> exact hhold
  unfold releasePin
  dsimp only
  rw [if_pos ⟨hh, hcold, hhost⟩, hcold, hhost]

theorem releasePin_waits {pin : ResetPin} {s : State}
    (h : (s.pins.release pin).hold = false ∨ (s.pins.release pin).cold = true ∨ (s.pins.release pin).host = true) :
    releasePin pin s = { s with pins := s.pins.release pin } := by
  unfold releasePin
  dsimp only
  refine if_neg fun ⟨h1, h2, h3⟩ => ?_
  rcases h with h | h | h
  · rw [h] at h1; exact absurd h1 (by simp)
  · rw [h] at h2; exact absurd h2 (by simp)
  · rw [h] at h3; exact absurd h3 (by simp)

/-- HOST_RST with RETAIN clear is a cold reset (log entry 14). -/
theorem assertHost_cold {s : State} (hhost : s.pins.host = false) (hretain : s.power.retain = false) :
    assertHost s = coldState { s with pins := { s.pins with host := true } } := by
  unfold assertHost
  rw [if_neg (by simp [hhost])]
  exact if_neg (by simp [hretain])

/-- Settles O19: the levels of the two inputs choose the branch. -/
theorem coldResetAndRelease : Obligations.ColdResetAndRelease := by
  intro s
  refine ⟨fun h => ?_, fun c hc hhost hretain => ?_, fun hhold hhost => ?_, fun hhold hcold => ?_, fun h => ?_, fun h => ?_⟩
  · show Host.Outcome.next (assertCold s) = _
    rw [assertCold, if_neg (by simp [h])]
    rfl
  · have hexec : exec c s = .next (assertHost s) := by rcases hc with rfl | rfl <;> rfl
    rw [hexec, assertHost_cold hhost hretain]
    rfl
  · show Host.Outcome.next (releasePin .coldRst s) = _
    rw [releasePin_begins (pin := .coldRst) hhold rfl hhost]
    rfl
  · show Host.Outcome.next (releasePin .hostRst s) = _
    rw [releasePin_begins (pin := .hostRst) hhold hcold rfl]
    rfl
  · show Host.Outcome.next (releasePin .coldRst s) = _
    rw [releasePin_waits (pin := .coldRst) (.inr (.inr h))]
    rfl
  · show Host.Outcome.next (releasePin .hostRst s) = _
    rw [releasePin_waits (pin := .hostRst) (.inr (.inl h))]
    rfl

end Sys2Proof.Machine
end

section
/-! PROOFS. Window accesses that end at once: the decoder's refusals, the full queue, and the reads that need no request (O22, O23,
O25 to O27). -/

namespace Sys2Proof.Machine

/-! ### What an access comes to -/

theorem exec_windowWrite (addr : BitVec 17) (lanes : BitVec 4) (data : Word) (s : State) :
    exec (.windowWrite addr lanes data) s = execWindowWrite addr lanes data s := rfl

theorem exec_windowRead_taken {s : State} {addr : BitVec 17} {lanes : BitVec 4} (hfree : s.portFree = true)
    (hspace : inWindowSpace addr = true) : exec (.windowRead addr lanes) s = .next (windowReadAccess addr lanes s) := by
  rw [exec_windowRead, execWindowRead, if_pos hspace, hostAccess_free _ _ hfree]

theorem exec_windowWrite_taken {s : State} {addr : BitVec 17} {lanes : BitVec 4} {data : Word} (hfree : s.portFree = true)
    (hspace : inWindowSpace addr = true) : exec (.windowWrite addr lanes data) s = .next (windowWriteAccess addr lanes data s) := by
  rw [exec_windowWrite, execWindowWrite, if_pos hspace, hostAccess_free _ _ hfree]

/-- A write that the port takes and the window's tests pass is handed on (R72). -/
theorem exec_windowWrite_of_passes {s : State} {addr : BitVec 17} {lanes : BitVec 4} {data : Word} {n : Fin 8} {a : ModAddr}
    {lane : Nat} {w : Width} (hfree : s.portFree = true) (hpass : Passes s .write addr lanes n a lane w) :
    exec (.windowWrite addr lanes data) s = .next (takeWrite (writeEntry a (s.entry a).generation
      (remoteOffset (vget s.windows n) (winOffset (accessAddr addr lane))) w (fromLanes lane w data)) s) := by
  rw [exec_windowWrite_taken hfree hpass.space, windowWriteAccess, decodeAccess_passes s .write addr lanes n a lane w hpass]

/-- The seven lane groups (R65). -/
theorem laneGroup?_iff (lanes : BitVec 4) (lane : Nat) (w : Width) :
    laneGroup? lanes = some (lane, w) ↔ (lanes, lane, w) ∈ [(0x1#4, 0, Width.one), (0x2#4, 1, .one), (0x4#4, 2, .one),
      (0x8#4, 3, .one), (0x3#4, 0, .two), (0xC#4, 2, .two), (0xF#4, 0, .four)] := by
  constructor
  · intro h
    have key : ∀ l : BitVec 4, ∀ p ∈ laneGroup? l, (l, p.1, p.2) ∈ [(0x1#4, 0, Width.one), (0x2#4, 1, .one), (0x4#4, 2, .one),
      (0x8#4, 3, .one), (0x3#4, 0, .two), (0xC#4, 2, .two), (0xF#4, 0, .four)] := by decide
    exact key lanes (lane, w) h
  · intro h
    have key : ∀ p ∈ [(0x1#4, 0, Width.one), (0x2#4, 1, .one), (0x4#4, 2, .one), (0x8#4, 3, .one), (0x3#4, 0, .two),
      (0xC#4, 2, .two), (0xF#4, 0, .four)], laneGroup? p.1 = some p.2 := by decide
    exact key (lanes, lane, w) h

/-! ### What the decoder answers -/

theorem decodeAccess_laneFault {s : State} {dir : Dir} {addr : BitVec 17} {lanes : BitVec 4} (h : laneGroup? lanes = none) :
    decodeAccess s dir addr lanes = .laneFault := by
  simp only [decodeAccess, h]

theorem decodeAccess_unmapped {s : State} {dir : Dir} {addr : BitVec 17} {lanes : BitVec 4} {lane : Nat} {w : Width}
    (hgroup : laneGroup? lanes = some (lane, w))
    (h : ∀ n, (vget s.windows n).enabled = true → ¬((vget s.windows n).base ≤ winOffset (accessAddr addr lane) ∧
      winOffset (accessAddr addr lane) ≤ (vget s.windows n).limit)) :
    decodeAccess s dir addr lanes = .unmapped (accessAddr addr lane) := by
  have hnone : s.selectWindow ((accessAddr addr lane).setWidth 16).toNat = none := selectWindow_none s _ h
  unfold accessAddr at hnone
  simp only [decodeAccess, hgroup, hnone, accessAddr]

theorem decodeAccess_selected {s : State} {dir : Dir} {addr : BitVec 17} {lanes : BitVec 4} {lane : Nat} {w : Width} {n : Fin 8}
    (hgroup : laneGroup? lanes = some (lane, w)) (h : Selected s (winOffset (accessAddr addr lane)) n) :
    decodeAccess s dir addr lanes = testAccess s dir n (accessAddr addr lane) lane w := by
  have hsome : s.selectWindow ((accessAddr addr lane).setWidth 16).toNat = some n := selectWindow_of_selected s _ n h
  unfold accessAddr at hsome
  simp only [decodeAccess, hgroup, hsome, accessAddr]

section
variable {s : State} {dir : Dir} {n : Fin 8} {access : BitVec 17} {lane : Nat} {w : Width}

theorem testAccess_width (h : w ≠ (vget s.windows n).width) :
    testAccess s dir n access lane w = .refused n access .width := if_pos h

theorem testAccess_readOnly (hw : w = (vget s.windows n).width) (h : dir = .write ∧ (vget s.windows n).readOnly = true) :
    testAccess s dir n access lane w = .refused n access .readOnly := by
  simp only [testAccess]
  rw [if_neg (not_not.mpr hw), if_pos h]

theorem testAccess_notOnline (hw : w = (vget s.windows n).width) (hr : dir = .write → (vget s.windows n).readOnly = false)
    (h : ∀ a, modAddr? (vget s.windows n).target = some a → (s.entry a).state ≠ .online) :
    testAccess s dir n access lane w = .refused n access .notOnline := by
  simp only [testAccess]
  rw [if_neg (not_not.mpr hw), if_neg fun ⟨hd, ht⟩ => by rw [hr hd] at ht; exact absurd ht (by simp)]
  cases ha : modAddr? (vget s.windows n).target with
  | none => rfl
  | some a => exact if_pos (h a ha)

theorem testAccess_moduleClass {a : ModAddr} (hw : w = (vget s.windows n).width)
    (hr : dir = .write → (vget s.windows n).readOnly = false) (ha : modAddr? (vget s.windows n).target = some a)
    (hon : (s.entry a).state = .online) (hc : (vget s.windows n).expectedClass ≠ 0)
    (hm : (s.entry a).moduleClass ≠ some (vget s.windows n).expectedClass) :
    testAccess s dir n access lane w = .refused n access .moduleClass := by
  simp only [testAccess, ha]
  rw [if_neg (not_not.mpr hw), if_neg fun ⟨hd, ht⟩ => by rw [hr hd] at ht; exact absurd ht (by simp),
    if_neg (not_not.mpr hon), if_pos ⟨hc, hm⟩]

end

/-- A refusal by a window test is the same for a read and a write (R68, R74). -/
theorem exec_refused {s : State} {dir : Dir} {addr : BitVec 17} {lanes : BitVec 4} {data : Word} {n : Fin 8} {access : BitVec 17}
    {r : WinFaultReason} (hfree : s.portFree = true) (hspace : inWindowSpace addr = true)
    (h : decodeAccess s dir addr lanes = .refused n access r) :
    exec (windowAccess dir addr lanes data) s = .next { s with port := { s.port with
      winFault := ⟨r, dir, access, BitVec.ofNat 4 n.val⟩
      answer := some ⟨.error, if dir = .read then some 0xFFFFFFFF#32 else none⟩ } } := by
  cases dir with
  | read =>
    refine (exec_windowRead_taken hfree hspace).trans ?_
    rw [windowReadAccess, h]
    rfl
  | write =>
    refine (exec_windowWrite_taken hfree hspace).trans ?_
    rw [windowWriteAccess, h]
    rfl

/-- Settles O22: the lane groups are the seven of R65, and the decoder finds no window. -/
theorem undecodedAccessGetsError : Obligations.UndecodedAccessGetsError := by
  intro s addr lanes data hfree
  refine ⟨laneGroup?_iff lanes, fun dir h => ?_, fun hspace h => ⟨?_, ?_⟩, fun lane w hspace hgroup h => ⟨?_, ?_⟩⟩
  · show Host.Outcome.next (if noTarget addr lanes then hostAccess _ s else s) = _
    rw [if_pos h, hostAccess_free _ _ hfree]
    cases dir <;> rfl
  · rw [exec_windowRead_taken hfree hspace, windowReadAccess, decodeAccess_laneFault h]
    rfl
  · rw [exec_windowWrite_taken hfree hspace, windowWriteAccess, decodeAccess_laneFault h]
    rfl
  · rw [exec_windowRead_taken hfree hspace, windowReadAccess, decodeAccess_unmapped hgroup h]
    rfl
  · rw [exec_windowWrite_taken hfree hspace, windowWriteAccess, decodeAccess_unmapped hgroup h]
    rfl

/-- Settles O23: one lemma per test, in their order. -/
theorem windowTestsRefuse : Obligations.WindowTestsRefuse := by
  intro s dir addr lanes data lane w n hfree hspace hgroup hsel refused writable
  have key : ∀ r, testAccess s dir n (accessAddr addr lane) lane w = .refused n (accessAddr addr lane) r → refused r := fun r h =>
    exec_refused hfree hspace ((decodeAccess_selected hgroup hsel).trans h)
  refine ⟨fun h => key _ (testAccess_width h), fun hw h => key _ (testAccess_readOnly hw ?_),
    fun hw hr h => key _ (testAccess_notOnline hw hr h), fun a hw hr ha hon hc hm => key _ (testAccess_moduleClass hw hr ha hon hc hm)⟩
  rw [Classical.not_imp, Bool.not_eq_false] at h
  exact h

/-! ### The full queue (R82) -/

theorem hostRoom_iff (s : State) : s.hostRoom = true ↔ s.hostQueue.length < 16 := decide_eq_true_iff

theorem takeWrite_of_full {e : HostEntry} {s : State} (hfull : 16 ≤ s.hostQueue.length) :
    takeWrite e s = if s.timing.hostHold = 0 then s.reply (errorAnswer .write) else holdAccess (.writePlace e) s :=
  if_neg fun h => absurd ((hostRoom_iff s).mp h) (by omega)

/-- The slot found is the lowest-numbered FREE one (R102). -/
theorem freeSlot_eq_some_iff (s : State) (i : Fin 4) :
    s.freeSlot = some i ↔ vget s.slots i = .free ∧ ∀ k < i, vget s.slots k ≠ .free := by
  have hslots : allSlots = List.ofFn (fun i : Fin 4 => i) := rfl
  simp only [State.freeSlot, hslots, List.find?_ofFn_eq_some, exists_eq_left, decide_eq_true_eq]

theorem freeSlot_eq_none_iff (s : State) : s.freeSlot = none ↔ ∀ k, vget s.slots k ≠ .free := by
  have hmem : ∀ k, k ∈ allSlots := by decide
  refine List.find?_eq_none.trans ⟨fun h k => ?_, fun h k _ => ?_⟩
  · simpa using h k (hmem k)
  · simpa using h k

theorem matchSlot_eq_none {s : State} {access : BitVec 17} {w : Width} (h : ∀ k, ¬Matches (vget s.slots k) access w) :
    s.matchSlot access w = none :=
  List.find?_eq_none.mpr fun k _ hk => h k ((slotTest_iff_matches _ _ _).mp hk)

/-- A read that finds neither a line nor a slot (R99). -/
theorem readPath_of_miss {acc : ReadAccess} {s : State} (hline : cacheLookup acc s = none)
    (hslot : s.matchSlot acc.hostAddr acc.width = none) : readPath acc s = readFresh acc s := by
  simp only [readPath, hline, hslot]

/-- Settles O25: neither a write nor a read finds a place. -/
theorem fullQueueHoldsOrRefuses : Obligations.FullQueueHoldsOrRefuses := by
  intro s addr lanes data n a lane w hfree hfull off
  refine ⟨fun hpass h0 => ?_, fun hpass h0 => ?_, fun i hpass hmiss hno hi => ?_⟩
  · rw [exec_windowWrite_of_passes hfree hpass, takeWrite_of_full hfull, if_pos h0]
    rfl
  · rw [exec_windowWrite_of_passes hfree hpass, takeWrite_of_full hfull, if_neg h0]
    rfl
  · have hsome : ∃ j, s.freeSlot = some j := Option.ne_none_iff_exists'.mp fun h => (freeSlot_eq_none_iff s).mp h i hi
    obtain ⟨j, hj⟩ := hsome
    have hroom : ¬s.hostRoom = true := fun h => absurd ((hostRoom_iff s).mp h) (by omega)
    rw [exec_windowRead_of_passes hfree hpass, readPath_of_miss (cacheLookup_eq_none_of_misses hmiss) (matchSlot_eq_none hno)]
    simp only [readFresh, hj]
    rw [if_neg hroom]
    split <;> rfl

/-! ### Reads that need no request (R105, R113) -/

theorem readPath_of_complete {acc : ReadAccess} {s : State} {j : Fin 4} {x : SlotInfo} {o : LinkOutcome} {d : Option Word} {m : Nat}
    (hline : cacheLookup acc s = none) (hslot : s.matchSlot acc.hostAddr acc.width = some j)
    (hcomp : vget s.slots j = .complete x o d m) : readPath acc s = collect j x o d s := by
  simp only [readPath, hline, hslot, hcomp]

/-- Settles O27: the read path's third step collects the slot it matches. -/
theorem completeSlotIsCollected : Obligations.CompleteSlotIsCollected := by
  intro s addr lanes n a lane w j x o d m hfree hpass hmiss hcomp haddr hwidth hfirst
  have hmatch : Matches (vget s.slots j) (accessAddr addr lane) w := ⟨x, by rw [hcomp]; rfl, haddr, hwidth⟩
  have hslot : s.matchSlot (accessAddr addr lane) w = some j := (matchSlot_eq_some_iff s _ w j).mpr ⟨hmatch, hfirst⟩
  rw [exec_windowRead_of_passes hfree hpass, readPath_of_complete (cacheLookup_eq_none_of_misses hmiss) hslot hcomp]
  unfold collect slotAnswer
  dsimp only
  rw [haddr, hwidth]
  by_cases ho : o = .ok
  · rw [if_pos ho, if_pos ho, if_pos ho, if_pos ho]; rfl
  · rw [if_neg ho, if_neg ho, if_neg ho, if_neg ho]; rfl

theorem mem_allLines (i : Fin 32) : i ∈ allLines := by revert i; decide

/-- The line that a read hits is the one valid line with its key (R112, R113). -/
theorem hit_eq_some {s : State} (hs : CacheLaw s) {i : Fin 32} {l : Line} (hl : vget s.cache.lines i = some l) :
    s.cache.hit l.addr l.gen l.offset l.width = some i := by
  have hkey : (vget s.cache.lines i).any (fun m => m.addr = l.addr ∧ m.gen = l.gen ∧ m.offset = l.offset ∧ m.width = l.width) =
      true := by simp [hl]
  cases hf : s.cache.hit l.addr l.gen l.offset l.width with
  | none =>
    exact absurd hkey (List.find?_eq_none.mp hf i (mem_allLines i))
  | some j =>
    have hj := List.find?_some hf
    obtain ⟨m, hm, hsame⟩ := (Option.any_eq_true _ _).mp hj
    obtain ⟨ha, -, ho, hw⟩ := of_decide_eq_true hsame
    by_contra hne
    have hij : i ≠ j := fun h => hne (by rw [h])
    have hno := hs.2 i j l m hl hm hij ha.symm
    rw [ho, hw] at hno
    have hpos : 0 < l.width.bytes := by cases l.width <;> decide
    simp only [bytesOverlap, Bool.and_eq_false_iff, decide_eq_false_iff_not] at hno
    omega

theorem readPath_of_hit {acc : ReadAccess} {s : State} {i : Fin 32} (h : cacheLookup acc s = some i) :
    readPath acc s = readHit acc i s := by
  simp only [readPath, h]

/-- What a hit does to the slots: a COMPLETE slot that matches is FREE (R113). -/
theorem hitCollects_slots (acc : ReadAccess) (s : State) :
    hitCollects acc s = { s with slots := (hitCollects acc s).slots } ∧
    (∀ j, vget (hitCollects acc s).slots j = vget s.slots j ∨ vget (hitCollects acc s).slots j = .free ∧
      Matches (vget s.slots j) acc.hostAddr acc.width ∧ (vget s.slots j).isPending = false) ∧
    ∀ j x o d m, vget s.slots j = .complete x o d m → s.matchSlot acc.hostAddr acc.width = some j →
      vget (hitCollects acc s).slots j = .free := by
  unfold hitCollects
  cases hm : s.matchSlot acc.hostAddr acc.width with
  | none => exact ⟨rfl, fun j => .inl rfl, fun j x o d m _ h => absurd h (by simp)⟩
  | some i =>
    have hmatch := ((matchSlot_eq_some_iff s _ _ i).mp hm).1
    dsimp only
    cases hi : vget s.slots i with
    | complete x o d m =>
      refine ⟨rfl, fun j => ?_, fun j y p e k hj hij => ?_⟩
      · show vget (vset s.slots i .free) j = _ ∨ vget (vset s.slots i .free) j = _ ∧ _
        rw [vget_vset]
        split
        · rename_i hij; subst hij; exact .inr ⟨rfl, hmatch, by rw [hi]; rfl⟩
        · exact .inl rfl
      · rw [Option.some.inj hij]; exact vget_vset_same s.slots j .free
    | free => exact ⟨rfl, fun j => .inl rfl, fun j y p e k hj hij => by rw [← Option.some.inj hij, hi] at hj; exact absurd hj (by simp)⟩
    | pending => exact ⟨rfl, fun j => .inl rfl, fun j y p e k hj hij => by rw [← Option.some.inj hij, hi] at hj; exact absurd hj (by simp)⟩

/-- A read answered from a line: the answer, the use order and the slot it collects (R113). -/
theorem readHit_eq {acc : ReadAccess} {s : State} {i : Fin 32} {l : Line} (hl : vget s.cache.lines i = some l) :
    readHit acc i s = { s with
      port := { s.port with answer := some ⟨.ok, some (toLanes (acc.hostAddr.toNat % 4) acc.width l.value)⟩ }
      cache := { s.cache with useOrder := s.cache.useOrder.filter (· ≠ i) ++ [i] }
      slots := (hitCollects acc { s with cache := s.cache.touch i }).slots } := by
  have hvalue : s.cache.valueAt i = l.value := by simp only [Cache.valueAt, hl]
  unfold readHit
  rw [hvalue]
  exact congrArg (fun u => u.reply (okRead (toLanes (acc.hostAddr.toNat % 4) acc.width l.value)))
    (hitCollects_slots acc { s with cache := s.cache.touch i }).1

/-- Settles O26: the line found is the line named, since no other covers its bytes (R112). -/
theorem cachedReadHits : Obligations.CachedReadHits := by
  intro s addr lanes n a lane w i l hfree hcache hpass hcacheable hl haddr hgen hoff hwidth
  have hlookup : cacheLookup (passedRead s addr n a lane w) s = some i := by
    have hc : (passedRead s addr n a lane w).cacheable = true := hcacheable
    unfold cacheLookup
    rw [if_pos hc]
    have := hit_eq_some hcache hl
    rw [haddr, hgen, hoff, hwidth] at this
    exact this
  obtain ⟨-, hslots, hcollected⟩ := hitCollects_slots (passedRead s addr n a lane w) { s with cache := s.cache.touch i }
  have hexec := exec_windowRead_of_passes hfree hpass
  rw [readPath_of_hit hlookup, readHit_eq hl] at hexec
  exact ⟨_, hexec, rfl, hslots, fun j x o d m hj hm hfirst =>
    hcollected j x o d m hj ((matchSlot_eq_some_iff s _ _ j).mpr ⟨hm, hfirst⟩)⟩

end Sys2Proof.Machine
end

section
/-! PROOFS. Writes of the control registers that only their block notices (O31 to O33, O35, O40). -/

namespace Sys2Proof.Machine

/-! ### A write of less than four bytes (R201) -/

/-- Settles O31: every register write goes through `fullWrite`, or reaches no register. -/
theorem partialRegisterWriteGetsError : Obligations.PartialRegisterWriteGetsError := by
  intro s c lanes hfree hl hlanes
  have key : ∀ {l : BitVec 4} (f : State → State), some l = some lanes →
      (Host.Outcome.next (hostAccess (fullWrite l f) s) : Host.Outcome State Fault Refusal) =
        .next { s with port := { s.port with answer := some ⟨.error, none⟩ } } := fun f h => by
    rw [Option.some.inj h, hostAccess_free _ _ hfree, fullWrite_partial lanes f s hlanes]
    rfl
  cases c with
  | registerWrite offset l data =>
    show Host.Outcome.next (hostAccess (registerAccess offset l data) s) = _
    rw [hostAccess_free _ _ hfree, registerAccess, Option.some.inj hl]
    cases regAt offset with
    | none => rfl
    | some r => exact congrArg Host.Outcome.next (fullWrite_partial lanes _ s hlanes)
  | winFieldWrite => exact key _ hl
  | winEnable => exact key _ hl
  | winDisable => exact key _ hl
  | winFaultReset => exact key _ hl
  | readFaultReset => exact key _ hl
  | bindSelWrite => exact key _ hl
  | modSelWrite => exact key _ hl
  | timingWrite => exact key _ hl
  | routeWrite => exact key _ hl
  | evtModeWrite => exact key _ hl
  | evtLineEnWrite => exact key _ hl
  | evtStatusClear => exact key _ hl
  | evtRelease => exact key _ hl
  | attnModeAuto => exact key _ hl
  | attnModeHeld => exact key _ hl
  | sleepRequest => exact key _ hl
  | sleepCancel => exact key _ hl
  | retainWrite => exact key _ hl
  | mbxStatusClear => exact key _ hl
  | mbxRead => exact key _ hl
  | mbxWrite => exact key _ hl
  | mbxDescRead => exact key _ hl
  | bind => exact key _ hl
  | unbind => exact key _ hl
  | readmit => exact key _ hl
  | forget => exact key _ hl
  | discoverNow => exact key _ hl
  | linkReset => exact key _ hl
  | flushCache => exact key _ hl
  | reload => exact key _ hl
  | mbxAbort => exact key _ hl
  | mbxGoNoCommand => exact key _ hl
  | _ => exact absurd hl (by simp [writeLanes])

/-! ### Windows (R61 to R64) -/

theorem exec_winFieldWrite {s : State} (n : Fin 8) (f : WinField) (data : Word) (hfree : s.portFree = true) :
    exec (.winFieldWrite n f 0xF#4 data) s = .next (writeWinField n f data s) :=
  congrArg Host.Outcome.next (registerWrite_taken _ s hfree)

theorem exec_winEnable {s : State} (n : Fin 8) (hfree : s.portFree = true) :
    exec (.winEnable n 0xF#4) s = .next (enableWindow n s) := congrArg Host.Outcome.next (registerWrite_taken _ s hfree)

theorem exec_winDisable {s : State} (n : Fin 8) (hfree : s.portFree = true) :
    exec (.winDisable n 0xF#4) s = .next (disableWindow n s) := congrArg Host.Outcome.next (registerWrite_taken _ s hfree)

/-- The model's four tests are those of R63. -/
theorem enableTests_iff (w : Window) : w.enableTests = true ↔ w.Legal := by
  refine ⟨Window.legal_of_tests, fun ⟨h1, h2, h3, h4, h5⟩ => ?_⟩
  simp only [Window.enableTests, Bool.and_eq_true, decide_eq_true_eq, modAddr?_isSome]
  refine ⟨⟨⟨?_, h2, h3⟩, h4⟩, Nat.mod_eq_zero_of_dvd h5⟩
  unfold Window.base Window.limit at h1
  omega

/-- The width codes 0 to 2 (R61). -/
theorem widthOfCode?_eq {data : Word} {wd : Width} (h : data.extractLsb' 0 2 = BitVec.ofNat 2 wd.code) :
    widthOfCode? (data.extractLsb' 0 2).toNat = some wd := by
  rw [h]; cases wd <;> rfl

theorem writeWinField_refused {s : State} {n : Fin 8} {f : WinField} {data : Word}
    (h : s.autoloadRuns = true ∨ (vget s.windows n).enabled = true ∨ setWinField f data (vget s.windows n) = none) :
    writeWinField n f data s = refuseWrite s := by
  unfold writeWinField
  split
  · rfl
  · rename_i hno
    rcases h with h | h | h
    · exact absurd (.inl h) hno
    · exact absurd (.inr h) hno
    · rw [h]

theorem writeWinField_taken {s : State} {n : Fin 8} {f : WinField} {data : Word} {w : Window} (hrun : s.autoloadRuns = false)
    (hen : (vget s.windows n).enabled = false) (h : setWinField f data (vget s.windows n) = some w) :
    writeWinField n f data s = acceptWrite (s.setWindow n w) := by
  unfold writeWinField
  rw [if_neg (by simp [hrun, hen]), h]

/-- Settles O32: each write by the branch its conditions choose. -/
theorem windowRegisterWrites : Obligations.WindowRegisterWrites := by
  intro s n data hfree w taken refused tests
  have htests : tests ↔ w.enableTests = true := (enableTests_iff w).symm
  refine ⟨fun h f => ?_, fun hrun hen => ⟨?_, ?_, ?_, fun h3 => ?_, fun wd h => ?_, fun h => ?_, fun h => ?_⟩, fun hrun => ⟨?_, ?_⟩,
    fun hrun => ?_, fun hrun hen => ?_⟩
  · rw [exec_winFieldWrite n f data hfree, writeWinField_refused (h.imp_right .inl)]
    rfl
  · rw [exec_winFieldWrite n _ data hfree, writeWinField_taken hrun hen rfl]
    rfl
  · rw [exec_winFieldWrite n _ data hfree, writeWinField_taken hrun hen rfl]
    rfl
  · rw [exec_winFieldWrite n _ data hfree, writeWinField_taken hrun hen rfl]
    rfl
  · rw [exec_winFieldWrite n _ data hfree, writeWinField_refused (.inr (.inr (by simp [setWinField, h3, widthOfCode?])))]
    rfl
  · have hset : setWinField .attr data w = some { w with width := wd, readOnly := data.getLsbD 4, cacheable := data.getLsbD 5 } := by
      simp only [setWinField, widthOfCode?_eq h]
    rw [exec_winFieldWrite n _ data hfree, writeWinField_taken hrun hen hset]
    rfl
  · rw [exec_winEnable n hfree, enableWindow, if_neg (by simp [hrun]), if_neg (ne_true_of_eq_false hen), if_pos (htests.mp h)]
    rfl
  · rw [exec_winEnable n hfree, enableWindow, if_neg (by simp [hrun]), if_neg (ne_true_of_eq_false hen), if_neg fun k => h (htests.mpr k)]
    rfl
  · rw [exec_winEnable n hfree, enableWindow, if_pos hrun]
    rfl
  · rw [exec_winDisable n hfree, disableWindow, if_pos hrun]
    rfl
  · rw [exec_winDisable n hfree, disableWindow, if_neg (by simp [hrun])]
    rfl
  · rw [exec_winEnable n hfree, enableWindow, if_neg (by simp [hrun]), if_pos hen]
    rfl

/-! ### Faults and selections (R49, R74, R105, R204) -/

theorem exec_bindSelWrite {s : State} (data : Word) (hfree : s.portFree = true) :
    exec (.bindSelWrite 0xF#4 data) s = .next (writeBindSel data s) := congrArg Host.Outcome.next (registerWrite_taken _ s hfree)

theorem exec_modSelWrite {s : State} (data : Word) (hfree : s.portFree = true) :
    exec (.modSelWrite 0xF#4 data) s = .next (writeModSel data s) := congrArg Host.Outcome.next (registerWrite_taken _ s hfree)

/-- Settles O33: a selection is taken exactly where it names an address. -/
theorem faultAndSelectionWrites : Obligations.FaultAndSelectionWrites := by
  intro s data hfree refused names
  have hnames : names ↔ (modAddr? (data.extractLsb' 0 4)).isSome = true := (modAddr?_isSome _).symm
  refine ⟨congrArg Host.Outcome.next (registerWrite_taken _ s hfree), congrArg Host.Outcome.next (registerWrite_taken _ s hfree),
    fun h => ?_, fun h => ?_, fun h => ?_, fun h => ?_⟩
  · rw [exec_bindSelWrite data hfree, writeBindSel, if_pos (hnames.mp h)]
    rfl
  · rw [exec_bindSelWrite data hfree, writeBindSel, if_neg fun k => h (hnames.mpr k)]
    rfl
  · rw [exec_modSelWrite data hfree, writeModSel, if_pos (hnames.mp h)]
    rfl
  · rw [exec_modSelWrite data hfree, writeModSel, if_neg fun k => h (hnames.mpr k)]
    rfl

/-! ### The event registers (R163, R165, R167, R168) -/

theorem exec_routeWrite {s : State} (k : Kind) (data : Word) (hfree : s.portFree = true) :
    exec (.routeWrite k 0xF#4 data) s = .next (writeRoute k data s) := congrArg Host.Outcome.next (registerWrite_taken _ s hfree)

theorem exec_evtModeWrite {s : State} (data : Word) (hfree : s.portFree = true) :
    exec (.evtModeWrite 0xF#4 data) s = .next (writeEvtMode data s) := congrArg Host.Outcome.next (registerWrite_taken _ s hfree)

theorem routeOfCode?_code (r : Route) : routeOfCode? (routeCode r) = some r := by cases r <;> rfl

theorem routeOf_setRoute (u : EventUnit) (k j : Kind) (r : Route) : (u.setRoute k r).routeOf j = if j = k then r else u.routeOf j := by
  show vget (vset u.routes (kindIndex k) r) (kindIndex j) = _
  rw [vget_vset]
  by_cases h : j = k
  · rw [if_pos h, if_pos (by rw [h])]
  · rw [if_neg h, if_neg fun hk => h (kindIndex_inj hk).symm]
    rfl

theorem routeAllowed_eq_true {k : Kind} {r : Route} (h : ¬(r = .suppress ∧ (k = .attention ∨ k = .overflow))) :
    routeAllowed k r = true := by
  simpa [routeAllowed, imp_iff_not_or] using h

theorem writeRoute_refused {s : State} {k : Kind} {data : Word}
    (h : s.autoloadRuns = true ∨ 3 < data.toNat ∨ data.toNat = 3 ∧ (k = .attention ∨ k = .overflow)) :
    writeRoute k data s = refuseWrite s := by
  unfold writeRoute
  cases hr : routeOfCode? data.toNat with
  | none => rfl
  | some r =>
    refine if_pos ?_
    rcases h with h | h | ⟨h, hk⟩
    · exact .inl h
    · rw [routeOfCode?] at hr
      rw [if_neg (by omega), if_neg (by omega), if_neg (by omega), if_neg (by omega)] at hr
      exact absurd hr (by simp)
    · rw [h] at hr
      obtain rfl : Route.suppress = r := Option.some.inj hr
      rcases hk with rfl | rfl <;> exact .inr rfl

/-- Settles O35: a route is taken exactly where it may be given, a mode where its value names one. -/
theorem eventRegisterWrites : Obligations.EventRegisterWrites := by
  intro s data hfree taken refused
  refine ⟨fun k r hdata hrun hok => ?_, fun k h => ?_, fun h => ?_, fun h => ?_, fun h0 h1 => ?_,
    congrArg Host.Outcome.next (registerWrite_taken _ s hfree), exec_evtStatusClear data hfree⟩
  · refine ⟨s.events.setRoute k r, ?_, rfl, fun j => routeOf_setRoute _ k j r⟩
    rw [exec_routeWrite k data hfree, writeRoute, hdata, routeOfCode?_code]
    exact congrArg Host.Outcome.next (if_neg (by rw [hrun, routeAllowed_eq_true hok]; simp))
  · rw [exec_routeWrite k data hfree, writeRoute_refused h]
    rfl
  · rw [exec_evtModeWrite data hfree, writeEvtMode, if_pos h]
    rfl
  · rw [exec_evtModeWrite data hfree, writeEvtMode, if_neg (by rw [h]; decide), if_pos h]
    rfl
  · rw [exec_evtModeWrite data hfree, writeEvtMode, if_neg h0, if_neg h1]
    rfl

/-! ### The mailbox's registers (R121, R122) -/

/-- A 4-byte write that reaches a register. -/
theorem exec_registerWrite {s : State} {o : BitVec 12} {r : Reg} (data : Word) (hfree : s.portFree = true) (hr : regAt o = some r) :
    exec (.registerWrite o 0xF#4 data) s = .next (writeReg r data s) := by
  show Host.Outcome.next (hostAccess (registerAccess o 0xF#4 data) s) = _
  rw [hostAccess_free _ _ hfree, registerAccess, hr]
  exact congrArg Host.Outcome.next (fullWrite_full _ s)

/-- The argument registers of the mailbox, by their offsets (section 12.2). -/
theorem argumentRegisters : ∀ o ∈ [0x080#12, 0x084#12, 0x088#12, 0x08C#12, 0x090#12, 0x094#12, 0x098#12],
    ∃ r ∈ [Reg.mbxOp, .mbxTarget, .mbxOffset, .mbxWidth, .mbxData, .mbxXdata, .mbxFlags], regAt o = some r := by
  intro o ho
  simp only [List.mem_cons, List.not_mem_nil, or_false] at ho
  rcases ho with rfl | rfl | rfl | rfl | rfl | rfl | rfl
  · exact ⟨.mbxOp, by simp, rfl⟩
  · exact ⟨.mbxTarget, by simp, rfl⟩
  · exact ⟨.mbxOffset, by simp, rfl⟩
  · exact ⟨.mbxWidth, by simp, rfl⟩
  · exact ⟨.mbxData, by simp, rfl⟩
  · exact ⟨.mbxXdata, by simp, rfl⟩
  · exact ⟨.mbxFlags, by simp, rfl⟩

theorem writeArg_busy {s : State} {f : Mailbox → Mailbox} (h : s.mbx.busy = true) : writeArg f s = refuseWrite s := if_pos h

theorem writeArg_free {s : State} {f : Mailbox → Mailbox} (h : s.mbx.busy = false) :
    writeArg f s = acceptWrite { s with mbx := f s.mbx } := if_neg (by simp [h])

/-- A write of an argument register goes to the mailbox (R121). -/
theorem writeReg_argument {s : State} {r : Reg} {data : Word}
    (hr : r ∈ [Reg.mbxOp, .mbxTarget, .mbxOffset, .mbxWidth, .mbxData, .mbxXdata, .mbxFlags]) :
    ∃ f, writeReg r data s = writeArg f s := by
  simp only [List.mem_cons, List.not_mem_nil, or_false] at hr
  rcases hr with rfl | rfl | rfl | rfl | rfl | rfl | rfl <;> rw [writeReg] <;> exact ⟨_, rfl⟩

/-- Settles O40: the argument registers are held while a command is in progress. -/
theorem mailboxRegisterWrites : Obligations.MailboxRegisterWrites := by
  intro s data hfree taken
  have key : ∀ {o : BitVec 12} {r : Reg} (f : Mailbox → Mailbox), s.mbx.busy = false → regAt o = some r →
      writeReg r data s = writeArg f s → exec (.registerWrite o 0xF#4 data) s = .next (taken (f s.mbx)) := fun f hb hr hw => by
    rw [exec_registerWrite data hfree hr, hw, writeArg_free hb]
    rfl
  refine ⟨congrArg Host.Outcome.next (registerWrite_taken _ s hfree), fun hb o ho => ?_, fun hb => ⟨?_, ?_, ?_, ?_, ?_, ?_, ?_⟩⟩
  · obtain ⟨r, hmem, hr⟩ := argumentRegisters o ho
    obtain ⟨f, hf⟩ := writeReg_argument (s := s) (data := data) hmem
    rw [exec_registerWrite data hfree hr, hf, writeArg_busy hb]
    rfl
  · exact key (fun m => { m with op := data.extractLsb' 0 8 }) hb rfl rfl
  · exact key (fun m => { m with target := data.extractLsb' 0 4 }) hb rfl rfl
  · exact key (fun m => { m with offset := data.extractLsb' 0 16 }) hb rfl rfl
  · exact key (fun m => { m with width := data.extractLsb' 0 8 }) hb rfl rfl
  · exact key (fun m => { m with data := data }) hb rfl rfl
  · exact key (fun m => { m with xdata := data }) hb rfl rfl
  · exact key (fun m => { m with flagMode := data.extractLsb' 0 2, replace := data.getLsbD 4 }) hb rfl rfl

end Sys2Proof.Machine
end

section
/-! PROOFS. What the follow-up work of an event leaves alone, and the GO commands that need no queue: a GO without a command, BIND,
UNBIND, and the commands that take time (O42, O44, O45, O47). -/

namespace Sys2Proof.Machine

/-! ### Follow-up work from an awake link -/

/-- The link is neither asleep nor draining: no sleep and no wake can close the event. -/
def State.upright (s : State) : Prop := s.power.state = .active ∨ s.power.state = .waking

theorem upright_of_not_suspended {s : State} (h : s.suspended = false) : s.power.state = .active := by
  simp only [State.suspended, Bool.or_eq_false_iff, decide_eq_false_iff_not, not_not] at h
  exact h.1.1.1.2

theorem not_drainGivenUp {s : State} (h : s.upright) : ¬DrainGivenUp s := fun ⟨hd, _⟩ => by
  rcases h with h | h <;> rw [h] at hd <;> cases hd

/-- Follow-up work leaves the power state of a link that is not DRAINING. -/
theorem WorkFollows.power_of_upright {s t : State} (h : WorkFollows s t) (hs : s.upright) : t.power = s.power := by
  obtain ⟨-, hp⟩ | ⟨hd, -⟩ := h.power
  · exact hp
  · exact absurd hd (not_drainGivenUp hs)

/-- Nothing closes an event that leaves the link ACTIVE or WAKING. -/
theorem ClosesAs.of_upright {s t : State} (h : ClosesAs s t) (hs : s.upright) : t = s := by
  obtain ⟨v, hv, ht⟩ := h
  have hdrain : ¬(s.power.state = .draining ∧ s.drained = true) := fun ⟨hd, _⟩ => by
    rcases hs with hs | hs <;> rw [hs] at hd <;> cases hd
  rw [if_neg hdrain] at hv
  subst hv
  rwa [if_neg fun ⟨ha, _⟩ => by rcases hs with hs | hs <;> rw [hs] at ha <;> cases ha] at ht

theorem FollowUp.work_of_upright {s t : State} (h : FollowUp s t) (hs : s.upright) : WorkFollows s t := by
  obtain ⟨u, hw, hc⟩ := h
  have hu : u.upright := by unfold State.upright; rw [hw.power_of_upright hs]; exact hs
  rw [hc.of_upright hu]
  exact hw

theorem FollowUp.power_of_upright {s t : State} (h : FollowUp s t) (hs : s.upright) : t.power = s.power :=
  (h.work_of_upright hs).power_of_upright hs

/-- An armed flag with ATTN ASSERTED starts a sweep in an ACTIVE link that sweeps nothing (R140). -/
theorem FollowUp.sweep_starts {s t : State} (h : FollowUp s t) (hp : s.power.state = .active) (ha : s.attn.armed = true)
    (hl : s.attn.level = true) (hn : s.attn.sweep = none) :
    t.attn.armed = false ∧ t.attn.sweep = if sweepSet s = [] then none else some (sweepSet s) := by
  have hw := h.work_of_upright (.inl hp)
  obtain ⟨hno, -⟩ | ⟨-, hs⟩ := hw.sweep
  · exact absurd ⟨ha, hl, hn, by rw [hw.power_of_upright (.inl hp)]; exact hp⟩ hno
  · exact hs

/-- In a WAKING link, without ATTN or during a sweep, none starts. -/
theorem FollowUp.sweep_waits {s t : State} (h : FollowUp s t)
    (hp : s.power.state = .waking ∨ s.power.state = .active ∧ ¬(s.attn.level = true ∧ s.attn.sweep = none)) :
    t.attn.armed = s.attn.armed ∧ t.attn.sweep = s.attn.sweep := by
  have hup : s.upright := hp.symm.imp And.left id
  have hw := h.work_of_upright hup
  obtain ⟨-, hs⟩ | ⟨⟨-, hl, hn, ha⟩, -⟩ := hw.sweep
  · exact hs
  · rw [hw.power_of_upright hup] at ha
    rcases hp with hp | ⟨-, hno⟩
    · rw [hp] at ha; cases ha
    · exact absurd ⟨hl, hn⟩ hno

/-- A drain that a DISCOVER_NOW waits out is given up (R191). -/
theorem FollowUp.drain_given_up {s t : State} (h : FollowUp s t) (hs : DrainGivenUp s) :
    t.power = { s.power with state := .active, sleepReq := false } := by
  obtain ⟨u, hw, hc⟩ := h
  obtain ⟨hno, -⟩ | ⟨-, hp⟩ := hw.power
  · exact absurd hs hno
  · rw [hc.of_upright (.inl (by rw [hp]))]; exact hp

/-- Follow-up work leaves a discovery that is not suspended as it is, but that it adds its waiting item (R27, R29). -/
theorem FollowUp.discovery {s t : State} (h : FollowUp s t) (hs : s.suspended = false) (hd : s.disc.state ≠ .disabled) :
    t.disc.state = s.disc.state ∧ (QueryUnderWay s → QueryUnderWay t) := by
  have hup : s.upright := .inl (upright_of_not_suspended hs)
  have hw := h.work_of_upright hup
  obtain ⟨-, -, -, -, -, -, -, -, -, -, hengine, -, hload⟩ := hw.fields
  have ht : t.suspended = false := (suspended_of_fields hload (hw.power_of_upright hup) hengine).trans hs
  obtain ⟨d, kept, item, added, hmove, hitem, hdisc, hqueue, -⟩ := hw.work
  obtain ⟨-, rfl, rfl⟩ | ⟨-, -, ⟨hsus, -⟩ | ⟨hsus | hdis, -⟩⟩ := hmove
  · refine ⟨by rw [hdisc], fun hq => ?_⟩
    obtain hwait | hmem := hq
    · rw [hwait] at hitem
      split at hitem
      · exact .inr (by rw [hqueue, hitem]; simp)
      · exact .inl (by rw [hdisc, hitem, hwait]; simp)
    · exact .inr (by rw [hqueue]; simp [hmem])
  · rw [hs] at hsus; cases hsus
  · rw [hs] at hsus; cases hsus
  · exact absurd hdis hd

/-! ### A head that passes still passes -/

/-- A head passes where the queue and the entry on the link are the same and every check that passed still does. -/
theorem HeadLaw.of_checks {s t : State} (h : HeadLaw s) (hq : t.hostQueue = s.hostQueue) (hl : t.hostOnLink = s.hostOnLink)
    (hc : ∀ e, headCheck e s = none → headCheck e t = none) : HeadLaw t := fun ht e rest he =>
  hc e (h (hl ▸ ht) e rest (hq ▸ he))

/-! ### GO -/

/-- A GO that makes `u` of the state before the event closes. -/
theorem exec_go_followUp {c : Instr} (hc : c ∈ goCommands) {s u : State} (hp : s.portFree = true) (h : takeGo s = u)
    (hh : HeadLaw u) : ∃ t, exec c s = .next t ∧ FollowUp (u.reply okWrite) t := by
  rw [exec_go c hc]
  exact go_followUp s u _ hp h hh rfl

/-- Settles O42: the three ways in which a GO starts no command, by the tests of `takeGo`. -/
theorem goWithoutACommand : Obligations.GoWithoutACommand := by
  intro s c hc hfree hquiet
  have hloading : s.mbx.busy = false → s.autoloadRuns = true → ∃ t, exec c s = .next t ∧
      FollowUp (mailboxEnded s .failed .autoloadBusy s.mbx.doneAddress) t := fun hb hrun => by
    rw [← failCommand_reply]
    exact exec_go_followUp hc hfree (by rw [takeGo, if_neg (by simp [hb]), if_pos hrun]) (failCommand_head s hquiet.head _)
  refine ⟨fun hb => ?_, hloading, fun hb hrun hop => ?_, fun hb hrun hop => ?_, fun hb hrun hop => ?_⟩
  · exact exec_go_followUp (u := { s with mbx := { s.mbx with refused := true } }) hc hfree (by rw [takeGo, if_pos hb])
      (headLaw_modules hquiet.head rfl rfl rfl)
  · have hnone : s.mbx.doneAddress = none := by rw [Mailbox.doneAddress, cmdOf_none _ hop]
    exact hnone ▸ hloading hb hrun
  · have hread : s.mbx.doneAddress = modAddr? s.mbx.target := by rw [Mailbox.doneAddress, hop]; rfl
    exact hread ▸ hloading hb hrun
  · have hnone : (resultCleared s).mbx.doneAddress = none := by rw [Mailbox.doneAddress]; simp only; rw [cmdOf_none _ hop]
    have hstart : takeGo s = failCommand .badArgument (resultCleared s) := by
      rw [takeGo, if_neg (by simp [hb]), if_neg (by simp [hrun]), acceptGo, cmdOf_none _ hop]
    have hend := exec_go_followUp hc hfree hstart (failCommand_head _ (resultCleared_head s hquiet.head) _)
    rwa [failCommand_reply, hnone] at hend

/-! ### BIND and UNBIND (R50 to R53, R58) -/

/-- Parked discovery is not suspended: suspension would have disabled it (R29). -/
theorem not_suspended_of_parked {s : State} (h : DiscLaw s) (hp : s.disc.state = .parkedFull ∨ s.disc.state = .parkedConflict) :
    s.suspended = false := by
  rw [Bool.eq_false_iff]
  intro hs
  obtain hd | hj | ⟨hq, -⟩ := h.1 hs
  · rcases hp with hp | hp <;> rw [hd] at hp <;> cases hp
  · rcases hp with hp | hp <;> rw [hj] at hp <;> cases hp
  · rcases hp with hp | hp <;> rw [hq] at hp <;> cases hp

/-- A changed table unparks discovery with a query under way (R58). -/
theorem query_of_unparked {s t : State} {m : Mailbox} {p : HostPort} {e : EventUnit} {b : Vector (Option Binding) 14}
    (hdisc : DiscLaw s) (hp : s.disc.state = .parkedFull ∨ s.disc.state = .parkedConflict)
    (h : FollowUp { s with mbx := m, port := p, events := e, bindings := b, disc := (unpark s).disc } t) :
    t.disc.state = .querying ∧ QueryUnderWay t := by
  have hs := not_suspended_of_parked hdisc hp
  have hd : (unpark s).disc = { s.disc with state := .querying, waiting := some .joinQuery, queryTimer := none } := by
    simp [unpark_ended, hp, discoveryEnded, hs]
  rw [hd] at h
  obtain ⟨hstate, hquery⟩ := h.discovery (by rw [← hs]; exact suspended_of_fields rfl rfl rfl) (by simp)
  exact ⟨hstate, hquery (.inl rfl)⟩

theorem unpark_disc (s : State) : (unpark s).disc =
    if s.disc.state = .parkedFull ∨ s.disc.state = .parkedConflict then discoveryEnded true s else s.disc := by
  rw [unpark_ended]

/-- The two modes that MBX_FLAGS can name (R201). -/
theorem mode?_of_named {m : Mailbox} (h : m.flagMode.toNat < 2) :
    m.mode? = some (if m.flagMode = 0 then .strict else .preferred) := by
  unfold Mailbox.mode?
  split
  · rfl
  · next h0 => rw [if_pos (by bv_omega)]

theorem mode?_of_unnamed {m : Mailbox} (h : 2 ≤ m.flagMode.toNat) : m.mode? = none := by
  unfold Mailbox.mode?
  rw [if_neg (by bv_omega), if_neg (by bv_omega)]

/-- Some binding of the table names the ID in the mailbox. -/
def State.idBound (s : State) : Prop := ∃ x b, vget s.bindings x = some b ∧ b.id = s.mbx.id

/-- The tests of BIND behind those of its operands (R50, R51). -/
theorem bindTests_of_named {s : State} {a : ModAddr} (ha : modAddr? s.mbx.target = some a) (hm : s.mbx.flagMode.toNat < 2) :
    (s.mbx.replace = false → s.idBound → bindTests s = .inl .duplicateId) ∧
    (¬(s.idBound ∧ s.mbx.replace = false) → (∃ b, vget s.bindings a = some b ∧ b.id ≠ s.mbx.id) →
      bindTests s = .inl .duplicateAddress) ∧
    (¬(s.idBound ∧ s.mbx.replace = false) → (∀ b, vget s.bindings a = some b → b.id = s.mbx.id) →
      bindTests s = .inr (a, ⟨s.mbx.id, if s.mbx.flagMode = 0 then .strict else .preferred⟩)) := by
  have hbound := anyBound_iff s s.mbx.id
  unfold bindTests
  simp only [ha, mode?_of_named hm]
  refine ⟨fun hr hex => ?_, fun hno ⟨b, hb, hid⟩ => ?_, fun hno hall => ?_⟩
  · rw [hr, if_neg (by simp), if_pos (hbound.mpr hex)]
  · by_cases hex : s.idBound
    · have hr : s.mbx.replace = true := by rw [← Bool.not_eq_false]; exact fun hr => hno ⟨hex, hr⟩
      rw [hr, hbound.mpr hex]
      simp [hb, hid]
    · rw [Bool.eq_false_iff.mpr (mt hbound.mp hex), hb]
      simp
  · by_cases hex : s.idBound
    · have hr : s.mbx.replace = true := by rw [← Bool.not_eq_false]; exact fun hr => hno ⟨hex, hr⟩
      rw [hr, hbound.mpr hex]
      simp only [Bool.and_self, if_true]
      rw [if_neg fun h => ?_]
      obtain ⟨b, hb, hid⟩ := Option.any_eq_true _ _ |>.mp h
      exact of_decide_eq_true hid (hall b hb)
    · have hnone : vget s.bindings a = none := by
        cases h : vget s.bindings a with
        | none => rfl
        | some b => exact absurd ⟨a, b, h, hall b h⟩ hex
      rw [Bool.eq_false_iff.mpr (mt hbound.mp hex), hnone]
      simp

/-- A table with one binding, and no other for its ID, address by address. -/
theorem vget_rebind (a x : ModAddr) (b : Binding) (t : Vector (Option Binding) 14) :
    vget (rebind a b t) x = if x = a then some b else (vget t x).filter fun y => y.id ≠ b.id := by
  unfold rebind
  rw [vget_vset, vget_vmap]
  simp only [eq_comm (a := a)]

/-- Settles O44: the tests of BIND in their order, and the table it leaves. -/
theorem bindChangesTheTable : Obligations.BindChangesTheTable := by
  intro s hgo hquiet hop id exists_
  have hmem : Instr.bind 0xF#4 ∈ goCommands := by simp [goCommands]
  have hcmd : cmdOf? s.mbx.op = some .bind := by rw [hop]; rfl
  have hdone : s.mbx.doneAddress = none := by rw [Mailbox.doneAddress, hcmd]
  have hfail : ∀ r, bindTests (resultCleared s) = .inl r → ∃ t, exec (.bind 0xF#4) s = .next t ∧
      FollowUp (mailboxEnded s .failed r none) t := fun r hr => by
    rw [exec_go _ hmem]
    exact go_fails s hgo hquiet.head r none .bind hcmd (.inl rfl) (by rw [startCommand, bindCommand, hr]) hdone.symm
  refine ⟨fun ha => hfail _ (by simp [bindTests, ha]), fun a ha => ⟨fun hm => hfail _ ?_, fun hm hr hex => hfail _ ?_,
    fun hm hno hother => hfail _ ?_, fun hm hno hall => ?_⟩⟩
  · simp [bindTests, ha, mode?_of_unnamed (m := (resultCleared s).mbx) hm]
  · exact (bindTests_of_named (s := resultCleared s) ha hm).1 hr hex
  · exact (bindTests_of_named (s := resultCleared s) ha hm).2.1 hno hother
  · have htests := (bindTests_of_named (s := resultCleared s) ha hm).2.2 hno hall
    obtain ⟨t, hexec, hfollow⟩ := go_unparks s hgo hquiet.head .bind hcmd rfl
      (rebind a ⟨id, if s.mbx.flagMode = 0 then .strict else .preferred⟩ s.bindings)
      (by rw [startCommand, bindCommand, htests]; rfl) hdone
    refine ⟨t, _, (exec_go _ hmem s).trans hexec, hfollow, ?_, fun x => vget_rebind a x _ _,
      fun hp => query_of_unparked hquiet.disc hp hfollow⟩
    rw [unpark_disc]

/-- Settles O45: UNBIND removes the ID's binding where there is one. -/
theorem unbindChangesTheTable : Obligations.UnbindChangesTheTable := by
  intro s hgo hquiet hop id
  have hmem : Instr.unbind 0xF#4 ∈ goCommands := by simp [goCommands]
  have hcmd : cmdOf? s.mbx.op = some .unbind := by rw [hop]; rfl
  have hdone : s.mbx.doneAddress = none := by rw [Mailbox.doneAddress, hcmd]
  have hbound := anyBound_iff (resultCleared s) (resultCleared s).mbx.id
  refine ⟨fun hno => ?_, fun y c hy hc => ?_⟩
  · rw [exec_go _ hmem]
    refine go_fails s hgo hquiet.head .notBound none .unbind hcmd (.inl rfl) ?_ hdone.symm
    rw [startCommand, unbindCommand, if_neg]
    exact fun h => by obtain ⟨x, b, hb, hid⟩ := hbound.mp h; exact hno x b hb hid
  · obtain ⟨t, hexec, hfollow⟩ := go_unparks s hgo hquiet.head .unbind hcmd rfl
      (vmap (fun o => o.filter fun x => x.id ≠ id) s.bindings)
      (by rw [startCommand, unbindCommand, if_pos (hbound.mpr ⟨y, c, hy, hc⟩)]; rfl) hdone
    refine ⟨t, _, (exec_go _ hmem s).trans hexec, hfollow, ?_, fun x => vget_vmap _ _ _,
      fun hp => query_of_unparked hquiet.disc hp hfollow⟩
    rw [unpark_disc]

end Sys2Proof.Machine
end

section
/-! PROOFS. The mailbox commands that take time: READMIT, FORGET, DISCOVER_NOW, LINK_RESET and RELOAD (O47). -/

namespace Sys2Proof.Machine

/-! ### A RELEASE under way -/

theorem mgmtHas_release (s : State) (a : ModAddr) (g : Half) : s.mgmtHas (MgmtEntry.isReleaseFor a g) = true ↔
    .release a g ∈ s.mgmtQueue ∨ s.mgmtOnLink = some (.release a g) := by
  have hfor : ∀ m, MgmtEntry.isReleaseFor a g m = true ↔ m = .release a g := fun m => by
    cases m <;> simp [MgmtEntry.isReleaseFor]
  simp only [State.mgmtHas, Bool.or_eq_true, List.any_eq_true, Option.any_eq_true, hfor]
  constructor
  · rintro (⟨m, hm, rfl⟩ | ⟨m, hm, rfl⟩)
    · exact .inl hm
    · exact .inr hm
  · exact Or.imp (fun h => ⟨_, h, rfl⟩) fun h => ⟨_, h, rfl⟩

/-- What a RELEASE under way for `a` is due to. -/
def ReleaseFor (a : ModAddr) (c : Option ReleaseCause) (s : State) : Prop :=
  ReleaseUnderWay s a ∧ (s.entry a).releaseFor = c

theorem WakeKeeps.releaseFor {s t : State} (h : WakeKeeps s t) {a : ModAddr} {c : Option ReleaseCause} (k : ReleaseFor a c s) :
    ReleaseFor a c t := by
  obtain ⟨-, -, -, -, -, -, -, -, -, -, hengine, -, -, hqueue, -⟩ := h.fields
  unfold ReleaseFor ReleaseUnderWay
  rw [h.entry a, hqueue, mgmtOnLink_congr hengine]
  exact k

/-- Follow-up work adds a due RELEASE or leaves it due (R27). -/
theorem WorkFollows.releaseFor {s t : State} (h : WorkFollows s t) {a : ModAddr} {c : Option ReleaseCause} (k : ReleaseFor a c s) :
    ReleaseFor a c t := by
  obtain ⟨-, -, -, -, -, -, -, -, -, -, hengine, -, -⟩ := h.fields
  obtain ⟨d, kept, item, added, hmove, -, -, hqueue, hadded⟩ := h.work
  obtain ⟨hway, hfor⟩ := k
  have he := hadded.entry a
  have hg : (t.entry a).generation = (s.entry a).generation := by rw [he]
  refine ⟨?_, by rw [he]; exact hfor⟩
  unfold ReleaseUnderWay
  rw [hg, hqueue, mgmtOnLink_congr hengine]
  obtain hdue | hmem | hlink := hway
  · by_cases hin : .release a (s.entry a).generation ∈ added
    · exact .inr (.inl (by simp [hin]))
    · exact .inl (by rw [he]; simp [hdue, hin])
  · refine .inr (.inl ?_)
    obtain ⟨-, -, rfl⟩ | ⟨-, rfl, -⟩ := hmove
    · simp [hmem]
    · split
      · simp [hmem]
      · simp [hmem]
  · exact .inr (.inr hlink)

theorem FollowUp.releaseFor {s t : State} (h : FollowUp s t) {a : ModAddr} {c : Option ReleaseCause} (k : ReleaseFor a c s) :
    ReleaseFor a c t := by
  obtain ⟨u, hw, v, hv, ht⟩ := h
  have hu := hw.releaseFor k
  have hvk : ReleaseFor a c v := by rw [hv]; split <;> exact hu
  split at ht
  · exact ht.releaseFor ((wakeKeeps_wakeLink _ v).releaseFor hvk)
  · exact ht ▸ hvk

/-! ### A command that wakes the link -/

theorem linkCommand_power (op : HostOp) (s : State) : (linkCommand op s).power = s.power := by
  unfold linkCommand
  split
  · rfl
  · split
    · rfl
    · split
      · split
        · unfold enqueueMailbox
          split
          · rw [(writeEffects_spec _ _ _ _).1]; rfl
          · rfl
        · rfl
      · rfl

/-- No command that needs the link changes the power state once the link is awake. -/
theorem startCommand_power {c : MbxCmd} (hc : c.needsLink = true) (s : State) : (startCommand c s).power = s.power := by
  cases c with
  | read => exact linkCommand_power .read s
  | write => exact linkCommand_power .write s
  | descRead => exact linkCommand_power .descRead s
  | forget =>
    rw [startCommand, forgetCommand]
    split
    · rfl
    · dsimp only; split <;> rfl
  | discoverNow => rw [startCommand, discoverNowCommand]; split <;> rfl
  | linkReset => rfl
  | bind | unbind | readmit | flushCache | reload => cases hc

/-- An accepted GO of a command that needs the link wakes a sleeping one (R193). -/
theorem exec_go_wakes {c : Instr} (hmem : c ∈ goCommands) {s : State} (hgo : GoTaken s) {k : MbxCmd}
    (hk : cmdOf? s.mbx.op = some k) (hneeds : k.needsLink = true) (hsleep : s.power.state = .asleep) :
    ∃ t, exec c s = .next t ∧ t.power.state ≠ .asleep ∧ t.power.lastWake = .host ∧ t.power.sleepReq = false := by
  have hstart : takeGo s = startCommand k (resultCleared (hostWake s)) := by
    rw [takeGo_starts s hgo k hk, if_pos hneeds, hostWake_resultCleared]
  have hpower : (takeGo s).power = (hostWake s).power := by rw [hstart, startCommand_power hneeds]
  obtain ⟨hnot, hwoken, -⟩ := hostWake_power s
  obtain ⟨hup, hlast, hreq⟩ := hwoken hsleep
  have hsettle := (settle_awake (takeGo s) (by rw [hpower]; exact hup)).2
  have hend : ((settle (takeGo s)).reply okWrite).power = (hostWake s).power := 
    (reply_power _ _).trans (hsettle.trans hpower)
  refine ⟨_, (exec_go c hmem s).trans (congrArg Host.Outcome.next (registerWrite_taken writeGo s hgo.1)), ?_⟩
  rw [writeGo, hend]
  exact ⟨hnot, hlast, hreq⟩

/-- A GO that starts a command on the link makes `u` of the woken state. -/
theorem exec_go_woken {c : Instr} (hmem : c ∈ goCommands) {s u : State} (hgo : GoTaken s) {k : MbxCmd}
    (hk : cmdOf? s.mbx.op = some k) (hneeds : k.needsLink = true) (hu : startCommand k (resultCleared (hostWake s)) = u)
    (hh : HeadLaw u) : ∃ t, exec c s = .next t ∧ FollowUp (u.reply okWrite) t :=
  exec_go_followUp hmem hgo.1 (by rw [takeGo_starts s hgo k hk, if_pos hneeds, hostWake_resultCleared]; exact hu) hh

/-- What a wake by the host keeps, as the commands read it. -/
theorem hostWake_keeps (s : State) : (hostWake s).mbx = s.mbx ∧ (hostWake s).disc = s.disc ∧ (hostWake s).engine = s.engine ∧
    (hostWake s).port = s.port ∧ (hostWake s).mgmtQueue = s.mgmtQueue ∧
    ∀ a, (hostWake s).entry a = { s.entry a with pingDue := ((hostWake s).entry a).pingDue } := by
  have hk := wakeKeeps_hostWake s
  obtain ⟨-, -, -, hport, -, -, -, -, -, hmbx, hengine, -, -, hqueue, hdisc⟩ := hk.fields
  exact ⟨hmbx, hdisc, hengine, hport, hqueue, hk.entry⟩

/-! ### READMIT and FORGET (R43, R44, R129, R130) -/

/-- The entry that READMIT leaves. -/
def readmitted (e : Entry) : Entry :=
  { e with state := .online, failureRun := 0, departCount := 0, responding := false, pollTimer := some 0 }

/-- A module readmitted passes every check that it passed in quarantine (R88). -/
theorem headCheck_readmitted {s t : State} {a : ModAddr} (hq : (s.entry a).state = .quarantined)
    (ht : t.modules = vset s.modules a (readmitted (s.entry a))) (e : HostEntry) (h : headCheck e s = none) :
    headCheck e t = none := by
  have he : t.entry e.addr = if a = e.addr then readmitted (s.entry a) else s.entry e.addr := by
    rw [State.entry, ht, vget_vset]; rfl
  by_cases ha : a = e.addr
  · subst ha
    rw [if_pos rfl] at he
    simp only [headCheck, he, hq, readmitted] at h ⊢
    split at h
    · cases h
    · next hc =>
      rw [if_neg hc]
      split at h
      · cases h
      · next hg =>
        rw [if_neg (by simpa using hg)]
        split at h
        · cases h
        · rw [if_neg (by simp)]; exact h
  · rw [if_neg ha] at he
    rw [← h]
    simp only [headCheck, he]

/-- The operand tests of READMIT and FORGET. -/
theorem readmitCommand_refused {s : State} :
    (modAddr? s.mbx.target = none → readmitCommand s = failCommand .badAddress s) ∧
    ∀ a, modAddr? s.mbx.target = some a → (s.entry a).state ≠ .quarantined → readmitCommand s = failCommand .wrongState s := by
  unfold readmitCommand
  exact ⟨fun h => by rw [h], fun a h hq => by rw [h]; exact if_neg hq⟩

theorem forgetCommand_refused {s : State} :
    (modAddr? s.mbx.target = none → forgetCommand s = failCommand .badAddress s) ∧
    ∀ a, modAddr? s.mbx.target = some a → (s.entry a).state ≠ .quarantined → (s.entry a).state ≠ .online →
      forgetCommand s = failCommand .wrongState s := by
  unfold forgetCommand
  refine ⟨fun h => by rw [h], fun a h hq ho => by rw [h]; exact if_neg fun hor => hor.elim ho hq⟩

/-- The entry that FORGET leaves: its RELEASE due, unless one is under way. -/
def forgotten? (s : State) (a : ModAddr) : Entry :=
  { s.entry a with releaseDue := !s.mgmtHas (MgmtEntry.isReleaseFor a (s.entry a).generation), releaseFor := some .forget }

theorem forgetCommand_taken {s : State} {a : ModAddr} (ha : modAddr? s.mbx.target = some a)
    (h : (s.entry a).state = .online ∨ (s.entry a).state = .quarantined) :
    forgetCommand s = setMbxState .active (s.setEntry a (forgotten? s a)) := by
  unfold forgetCommand
  rw [ha]
  exact if_pos h

/-! ### The obligation -/

/-- The state `v` with the command of `s` just started: the mailbox ACTIVE, and the write of MBX_GO answered OK (R123). -/
def mailboxStarted (s v : State) : State :=
  { v with mbx := { s.mbx with result := .none, state := .active }, port := { s.port with answer := some ⟨.ok, none⟩ } }

/-- READMIT of a QUARANTINED module (R43, R129). -/
theorem exec_readmit {s : State} (hgo : GoTaken s) (hhead : HeadLaw s) (hop : s.mbx.op = 5) {a : ModAddr}
    (ha : modAddr? s.mbx.target = some a) (hq : (s.entry a).state = .quarantined) :
    ∃ t, exec (.readmit 0xF#4) s = .next t ∧ FollowUp { mailboxEnded s .done (.outcome .ok) (some a) with
      modules := vset s.modules a (readmitted (s.entry a)), attn := { s.attn with armed := true } } t := by
  have hcmd : cmdOf? s.mbx.op = some .readmit := by rw [hop]; rfl
  have hdone : s.mbx.doneAddress = some a := by rw [Mailbox.doneAddress, hcmd]; exact ha
  have hstart : takeGo s = completeCommand (armSweep ((resultCleared s).setEntry a (readmitted (s.entry a)))) := by
    rw [takeGo_accepted s hgo .readmit hcmd (.inl rfl), startCommand, readmitCommand]
    simp only [ha]
    exact if_pos hq
  have hhead' : HeadLaw (completeCommand (armSweep ((resultCleared s).setEntry a (readmitted (s.entry a))))) :=
    hhead.of_checks rfl rfl (headCheck_readmitted hq rfl)
  obtain ⟨t, hexec, hfollow⟩ := exec_go_followUp (c := .readmit 0xF#4) (by simp [goCommands]) hgo.1 hstart hhead'
  refine ⟨t, hexec, ?_⟩
  rw [← hdone]
  exact hfollow

/-- FORGET of a module that is ONLINE or QUARANTINED (R44, R130). -/
theorem exec_forget {s : State} (hgo : GoTaken s) (hhead : HeadLaw s) (hop : s.mbx.op = 6) {a : ModAddr}
    (ha : modAddr? s.mbx.target = some a) (hst : (s.entry a).state = .online ∨ (s.entry a).state = .quarantined) :
    ∃ t, exec (.forget 0xF#4) s = .next t ∧ FollowUp { mailboxStarted s (hostWake s) with
      modules := vset (hostWake s).modules a (forgotten? (hostWake s) a) } t := by
  obtain ⟨hmbx, -, -, hport, -, hentry⟩ := hostWake_keeps s
  have hcmd : cmdOf? s.mbx.op = some .forget := by rw [hop]; rfl
  have htaken : forgetCommand (resultCleared (hostWake s)) = setMbxState .active
      ((resultCleared (hostWake s)).setEntry a (forgotten? (hostWake s) a)) :=
    forgetCommand_taken (by rw [← hmbx] at ha; exact ha)
      (show ((hostWake s).entry a).state = _ ∨ ((hostWake s).entry a).state = _ by rw [hentry a]; exact hst)
  have hhead' : HeadLaw (setMbxState .active ((resultCleared (hostWake s)).setEntry a (forgotten? (hostWake s) a))) :=
    headLaw_congr ((wakeKeeps_hostWake s).headLaw hhead) rfl rfl fun b => by
      rw [show (setMbxState .active ((resultCleared (hostWake s)).setEntry a (forgotten? (hostWake s) a))).entry b =
        ((hostWake s).setEntry a (forgotten? (hostWake s) a)).entry b from rfl, entry_setEntry]
      split
      · next h => subst h; exact ⟨rfl, rfl, rfl⟩
      · exact ⟨rfl, rfl, rfl⟩
  obtain ⟨t, hexec, hfollow⟩ := exec_go_woken (c := .forget 0xF#4) (by simp [goCommands]) hgo hcmd rfl htaken hhead'
  refine ⟨t, hexec, ?_⟩
  rw [mailboxStarted, ← hmbx, ← hport]
  exact hfollow

/-- A RELEASE marked due for FORGET is under way, whether it was so already or not (R130). -/
theorem releaseFor_forgotten {s t : State} {a : ModAddr} (hq : t.mgmtQueue = s.mgmtQueue) (hl : t.engine = s.engine)
    (ht : t.modules = vset s.modules a (forgotten? s a)) : ReleaseFor a (some .forget) t := by
  have he : t.entry a = forgotten? s a := by rw [State.entry, ht, vget_vset, if_pos rfl]
  unfold ReleaseFor ReleaseUnderWay
  rw [he, hq, mgmtOnLink_congr hl]
  refine ⟨?_, rfl⟩
  cases h : s.mgmtHas (MgmtEntry.isReleaseFor a (s.entry a).generation) with
  | false => exact .inl (by simp [forgotten?, h])
  | true => exact .inr ((mgmtHas_release s a _).mp h)

/-- DISCOVER_NOW (R30, R58, R131). -/
theorem exec_discoverNow {s : State} (hgo : GoTaken s) (hhead : HeadLaw s) (hop : s.mbx.op = 7) :
    ∃ t, exec (.discoverNow 0xF#4) s = .next t ∧ FollowUp { mailboxStarted s (hostWake s) with disc :=
      if s.disc.state = .idle ∨ s.disc.state = .parkedFull ∨ s.disc.state = .parkedConflict then
        { s.disc with state := .querying, waiting := some .joinQuery, queryTimer := none }
      else s.disc } t := by
  obtain ⟨hmbx, hdisc, -, hport, -, -⟩ := hostWake_keeps s
  have hcmd : cmdOf? s.mbx.op = some .discoverNow := by rw [hop]; rfl
  have hhead' : HeadLaw (discoverNowCommand (resultCleared (hostWake s))) := by
    unfold discoverNowCommand
    split
    · exact headLaw_modules ((wakeKeeps_hostWake s).headLaw hhead) rfl rfl rfl
    · exact headLaw_modules ((wakeKeeps_hostWake s).headLaw hhead) rfl rfl rfl
  obtain ⟨t, hexec, hfollow⟩ := exec_go_woken (c := .discoverNow 0xF#4) (by simp [goCommands]) hgo hcmd rfl rfl hhead'
  refine ⟨t, hexec, ?_⟩
  rw [mailboxStarted, ← hdisc, ← hmbx, ← hport]
  convert hfollow using 1
  unfold startCommand discoverNowCommand
  dsimp only
  split
  · rfl
  · rfl

/-- LINK_RESET (R21, R132). -/
theorem exec_linkReset {s : State} (hgo : GoTaken s) (hhead : HeadLaw s) (hop : s.mbx.op = 8) :
    ∃ t, exec (.linkReset 0xF#4) s = .next t ∧
      FollowUp { mailboxStarted s (hostWake s) with engine := { s.engine with resetPending := true } } t := by
  obtain ⟨hmbx, -, hengine, hport, -, -⟩ := hostWake_keeps s
  have hcmd : cmdOf? s.mbx.op = some .linkReset := by rw [hop]; rfl
  have hhead' : HeadLaw (linkResetCommand (resultCleared (hostWake s))) :=
    ((wakeKeeps_hostWake s).headLaw hhead).of_checks rfl rfl fun _ h => h
  obtain ⟨t, hexec, hfollow⟩ := exec_go_woken (c := .linkReset 0xF#4) (by simp [goCommands]) hgo hcmd rfl rfl hhead'
  refine ⟨t, hexec, ?_⟩
  rw [mailboxStarted, ← hengine, ← hmbx, ← hport]
  exact hfollow

/-- RELOAD (R134, R173). -/
theorem exec_reload {s : State} (hgo : GoTaken s) (hhead : HeadLaw s) (hop : s.mbx.op = 10) :
    ∃ t, exec (.reload 0xF#4) s = .next t ∧ FollowUp { mailboxStarted s s with autoload :=
      { s.autoload with phase := .reading, faultReason := .none, faultRecord := 0, startedBy := .reload, staging := [] } } t := by
  have hcmd : cmdOf? s.mbx.op = some .reload := by rw [hop]; rfl
  exact exec_go_followUp (u := reloadCommand (resultCleared s)) (by simp [goCommands]) hgo.1
    (takeGo_accepted s hgo .reload hcmd (.inl rfl)) (headLaw_modules hhead rfl rfl rfl)

/-- The refusals of READMIT and FORGET, on the link as the command finds it. -/
theorem readmit_forget_refused {s : State} (hgo : GoTaken s) (hhead : HeadLaw s) {c : Instr} {v : State}
    (hc : c = .readmit 0xF#4 ∧ s.mbx.op = 5 ∧ v = s ∨ c = .forget 0xF#4 ∧ s.mbx.op = 6 ∧ v = hostWake s) :
    (modAddr? s.mbx.target = none → ∃ t, exec c s = .next t ∧ FollowUp (mailboxEnded v .failed .badAddress none) t) ∧
    ∀ a, modAddr? s.mbx.target = some a → (s.entry a).state ≠ .quarantined → (s.entry a).state ≠ .online ∨ s.mbx.op = 5 →
      ∃ t, exec c s = .next t ∧ FollowUp (mailboxEnded v .failed .wrongState (some a)) t := by
  obtain ⟨rfl, hop, hv⟩ | ⟨rfl, hop, hv⟩ := hc
  · have hcmd : cmdOf? s.mbx.op = some .readmit := by rw [hop]; rfl
    have hdone : s.mbx.doneAddress = modAddr? s.mbx.target := by rw [Mailbox.doneAddress, hcmd]
    rw [exec_go _ (by simp [goCommands]), hv]
    obtain ⟨hnone, hwrong⟩ := readmitCommand_refused (s := resultCleared s)
    exact ⟨fun ha => go_fails s hgo hhead _ none .readmit hcmd (.inl rfl) (hnone ha) (hdone.trans ha).symm,
      fun a ha hq _ => go_fails s hgo hhead _ (some a) .readmit hcmd (.inl rfl) (hwrong a ha hq) (hdone.trans ha).symm⟩
  · have hcmd : cmdOf? s.mbx.op = some .forget := by rw [hop]; rfl
    have hdone : s.mbx.doneAddress = modAddr? s.mbx.target := by rw [Mailbox.doneAddress, hcmd]
    obtain ⟨hmbx, -, -, -, -, hentry⟩ := hostWake_keeps s
    have hstate : ∀ a, ((hostWake s).entry a).state = (s.entry a).state := fun a => by rw [hentry a]
    rw [exec_go _ (by simp [goCommands]), hv]
    obtain ⟨hnone, hwrong⟩ := forgetCommand_refused (s := resultCleared (hostWake s))
    have htarget : (hostWake s).mbx.target = s.mbx.target := by rw [hmbx]
    rw [htarget] at hnone hwrong
    refine ⟨fun ha => go_fails_woken s hgo hhead _ none .forget hcmd rfl (hnone ha) (hdone.trans ha).symm, fun a ha hq ho => ?_⟩
    have honline : (s.entry a).state ≠ .online := ho.resolve_right (by rw [hop]; decide)
    exact go_fails_woken s hgo hhead _ (some a) .forget hcmd rfl (hwrong a ha (by rw [← hstate a] at hq; exact hq)
      (by rw [← hstate a] at honline; exact honline)) (hdone.trans ha).symm

/-- Settles O47: each command by its own meaning, and what follows it by what follow-up work leaves alone. -/
theorem commandsThatTakeTime : Obligations.CommandsThatTakeTime := by
  intro s hgo hquiet started woken
  have hwakes : ∀ {c : Instr} {k : MbxCmd}, c ∈ goCommands → cmdOf? s.mbx.op = some k → k.needsLink = true → woken c :=
    fun hmem hk hneeds hsleep => exec_go_wakes hmem hgo hk hneeds hsleep
  refine ⟨fun c v hc => readmit_forget_refused hgo hquiet.head hc, fun a hop ha hq => ?_,
    fun hop => hwakes (k := .forget) (by simp [goCommands]) (by rw [hop]; rfl) rfl, fun a hop ha hst => ?_, fun hop => ?_, fun hop => ?_,
    fun hop => exec_reload hgo hquiet.head hop⟩
  · obtain ⟨t, hexec, hfollow⟩ := exec_readmit hgo hquiet.head hop ha hq
    exact ⟨t, hexec, hfollow, fun hact hl hn => hfollow.sweep_starts hact rfl hl hn, fun hp => hfollow.sweep_waits hp⟩
  · obtain ⟨t, hexec, hfollow⟩ := exec_forget hgo hquiet.head hop ha hst
    obtain ⟨hway, hfor⟩ := hfollow.releaseFor (a := a) (c := some .forget) (releaseFor_forgotten (s := hostWake s) rfl rfl rfl)
    refine ⟨t, _, hexec, hfollow, hway, hfor, rfl, fun b => ?_⟩
    rw [show State.entry { mailboxStarted s (hostWake s) with modules := vset (hostWake s).modules a (forgotten? (hostWake s) a) } b
      = if a = b then forgotten? (hostWake s) a else (hostWake s).entry b from vget_vset _ _ _ _]
    split
    · next h => subst h; exact ⟨rfl, fun h => absurd rfl h⟩
    · exact ⟨rfl, fun _ => rfl⟩
  · have hcmd : cmdOf? s.mbx.op = some .discoverNow := by rw [hop]; rfl
    obtain ⟨t, hexec, hfollow⟩ := exec_discoverNow hgo hquiet.head hop
    have hawake : s.power.state ≠ .asleep → hostWake s = s := (hostWake_power s).2.2
    have hactive : s.suspended = false → hostWake s = s := fun hs => hawake (by rw [upright_of_not_suspended hs]; simp)
    refine ⟨hwakes (by simp [goCommands]) hcmd rfl, t, hexec, hfollow, fun hs hd => ?_, fun hs hd => ?_, fun hp hd => ?_⟩
    · rw [hactive hs, if_pos hd] at hfollow
      obtain ⟨hstate, hquery⟩ := hfollow.discovery ((suspended_of_fields rfl rfl rfl).trans hs) (by simp)
      exact ⟨hstate, hquery (.inl rfl)⟩
    · have hno : ¬(s.disc.state = .idle ∨ s.disc.state = .parkedFull ∨ s.disc.state = .parkedConflict) := by
        rcases hd with hd | hd <;> simp [hd]
      rw [hactive hs, if_neg hno] at hfollow
      exact (hfollow.discovery ((suspended_of_fields rfl rfl rfl).trans hs) (by rcases hd with hd | hd <;> simp [hd])).1
    · rw [hawake (by rw [hp]; simp), if_neg (by simp [hd])] at hfollow
      have hgiven := hfollow.drain_given_up ⟨hp, by simp [mailboxStarted, Mailbox.runs, hop, opDiscoverNow],
        by simp [DiscCarried, mailboxStarted, hd]⟩
      rw [hgiven]
      exact ⟨rfl, rfl⟩
  · have hcmd : cmdOf? s.mbx.op = some .linkReset := by rw [hop]; rfl
    exact ⟨hwakes (by simp [goCommands]) hcmd rfl, exec_linkReset hgo hquiet.head hop⟩

end Sys2Proof.Machine
end

section
/-! PROOFS. Timers, power, the ATTN level and the attention mode as the host and the module bus change them (O21, O34, O38, O39). -/

namespace Sys2Proof.Machine

/-! ### Follow-up work in a quiet state -/

/-- Where every law between events holds already, follow-up work is all that follows. -/
theorem FollowUp.work_of_quiet {s t : State} (h : FollowUp s t) (hq : QuietLaw s) : WorkFollows s t := by
  by_cases hn : s.power.state = .draining ∧ s.mbx.runs opDiscoverNow = true ∧ s.disc.state = .disabled
  · obtain ⟨hp, hrun, hd⟩ := hn
    obtain ⟨u, hw, hc⟩ := h
    obtain ⟨hno, -⟩ | ⟨-, hpower⟩ := hw.power
    · exact absurd ⟨hp, hrun, by simp [DiscCarried, hd]⟩ hno
    · rw [hc.of_upright (.inl (by rw [hpower]))]; exact hw
  · rw [(followUp_iff s t hq.head).mp h]
    refine (settle_quiet s hq ?_).2.2
    by_cases hp : s.power.state = .draining
    · by_cases hrun : s.mbx.runs opDiscoverNow = true
      · exact .inr (.inr fun hd => hn ⟨hp, hrun, hd⟩)
      · exact .inr (.inl (Bool.eq_false_iff.mpr hrun))
    · exact .inl hp

/-- Follow-up work posts no record. -/
theorem WorkFollows.list {s t : State} (h : WorkFollows s t) : t.events.list = s.events.list := by
  obtain ⟨_, _, _, _, -, -, -, -, hadded⟩ := h.work
  rw [hadded.events]

/-- ASLEEP with ATTN ASSERTED and the sweep armed, the link wakes as the event closes (R194). -/
theorem FollowUp.wakes {s t : State} (h : FollowUp s t) (hp : s.power.state = .asleep) (hl : s.attn.level = true)
    (ha : s.attn.armed = true) : t.power.state ≠ .asleep ∧ t.power.lastWake = .attention ∧ t.power.sleepReq = false := by
  obtain ⟨u, hw, v, hv, ht⟩ := h
  have hpower : u.power = s.power := by
    obtain ⟨-, hk⟩ | ⟨⟨hd, -⟩, -⟩ := hw.power
    · exact hk
    · rw [hp] at hd; cases hd
  have harmed : u.attn.armed = true := by
    obtain ⟨-, hk, -⟩ | ⟨⟨-, -, -, hact⟩, -⟩ := hw.sweep
    · exact hk.trans ha
    · rw [hpower, hp] at hact; cases hact
  have hlevel : u.attn.level = true := by rw [hw.attn]; exact hl
  rw [if_neg (by rw [hpower, hp]; simp)] at hv
  subst hv
  rw [if_pos ⟨by rw [hpower, hp], hlevel, harmed⟩] at ht
  obtain ⟨hup, hlast, hreq⟩ := wakeLink_awake .attention v
  rw [ht.power_of_upright hup]
  exact ⟨by rcases hup with hup | hup <;> rw [hup] <;> simp, hlast, hreq⟩

/-! ### The ATTN level (R139, R140, R194) -/

/-- Settles O21: the rising level arms the sweep, and what follows is follow-up work. -/
theorem attnLevelChanges : Obligations.AttnLevelChanges := by
  intro s hhold
  refine ⟨congrArg Host.Outcome.next (whenLive_live _ s hhold), fun hl hquiet => ?_⟩
  have hfollow : FollowUp { s with attn := { s.attn with level := true, armed := true } } (attnRises s) := by
    rw [attnRises, if_neg (by simp [hl])]
    exact followUp_settle _ (headLaw_modules hquiet.head rfl rfl rfl)
  have hlevel : (attnRises s).attn.level = true := by
    rw [attnRises, if_neg (by simp [hl]), (still_settle _).level]; rfl
  exact ⟨_, congrArg Host.Outcome.next (whenLive_live _ s hhold), hlevel, hfollow,
    fun hp hn => hfollow.sweep_starts hp rfl rfl hn, fun hp hn => hfollow.sweep_waits (.inr ⟨hp, fun h => hn h.2⟩),
    fun hp => (hfollow.sweep_waits (.inl hp)).1, fun hp => hfollow.wakes hp rfl rfl⟩

/-! ### The attention mode (R149, R150) -/

/-- A record's held flag cleared where it is the held ATTENTION record of an entry in HELD among those of `l` (R153). -/
def unheldRecord (l : List ModAddr) (s : State) (r : EventRec) : EventRec :=
  if r.kind = .attention ∧ r.held = true ∧ r.address.any (fun a => a ∈ l ∧ (s.entry a).attention = .held) = true then
    { r with held := false }
  else r

theorem entry_unholdEntry (s : State) (a b : ModAddr) : (unholdEntry s a).entry b = { s.entry b with attention :=
    if b = a ∧ (s.entry b).attention = .held then .clearDue else (s.entry b).attention } := by
  unfold unholdEntry
  split
  · next h =>
    rw [show State.entry { s.setEntry a { s.entry a with attention := .clearDue } with events := s.events.clearHeld a } b =
      (s.setEntry a { s.entry a with attention := .clearDue }).entry b from rfl, entry_setEntry]
    by_cases hab : a = b
    · subst hab; rw [if_pos rfl, if_pos ⟨rfl, h⟩]
    · rw [if_neg hab, if_neg fun k => hab k.1.symm]
  · next h => rw [if_neg (by rintro ⟨rfl, k⟩; exact h k)]

theorem events_unholdEntry (s : State) (a : ModAddr) : (unholdEntry s a).events =
    { s.events with list := s.events.list.map (unheldRecord [a] s) } := by
  have hrec : ∀ r : EventRec, unheldRecord [a] s r = if (s.entry a).attention = .held ∧ r.kind = .attention ∧ r.address = some a ∧
      r.held = true then { r with held := false } else r := fun r => by
    unfold unheldRecord
    cases hr : r.address with
    | none => simp
    | some b =>
      by_cases hab : b = a
      · subst hab
        refine if_congr ?_ rfl rfl
        simp only [Option.any_some, List.mem_singleton, true_and, decide_eq_true_eq]
        tauto
      · simp [hab]
  rw [show unheldRecord [a] s = _ from funext hrec]
  unfold unholdEntry
  split
  · next h => simp only [h, true_and, EventUnit.clearHeld]
  · next h => simp only [h, false_and, if_false, List.map_id']

theorem unheldRecord_cons (a : ModAddr) (l : List ModAddr) (s : State) (r : EventRec) :
    unheldRecord l (unholdEntry s a) (unheldRecord [a] s r) = unheldRecord (a :: l) s r := by
  by_cases hk : r.kind = .attention ∧ r.held = true
  · obtain ⟨hkind, hheld⟩ := hk
    cases hr : r.address with
    | none => simp [unheldRecord, hr]
    | some b =>
      by_cases hh : (s.entry b).attention = .held
      · by_cases hba : b = a
        · simp [unheldRecord, hkind, hheld, hr, hba, hba ▸ hh]
        · simp [unheldRecord, entry_unholdEntry, hkind, hheld, hr, hba, hh]
      · simp [unheldRecord, entry_unholdEntry, hkind, hheld, hr, hh]
  · have hno : ∀ l' s', unheldRecord l' s' r = r := fun l' s' => if_neg fun h => hk ⟨h.1, h.2.1⟩
    rw [hno, hno, hno]

/-- The entries of `l` in HELD moved to CLEAR_DUE, one after another. -/
theorem unholdEntries (l : List ModAddr) (s : State) :
    l.foldl unholdEntry s = { s with modules := (l.foldl unholdEntry s).modules, events := (l.foldl unholdEntry s).events } ∧
    (∀ b, (l.foldl unholdEntry s).entry b = { s.entry b with attention :=
      if b ∈ l ∧ (s.entry b).attention = .held then .clearDue else (s.entry b).attention }) ∧
    (l.foldl unholdEntry s).events = { s.events with list := s.events.list.map (unheldRecord l s) } := by
  induction l generalizing s with
  | nil => exact ⟨rfl, fun b => by simp, by rw [show unheldRecord [] s = id from funext fun r => by simp [unheldRecord]]; simp⟩
  | cons a l ih =>
    obtain ⟨hrest, hentry, hevents⟩ := ih (unholdEntry s a)
    have hframe : unholdEntry s a = { s with modules := (unholdEntry s a).modules, events := (unholdEntry s a).events } := by
      unfold unholdEntry; split <;> rfl
    rw [List.foldl_cons]
    refine ⟨?_, fun b => ?_, ?_⟩
    · generalize l.foldl unholdEntry (unholdEntry s a) = z at hrest ⊢
      generalize unholdEntry s a = y at hrest hframe
      rw [hrest, hframe]
    · rw [hentry b, entry_unholdEntry]
      by_cases hba : b = a
      · by_cases hh : (s.entry b).attention = .held
        · simp [hba ▸ hh, hba]
        · simp [hh]
      · simp [hba]
    · rw [hevents, events_unholdEntry]
      simp only [List.map_map]
      refine congrArg (fun f => ({ s.events with list := s.events.list.map f } : EventUnit)) (funext fun r => ?_)
      exact unheldRecord_cons a l s r

theorem exec_attnModeHeld {s : State} (hfree : s.portFree = true) (hhead : HeadLaw s) :
    ∃ t, exec (.attnModeHeld 0xF#4) s = .next t ∧ FollowUp { s with
      attn := { s.attn with mode := .held }, port := { s.port with answer := some ⟨.ok, none⟩ } } t :=
  registerWrite_followUp writeHeld s { s with attn := { s.attn with mode := .held } } _ hfree rfl
    (headLaw_modules hhead rfl rfl rfl) rfl

/-- Settles O38: the write of AUTO moves the held entries, and both writes close with follow-up work. -/
theorem attentionModeWrites : Obligations.AttentionModeWrites := by
  intro s hfree hquiet s1
  refine ⟨exec_attnModeHeld hfree hquiet.head, fun hm => ?_, fun hm => ?_⟩
  · refine (congrArg Host.Outcome.next (registerWrite_taken writeAuto s hfree)).trans (congrArg Host.Outcome.next ?_)
    rw [writeAuto, if_pos hm]; rfl
  · obtain ⟨hrest, hentry, hevents⟩ := unholdEntries allAddrs s
    generalize hz : allAddrs.foldl unholdEntry s = z at hrest hentry hevents
    have hhead : HeadLaw { z with attn := { s.attn with mode := .auto } } :=
      headLaw_congr hquiet.head (by rw [hrest]) (by rw [hrest]) fun a => by
        rw [show State.entry { z with attn := { s.attn with mode := .auto } } a = z.entry a from rfl, hentry a]
        exact ⟨rfl, rfl, rfl⟩
    obtain ⟨t, hexec, hfollow⟩ := registerWrite_followUp writeAuto s { z with attn := { s.attn with mode := .auto } } _ hfree
      (by rw [writeAuto, if_neg (by simp [hm]), hz]; rfl) hhead rfl
    refine ⟨t, _, hexec, hfollow, ?_, fun a => ?_, ?_⟩
    · rw [hrest]; rfl
    · refine (hentry a).trans ?_
      simp [mem_allAddrs]
    · refine hevents.trans (congrArg (fun f => ({ s.events with list := s.events.list.map f } : EventUnit)) (funext fun r => ?_))
      simp only [unheldRecord, mem_allAddrs, true_and]

end Sys2Proof.Machine
end

section
/-! PROOFS. What a wake and a new timing value do to each entry and each slot, and the writes of PWR_CTRL and of the timing registers
(O34, O39). -/

namespace Sys2Proof.Machine

/-! ### A change of each entry by itself -/

/-- `f` replaces the entry at an address by `g`, which reads nothing that a change of another entry touches. -/
structure EntryByEntry (f : State → ModAddr → State) (g : State → ModAddr → Entry) : Prop where
  sets  : ∀ t a, f t a = t.setEntry a (g t a)
  local_ : ∀ t a b e, a ≠ b → g (t.setEntry b e) a = g t a

theorem EntryByEntry.foldl {f : State → ModAddr → State} {g : State → ModAddr → Entry} (h : EntryByEntry f g) {l : List ModAddr}
    (hl : l.Nodup) (s : State) : l.foldl f s = { s with modules := (l.foldl f s).modules } ∧
      ∀ b, (l.foldl f s).entry b = if b ∈ l then g s b else s.entry b := by
  induction l generalizing s with
  | nil => exact ⟨rfl, fun b => by simp⟩
  | cons a l ih =>
    obtain ⟨hnot, hnodup⟩ := List.nodup_cons.mp hl
    obtain ⟨hrest, hentry⟩ := ih hnodup (f s a)
    have hset := h.sets s a
    rw [List.foldl_cons]
    refine ⟨?_, fun b => ?_⟩
    · rw [hset] at hrest ⊢; exact hrest
    · rw [hentry b]
      by_cases hb : b ∈ l
      · rw [if_pos hb, if_pos (List.mem_cons_of_mem _ hb), hset, h.local_ s b a _ fun hab => hnot (hab ▸ hb)]
      · rw [if_neg hb, hset, entry_setEntry]
        by_cases hab : a = b
        · subst hab; simp
        · simp [hab, hb, Ne.symm hab]

theorem setEntry_entry (s : State) (a : ModAddr) : s.setEntry a (s.entry a) = s := by
  have hm : vset s.modules a (vget s.modules a) = s.modules := vget_ext fun i => by
    rw [vget_vset]; split
    · next h => rw [h]
    · rfl
  show { s with modules := vset s.modules a (vget s.modules a) } = s
  rw [hm]

/-- `setPingDue` makes of its entry what a call for a PING does (R27). -/
theorem setPingDue_eq (a : ModAddr) (s : State) : setPingDue a s = s.setEntry a (pingCalled s a) := by
  unfold setPingDue pingCalled
  dsimp only
  split
  · next h =>
    rw [h]
    simp only [Bool.not_true, Bool.or_false]
    exact (setEntry_entry s a).symm
  · next h => simp [Bool.eq_false_iff.mpr h]

theorem pingCalled_setEntry {a b : ModAddr} (h : a ≠ b) (s : State) (e : Entry) : pingCalled (s.setEntry b e) a = pingCalled s a := by
  simp only [pingCalled, entry_setEntry_ne s b a e h.symm]
  rfl

/-! ### A wake (R193, R195) -/

/-- The entry at `a` as the link leaves WAKING: a PING is called for where the module is present (R195). -/
def presentCalled (s : State) (a : ModAddr) : Entry :=
  if (s.entry a).state = .online ∨ (s.entry a).state = .quarantined then pingCalled s a else s.entry a

theorem presentCalled_eq (s : State) (a : ModAddr) : presentCalled s a = { s.entry a with pingDue := (s.entry a).pingDue ||
    (decide ((s.entry a).state = .online ∨ (s.entry a).state = .quarantined) &&
      !s.mgmtHas fun m => m = .ping a (s.entry a).generation) } := by
  unfold presentCalled pingCalled
  split
  · next h => simp only [decide_eq_true h, Bool.true_and]
  · next h => simp only [decide_eq_false h, Bool.false_and, Bool.or_false]

theorem pingPresent_entryByEntry : EntryByEntry
    (fun t a => if (t.entry a).state = .online ∨ (t.entry a).state = .quarantined then setPingDue a t else t) presentCalled where
  sets t a := by
    unfold presentCalled
    split
    · exact setPingDue_eq a t
    · exact (setEntry_entry t a).symm
  local_ t a b e h := by
    unfold presentCalled
    rw [pingCalled_setEntry h, entry_setEntry_ne t b a e h.symm]

theorem pingPresent_spec (s : State) : pingPresent s = { s with modules := (pingPresent s).modules } ∧
    ∀ a, (pingPresent s).entry a = presentCalled s a := by
  obtain ⟨hrest, hentry⟩ := pingPresent_entryByEntry.foldl (l := allAddrs) (by decide) s
  exact ⟨hrest, fun a => (hentry a).trans (if_pos (mem_allAddrs a))⟩

/-- A link that leaves WAKING (R195). -/
theorem leaveWaking_spec (s : State) : leaveWaking s = { s with
      power := { s.power with state := if s.power.sleepReq then .draining else .active, wakeTimer := none, wakeSettle := none }
      attn := { s.attn with armed := true }, modules := (leaveWaking s).modules } ∧
    ∀ a, (leaveWaking s).entry a = presentCalled s a := by
  obtain ⟨hrest, hentry⟩ := pingPresent_spec (endWaking s)
  unfold leaveWaking armSweep
  generalize pingPresent (endWaking s) = z at hrest hentry
  refine ⟨?_, fun a => ?_⟩
  · rw [hrest]; rfl
  · show z.entry a = _
    rw [hentry a]; rfl

/-- A woken link with a settle time waits for it in WAKING (R193, R195). -/
theorem wakeLink_settling (r : WakeReason) {s : State} (h : s.timing.settleTime ≠ 0) : wakeLink r s = { s with
    power := { s.power with state := .waking, sleepReq := false, lastWake := r, wakeTimer := some 0
                            wakeSettle := some (s.timing.settleTime * 1000) }
    events := s.events.post (wakeRecord r) } := by
  unfold wakeLink
  exact if_neg h

/-- A woken link without one leaves WAKING at once (R195). -/
theorem wakeLink_at_once (r : WakeReason) {s : State} (h : s.timing.settleTime = 0) : wakeLink r s = { s with
      power := { s.power with state := .active, sleepReq := false, lastWake := r, wakeTimer := none, wakeSettle := none }
      events := s.events.post (wakeRecord r)
      attn := { s.attn with armed := true }, modules := (wakeLink r s).modules } ∧
    ∀ a, (wakeLink r s).entry a = presentCalled s a := by
  have hw : wakeLink r s = leaveWaking (post (wakeRecord r) { s with power := { s.power with
      state := .waking, sleepReq := false, lastWake := r, wakeTimer := some 0
      wakeSettle := some (s.timing.settleTime * 1000) } }) := by
    unfold wakeLink
    exact if_pos h
  rw [hw]
  exact leaveWaking_spec _

/-! ### PWR_CTRL (R188 to R195) -/

/-- A write of PWR_CTRL that makes `u` of the state before the event closes. -/
theorem exec_pwrWrite {c : Instr} {s u : State} {sleepReq retain : Bool}
    (hc : exec c s = .next (hostAccess (fullWrite 0xF#4 (writePwr sleepReq retain)) s)) (hfree : s.portFree = true)
    (hu : (if sleepReq = s.power.sleepReq then { s with power := { s.power with retain := retain } }
      else if sleepReq then setSleepReq { s with power := { s.power with retain := retain } }
      else clearSleepReq { s with power := { s.power with retain := retain } }) = u) (hh : HeadLaw u) :
    ∃ t, exec c s = .next t ∧ FollowUp (u.reply okWrite) t := by
  rw [hc]
  exact registerWrite_followUp (writePwr sleepReq retain) s u _ hfree (by rw [← hu]; rfl) hh rfl

/-- SLEEP_REQ set (R189, R195). -/
theorem exec_sleepRequest {s : State} (retain : Bool) (hfree : s.portFree = true) (hhead : HeadLaw s) :
    (s.power.sleepReq = true → ∃ t, exec (.sleepRequest retain 0xF#4) s = .next t ∧ FollowUp { s with
      port := { s.port with answer := some ⟨.ok, none⟩ }, power := { s.power with retain := retain } } t) ∧
    (s.power.sleepReq = false → ∃ t, exec (.sleepRequest retain 0xF#4) s = .next t ∧ FollowUp { s with
      port := { s.port with answer := some ⟨.ok, none⟩ }
      power := { s.power with retain := retain, sleepReq := true
                              state := if s.power.state = .active then .draining else s.power.state } } t) := by
  refine ⟨fun h => ?_, fun h => ?_⟩
  · exact exec_pwrWrite (u := { s with power := { s.power with retain := retain } }) rfl hfree
      (if_pos h.symm) (headLaw_modules hhead rfl rfl rfl)
  · exact exec_pwrWrite (u := setSleepReq { s with power := { s.power with retain := retain } }) rfl hfree
      (by rw [h, if_neg (by simp), if_pos rfl]) (headLaw_modules hhead rfl rfl rfl)

/-- SLEEP_REQ cleared (R191, R193, R195). -/
theorem exec_sleepCancel {s : State} (retain : Bool) (hfree : s.portFree = true) (hhead : HeadLaw s) :
    (s.power.sleepReq = false → ∃ t, exec (.sleepCancel retain 0xF#4) s = .next t ∧ FollowUp { s with
      port := { s.port with answer := some ⟨.ok, none⟩ }, power := { s.power with retain := retain } } t) ∧
    (s.power.sleepReq = true → s.power.state ≠ .asleep → ∃ t, exec (.sleepCancel retain 0xF#4) s = .next t ∧ FollowUp { s with
      port := { s.port with answer := some ⟨.ok, none⟩ }
      power := { s.power with retain := retain, sleepReq := false
                              state := if s.power.state = .draining then .active else s.power.state } } t) ∧
    (s.power.sleepReq = true → s.power.state = .asleep → ∃ t, exec (.sleepCancel retain 0xF#4) s = .next t ∧
      FollowUp ((wakeLink .host { s with power := { s.power with retain := retain } }).reply okWrite) t) := by
  have hchange : s.power.sleepReq = true → ¬(false = s.power.sleepReq) := fun h => by rw [h]; simp
  refine ⟨fun h => ?_, fun h hp => ?_, fun h hp => ?_⟩
  · exact exec_pwrWrite (u := { s with power := { s.power with retain := retain } }) rfl hfree
      (if_pos h.symm) (headLaw_modules hhead rfl rfl rfl)
  · exact exec_pwrWrite (u := { s with power := { s.power with
        retain := retain, sleepReq := false, state := if s.power.state = .draining then .active else s.power.state } }) rfl hfree
      (by rw [if_neg (hchange h), if_neg (by simp), clearSleepReq, if_neg hp]) (headLaw_modules hhead rfl rfl rfl)
  · exact exec_pwrWrite (u := wakeLink .host { s with power := { s.power with retain := retain } }) rfl hfree
      (by rw [if_neg (hchange h), if_neg (by simp), clearSleepReq, if_pos hp])
      ((wakeKeeps_wakeLink _ _).headLaw (headLaw_modules hhead rfl rfl rfl))

/-- Settles O39: each write changes the power state as R188 to R195 say, and closes with follow-up work. -/
theorem powerControlWrites : Obligations.PowerControlWrites := by
  intro s retain hfree hquiet s1
  obtain ⟨hsame, hset⟩ := exec_sleepRequest retain hfree hquiet.head
  obtain ⟨hkeep, hclear, hwake⟩ := exec_sleepCancel retain hfree hquiet.head
  refine ⟨?_, hsame, fun hr hp => ?_, fun hr hp hrun hno => ?_, fun hr hp => ?_, hkeep, fun hr hp => ?_, fun hr hp => ?_,
    fun hr hp hn => ?_, fun hr hp hz => ?_⟩
  · exact exec_pwrWrite (u := { s with power := { s.power with retain := retain } }) rfl hfree
      (if_pos rfl) (headLaw_modules hquiet.head rfl rfl rfl)
  · have h := hset hr
    rwa [if_pos hp] at h
  · obtain ⟨t, hexec, hfollow⟩ := hset hr
    rw [if_pos hp] at hfollow
    refine ⟨t, hexec, ?_⟩
    rw [hfollow.drain_given_up ⟨rfl, hrun, hno⟩, ← hp, ← hr]
  · have h := hset hr
    rwa [if_neg (by rw [hp]; simp)] at h
  · obtain ⟨t, hexec, hfollow⟩ := hclear hr (by rw [hp]; simp)
    rw [if_pos hp] at hfollow
    exact ⟨t, hexec, hfollow, fun ha hl hn => hfollow.sweep_starts rfl ha hl hn⟩
  · have h := hclear hr (by rw [hp]; simp)
    rwa [if_neg (by rw [hp]; simp)] at h
  · have h := hwake hr hp
    rwa [wakeLink_settling .host (s := { s with power := { s.power with retain := retain } }) hn] at h
  · obtain ⟨t, hexec, hfollow⟩ := hwake hr hp
    obtain ⟨hrest, hentry⟩ := wakeLink_at_once .host (s := { s with power := { s.power with retain := retain } }) hz
    refine ⟨t, _, hexec, hfollow, ?_, fun a => ?_⟩
    · generalize wakeLink .host { s with power := { s.power with retain := retain } } = z at hrest ⊢
      rw [hrest]
      rfl
    · exact (hentry a).trans (presentCalled_eq _ a)

end Sys2Proof.Machine
end

section
/-! PROOFS. A new timing value compared with the timers that it rules (O34). -/

namespace Sys2Proof.Machine

/-! ### The poll timers (R39) -/

theorem setEntry_again (s : State) (a : ModAddr) (e f : Entry) : (s.setEntry a e).setEntry a f = s.setEntry a f := by
  have hm : vset (vset s.modules a e) a f = vset s.modules a f := vget_ext fun i => by
    simp only [vget_vset]
    split
    · rfl
    · rfl
  exact congrArg (fun m => ({ s with modules := m } : State)) hm

/-- The entry at `a` as its poll timer is compared with an interval of `ms` milliseconds that rules the entries in `st`. -/
def pollCompared (st : ModState) (ms : Nat) (s : State) (a : ModAddr) : Entry :=
  if (s.entry a).state = st ∧ (s.entry a).pollTimer.any (fun n => ms * 1000 ≤ n) = true then
    { pingCalled s a with pollTimer := none }
  else s.entry a

/-- A timer stopped and a PING called for. -/
theorem setPingDue_stopped (a : ModAddr) (s : State) :
    setPingDue a (s.setEntry a { s.entry a with pollTimer := none }) = s.setEntry a { pingCalled s a with pollTimer := none } := by
  rw [setPingDue_eq, setEntry_again]
  congr 1
  unfold pingCalled
  rw [entry_setEntry_same]
  rfl

theorem comparePolls_entryByEntry (st : ModState) (ms : Nat) : EntryByEntry (fun t a =>
    let e := t.entry a
    match e.pollTimer with
    | some n => if e.state = st ∧ ms * 1000 ≤ n then setPingDue a (t.setEntry a { e with pollTimer := none }) else t
    | none => t) (pollCompared st ms) where
  sets t a := by
    unfold pollCompared
    dsimp only
    cases (t.entry a).pollTimer with
    | none => simp [setEntry_entry]
    | some n =>
      simp only [Option.any_some, decide_eq_true_eq]
      split
      · exact setPingDue_stopped a t
      · exact (setEntry_entry t a).symm
  local_ t a b e h := by
    unfold pollCompared
    rw [pingCalled_setEntry h, entry_setEntry_ne t b a e h.symm]

/-- The poll timers of the entries in `st` compared with their interval (R39). -/
theorem comparePolls_spec (st : ModState) (ms : Nat) (s : State) :
    comparePolls st ms s = { s with modules := (comparePolls st ms s).modules } ∧
    ∀ a, (comparePolls st ms s).entry a = if (s.entry a).state = st then pollTaken ms s a else s.entry a := by
  unfold comparePolls
  split
  · next hrun =>
    obtain ⟨hrest, hentry⟩ := (comparePolls_entryByEntry st ms).foldl (l := allAddrs) (by decide) s
    refine ⟨hrest, fun a => (hentry a).trans ?_⟩
    rw [if_pos (mem_allAddrs a), pollCompared, pollTaken]
    simp only [(pollsRun_iff s).mp hrun, true_and, ite_and]
  · next hrun =>
    refine ⟨rfl, fun a => ?_⟩
    have hoff : ¬((s.power.state = .active ∨ s.power.state = .draining) ∧
        (s.entry a).pollTimer.any (fun n => ms * 1000 ≤ n) = true) := fun h => hrun ((pollsRun_iff s).mpr h.1)
    rw [pollTaken, if_neg hoff, ite_self]

/-! ### The discard timers (R107) -/

/-- One slot's timer compared with DISCARD_TIME. -/
def discardIfPast (t : State) (i : Fin 4) : State :=
  match vget t.slots i with
  | .complete _ _ _ n => if t.timing.discardTime * 1000 ≤ n then discardSlot i t else t
  | .free | .pending _ => t

theorem compareDiscards_eq (s : State) : compareDiscards s = allSlots.foldl discardIfPast s := rfl

/-- The records of `discardRecords` for the slots of a list alone. -/
def discardRecordsOf (l : List (Fin 4)) (ms : Nat) (s : State) (u : EventUnit) : EventUnit :=
  l.foldl (fun u i => match vget s.slots i with
    | .complete x _ _ m => if ms * 1000 ≤ m then u.post (discardRecord i x 1) else u
    | .free => u
    | .pending _ => u) u

theorem discardRecordsOf_all (ms : Nat) (s : State) (u : EventUnit) : discardRecordsOf allSlots ms s u = discardRecords ms s u := rfl

theorem discardIfPast_spec (s : State) (i : Fin 4) :
    discardIfPast s i = { s with slots := (discardIfPast s i).slots, events := (discardIfPast s i).events } ∧
    (discardIfPast s i).slots = vset s.slots i (discardsTaken s.timing.discardTime s i) ∧
    (discardIfPast s i).events = discardRecordsOf [i] s.timing.discardTime s s.events := by
  have hsame : vset s.slots i (vget s.slots i) = s.slots := vget_ext fun j => by
    rw [vget_vset]; split
    · next h => rw [h]
    · rfl
  unfold discardIfPast discardsTaken discardRecordsOf
  simp only [List.foldl_cons, List.foldl_nil]
  cases h : vget s.slots i with
  | free => exact ⟨rfl, (h ▸ hsame).symm, rfl⟩
  | pending x => exact ⟨rfl, (h ▸ hsame).symm, rfl⟩
  | complete x o d m =>
    simp only
    split
    · have hd : discardSlot i s = post (discardRecord i x 1) (s.setSlot i .free) := by unfold discardSlot; rw [h]
      rw [hd]
      exact ⟨rfl, rfl, rfl⟩
    · exact ⟨rfl, (h ▸ hsame).symm, rfl⟩

theorem discardIfPast_foldl {l : List (Fin 4)} (hl : l.Nodup) (s : State) :
    l.foldl discardIfPast s = { s with slots := (l.foldl discardIfPast s).slots, events := (l.foldl discardIfPast s).events } ∧
    (∀ i, vget (l.foldl discardIfPast s).slots i = if i ∈ l then discardsTaken s.timing.discardTime s i else vget s.slots i) ∧
    (l.foldl discardIfPast s).events = discardRecordsOf l s.timing.discardTime s s.events := by
  induction l generalizing s with
  | nil => exact ⟨rfl, fun i => by simp, rfl⟩
  | cons i l ih =>
    obtain ⟨hnot, hnodup⟩ := List.nodup_cons.mp hl
    obtain ⟨hrest, hslots, hevents⟩ := ih hnodup (discardIfPast s i)
    obtain ⟨hrest1, hslots1, hevents1⟩ := discardIfPast_spec s i
    have htime : (discardIfPast s i).timing = s.timing := by rw [hrest1]
    have hother : ∀ j, j ≠ i → vget (discardIfPast s i).slots j = vget s.slots j := fun j hj => by
      rw [hslots1, vget_vset, if_neg hj.symm]
    rw [List.foldl_cons]
    refine ⟨?_, fun j => ?_, ?_⟩
    · generalize l.foldl discardIfPast (discardIfPast s i) = z at hrest ⊢
      rw [hrest, hrest1]
    · rw [hslots j]
      by_cases hj : j = i
      · subst hj
        rw [if_neg hnot, hslots1, vget_vset_same, if_pos List.mem_cons_self]
      · simp only [List.mem_cons, hj, false_or]
        rw [hother j hj, discardsTaken, discardsTaken, hother j hj, htime]
    · rw [hevents, hevents1, htime]
      unfold discardRecordsOf
      rw [List.foldl_cons, List.foldl_cons, List.foldl_nil]
      refine List.foldl_ext _ _ _ fun u j hj => ?_
      rw [hother j fun h => hnot (h ▸ hj)]

/-! ### Every parameter -/

/-- What the comparison after a new value of `p` does to a state whose table holds it (R39, R107, R185). -/
structure Compared (p : Param) (s u : State) : Prop where
  rest   : u = { s with slots := u.slots, modules := u.modules, events := u.events }
  slots  : ∀ i, vget u.slots i = if p = .discardTime then discardsTaken (s.timing.value p) s i else vget s.slots i
  events : u.events = if p = .discardTime then discardRecords (s.timing.value p) s s.events else s.events
  entry  : ∀ a, u.entry a =
    if p = .pollInterval ∧ (s.entry a).state = .online ∨ p = .quarPollInterval ∧ (s.entry a).state = .quarantined then
      pollTaken (s.timing.value p) s a
    else s.entry a

/-- A parameter that rules no timer. -/
theorem Compared.same {p : Param} (hp : p ≠ .discardTime ∧ p ≠ .pollInterval ∧ p ≠ .quarPollInterval) (s : State) : Compared p s s where
  rest := rfl
  slots i := by rw [if_neg hp.1]
  events := by rw [if_neg hp.1]
  entry a := by rw [if_neg]; rintro (⟨h, -⟩ | ⟨h, -⟩); exacts [hp.2.1 h, hp.2.2 h]

/-- A parameter that rules the poll timers of the entries in one state. -/
theorem Compared.polls {p : Param} {st : ModState} (s : State)
    (hp : p = .pollInterval ∧ st = .online ∨ p = .quarPollInterval ∧ st = .quarantined) :
    Compared p s (comparePolls st (s.timing.value p) s) := by
  obtain ⟨hrest, hentry⟩ := comparePolls_spec st (s.timing.value p) s
  have hno : p ≠ .discardTime := by rintro rfl; rcases hp with ⟨h, -⟩ | ⟨h, -⟩ <;> cases h
  generalize comparePolls st (s.timing.value p) s = z at hrest hentry
  refine ⟨by rw [hrest], fun i => ?_, ?_, fun a => (hentry a).trans (if_congr ?_ rfl rfl)⟩
  · rw [if_neg hno, hrest]
  · rw [if_neg hno, hrest]
  · rcases hp with ⟨rfl, rfl⟩ | ⟨rfl, rfl⟩
    · simp
    · simp

theorem compared_compareAfter (p : Param) (s : State) : Compared p s (compareAfter p s) := by
  cases p with
  | pollInterval => exact .polls s (.inl ⟨rfl, rfl⟩)
  | quarPollInterval => exact .polls s (.inr ⟨rfl, rfl⟩)
  | discardTime =>
    obtain ⟨hrest, hslots, hevents⟩ := discardIfPast_foldl (l := allSlots) (by decide) s
    have hmem : ∀ i, i ∈ allSlots := by decide
    rw [compareAfter, compareDiscards_eq]
    generalize allSlots.foldl discardIfPast s = z at hrest hslots hevents
    refine ⟨by rw [hrest], fun i => ?_, hevents, fun a => ?_⟩
    · rw [hslots i, if_pos (hmem i), if_pos rfl]; rfl
    · rw [hrest, if_neg (by simp)]; rfl
  | linkRate | respTimeout | retryLimit | busyLimit | busyHoldoff | discoveryInterval | quarThreshold | departThreshold | hostHold
    | settleTime => exact .same (by decide) s

/-- What an entry keeps as its poll timer is compared. -/
theorem pollTaken_keeps (ms : Nat) (s : State) (a : ModAddr) : (pollTaken ms s a).state = (s.entry a).state ∧
    (pollTaken ms s a).generation = (s.entry a).generation ∧ (pollTaken ms s a).widthLimit = (s.entry a).widthLimit := by
  unfold pollTaken pingCalled
  split
  · exact ⟨rfl, rfl, rfl⟩
  · exact ⟨rfl, rfl, rfl⟩

theorem Compared.calm {p : Param} {s u : State} (h : Compared p s u) : Calm s u where
  queue := by rw [h.rest]
  mgmt := by rw [h.rest]
  link := by rw [h.rest]
  reset := by rw [h.rest]
  entry a := by
    rw [h.entry a]
    split
    · exact pollTaken_keeps _ s a
    · exact ⟨rfl, rfl, rfl⟩
  disc := by rw [h.rest]
  power := by rw [h.rest]
  attn := by rw [h.rest]; exact ⟨id, id⟩
  runs := by rw [h.rest]; rfl
  reads hu := (drainReads_iff s).mpr fun i => by
    have hi := (drainReads_iff u).mp hu i
    rw [h.slots i] at hi
    split at hi
    · unfold discardsTaken at hi
      cases hslot : vget s.slots i with
      | free => rfl
      | pending x => rw [hslot] at hi; exact hi
      | complete x o d m => rfl
    · exact hi
  mbx := by rw [h.rest]; exact id

/-! ### A PING under way -/

theorem mgmtHas_ping (s : State) (a : ModAddr) (g : Half) : (s.mgmtHas fun m => m = .ping a g) = true ↔
    .ping a g ∈ s.mgmtQueue ∨ s.mgmtOnLink = some (.ping a g) := by
  simp only [State.mgmtHas, Bool.or_eq_true, List.any_eq_true, Option.any_eq_true, decide_eq_true_eq]
  constructor
  · rintro (⟨m, hm, rfl⟩ | ⟨m, hm, rfl⟩)
    · exact .inl hm
    · exact .inr hm
  · exact Or.imp (fun h => ⟨_, h, rfl⟩) fun h => ⟨_, h, rfl⟩

/-- What follow-up work leaves of an entry. -/
theorem WorkFollows.entry_keeps {s t : State} (h : WorkFollows s t) (a : ModAddr) : t.entry a = { s.entry a with
    attention := (t.entry a).attention, pingDue := (t.entry a).pingDue, releaseDue := (t.entry a).releaseDue } := by
  obtain ⟨_, _, _, _, -, -, -, -, hadded⟩ := h.work
  rw [hadded.entry a]

/-- Follow-up work adds a due PING or leaves it due (R27). -/
theorem WorkFollows.pingUnderWay {s t : State} (h : WorkFollows s t) {a : ModAddr} (k : PingUnderWay s a) : PingUnderWay t a := by
  obtain ⟨-, -, -, -, -, -, -, -, -, -, hengine, -, -⟩ := h.fields
  obtain ⟨d, kept, item, added, hmove, -, -, hqueue, hadded⟩ := h.work
  have he := hadded.entry a
  have hg : (t.entry a).generation = (s.entry a).generation := by rw [he]
  unfold PingUnderWay
  rw [hg, hqueue, mgmtOnLink_congr hengine]
  obtain hdue | hmem | hlink := k
  · by_cases hin : .ping a (s.entry a).generation ∈ added
    · exact .inr (.inl (by simp [hin]))
    · exact .inl (by rw [he]; simp [pingFallsDue, hdue, hin])
  · refine .inr (.inl ?_)
    obtain ⟨-, -, rfl⟩ | ⟨-, rfl, -⟩ := hmove
    · simp [hmem]
    · split
      · simp [hmem]
      · simp [hmem]
  · exact .inr (.inr hlink)

/-- A PING that is called for is under way, whether it was so already or not. -/
theorem pingUnderWay_of_called {s t : State} {a : ModAddr} (hd : (t.entry a).pingDue = (pingCalled s a).pingDue)
    (hg : (t.entry a).generation = (s.entry a).generation) (hq : t.mgmtQueue = s.mgmtQueue) (hl : t.engine = s.engine) :
    PingUnderWay t a := by
  unfold PingUnderWay
  rw [hd, hg, hq, mgmtOnLink_congr hl]
  cases h : s.mgmtHas fun m => m = .ping a (s.entry a).generation with
  | false => exact .inl (by simp [pingCalled, h])
  | true => exact .inr ((mgmtHas_ping s a _).mp h)

/-! ### The obligation -/

theorem exec_timingWrite_refused {s : State} {p : Param} {data : Word} (hfree : s.portFree = true)
    (h : s.autoloadRuns = true ∨ ¬InTimingTable p data.toNat) :
    exec (.timingWrite p 0xF#4 data) s = .next (refuseWrite s) := by
  refine (congrArg Host.Outcome.next (registerWrite_taken (writeTiming p data) s hfree)).trans (congrArg Host.Outcome.next ?_)
  rw [writeTiming, if_pos (h.imp_right fun hno => Bool.eq_false_iff.mpr (mt (paramAccepts_iff _ _).mp hno))]

/-- Settles O34: a value taken is compared with the timers of its own interval, and in a quiet state follow-up work is all else. -/
theorem timingWrites : Obligations.TimingWrites := by
  intro s p data hfree
  refine ⟨fun h => exec_timingWrite_refused hfree h, fun hrun hin hquiet => ?_⟩
  have hcomp := compared_compareAfter p { s with timing := s.timing.set p data.toNat }
  have hvalue : (s.timing.set p data.toNat).value p = data.toNat := by rw [timing_set_value, if_pos rfl]
  generalize hu : compareAfter p { s with timing := s.timing.set p data.toNat } = u at hcomp
  have hquiet' : QuietLaw u := hcomp.calm.quietLaw (s := { s with timing := s.timing.set p data.toNat })
    ⟨headLaw_modules hquiet.head rfl rfl rfl, hquiet.wake, hquiet.drain, hquiet.disc⟩
  obtain ⟨t, hexec, hfollow⟩ := registerWrite_followUp (writeTiming p data) s u _ hfree
    (by rw [writeTiming, if_neg (by simp [hrun, (paramAccepts_iff _ _).mpr hin]), hu]; rfl) hquiet'.head rfl
  have hwork := hfollow.work_of_quiet ((unnoticed_reply u okWrite).quietLaw hquiet')
  obtain ⟨-, -, -, hport, htiming, -, -, hslots, -, -, -, -, -⟩ := hwork.fields
  have hrest := hcomp.rest
  have hut : u.timing = s.timing.set p data.toNat := by rw [hrest]
  have htt : t.timing = s.timing.set p data.toNat := htiming.trans hut
  have hentry : ∀ a, u.entry a = if p = .pollInterval ∧ (s.entry a).state = .online ∨
      p = .quarPollInterval ∧ (s.entry a).state = .quarantined then pollTaken data.toNat s a else s.entry a := fun a => by
    have h := hcomp.entry a
    rw [hvalue] at h
    exact h
  refine ⟨t, hexec, fun q => ?_, ?_, fun hp => ?_, fun hp => ?_, fun a m hm hpow hrules => ?_, _, hfollow, ?_, hentry⟩
  · rw [htt, timing_set_value]; simp only [eq_comm (a := p)]
  · refine hwork.rest.trans ((congrArg (fun v : State => { v.reply okWrite with
      modules := t.modules, mgmtQueue := t.mgmtQueue, disc := t.disc, attn := t.attn, events := t.events, power := t.power })
      hrest).trans ?_)
    rw [htt, hslots]
    rfl
  · have hevents := hcomp.events
    rw [if_neg hp] at hevents
    exact ⟨hslots.trans (vget_ext fun i => (hcomp.slots i).trans (if_neg hp)), hwork.list.trans (congrArg EventUnit.list hevents)⟩
  · have hevents := hcomp.events
    rw [if_pos hp, hvalue] at hevents
    refine ⟨fun i => ?_, hwork.list.trans (congrArg EventUnit.list hevents)⟩
    have h := hcomp.slots i
    rw [if_pos hp, hvalue] at h
    rw [hslots]
    exact h
  · have hua := hentry a
    rw [if_pos hrules, pollTaken, hm] at hua
    simp only [hpow, true_and, Option.any_some, decide_eq_true_eq] at hua
    have hta : (t.entry a).pollTimer = (u.entry a).pollTimer := by rw [hwork.entry_keeps a]; rfl
    rw [hta]
    refine ⟨?_, fun hpast => ?_⟩
    · rw [hua]
      split
      · rfl
      · exact hm
    · rw [if_pos hpast] at hua
      have hping : PingUnderWay u a :=
        pingUnderWay_of_called (s := s) (by rw [hua]) (by rw [hua]; rfl) (by rw [hrest]) (by rw [hrest])
      exact hwork.pingUnderWay hping
  · have hevents := hcomp.events
    rw [hvalue] at hevents
    have huport : u.port = s.port := by rw [hrest]
    have htport : t.port = { s.port with answer := some ⟨.ok, none⟩ } := hport.trans (by rw [← huport]; rfl)
    refine (congrArg (fun v => State.reply v okWrite) hrest).trans ?_
    rw [htt, hslots, htport, hevents]
    rfl

end Sys2Proof.Machine
end

section
/-! PROOFS. What closes an event in which one entry joins the host request queue: where it passes its checks, follow-up work; where it
is the head and fails, its failure between that work and the close (R85, R86). -/

namespace Sys2Proof.Machine

/-! ### The close of an event -/

/-- What the close of an event leaves alone. -/
theorem ClosesAs.fields {s t : State} (h : ClosesAs s t) :
    t.pending = s.pending ∧ t.now = s.now ∧ t.pins = s.pins ∧ t.port = s.port ∧ t.timing = s.timing ∧ t.windows = s.windows ∧
    t.hostQueue = s.hostQueue ∧ t.slots = s.slots ∧ t.cache = s.cache ∧ t.mbx = s.mbx ∧ t.engine = s.engine ∧
    t.bindings = s.bindings ∧ t.autoload = s.autoload := by
  obtain ⟨v, hv, ht⟩ := h
  have hframe : v = { s with power := v.power } := by rw [hv]; split <;> rfl
  split at ht
  · have hwork := ht.fields
    have hwake := (wakeKeeps_wakeLink .attention v).fields
    generalize wakeLink .attention v = w at hwork hwake
    rw [hframe] at hwake
    obtain ⟨a1, a2, a3, a4, a5, a6, a7, a8, a9, a10, a11, a12, a13, -⟩ := hwake
    obtain ⟨b1, b2, b3, b4, b5, b6, b7, b8, b9, b10, b11, b12, b13⟩ := hwork
    exact ⟨b1.trans a1, b2.trans a2, b3.trans a3, b4.trans a4, b5.trans a5, b6.trans a6, b7.trans a7, b8.trans a8, b9.trans a9,
      b10.trans a10, b11.trans a11, b12.trans a12, b13.trans a13⟩
  · rw [ht, hframe]
    exact ⟨rfl, rfl, rfl, rfl, rfl, rfl, rfl, rfl, rfl, rfl, rfl, rfl, rfl⟩

/-- Follow-up work reads neither the host port, the host request queue nor the slots. -/
theorem WorkFollows.outside {s t : State} (h : WorkFollows s t) (p : HostPort) (q : List HostEntry) (l : Vector Slot 4) :
    WorkFollows { s with port := p, hostQueue := q, slots := l } { t with port := p, hostQueue := q, slots := l } := by
  refine ⟨?_, h.attn, h.sweep, h.power, ?_, h.disc, h.due⟩
  · obtain ⟨h1, h2, h3, h4, h5, h6, h7, h8, h9, h10, h11, h12, h13⟩ := h.fields
    simp only [h1, h2, h3, h5, h6, h9, h10, h11, h12, h13]
  · obtain ⟨d, kept, item, added, h1, h2, h3, h4, h5⟩ := h.work
    exact ⟨d, kept, item, added, h1, h2, h3, h4, ⟨h5.chosen, h5.order, h5.entry, h5.fetch, h5.events⟩⟩

/-- The one entry of the queue fails its checks: it is delivered between the follow-up work and the close. -/
theorem FollowUpOfHeads.single {e : HostEntry} {o : LinkOutcome} {s t : State} (h : FollowUpOfHeads s t) (hl : s.hostOnLink = false)
    (hq : s.hostQueue = [e]) (ho : headCheck e s = some o) :
    ∃ u, WorkFollows s u ∧ ClosesAs (deliver e o none { u with hostQueue := [] }) t := by
  obtain ⟨u, hwork, hclose⟩ := h
  obtain ⟨-, -, -, -, -, -, hqueue, -, -, -, hengine, -, -⟩ := hwork.fields
  have hu : u = dueFollows s := hwork.unique (workFollows_dueFollows s)
  rw [headChecks_single e u o (by rw [hostOnLink_congr hengine]; exact hl) (hqueue.trans hq)
    (by rw [hu, (workSteps_dueFollows s).headCheck_eq]; exact ho)] at hclose
  exact ⟨u, hwork, hclose⟩

/-- No check fails with OK. -/
theorem headCheck_ne_ok {e : HostEntry} {s : State} {o : LinkOutcome} (h : headCheck e s = some o) : o ≠ .ok := by
  rintro rfl
  unfold headCheck at h
  dsimp only at h
  split at h
  · cases h
  · split at h
    · cases h
    · split at h
      · cases h
      · split at h
        · cases h
        · cases h

/-- What is left to check of an entry that has just been made for a present module: its width (R86, R88). -/
theorem headCheck_fresh {e : HostEntry} {s : State} (hc : e.cancelled = false) (hg : (s.entry e.addr).generation = e.gen)
    (hst : (s.entry e.addr).state = .online ∨ (s.entry e.addr).state = .quarantined ∧ e.diagnostic = true) :
    headCheck e s = if e.op ≠ .descRead ∧ (s.entry e.addr).widthLimit.bytes < e.width.bytes then some .width else none := by
  unfold headCheck
  dsimp only
  rw [if_neg (by simp [hc]), if_neg, if_neg]
  · rintro ⟨hq, hd⟩
    obtain ho | ⟨-, hd'⟩ := hst
    · rw [ho] at hq; cases hq
    · rw [hd] at hd'; cases hd'
  · rintro (h | h | h | h)
    · exact h hg
    all_goals obtain ho | ⟨ho, -⟩ := hst <;> rw [ho] at h <;> cases h

/-- What a state shares with one before it, when only the work of an access and what follows it lie between. -/
structure AccessFrame (s t : State) : Prop where
  pending  : t.pending = s.pending
  now      : t.now = s.now
  pins     : t.pins = s.pins
  timing   : t.timing = s.timing
  windows  : t.windows = s.windows
  engine   : t.engine = s.engine
  bindings : t.bindings = s.bindings
  autoload : t.autoload = s.autoload

theorem AccessFrame.eq {s t : State} (h : AccessFrame s t) : t = { s with
    port := t.port, hostQueue := t.hostQueue, slots := t.slots, cache := t.cache, mbx := t.mbx, modules := t.modules
    mgmtQueue := t.mgmtQueue, disc := t.disc, attn := t.attn, events := t.events, power := t.power } := by
  obtain ⟨h1, h2, h3, h4, h5, h6, h7, h8⟩ := h
  simp only [← h1, ← h2, ← h3, ← h4, ← h5, ← h6, ← h7, ← h8]

theorem AccessFrame.trans {s t u : State} (h : AccessFrame s t) (k : AccessFrame t u) : AccessFrame s u :=
  ⟨k.pending.trans h.pending, k.now.trans h.now, k.pins.trans h.pins, k.timing.trans h.timing, k.windows.trans h.windows,
    k.engine.trans h.engine, k.bindings.trans h.bindings, k.autoload.trans h.autoload⟩

theorem accessFrame_settle (s : State) : AccessFrame s (settle s) :=
  have h := still_settle s
  ⟨h.pending, h.now, h.pins, h.timing, h.windows, h.engine, h.bindings, h.autoload⟩

theorem accessFrame_hostWake (s : State) : AccessFrame s (hostWake s) :=
  have h := still_hostWake s
  ⟨h.pending, h.now, h.pins, h.timing, h.windows, h.engine, h.bindings, h.autoload⟩

/-- The power state as an event closes that has woken the link for the host (R193). -/
theorem settle_woken {s v : State} (hv : v.power = (hostWake s).power) :
    (s.power.state = .asleep → (settle v).power.state ≠ .asleep ∧ (settle v).power.lastWake = .host ∧
      (settle v).power.sleepReq = false) ∧ (s.power.state = .active → (settle v).power = s.power) := by
  obtain ⟨hnot, hwoken, hawake⟩ := hostWake_power s
  refine ⟨fun hs => ?_, fun hs => ?_⟩
  · obtain ⟨hup, hlast, hreq⟩ := hwoken hs
    rw [(settle_awake v (by rw [hv]; exact hup)).2, hv]
    exact ⟨hnot, hlast, hreq⟩
  · have hsame := hawake (by rw [hs]; simp)
    rw [(settle_awake v (by rw [hv, hsame]; exact .inl hs)).2, hv, hsame]

/-! ### What the wake and the write-side effects read -/

theorem presentCalled_port (s : State) (p : HostPort) (a : ModAddr) : presentCalled { s with port := p } a = presentCalled s a := rfl

/-- The wake by the host does not read the host port. -/
theorem hostWake_port (s : State) (p : HostPort) : hostWake { s with port := p } = { hostWake s with port := p } := by
  unfold hostWake
  by_cases hp : s.power.state = .asleep
  · rw [if_pos hp, if_pos (show (State.power { s with port := p }).state = .asleep from hp)]
    by_cases hz : s.timing.settleTime = 0
    · obtain ⟨hr1, he1⟩ := wakeLink_at_once .host hz
      obtain ⟨hr2, he2⟩ := wakeLink_at_once .host (s := { s with port := p }) hz
      have hm : (wakeLink .host { s with port := p }).modules = (wakeLink .host s).modules :=
        vget_ext fun a => (he2 a).trans (he1 a).symm
      rw [hm] at hr2
      rw [hr2]
      generalize wakeLink .host s = z at hr1
      rw [hr1]
    · rw [wakeLink_settling .host hz, wakeLink_settling .host (s := { s with port := p }) hz]
  · rw [if_neg hp, if_neg (show ¬(State.power { s with port := p }).state = .asleep from hp)]

/-- The write-side effects read the slots, the cache and the event queue alone. -/
theorem writeEffects_congr {a : ModAddr} {off : Half} {w : Width} {s t : State} (hs : t.slots = s.slots) (hc : t.cache = s.cache)
    (he : t.events = s.events) : (writeEffects a off w t).slots = (writeEffects a off w s).slots ∧
      (writeEffects a off w t).cache = (writeEffects a off w s).cache ∧
      (writeEffects a off w t).events = (writeEffects a off w s).events := by
  obtain ⟨-, hslots, hcache⟩ := writeEffects_spec a off w s
  obtain ⟨-, tslots, tcache⟩ := writeEffects_spec a off w t
  refine ⟨vget_ext fun i => ?_, by rw [hcache, tcache, hc], ?_⟩
  · rw [hslots i, tslots i, hs]
  · rw [writeEffects_events, writeEffects_events, hs, he]

/-- What they find beside those, they leave. -/
theorem writeEffects_outside (a : ModAddr) (off : Half) (w : Width) (s : State) (p : HostPort) (q : List HostEntry) (m : Mailbox) :
    writeEffects a off w { s with port := p, hostQueue := q, mbx := m } =
      { writeEffects a off w s with port := p, hostQueue := q, mbx := m } := by
  obtain ⟨hs, hc, he⟩ := writeEffects_congr (a := a) (off := off) (w := w) (s := s) (t := { s with port := p, hostQueue := q, mbx := m })
    rfl rfl rfl
  obtain ⟨hrest, -, -⟩ := writeEffects_spec a off w s
  obtain ⟨trest, -, -⟩ := writeEffects_spec a off w { s with port := p, hostQueue := q, mbx := m }
  rw [trest, hs, hc, he]
  generalize writeEffects a off w s = z at hrest
  rw [hrest]

/-! ### A failure in a quiet state -/

/-- Where discovery is in step with its suspension, none of the management queue is dropped (R29). -/
theorem DiscMoves.kept_eq {s t : State} {d : Discovery} {kept : List MgmtEntry} (h : DiscMoves s t d kept) (hdisc : DiscLaw s) :
    kept = s.mgmtQueue := by
  obtain ⟨-, -, hk⟩ | ⟨hno, hk, hsus⟩ := h
  · exact hk
  · by_cases hq : s.disc.state = .querying
    · refine absurd ?_ hno
      have hs : s.suspended = true := by
        obtain ⟨hs, -⟩ | ⟨hs | hd, -⟩ := hsus
        · exact hs
        · exact hs
        · rw [hq] at hd; cases hd
      obtain hd | hj | hc := hdisc.1 hs
      · rw [hq] at hd; cases hd
      · exact .inl hj
      · exact .inr hc
    · rw [hk, if_neg hq]

/-- In a state where discovery follows its suspension and no work is due, follow-up work takes no reservation. -/
theorem WorkFollows.events_of_due {s t : State} (h : WorkFollows s t) (hdisc : DiscLaw s) (hdue : DueLaw s) : t.events = s.events := by
  obtain ⟨d, kept, item, added, hmove, -, -, -, hadded⟩ := h.work
  have hkept := hmove.kept_eq hdisc
  have hnone : added.filter MgmtEntry.isFetch = [] := by
    refine List.filter_eq_nil_iff.mpr fun m hm hfetch => ?_
    obtain ⟨hfor, hplace, -⟩ := (hadded.chosen m).mp hm
    cases m with
    | attnFetch a g =>
      obtain ⟨-, hatt, hperm⟩ := hfor
      have hroom : s.mgmtRoom = true := by
        unfold State.mgmtRoom
        rw [hkept, List.length_append] at hplace
        exact decide_eq_true (by omega)
      have hgrow := grows_of (s := s) (t := { s with mgmtQueue := kept ++ item.toList }) item.toList (by rw [hkept]) rfl id rfl
      have hno := ((hdue hroom).2 a).2.2.2 hatt
      rw [hgrow.fetch a hperm] at hno
      cases hno
    | joinQuery | assign | descRead | ping | attnClear | release => cases hfetch
  rw [hadded.events, hnone]
  simp

/-- Follow-up work drains nothing: what is drained behind it was drained before it. -/
theorem WorkFollows.drained {s t : State} (h : WorkFollows s t) (hdisc : DiscLaw s) {q : List HostEntry} {m : Mailbox} {u : EventUnit}
    (hd : State.drained { t with hostQueue := q, mbx := m, events := u } = true) :
    State.drained { s with hostQueue := q, mbx := m } = true := by
  obtain ⟨d, kept, item, added, hmove, -, -, hqueue, -⟩ := h.work
  obtain ⟨-, -, -, -, -, -, -, hslots, -, -, hengine, -, hload⟩ := h.fields
  rw [hmove.kept_eq hdisc] at hqueue
  have hjoin : State.drainJoin { t with hostQueue := q, mbx := m, events := u } = State.drainJoin { s with hostQueue := q, mbx := m } := by
    unfold State.drainJoin
    congr 1; funext a
    rw [show State.entry { t with hostQueue := q, mbx := m, events := u } a = t.entry a from rfl, h.entry_keeps a]
    rfl
  have hreads : State.drainReads { t with hostQueue := q, mbx := m, events := u } =
      State.drainReads { s with hostQueue := q, mbx := m } := by
    unfold State.drainReads; rw [hslots]
  simp only [State.drained, hjoin, hreads, Bool.and_eq_true] at hd ⊢
  obtain ⟨⟨⟨⟨⟨hqueues, hlink⟩, hj⟩, hr⟩, hm⟩, hl⟩ := hd
  refine ⟨⟨⟨⟨⟨?_, ?_⟩, hj⟩, hr⟩, hm⟩, ?_⟩
  · simp only [State.drainQueues, hqueue, Bool.and_eq_true, List.isEmpty_iff, List.append_eq_nil_iff] at hqueues ⊢
    exact ⟨hqueues.1, hqueues.2.1.1⟩
  · unfold State.drainLink at hlink ⊢; rw [hengine] at hlink; exact hlink
  · unfold State.drainAutoload State.autoloadRuns at hl ⊢; rw [hload] at hl; exact hl

/-- A head that fails alone on an upright link with no work due adds its record and nothing else to the event queue. -/
theorem HeadFailsAlone.events_of_upright {x t : State} {e : HostEntry} {m : Mailbox} {p : Posted} (h : HeadFailsAlone e m p x t)
    (hup : x.upright) (hdisc : DiscLaw x) (hdue : DueLaw x) : t.events = x.events.post p := by
  obtain ⟨v, hw, hclose⟩ := h
  have hevents : v.events = x.events := hw.events_of_due hdisc hdue
  have hvp : v.power = x.power := hw.power_of_upright hup
  have hvup : v.upright := by unfold State.upright at hup ⊢; rw [hvp]; exact hup
  rw [hclose.of_upright hvup, hevents]

/-- A head that fails alone in a state that was quiet and awake, with no work due, adds its record and nothing else to the event
queue. -/
theorem HeadFailsAlone.events_of_quiet {y x t : State} {e : HostEntry} {m : Mailbox} {p : Posted} (h : HeadFailsAlone e m p x t)
    (hy : QuietLaw y) (hawake : y.power.state ≠ .asleep) (hc : Calm y { x with hostQueue := [], mbx := m }) (hdue : DueLaw x) :
    t.events = x.events.post p := by
  obtain ⟨v, hw, hclose⟩ := h
  have hquiet := hc.quietLaw hy
  have hevents : v.events = x.events := hw.events_of_due hquiet.disc hdue
  have hsame : t = { v with hostQueue := [], mbx := m, events := v.events.post p } := by
    obtain ⟨-, hp⟩ | ⟨-, hp⟩ := hw.power
    · obtain ⟨z, hz, ht⟩ := hclose
      have hxp : v.power.state = y.power.state := (congrArg Power.state hp).trans hc.power
      rw [if_neg fun ⟨hd, hk⟩ => hquiet.drain ⟨hp ▸ hd, hw.drained hquiet.disc hk⟩] at hz
      rw [if_neg fun ⟨ha, _⟩ => hawake (by rw [← hxp]; rw [hz] at ha; exact ha)] at ht
      exact ht.trans hz
    · exact hclose.of_upright (.inl (by rw [hp]))
  rw [hsame, hevents]

end Sys2Proof.Machine
end

section
/-! PROOFS. Posted writes, reads given a slot, and the accesses held for a place (O24, O29, O30). -/

namespace Sys2Proof.Machine

/-! ### A write joins the queue -/

/-- The state in which a write has just joined the queue, the link woken for it (R78, R79, R193). -/
def posted (e : HostEntry) (s : State) (p : HostPort) : State :=
  { writeEffects e.addr e.offset e.width (hostWake s) with hostQueue := s.hostQueue ++ [e], port := p }

theorem postWrite_eq (e : HostEntry) (s : State) (p : HostPort) :
    postWrite e { s with port := p } = settle (posted e s { p with answer := some ⟨.ok, none⟩ }) := by
  obtain ⟨-, -, -, -, -, -, hqueue, -, -, -⟩ := (wakeKeeps_hostWake s).fields
  unfold postWrite posted
  rw [hostWake_port, ← hqueue]
  refine congrArg settle ?_
  have h := writeEffects_outside e.addr e.offset e.width (hostWake s) p ((hostWake s).hostQueue ++ [e]) (hostWake s).mbx
  obtain ⟨hrest, -, -⟩ := writeEffects_spec e.addr e.offset e.width (hostWake s)
  have hmbx : (writeEffects e.addr e.offset e.width (hostWake s)).mbx = (hostWake s).mbx := by rw [hrest]
  rw [pushHost]
  refine (congrArg (fun z => State.reply z okWrite) h).trans ?_
  rw [← hmbx]
  rfl

/-- A state in which an entry has just joined the queue: what of it the checks read. -/
structure Joined (e : HostEntry) (s v : State) : Prop where
  queue : v.hostQueue = s.hostQueue ++ [e]
  frame : AccessFrame s v
  entry : ∀ a, (v.entry a).state = (s.entry a).state ∧ (v.entry a).generation = (s.entry a).generation ∧
    (v.entry a).widthLimit = (s.entry a).widthLimit

/-- What the checks read of an entry, a wake by the host leaves. -/
theorem entry_of_woken {s v : State} (h : v.modules = (hostWake s).modules) (a : ModAddr) : (v.entry a).state = (s.entry a).state ∧
    (v.entry a).generation = (s.entry a).generation ∧ (v.entry a).widthLimit = (s.entry a).widthLimit := by
  rw [entry_of_modules _ _ h a, (wakeKeeps_hostWake s).entry a]
  exact ⟨rfl, rfl, rfl⟩

theorem Joined.headLaw {e : HostEntry} {s v : State} (h : Joined e s v) (hhead : HeadLaw s)
    (hn : s.hostQueue ≠ [] ∨ s.hostOnLink = true ∨ headCheck e s = none) : HeadLaw v :=
  headLaw_append e hhead h.queue h.frame.engine hn h.entry

/-- The entry fails as the head: it is delivered between the follow-up work and the close. -/
theorem Joined.fails {e : HostEntry} {s v : State} {o : LinkOutcome} (h : Joined e s v) (hq : s.hostQueue = [])
    (hl : s.hostOnLink = false) (ho : headCheck e s = some o) :
    ∃ u, WorkFollows v u ∧ ClosesAs (deliver e o none { u with hostQueue := [] }) (settle v) :=
  FollowUpOfHeads.single (followUpOfHeads_settle v) (by rw [hostOnLink_congr h.frame.engine]; exact hl) (by rw [h.queue, hq]; rfl)
    (by rw [headCheck_congr e s v h.entry]; exact ho)

theorem joined_posted (e : HostEntry) (s : State) (p : HostPort) : Joined e s (posted e s p) ∧
    (posted e s p).power = (hostWake s).power ∧ (posted e s p).mbx = s.mbx := by
  obtain ⟨hrest, -, -⟩ := writeEffects_spec e.addr e.offset e.width (hostWake s)
  have hframe := accessFrame_hostWake s
  have hmbx := (hostWake_keeps s).1
  unfold posted
  generalize writeEffects e.addr e.offset e.width (hostWake s) = z at hrest
  refine ⟨⟨rfl, hframe.trans ?_, entry_of_woken ?_⟩, ?_, ?_⟩
  · rw [hrest]; exact ⟨rfl, rfl, rfl, rfl, rfl, rfl, rfl, rfl⟩
  · rw [hrest]
  · rw [hrest]
  · rw [hrest]; exact hmbx

/-- The entry fails alone as the head, where its delivery ends in the mailbox `m` with the record `p`. -/
theorem Joined.fails_alone {e : HostEntry} {s v : State} {o : LinkOutcome} {m : Mailbox} {p : Posted} (h : Joined e s v)
    (hq : s.hostQueue = []) (hl : s.hostOnLink = false) (ho : headCheck e s = some o)
    (hd : ∀ u : State, u.mbx = v.mbx → deliver e o none { u with hostQueue := [] } =
      { u with hostQueue := [], mbx := m, events := u.events.post p }) : HeadFailsAlone e m p v (settle v) :=
  headFailsAlone_settle e o m p v (by rw [hostOnLink_congr h.frame.engine]; exact hl) (by rw [h.queue, hq]; rfl)
    (by rw [headCheck_congr e s v h.entry]; exact ho) fun u hwork => hd u (by
      obtain ⟨-, -, -, -, -, -, -, -, -, hmbx, -⟩ := hwork.fields
      exact hmbx)

/-- A window write that has failed is reported (R91). -/
theorem deliver_failedWrite {e : HostEntry} {o : LinkOutcome} (horigin : e.origin = .windowWrite) (ho : o ≠ .ok) (s : State) :
    deliver e o none s = { s with events := s.events.post (writeFailedRecord e o) } := by
  unfold deliver
  rw [horigin]
  exact if_neg ho

/-- A posted write that fails as the head posts its WRITE_FAILED (R86, R91). -/
theorem posted_fails {e : HostEntry} {s : State} {o : LinkOutcome} (p : HostPort) (horigin : e.origin = .windowWrite)
    (hq : s.hostQueue = []) (hl : s.hostOnLink = false) (ho : headCheck e s = some o) :
    HeadFailsAlone e s.mbx (writeFailedRecord e o) (posted e s p) (settle (posted e s p)) := by
  obtain ⟨hjoin, -, hmbx⟩ := joined_posted e s p
  generalize posted e s p = v at hjoin hmbx
  refine hjoin.fails_alone hq hl ho fun u hu => ?_
  rw [deliver_failedWrite horigin (headCheck_ne_ok ho), ← hmbx, ← hu]

/-- What a lone failing head leaves of the state that the event's blocks made. -/
theorem HeadFailsAlone.fields {e : HostEntry} {m : Mailbox} {p : Posted} {s t : State} (h : HeadFailsAlone e m p s t) :
    AccessFrame s t ∧ t.port = s.port ∧ t.hostQueue = [] ∧ t.slots = s.slots ∧ t.cache = s.cache ∧ t.mbx = m := by
  obtain ⟨u, hw, hc⟩ := h
  obtain ⟨a1, a2, a3, a4, a5, a6, -, a8, a9, -, a11, a12, a13⟩ := hw.fields
  obtain ⟨b1, b2, b3, b4, b5, b6, b7, b8, b9, b10, b11, b12, b13⟩ := hc.fields
  exact ⟨⟨b1.trans a1, b2.trans a2, b3.trans a3, b5.trans a5, b6.trans a6, b11.trans a11, b12.trans a12, b13.trans a13⟩,
    b4.trans a4, b7, b8.trans a8, b9.trans a9, b10⟩

/-- What the settled state of a write that joined the queue shares with the posted one, whether its head fails or not. -/
theorem settle_posted {e : HostEntry} {s t : State} {p : HostPort} (ht : t = settle (posted e s p)) (hhead : HeadLaw s)
    (hcase : (s.hostQueue ≠ [] ∨ s.hostOnLink = true ∨ headCheck e s = none) ∨
      e.origin = .windowWrite ∧ s.hostQueue = [] ∧ s.hostOnLink = false ∧ ∃ o, headCheck e s = some o) :
    t = { s with port := p, hostQueue := t.hostQueue, slots := t.slots, cache := t.cache, modules := t.modules
                 mgmtQueue := t.mgmtQueue, disc := t.disc, attn := t.attn, events := t.events, power := t.power } ∧
    t.slots = (posted e s p).slots ∧ t.cache = (posted e s p).cache := by
  obtain ⟨hjoin, -, hjmbx⟩ := joined_posted e s p
  have hkeep : t.port = p ∧ t.mbx = s.mbx ∧ t.slots = (posted e s p).slots ∧ t.cache = (posted e s p).cache := by
    obtain hpass | ⟨horigin, hq, hl, o, ho⟩ := hcase
    · obtain ⟨-, -, -, hport, -, -, -, hslots, hcache, hmbx, -⟩ := (followUp_settle _ (hjoin.headLaw hhead hpass)).fields
      rw [ht]
      exact ⟨hport, hmbx.trans hjmbx, hslots, hcache⟩
    · obtain ⟨-, hport, -, hslots, hcache, hmbx⟩ := (posted_fails p horigin hq hl ho).fields
      rw [ht]
      exact ⟨hport, hmbx, hslots, hcache⟩
  obtain ⟨hport, hmbx, hslots, hcache⟩ := hkeep
  refine ⟨?_, hslots, hcache⟩
  have hframe := (hjoin.frame.trans (accessFrame_settle _)).eq
  rw [← ht, hport, hmbx] at hframe
  exact hframe

theorem writeTakesEffect_woken {a : ModAddr} {off : Half} {w : Width} {s : State} (h : s.power.state ≠ .asleep) :
    writeEffects a off w (hostWake s) = writeEffects a off w s := by rw [(hostWake_power s).2.2 h]

/-- The lines and the slots behind a write, whether the link was woken for it or not. -/
theorem posted_slots (e : HostEntry) (s : State) (p : HostPort) :
    (posted e s p).slots = (writeEffects e.addr e.offset e.width s).slots ∧
    (posted e s p).cache = (writeEffects e.addr e.offset e.width s).cache := by
  obtain ⟨-, hslots, hcache⟩ := writeEffects_spec e.addr e.offset e.width (hostWake s)
  obtain ⟨-, sslots, scache⟩ := writeEffects_spec e.addr e.offset e.width s
  obtain ⟨-, -, -, -, -, -, -, kslots, kcache, -⟩ := (wakeKeeps_hostWake s).fields
  rw [kcache] at hcache
  refine ⟨vget_ext fun i => ?_, ?_⟩
  · rw [posted, hslots i, kslots, sslots i]
  · rw [posted, hcache, scache]

/-- The write-side effects leave the work that is due as it is. -/
theorem dueLaw_writeEffects {a : ModAddr} {off : Half} {w : Width} {s : State} (h : DueLaw s) (p : HostPort) (q : List HostEntry)
    (m : Mailbox) : DueLaw { writeEffects a off w s with port := p, hostQueue := q, mbx := m } := by
  obtain ⟨hrest, -, -⟩ := writeEffects_spec a off w s
  have hplace : (writeEffects a off w s).events.hasPlace = true → s.events.hasPlace = true := by
    rw [writeEffects_events]
    generalize allSlots = l
    generalize s.events = u
    induction l generalizing u with
    | nil => exact id
    | cons i l ih =>
      intro hl
      have hu := ih _ hl
      dsimp only at hu
      split at hu
      · split at hu
        · exact EventUnit.hasPlace_post hu
        · exact hu
      · exact hu
      · exact hu
  generalize writeEffects a off w s = z at hrest hplace
  refine dueLaw_of h ?_ ?_ ?_ ?_ hplace fun b => ?_
  · rw [hrest]
  · rw [hrest]
  · exact mgmtOnLink_congr (by rw [hrest])
  · rw [hrest]
  · rw [show State.entry { z with port := p, hostQueue := q, mbx := m } b = z.entry b from rfl, entry_of_modules s z (by rw [hrest]) b]
    exact ⟨rfl, rfl, rfl, rfl⟩

/-- The write-side effects are calm: they free no PENDING slot. -/
theorem calm_writeEffects {a : ModAddr} {off : Half} {w : Width} {s : State} (p : HostPort) (m : Mailbox)
    (hm : m.busy = false → s.mbx.busy = false) (hq : s.hostQueue = []) :
    Calm s { writeEffects a off w s with port := p, hostQueue := [], mbx := m } := by
  obtain ⟨hrest, hslots, -⟩ := writeEffects_spec a off w s
  have hreads : State.drainReads { writeEffects a off w s with port := p, hostQueue := [], mbx := m } = true → s.drainReads = true := by
    intro hr
    refine (drainReads_iff s).mpr fun i => ?_
    have hi : (vget (writeEffects a off w s).slots i).isPending = false := (drainReads_iff _).mp hr i
    rw [hslots i] at hi
    cases hslot : vget s.slots i with
    | free => rfl
    | complete x o d n => rfl
    | pending x => rw [hslot, afterWrite] at hi; split at hi <;> cases hi
  generalize writeEffects a off w s = z at hrest hreads
  refine ⟨hq.symm, ?_, ?_, ?_, fun b => ?_, ?_, ?_, ?_, ?_, hreads, hm⟩
  · rw [hrest]
  · rw [hrest]
  · rw [hrest]
  · rw [show State.entry { z with port := p, hostQueue := [], mbx := m } b = z.entry b from rfl, entry_of_modules s z (by rw [hrest]) b]
    exact ⟨rfl, rfl, rfl⟩
  · rw [hrest]
  · rw [hrest]
  · rw [hrest]; exact ⟨id, id⟩
  · rw [hrest]; rfl

end Sys2Proof.Machine
end

section
/-! PROOFS. The obligations about the accesses that join the host request queue (O24, O29, O30). -/

namespace Sys2Proof.Machine

/-! ### Posted writes (R78, R79) -/

/-- Either a new entry passes its checks or is not the head yet, or it is the head at once and fails one. -/
theorem head_cases (e : HostEntry) (s : State) : (s.hostQueue ≠ [] ∨ s.hostOnLink = true ∨ headCheck e s = none) ∨
    s.hostQueue = [] ∧ s.hostOnLink = false ∧ ∃ o, headCheck e s = some o := by
  by_cases hq : s.hostQueue = []
  · cases hl : s.hostOnLink with
    | true => exact .inl (.inr (.inl rfl))
    | false =>
      cases hc : headCheck e s with
      | none => exact .inl (.inr (.inr rfl))
      | some o => exact .inr ⟨hq, rfl, o, rfl⟩
  · exact .inl (.inl hq)

/-- What a posted write leaves, whatever becomes of it (R72, R79, R193). -/
theorem posted_common {e : HostEntry} {s t : State} {p : HostPort} (ht : t = settle (posted e s p)) (hhead : HeadLaw s)
    (horigin : e.origin = .windowWrite ∨ s.hostQueue ≠ [] ∨ s.hostOnLink = true ∨ headCheck e s = none) :
    t = { s with port := p, hostQueue := t.hostQueue, slots := t.slots, cache := t.cache, modules := t.modules
                 mgmtQueue := t.mgmtQueue, disc := t.disc, attn := t.attn, events := t.events, power := t.power } ∧
    t.slots = (writeEffects e.addr e.offset e.width s).slots ∧ t.cache = (writeEffects e.addr e.offset e.width s).cache ∧
    (s.power.state = .asleep → t.power.state ≠ .asleep ∧ t.power.lastWake = .host ∧ t.power.sleepReq = false) ∧
    (s.power.state = .active → t.power = s.power) := by
  have hcase : (s.hostQueue ≠ [] ∨ s.hostOnLink = true ∨ headCheck e s = none) ∨
      e.origin = .windowWrite ∧ s.hostQueue = [] ∧ s.hostOnLink = false ∧ ∃ o, headCheck e s = some o :=
    horigin.elim (fun h => (head_cases e s).imp_right fun k => ⟨h, k⟩) .inl
  obtain ⟨hframe, hslots, hcache⟩ := settle_posted ht hhead hcase
  obtain ⟨hs, hc⟩ := posted_slots e s p
  obtain ⟨hasleep, hactive⟩ := settle_woken (joined_posted e s p).2.1
  rw [← ht] at hasleep hactive
  exact ⟨hframe, hslots.trans hs, hcache.trans hc, hasleep, hactive⟩

/-- A lone head that fails takes the place of whatever the queue held. -/
theorem HeadFailsAlone.requeue {e : HostEntry} {m : Mailbox} {p : Posted} {s t : State} (h : HeadFailsAlone e m p s t)
    (q : List HostEntry) : HeadFailsAlone e m p { s with hostQueue := q } t := h

/-- Settles O24: the write that passes is posted; where it is the head and too wide, it fails behind the follow-up work. -/
theorem windowWriteIsPosted : Obligations.WindowWriteIsPosted := by
  intro s addr lanes data n a lane w hfree hquiet hpass hlen off e
  obtain ⟨p, hp⟩ : ∃ p, p = { s.port with answer := some ⟨.ok, none⟩ } := ⟨_, rfl⟩
  obtain ⟨t, ht⟩ : ∃ t, t = settle (posted e s p) := ⟨_, rfl⟩
  have hexec : exec (.windowWrite addr lanes data) s = .next t := by
    rw [exec_windowWrite_of_passes hfree hpass, takeWrite, if_pos ((hostRoom_iff s).mpr hlen), ht, hp]
    exact congrArg Host.Outcome.next (postWrite_eq e s s.port)
  have hcheck : headCheck e s = if e.op ≠ .descRead ∧ (s.entry a).widthLimit.bytes < w.bytes then some .width else none :=
    headCheck_fresh rfl rfl (.inl hpass.online)
  have hnone : w.bytes ≤ (s.entry a).widthLimit.bytes → headCheck e s = none := fun h => by
    rw [hcheck, if_neg fun k => absurd k.2 (by omega)]
  have hsome : (s.entry a).widthLimit.bytes < w.bytes → headCheck e s = some .width := fun h => by
    rw [hcheck, if_pos ⟨by simp [e], h⟩]
  have hpassing : (s.hostQueue ≠ [] ∨ s.hostOnLink = true ∨ w.bytes ≤ (s.entry a).widthLimit.bytes) → FollowUp (posted e s p) t :=
    fun h => ht ▸ followUp_settle _ ((joined_posted e s _).1.headLaw hquiet.head (h.imp_right (Or.imp_right hnone)))
  have hfailing : s.hostQueue = [] → s.hostOnLink = false → (s.entry a).widthLimit.bytes < w.bytes →
      HeadFailsAlone e s.mbx (writeFailedRecord e .width) (posted e s p) t := fun hq hl hw => ht ▸ posted_fails _ rfl hq hl (hsome hw)
  obtain ⟨hframe, hslots, hcache, hasleep, hactive⟩ := posted_common ht hquiet.head (.inl rfl)
  have htakes := writeEffects_takesEffect a off w s
  clear ht
  refine ⟨t, hexec, hp ▸ hframe, fun h => ?_, fun hq hl hw => ?_, fun i => ?_, fun i => ?_, hasleep, hactive,
    ⟨_, writeEffects_takesEffect a off w (hostWake s), hp ▸ hpassing, hp ▸ hfailing⟩,
    ⟨_, htakes, fun hup h => ?_, fun hup hdue hq hl hw => ?_⟩⟩
  · obtain ⟨-, -, -, -, -, -, hqueue, -⟩ := (hpassing h).fields
    exact hqueue
  · obtain ⟨-, -, hqueue, -⟩ := (hfailing hq hl hw).fields
    exact hqueue
  · rw [hcache]; exact htakes.lines i
  · rw [hslots]; exact htakes.slots i
  · have h := hpassing h
    rw [posted, show writeEffects e.addr e.offset e.width (hostWake s) = writeEffects a off w s from writeTakesEffect_woken hup] at h
    exact hp ▸ h
  · have h := hfailing hq hl hw
    have hmbx : (writeEffects a off w s).mbx = s.mbx := by rw [htakes.rest]
    have hpost : posted e s p = { writeEffects a off w s with port := p, hostQueue := s.hostQueue ++ [e], mbx := s.mbx } := by
      rw [posted, show writeEffects e.addr e.offset e.width (hostWake s) = writeEffects a off w s from writeTakesEffect_woken hup, ← hmbx]
    rw [hpost] at h
    rw [h.events_of_quiet hquiet hup (calm_writeEffects p s.mbx id hq) (dueLaw_writeEffects hdue _ _ _)]
    rfl

/-! ### Reads given a slot (R80, R102, R103) -/

/-- The state in which a read has just been given its slot and its entry has joined the queue, the link woken for it. -/
def allocated (acc : ReadAccess) (i : Fin 4) (s : State) (p : HostPort) : State :=
  { hostWake s with port := p, hostQueue := s.hostQueue ++ [readEntry acc i], slots := vset s.slots i (pendingSlot acc) }

theorem allocated_eq (acc : ReadAccess) (i : Fin 4) (s : State) (p : HostPort) :
    { allocate acc i (hostWake s) with port := p } = allocated acc i s p := by
  obtain ⟨-, -, -, -, -, -, hqueue, hslots, -, -⟩ := (wakeKeeps_hostWake s).fields
  unfold allocated allocate pushHost State.setSlot
  simp only [hqueue, hslots]

/-- The port of a read just given a slot: held for it, or answered RETRY with HOST_HOLD 0 (R102, R103). -/
def slotPort (i : Fin 4) (s : State) : HostPort :=
  { s.port with
    answer := if s.timing.hostHold = 0 then some ⟨.retry, none⟩ else none
    held := if s.timing.hostHold = 0 then s.port.held else some ⟨.slot i, s.timing.hostHold, 0⟩ }

theorem takeSlot_eq (acc : ReadAccess) (i : Fin 4) (s : State) : takeSlot acc i s = settle (allocated acc i s (slotPort i s)) := by
  have hport := (hostWake_keeps s).2.2.2.1
  have htiming := (accessFrame_hostWake s).timing
  unfold takeSlot
  refine congrArg settle ?_
  rw [← allocated_eq]
  by_cases h : s.timing.hostHold = 0
  · rw [if_pos h, slotPort, if_pos h, if_pos h, ← hport]; rfl
  · rw [if_neg h, slotPort, if_neg h, if_neg h, ← hport, ← htiming]; rfl

theorem joined_allocated (acc : ReadAccess) (i : Fin 4) (s : State) (p : HostPort) : Joined (readEntry acc i) s (allocated acc i s p) where
  queue := rfl
  frame := (accessFrame_hostWake s).trans ⟨rfl, rfl, rfl, rfl, rfl, rfl, rfl, rfl⟩
  entry := entry_of_woken rfl

/-- What a settled read shares with its allocation where its entry passes or waits. -/
theorem allocated_passes {acc : ReadAccess} {i : Fin 4} {s t : State} {p : HostPort} (ht : t = settle (allocated acc i s p))
    (hhead : HeadLaw s) (hn : s.hostQueue ≠ [] ∨ s.hostOnLink = true ∨ headCheck (readEntry acc i) s = none) :
    t = { s with port := p, hostQueue := s.hostQueue ++ [readEntry acc i], slots := vset s.slots i (pendingSlot acc)
                 modules := t.modules, mgmtQueue := t.mgmtQueue, disc := t.disc, attn := t.attn, events := t.events
                 power := t.power } ∧
    (s.power.state = .asleep → t.power.state ≠ .asleep ∧ t.power.lastWake = .host ∧ t.power.sleepReq = false) ∧
    (s.power.state = .active → t.power = s.power) ∧
    FollowUp { hostWake s with port := t.port, hostQueue := t.hostQueue, slots := t.slots } t := by
  have hjoin := joined_allocated acc i s p
  have hfollow : FollowUp (allocated acc i s p) t := ht ▸ followUp_settle _ (hjoin.headLaw hhead hn)
  have hpower := settle_woken (s := s) (v := allocated acc i s p) rfl
  rw [← ht] at hpower
  have hframe := (hjoin.frame.trans (accessFrame_settle _)).eq
  rw [← ht] at hframe
  clear ht
  obtain ⟨-, -, -, hport, -, -, hqueue, hslots, hcache, hmbx, -⟩ := hfollow.fields
  obtain ⟨-, -, -, -, -, -, -, -, kcache, -⟩ := (wakeKeeps_hostWake s).fields
  refine ⟨?_, hpower.1, hpower.2, ?_⟩
  · rw [hport, hqueue, hslots, show t.mbx = s.mbx from hmbx.trans (hostWake_keeps s).1,
      show t.cache = s.cache from hcache.trans kcache] at hframe
    exact hframe
  · rw [hport, hqueue, hslots]
    exact hfollow

/-- The port as a read that fails is answered at once: ERROR with READ_FAULT (R105). -/
def failedPort (acc : ReadAccess) (i : Fin 4) (o : LinkOutcome) (p : HostPort) : HostPort :=
  { p with held := none, answer := some ⟨.error, some 0xFFFFFFFF#32⟩
           readFault := ⟨some o, acc.hostAddr, BitVec.ofNat 3 acc.width.bytes, BitVec.ofNat 2 i.val⟩ }

theorem vset_vset {α : Type} {n : Nat} (v : Vector α n) (i : Fin n) (x y : α) : vset (vset v i x) i y = vset v i y :=
  vget_ext fun j => by
    simp only [vget_vset]
    split
    · rfl
    · rfl

/-- A failed read delivered to its PENDING slot (R103 to R105). -/
theorem deliver_failedRead {acc : ReadAccess} {i : Fin 4} {s : State} {o : LinkOutcome} {v : Vector Slot 4} (ho : o ≠ .ok)
    (hs : s.slots = vset v i (pendingSlot acc)) : deliver (readEntry acc i) o none s =
      if s.port.held.any (fun h => h.what = .slot i) = true then { s with port := failedPort acc i o s.port, slots := vset v i .free }
      else { s with slots := vset v i (.complete ⟨acc.hostAddr, acc.width, acc.window, acc.target, acc.offset, false⟩ o none 0) } := by
  have hslot : vget s.slots i = pendingSlot acc := by rw [hs, vget_vset_same]
  show completeSlot i (readEntry acc i) o none s = _
  unfold completeSlot
  rw [hslot]
  simp only [pendingSlot, ho, false_and, if_false, collect, State.setSlot, State.reply, slotAnswer, hs, vset_vset]
  split
  · rfl
  · rfl

/-- A read whose entry is the head at once and fails: the access held for it is answered, or its slot is COMPLETE (R85, R88, R103). -/
theorem allocated_fails {acc : ReadAccess} {i : Fin 4} {s t : State} {p : HostPort} {o : LinkOutcome}
    (ht : t = settle (allocated acc i s p)) (hq : s.hostQueue = []) (hl : s.hostOnLink = false)
    (ho : headCheck (readEntry acc i) s = some o) :
    t.hostQueue = [] ∧
    (p.held.any (fun h => h.what = .slot i) = true → t.port = failedPort acc i o p ∧ t.slots = vset s.slots i .free) ∧
    (p.held.any (fun h => h.what = .slot i) = false → t.port = p ∧
      t.slots = vset s.slots i (.complete ⟨acc.hostAddr, acc.width, acc.window, acc.target, acc.offset, false⟩ o none 0)) ∧
    FollowUp { hostWake s with port := t.port, slots := t.slots } t := by
  obtain ⟨u, hwork, hclose⟩ := (joined_allocated acc i s p).fails hq hl ho
  rw [← ht] at hclose
  clear ht
  obtain ⟨-, -, -, hport, -, -, -, hslots, -⟩ := hwork.fields
  rw [deliver_failedRead (s := { u with hostQueue := [] }) (v := s.slots) (headCheck_ne_ok ho) hslots,
    show (State.port { u with hostQueue := [] }) = p from hport] at hclose
  have hkqueue : (hostWake s).hostQueue = [] := by
    obtain ⟨-, -, -, -, -, -, hk, -⟩ := (wakeKeeps_hostWake s).fields
    exact hk.trans hq
  have hfollow : ∀ P S, ClosesAs { u with hostQueue := [], port := P, slots := S } t →
      t.hostQueue = [] ∧ t.port = P ∧ t.slots = S ∧ FollowUp { hostWake s with port := t.port, slots := t.slots } t := fun P S hc => by
    obtain ⟨-, -, -, tport, -, -, tqueue, tslots, -⟩ := hc.fields
    refine ⟨tqueue, tport, tslots, _, ?_, hc⟩
    have hout := hwork.outside P [] S
    rw [tport, tslots]
    have hstart : ({ hostWake s with port := P, slots := S } : State) = { hostWake s with port := P, hostQueue := [], slots := S } := by
      rw [← hkqueue]
    show WorkFollows { hostWake s with port := P, slots := S } _
    rw [hstart]
    exact hout
  split at hclose
  · next hheld =>
    obtain ⟨h1, h2, h3, h4⟩ := hfollow _ _ hclose
    exact ⟨h1, fun _ => ⟨h2, h3⟩, fun hno => absurd hheld (by rw [hno]; simp), h4⟩
  · next hheld =>
    obtain ⟨h1, h2, h3, h4⟩ := hfollow p _ hclose
    exact ⟨h1, fun hyes => absurd hyes hheld, fun _ => ⟨h2, h3⟩, h4⟩

/-- Settles O29: the read that matches no slot is given the lowest FREE one; where its entry is the head and too wide it fails. -/
theorem readIsGivenASlot : Obligations.ReadIsGivenASlot := by
  intro s addr lanes n a lane w hfree hquiet hpass off hmiss hfresh
  obtain ⟨acc, hacc⟩ : ∃ acc, acc = passedRead s addr n a lane w := ⟨_, rfl⟩
  have hexec : exec (.windowRead addr lanes) s = .next (readFresh acc s) := by
    rw [exec_windowRead_of_passes hfree hpass, hacc,
      readPath_of_miss (cacheLookup_eq_none_of_misses hmiss) (matchSlot_eq_none hfresh)]
  have hcheck : ∀ i, headCheck (readEntry acc i) s =
      if (s.entry a).widthLimit.bytes < w.bytes then some .width else none := fun i => by
    rw [hacc, headCheck_fresh (e := readEntry (passedRead s addr n a lane w) i) rfl rfl (.inl hpass.online)]
    simp [readEntry, passedRead]
  have htake : ∀ i, vget s.slots i = .free → (∀ k < i, vget s.slots k ≠ .free) → s.hostQueue.length < 16 →
      exec (.windowRead addr lanes) s = .next (settle (allocated acc i s (slotPort i s))) := fun i hi hlow hlen => by
    rw [hexec, readFresh, (freeSlot_eq_some_iff s i).mpr ⟨hi, hlow⟩]
    simp only [(hostRoom_iff s).mpr hlen, if_true]
    rw [takeSlot_eq]
  refine ⟨fun hnone => ?_, fun i hi hlow hlen hn => ?_, fun i hi hlow hq hl hw => ?_⟩
  · rw [hexec, readFresh, (freeSlot_eq_none_iff s).mpr hnone]
    rfl
  · obtain ⟨t, ht⟩ : ∃ t, t = settle (allocated acc i s (slotPort i s)) := ⟨_, rfl⟩
    obtain ⟨hframe, hasleep, hactive, hfollow⟩ := allocated_passes ht hquiet.head
      (hn.imp_right (Or.imp_right fun h => by rw [hcheck, if_neg (by omega)]))
    refine ⟨t, ht ▸ htake i hi hlow hlen, ?_, hasleep, hactive, hfollow⟩
    rw [hacc] at hframe
    exact hframe
  · obtain ⟨t, ht⟩ : ∃ t, t = settle (allocated acc i s (slotPort i s)) := ⟨_, rfl⟩
    obtain ⟨hqueue, hheld, hfree', hfollow⟩ := allocated_fails ht hq hl (o := .width) (by rw [hcheck, if_pos hw])
    have hpheld := portFree_held s hfree
    have hfreed : vset s.slots i .free = s.slots := vget_ext fun j => by
      rw [vget_vset]
      split
      · next h => rw [← h, hi]
      · rfl
    refine ⟨t, ht ▸ htake i hi hlow (by simp [hq]), hqueue, ?_⟩
    clear ht
    by_cases h0 : s.timing.hostHold = 0
    · obtain ⟨hport, hslots⟩ := hfree' (by rw [slotPort, if_pos h0, hpheld]; rfl)
      rw [slotPort, if_pos h0, if_pos h0] at hport
      rw [hacc] at hslots
      refine ⟨by rw [hport, hpheld], fun h => absurd h0 h, fun _ => ⟨hport, hslots⟩, by rw [hport], hfollow⟩
    · obtain ⟨hport, hslots⟩ := hheld (by rw [slotPort, if_neg h0]; simp)
      rw [slotPort, if_neg h0, if_neg h0, failedPort, hacc] at hport
      have hsame : t.port = { s.port with answer := t.port.answer, readFault := t.port.readFault } := by rw [hport, ← hpheld]
      refine ⟨by rw [hport], fun _ => ⟨hslots.trans hfreed, by rw [hport], by rw [hport]; rfl⟩, fun h => absurd h h0, hsame, hfollow⟩

/-! ### Accesses held for a place (R82, R200) -/

theorem exec_hostHoldExpiry {s : State} {h : Held} (hhold : s.pins.hold = false) (hheld : s.port.held = some h) :
    ∃ t, exec .hostHoldExpiry s = .next { t with port := { t.port with
        held := none
        answer := some (match h.what with
          | .writePlace _ => ⟨.error, none⟩
          | .readPlace _ => ⟨.retry, none⟩
          | .slot _ => ⟨.retry, none⟩) } } ∧ OnlyTimePasses (h.period - h.elapsed) s t := by
  refine ⟨_, (congrArg Host.Outcome.next (whenLive_live holdExpires s hhold)).trans (congrArg Host.Outcome.next ?_),
    onlyTimePasses_advance (h.period - h.elapsed) s⟩
  rw [holdExpires, hheld]
  dsimp only
  cases h.what with
  | writePlace e => rfl
  | readPlace acc => rfl
  | slot i => rfl

theorem exec_heldAccessEnqueue {s : State} {h : Held} (hhold : s.pins.hold = false) (hheld : s.port.held = some h)
    (hlen : s.hostQueue.length < 16) : exec .heldAccessEnqueue s = .next (match h.what with
      | .writePlace e => postWrite e (endHold s)
      | .readPlace acc =>
        match s.freeSlot with
        | none => (endHold s).reply retryAnswer
        | some i => settle (allocated acc i s { s.port with held := some { h with what := .slot i } })
      | .slot _ => s) := by
  refine (congrArg Host.Outcome.next (whenLive_live heldEnqueue s hhold)).trans (congrArg Host.Outcome.next ?_)
  rw [heldEnqueue, if_pos ((hostRoom_iff s).mpr hlen), hheld]
  dsimp only
  cases h.what with
  | writePlace e => rfl
  | slot i => rfl
  | readPlace acc =>
    dsimp only
    cases s.freeSlot with
    | none => rfl
    | some i =>
      have hport : (allocate acc i (hostWake s)).port = s.port := (hostWake_keeps s).2.2.2.1
      dsimp only
      rw [hport, allocated_eq]

/-- Settles O30: a held access joins the queue as a fresh one does, or its hold runs out. -/
theorem heldAccessEnds : Obligations.HeldAccessEnds := by
  intro s h hhold hheld
  refine ⟨exec_hostHoldExpiry hhold hheld, fun e hw hquiet hlen hn => ?_, fun e o hw horigin hq hl ho => ?_,
    fun acc hw hlen hnone => ?_, fun acc i e hw hquiet hlen hi hlow he => ?_⟩
  · obtain ⟨t, ht⟩ : ∃ t, t = settle (posted e s { s.port with held := none, answer := some ⟨.ok, none⟩ }) := ⟨_, rfl⟩
    have hexec : exec .heldAccessEnqueue s = .next t := by
      rw [exec_heldAccessEnqueue hhold hheld hlen, hw, ht]
      exact congrArg Host.Outcome.next (postWrite_eq e s { s.port with held := none })
    have hfollow : FollowUp (posted e s { s.port with held := none, answer := some ⟨.ok, none⟩ }) t :=
      ht ▸ followUp_settle _ ((joined_posted e s _).1.headLaw hquiet.head hn)
    obtain ⟨hframe, hslots, hcache, hasleep, -⟩ := posted_common ht hquiet.head (.inr hn)
    clear ht
    obtain ⟨-, -, -, -, -, -, hqueue, -⟩ := hfollow.fields
    refine ⟨t, hexec, hqueue, hframe, hasleep, ⟨_, writeEffects_takesEffect _ _ _ s, hcache, hslots, fun hup => ?_⟩,
      _, writeEffects_takesEffect _ _ _ (hostWake s), hfollow⟩
    rw [posted, writeTakesEffect_woken hup] at hfollow
    exact hfollow
  · obtain ⟨p, hp⟩ : ∃ p, p = { s.port with held := none, answer := some ⟨.ok, none⟩ } := ⟨_, rfl⟩
    obtain ⟨t, ht⟩ : ∃ t, t = settle (posted e s p) := ⟨_, rfl⟩
    have hexec : exec .heldAccessEnqueue s = .next t := by
      rw [exec_heldAccessEnqueue hhold hheld (by simp [hq]), hw, ht, hp]
      exact congrArg Host.Outcome.next (postWrite_eq e s { s.port with held := none })
    have hfail : HeadFailsAlone e s.mbx (writeFailedRecord e o) (posted e s p) t := ht ▸ posted_fails _ horigin hq hl ho
    clear ht
    obtain ⟨-, hport, hqueue, hslots, hcache, -⟩ := hfail.fields
    have htakes := writeEffects_takesEffect e.addr e.offset e.width (hostWake s)
    unfold posted at hfail hport hslots hcache
    generalize writeEffects e.addr e.offset e.width (hostWake s) = u at hfail hport hslots hcache htakes
    refine ⟨t, u, hexec, htakes, hqueue, hport.trans hp, hslots, hcache, ?_⟩
    rw [hport]
    exact hfail.requeue u.hostQueue
  · rw [exec_heldAccessEnqueue hhold hheld hlen, hw, (freeSlot_eq_none_iff s).mpr hnone]
    rfl
  · obtain ⟨t, ht⟩ : ∃ t, t = settle (allocated acc i s { s.port with held := some { h with what := .slot i } }) := ⟨_, rfl⟩
    have hexec : exec .heldAccessEnqueue s = .next t := by
      rw [exec_heldAccessEnqueue hhold hheld hlen, hw, (freeSlot_eq_some_iff s i).mpr ⟨hi, hlow⟩, ht]
    have he' : e = readEntry acc i := he
    refine ⟨fun hn => ?_, fun o hq hl ho => ?_⟩
    · rw [he'] at hn ⊢
      obtain ⟨hframe, hasleep, -, hfollow⟩ := allocated_passes ht hquiet.head hn
      exact ⟨t, hexec, hframe, hasleep, hfollow⟩
    · rw [he'] at ho
      obtain ⟨hqueue, hyes, -, hfollow⟩ := allocated_fails ht hq hl ho
      obtain ⟨hport, hslots⟩ := hyes (by simp)
      have hfreed : vset s.slots i .free = s.slots := vget_ext fun j => by
        rw [vget_vset]
        split
        · next h => rw [← h, hi]
        · rfl
      have hkept : (hostWake s).slots = s.slots := by
        obtain ⟨-, -, -, -, -, -, -, hk, -⟩ := (wakeKeeps_hostWake s).fields
        exact hk
      refine ⟨t, hexec, hqueue, hslots.trans hfreed, hport, ?_⟩
      rw [hslots, hfreed, ← hkept] at hfollow
      exact hfollow

end Sys2Proof.Machine
end

section
/-! PROOFS. The mailbox's link commands: their tests, the entry that joins the queue, and its failure as the head (O43, O49). -/

namespace Sys2Proof.Machine

/-! ### What the entry of a command does as it joins the queue (R79, R81) -/

/-- The effects of a link command on the lines, the slots and the event queue: those of a write, for a WRITE (R79). -/
def linkEffects (op : HostOp) (a : ModAddr) (off : Half) (w : Width) (s : State) : State :=
  if op = .write then writeEffects a off w s else s

/-- The state in which a command's entry has just joined the queue of `q`, with the mailbox and the port as given. -/
def commandJoined (op : HostOp) (e : HostEntry) (s : State) (q : List HostEntry) (m : Mailbox) (p : HostPort) : State :=
  { linkEffects op e.addr e.offset e.width s with hostQueue := q ++ [e], mbx := m, port := p }

theorem linkEffects_frame (op : HostOp) (a : ModAddr) (off : Half) (w : Width) (s : State) : linkEffects op a off w s = { s with
    slots := (linkEffects op a off w s).slots, cache := (linkEffects op a off w s).cache
    events := (linkEffects op a off w s).events } := by
  unfold linkEffects
  split
  · exact (writeEffects_spec a off w s).1
  · rfl

theorem linkEffects_outside (op : HostOp) (a : ModAddr) (off : Half) (w : Width) (s : State) (p : HostPort) (q : List HostEntry)
    (m : Mailbox) : linkEffects op a off w { s with port := p, hostQueue := q, mbx := m } =
      { linkEffects op a off w s with port := p, hostQueue := q, mbx := m } := by
  unfold linkEffects
  split
  · exact writeEffects_outside a off w s p q m
  · rfl

theorem linkEffects_woken {op : HostOp} {a : ModAddr} {off : Half} {w : Width} {s : State} (h : s.power.state ≠ .asleep) :
    linkEffects op a off w (hostWake s) = linkEffects op a off w s := by rw [(hostWake_power s).2.2 h]

theorem linkEffects_cases (op : HostOp) (a : ModAddr) (off : Half) (w : Width) (s : State) :
    (op ≠ .write → linkEffects op a off w s = s) ∧ (op = .write → WriteTakesEffect a off w s (linkEffects op a off w s)) := by
  unfold linkEffects
  exact ⟨fun h => if_neg h, fun h => by rw [if_pos h]; exact writeEffects_takesEffect a off w s⟩

theorem dueLaw_linkEffects {op : HostOp} {a : ModAddr} {off : Half} {w : Width} {s : State} (h : DueLaw s) (p : HostPort)
    (q : List HostEntry) (m : Mailbox) : DueLaw { linkEffects op a off w s with port := p, hostQueue := q, mbx := m } := by
  unfold linkEffects
  split
  · exact dueLaw_writeEffects h p q m
  · exact h

theorem calm_linkEffects {op : HostOp} {a : ModAddr} {off : Half} {w : Width} {s : State} (p : HostPort) (m : Mailbox)
    (hm : m.busy = false → s.mbx.busy = false) (hq : s.hostQueue = []) :
    Calm s { linkEffects op a off w s with port := p, hostQueue := [], mbx := m } := by
  unfold linkEffects
  split
  · exact calm_writeEffects p m hm hq
  · exact ⟨hq.symm, rfl, rfl, rfl, fun _ => ⟨rfl, rfl, rfl⟩, rfl, rfl, ⟨id, id⟩, rfl, id, hm⟩

/-- A command's entry joins the queue (R81, R125). -/
theorem enqueueMailbox_eq (op : HostOp) (a : ModAddr) (w : Width) (s : State) : enqueueMailbox op a w s =
    commandJoined op (mailboxEntry op a w s) s s.hostQueue { s.mbx with state := .queued } s.port :=
  linkEffects_outside op a s.mbx.offset w s s.port (s.hostQueue ++ [mailboxEntry op a w s]) { s.mbx with state := .queued }

theorem joined_command {op : HostOp} {e : HostEntry} {s v : State} (m : Mailbox) (p : HostPort) (hframe : AccessFrame s v)
    (hentry : ∀ a, (v.entry a).state = (s.entry a).state ∧ (v.entry a).generation = (s.entry a).generation ∧
      (v.entry a).widthLimit = (s.entry a).widthLimit) : Joined e s (commandJoined op e v s.hostQueue m p) := by
  have hrest := linkEffects_frame op e.addr e.offset e.width v
  unfold commandJoined
  generalize linkEffects op e.addr e.offset e.width v = z at hrest
  refine ⟨rfl, hframe.trans ?_, fun a => ?_⟩
  · rw [hrest]; exact ⟨rfl, rfl, rfl, rfl, rfl, rfl, rfl, rfl⟩
  · rw [← (hentry a).1, ← (hentry a).2.1, ← (hentry a).2.2,
      show State.entry { z with hostQueue := s.hostQueue ++ [e], mbx := m, port := p } a = z.entry a from rfl,
      entry_of_modules v z (by rw [hrest]) a]
    exact ⟨rfl, rfl, rfl⟩

/-- The mailbox as its command has failed with an outcome. -/
def Mailbox.failedWith (m : Mailbox) (o : LinkOutcome) : Mailbox := { m with state := .failed, result := .outcome o }

/-- A link command that has failed ends with its outcome (R93, R126). -/
theorem deliver_failedCommand {e : HostEntry} {o : LinkOutcome} (horigin : e.origin = .mailbox) (ho : o ≠ .ok) (s : State) :
    deliver e o none s = { s with
      mbx := s.mbx.failedWith o
      events := s.events.post ⟨.mailboxDone, modAddr? s.mbx.target, outcomeCode o, s.mbx.op.setWidth 32, 0, 0⟩ } := by
  unfold deliver
  rw [horigin]
  show endLinkCommand e o none s = _
  rw [endLinkCommand, if_neg ho]
  rfl

/-- A command that fails as the head ends with its MAILBOX_DONE (R86, R93). -/
theorem command_fails {op : HostOp} {e : HostEntry} {s v : State} {m : Mailbox} {p : HostPort} {o : LinkOutcome}
    (hjoin : Joined e s (commandJoined op e v s.hostQueue m p)) (horigin : e.origin = .mailbox)
    (hq : s.hostQueue = []) (hl : s.hostOnLink = false) (ho : headCheck e s = some o) :
    HeadFailsAlone e (m.failedWith o) ⟨.mailboxDone, modAddr? m.target, outcomeCode o, m.op.setWidth 32, 0, 0⟩
      (commandJoined op e v s.hostQueue m p) (settle (commandJoined op e v s.hostQueue m p)) := by
  have hmbx : (commandJoined op e v s.hostQueue m p).mbx = m := rfl
  generalize commandJoined op e v s.hostQueue m p = x at hjoin hmbx
  refine hjoin.fails_alone hq hl ho fun u hu => ?_
  rw [deliver_failedCommand horigin (headCheck_ne_ok ho), show State.mbx { u with hostQueue := [] } = m from hu.trans hmbx]

/-! ### The tests of a link command (R124) -/

/-- The operands of a link command fail the second test (R124). -/
def Mailbox.argsBad (m : Mailbox) (op : HostOp) : Prop :=
  if op = .descRead then 255 < m.offset.toNat
  else ¬(m.width.toNat = 1 ∨ m.width.toNat = 2 ∨ m.width.toNat = 4) ∨ m.offset.toNat % m.width.toNat ≠ 0

theorem widthOfBytes?_eq_some {n : Nat} {w : Width} : widthOfBytes? n = some w ↔ w.bytes = n := by
  unfold widthOfBytes?
  constructor
  · intro h
    split_ifs at h with h1 h2 h4 <;> cases h <;> simp [Width.bytes, *]
  · rintro rfl
    cases w <;> rfl

theorem linkArgs_data {m : Mailbox} {op : HostOp} (hop : op ≠ .descRead) : linkArgs m op =
    (widthOfBytes? m.width.toNat).bind fun w => if m.offset.toNat % w.bytes = 0 then some w else none := by
  unfold linkArgs
  cases op with
  | descRead => exact absurd rfl hop
  | read => cases widthOfBytes? m.width.toNat <;> rfl
  | write => cases widthOfBytes? m.width.toNat <;> rfl

theorem linkArgs_eq_some {m : Mailbox} {op : HostOp} {w : Width} : linkArgs m op = some w ↔
    (op = .descRead → w = .four ∧ m.offset.toNat ≤ 255) ∧
    (op ≠ .descRead → w.bytes = m.width.toNat ∧ m.offset.toNat % w.bytes = 0) := by
  by_cases hop : op = .descRead
  · rw [hop, linkArgs]
    constructor
    · intro h
      split at h
      · next hle => cases h; exact ⟨fun _ => ⟨rfl, hle⟩, fun hne => absurd rfl hne⟩
      · cases h
    · rintro ⟨h, -⟩
      obtain ⟨rfl, hle⟩ := h rfl
      rw [if_pos hle]
  · rw [linkArgs_data hop, Option.bind_eq_some_iff]
    constructor
    · rintro ⟨v, hv, h⟩
      split at h
      · next hm => cases h; exact ⟨fun h => absurd h hop, fun _ => ⟨widthOfBytes?_eq_some.mp hv, hm⟩⟩
      · cases h
    · rintro ⟨-, h⟩
      obtain ⟨hb, hm⟩ := h hop
      exact ⟨w, widthOfBytes?_eq_some.mpr hb, if_pos hm⟩

theorem linkArgs_of_bad {m : Mailbox} {op : HostOp} (h : m.argsBad op) : linkArgs m op = none := by
  rw [Option.eq_none_iff_forall_ne_some]
  intro w hw
  obtain ⟨hdesc, hdata⟩ := linkArgs_eq_some.mp hw
  unfold Mailbox.argsBad at h
  split at h
  · next hop => have := (hdesc hop).2; omega
  · next hop =>
    obtain ⟨hb, hm⟩ := hdata hop
    obtain h | h := h
    · refine h ?_
      rw [← hb]
      cases w <;> simp [Width.bytes]
    · exact h (hb ▸ hm)

theorem linkArgs_of_good {m : Mailbox} {op : HostOp} (h : ¬m.argsBad op) {w : Width} (hd : op = .descRead → w = .four)
    (hw : op ≠ .descRead → w.bytes = m.width.toNat) : linkArgs m op = some w := by
  refine linkArgs_eq_some.mpr ⟨fun hop => ⟨hd hop, ?_⟩, fun hop => ⟨hw hop, ?_⟩⟩
  · rw [Mailbox.argsBad, if_pos hop] at h; omega
  · rw [Mailbox.argsBad, if_neg hop, not_or, not_not, not_not] at h
    rw [hw hop]; exact h.2

/-- Operands that pass the test give some width. -/
theorem exists_width {m : Mailbox} {op : HostOp} (h : ¬m.argsBad op) : ∃ w, linkArgs m op = some w := by
  by_cases hop : op = .descRead
  · exact ⟨.four, linkArgs_of_good h (fun _ => rfl) fun hne => absurd hop hne⟩
  · have hw := h
    rw [Mailbox.argsBad, if_neg hop, not_or, not_not] at hw
    have hex : ∃ w : Width, w.bytes = m.width.toNat := by
      rcases hw.1 with h1 | h2 | h4
      · exact ⟨.one, h1.symm⟩
      · exact ⟨.two, h2.symm⟩
      · exact ⟨.four, h4.symm⟩
    obtain ⟨w, hw⟩ := hex
    exact ⟨w, linkArgs_of_good h (fun h => absurd h hop) fun _ => hw⟩

/-- A link command behind its tests (R124, R125). -/
theorem linkCommand_cases (op : HostOp) (s : State) :
    (modAddr? s.mbx.target = none → linkCommand op s = failCommand .badAddress s) ∧
    ∀ a, modAddr? s.mbx.target = some a →
      (linkArgs s.mbx op = none → linkCommand op s = failCommand .badArgument s) ∧
      ∀ w, linkArgs s.mbx op = some w →
        ((s.entry a).state ≠ .online → (s.entry a).state ≠ .quarantined → linkCommand op s = failCommand .notPresent s) ∧
        ((s.entry a).state = .online ∨ (s.entry a).state = .quarantined →
          (16 ≤ s.hostQueue.length → linkCommand op s = setMbxState .waiting s) ∧
          (s.hostQueue.length < 16 → linkCommand op s = enqueueMailbox op a w s)) := by
  unfold linkCommand
  refine ⟨fun ha => by rw [ha], fun a ha => ⟨fun hw => by rw [ha]; simp only [hw], fun w hw => ⟨fun ho hq => ?_, fun hst => ⟨fun hl => ?_,
    fun hl => ?_⟩⟩⟩⟩
  · rw [ha]; simp only [hw]; rw [if_neg fun h => h.elim ho hq]
  · rw [ha]; simp only [hw]; rw [if_pos hst, if_neg fun h => by have := (hostRoom_iff s).mp h; omega]
  · rw [ha]; simp only [hw]; rw [if_pos hst, if_pos ((hostRoom_iff s).mpr hl)]

end Sys2Proof.Machine
end

section
/-! PROOFS. The obligation about the link commands (O43). -/

namespace Sys2Proof.Machine

theorem ClosesAs.reply {s t : State} (h : ClosesAs s t) (r : Answer) : ClosesAs (s.reply r) (t.reply r) := by
  obtain ⟨v, hv, ht⟩ := h
  refine ⟨v.reply r, ?_, ?_⟩
  · rw [hv]
    show _ = if s.power.state = .draining ∧ s.drained = true then _ else _
    split
    · rfl
    · rfl
  · show if v.power.state = .asleep ∧ v.attn.level = true ∧ v.attn.armed = true then _ else _
    split at ht
    · next hc => rw [if_pos hc, wakeLink_reply]; exact ht.reply r
    · next hc => rw [if_neg hc, ht]

/-- The answer of the access that a failing head follows. -/
theorem HeadFailsAlone.reply {e : HostEntry} {m : Mailbox} {p : Posted} {s t : State} (h : HeadFailsAlone e m p s t) (r : Answer) :
    HeadFailsAlone e m p (s.reply r) (t.reply r) := by
  obtain ⟨u, hw, hc⟩ := h
  exact ⟨u.reply r, hw.reply r, hc.reply r⟩

/-- Behind an event that leaves the link awake, and not drained either when the follow-up work is done, nothing but that work comes. -/
theorem FollowUp.work_of_undrained {s t : State} (h : FollowUp s t) (hno : ∀ u, WorkFollows s u → u.drained = false)
    (hp : s.power.state ≠ .asleep) : WorkFollows s t := by
  obtain ⟨u, hw, v, hv, ht⟩ := h
  rw [if_neg fun k => by rw [hno u hw] at k; cases k.2] at hv
  have hawake : u.power.state ≠ .asleep := by
    obtain ⟨-, hk⟩ | ⟨-, hk⟩ := hw.power
    · rw [hk]; exact hp
    · rw [hk]; simp
  rw [hv, if_neg fun k => hawake k.1] at ht
  exact ht ▸ hw

/-- A filled host request queue keeps the link from being drained. -/
theorem FollowUp.work_of_filled {s t : State} (h : FollowUp s t) (hq : s.hostQueue ≠ []) (hp : s.power.state ≠ .asleep) :
    WorkFollows s t := by
  refine h.work_of_undrained (fun u hw => ?_) hp
  obtain ⟨-, -, -, -, -, -, hqueue, -⟩ := hw.fields
  rw [Bool.eq_false_iff]
  intro hd
  simp only [State.drained, State.drainQueues, Bool.and_eq_true, List.isEmpty_iff] at hd
  exact hq (hqueue ▸ hd.1.1.1.1.1.1)

theorem accessFrame_reply (s : State) (r : Answer) : AccessFrame s (s.reply r) := ⟨rfl, rfl, rfl, rfl, rfl, rfl, rfl, rfl⟩

/-- The MBX_GO that starts a link command, and the code in MBX_OP (R202). -/
def StartsLink (c : Instr) (op : HostOp) (m : Mailbox) : Prop :=
  (c = .mbxRead 0xF#4 ∧ op = .read ∧ m.op = 0) ∨ (c = .mbxWrite 0xF#4 ∧ op = .write ∧ m.op = 1) ∨
    (c = .mbxDescRead 0xF#4 ∧ op = .descRead ∧ m.op = 2)

/-- The command that carries out a link operation. -/
def linkCmd : HostOp → MbxCmd
  | .read => .read
  | .write => .write
  | .descRead => .descRead

theorem linkCmd_spec (op : HostOp) : (linkCmd op).needsLink = true ∧ ∀ s, startCommand (linkCmd op) s = linkCommand op s := by
  cases op with
  | read => exact ⟨rfl, fun _ => rfl⟩
  | write => exact ⟨rfl, fun _ => rfl⟩
  | descRead => exact ⟨rfl, fun _ => rfl⟩

theorem StartsLink.names {c : Instr} {op : HostOp} {m : Mailbox} (h : StartsLink c op m) :
    c ∈ goCommands ∧ cmdOf? m.op = some (linkCmd op) ∧ m.doneAddress = modAddr? m.target := by
  obtain ⟨rfl, rfl, hop⟩ | ⟨rfl, rfl, hop⟩ | ⟨rfl, rfl, hop⟩ := h
  all_goals
    refine ⟨by simp [goCommands], by rw [hop]; rfl, ?_⟩
    rw [Mailbox.doneAddress, hop]
    rfl

/-- The mailbox entry of a link command at the state `s` (R81). -/
theorem mailboxEntry_woken (op : HostOp) (a : ModAddr) (w : Width) (s : State) :
    mailboxEntry op a w (resultCleared (hostWake s)) = mailboxEntry op a w s := by
  obtain ⟨hmbx, -, -, -, -, hentry⟩ := hostWake_keeps s
  unfold mailboxEntry
  rw [show (resultCleared (hostWake s)).entry a = (hostWake s).entry a from rfl, hentry a,
    show (resultCleared (hostWake s)).mbx = { (hostWake s).mbx with result := .none } from rfl, hmbx]

/-- The mailbox as its command's entry has joined the queue (R125). -/
def Mailbox.asQueued (m : Mailbox) : Mailbox := { m with result := .none, state := .queued }

/-- The link command of an accepted GO, behind its tests and the wake of the link (R124, R125, R193). -/
theorem linkCommand_woken (op : HostOp) (s : State) :
    (modAddr? s.mbx.target = none → linkCommand op (resultCleared (hostWake s)) = failCommand .badAddress (resultCleared (hostWake s))) ∧
    ∀ a, modAddr? s.mbx.target = some a →
      (s.mbx.argsBad op → linkCommand op (resultCleared (hostWake s)) = failCommand .badArgument (resultCleared (hostWake s))) ∧
      (¬s.mbx.argsBad op →
        ((s.entry a).state ≠ .online → (s.entry a).state ≠ .quarantined →
          linkCommand op (resultCleared (hostWake s)) = failCommand .notPresent (resultCleared (hostWake s))) ∧
        ((s.entry a).state = .online ∨ (s.entry a).state = .quarantined →
          (16 ≤ s.hostQueue.length → linkCommand op (resultCleared (hostWake s)) = setMbxState .waiting (resultCleared (hostWake s))) ∧
          ∀ w, (op = .descRead → w = .four) → (op ≠ .descRead → w.bytes = s.mbx.width.toNat) → s.hostQueue.length < 16 →
            linkCommand op (resultCleared (hostWake s)) =
              commandJoined op (mailboxEntry op a w s) (hostWake s) s.hostQueue s.mbx.asQueued s.port)) := by
  obtain ⟨hmbx, -, -, hport, -, hentry⟩ := hostWake_keeps s
  have hqueue : (hostWake s).hostQueue = s.hostQueue := by
    obtain ⟨-, -, -, -, -, -, hk, -⟩ := (wakeKeeps_hostWake s).fields
    exact hk
  have hargs : linkArgs (resultCleared (hostWake s)).mbx op = linkArgs s.mbx op := by
    rw [show (resultCleared (hostWake s)).mbx = { (hostWake s).mbx with result := .none } from rfl, hmbx]
    cases op with
    | read => rfl
    | write => rfl
    | descRead => rfl
  have hstate : ∀ a, ((resultCleared (hostWake s)).entry a).state = (s.entry a).state :=
    fun a => show ((hostWake s).entry a).state = _ by rw [hentry a]
  have htarget : (resultCleared (hostWake s)).mbx.target = s.mbx.target :=
    show (hostWake s).mbx.target = _ by rw [hmbx]
  obtain ⟨hnone, hsome⟩ := linkCommand_cases op (resultCleared (hostWake s))
  refine ⟨fun h => hnone (htarget ▸ h), fun a ha => ⟨fun hbad => (hsome a (htarget ▸ ha)).1 (hargs.trans (linkArgs_of_bad hbad)),
    fun hgood => ⟨fun ho hq => ?_, fun hst => ⟨fun hl => ?_, fun w hd hw hl => ?_⟩⟩⟩⟩
  · obtain ⟨w, hwidth⟩ := exists_width hgood
    exact ((hsome a (htarget ▸ ha)).2 w (hargs.trans hwidth)).1 (hstate a ▸ ho) (hstate a ▸ hq)
  · obtain ⟨w, hwidth⟩ := exists_width hgood
    exact (((hsome a (htarget ▸ ha)).2 w (hargs.trans hwidth)).2 (hstate a ▸ hst)).1 (by rw [← hqueue] at hl; exact hl)
  · rw [(((hsome a (htarget ▸ ha)).2 w (hargs.trans (linkArgs_of_good hgood hd hw))).2 (hstate a ▸ hst)).2
      (by rw [← hqueue] at hl; exact hl), enqueueMailbox_eq, mailboxEntry_woken]
    unfold commandJoined
    have hcleared : resultCleared (hostWake s) = { hostWake s with
        port := (hostWake s).port, hostQueue := (hostWake s).hostQueue, mbx := { (hostWake s).mbx with result := .none } } := rfl
    rw [hcleared, linkEffects_outside, hmbx]
    generalize linkEffects op (mailboxEntry op a w s).addr (mailboxEntry op a w s).offset (mailboxEntry op a w s).width (hostWake s) = z
    show ({ z with hostQueue := (hostWake s).hostQueue ++ _, mbx := _, port := (hostWake s).port } : State) = _
    rw [hqueue, hport]
    rfl

/-- A GO whose link command joins the queue: what the closed event shares with the joined state. -/
theorem exec_go_joins {c : Instr} {op : HostOp} {s : State} {a : ModAddr} {w : Width} (hstarts : StartsLink c op s.mbx) (hgo : GoTaken s)
    (hjoins : linkCommand op (resultCleared (hostWake s)) =
      commandJoined op (mailboxEntry op a w s) (hostWake s) s.hostQueue s.mbx.asQueued s.port) :
    exec c s = .next ((settle (commandJoined op (mailboxEntry op a w s) (hostWake s) s.hostQueue s.mbx.asQueued s.port)).reply okWrite) := by
  obtain ⟨hmem, hcmd, -⟩ := hstarts.names
  obtain ⟨hneeds, hstart⟩ := linkCmd_spec op
  rw [exec_go c hmem s]
  refine congrArg Host.Outcome.next ((registerWrite_taken writeGo s hgo.1).trans ?_)
  rw [writeGo, takeGo_starts s hgo _ hcmd, if_pos hneeds, hostWake_resultCleared, hstart, hjoins]

/-- What the joined state shares with the woken one, and what a settled event keeps of it. -/
theorem joined_woken (op : HostOp) (a : ModAddr) (w : Width) (s : State) :
    Joined (mailboxEntry op a w s) s (commandJoined op (mailboxEntry op a w s) (hostWake s) s.hostQueue s.mbx.asQueued s.port) :=
  joined_command _ _ (accessFrame_hostWake s) (entry_of_woken rfl)

/-- The checks of a link command's entry just made: its width alone is left (R86, R88, R124). -/
theorem headCheck_mailboxEntry {op : HostOp} {a : ModAddr} {s : State} (w : Width)
    (hst : (s.entry a).state = .online ∨ (s.entry a).state = .quarantined) : headCheck (mailboxEntry op a w s) s =
      if op ≠ .descRead ∧ (s.entry a).widthLimit.bytes < w.bytes then some .width else none :=
  headCheck_fresh (e := mailboxEntry op a w s) rfl rfl (hst.imp_right fun h => ⟨h, rfl⟩)

/-- A link command whose entry passes or waits (R79, R81, R125). -/
theorem exec_go_queued {c : Instr} {op : HostOp} {s : State} {a : ModAddr} {w : Width} (hstarts : StartsLink c op s.mbx)
    (hgo : GoTaken s) (hhead : HeadLaw s)
    (hjoins : linkCommand op (resultCleared (hostWake s)) =
      commandJoined op (mailboxEntry op a w s) (hostWake s) s.hostQueue s.mbx.asQueued s.port)
    (hn : s.hostQueue ≠ [] ∨ s.hostOnLink = true ∨ headCheck (mailboxEntry op a w s) s = none) :
    ∃ t, exec c s = .next t ∧
      t = { s with
        mbx := s.mbx.asQueued, port := { s.port with answer := some ⟨.ok, none⟩ }, hostQueue := s.hostQueue ++ [mailboxEntry op a w s]
        slots := t.slots, cache := t.cache, modules := t.modules, mgmtQueue := t.mgmtQueue, disc := t.disc, attn := t.attn
        events := t.events, power := t.power } ∧
      (op ≠ .write → t.slots = s.slots ∧ t.cache = s.cache ∧ t.events.list = (hostWake s).events.list) ∧
      FollowUp { linkEffects op a s.mbx.offset w (hostWake s) with mbx := t.mbx, port := t.port, hostQueue := t.hostQueue } t := by
  have hjoin := joined_woken op a w s
  have hexec := exec_go_joins hstarts hgo hjoins
  have hframe := (hjoin.frame.trans (accessFrame_settle _)).trans (accessFrame_reply _ okWrite)
  have hfollow := followUp_settle_reply _ okWrite (hjoin.headLaw hhead hn)
  obtain ⟨t, ht⟩ : ∃ t, t = (settle (commandJoined op (mailboxEntry op a w s) (hostWake s) s.hostQueue s.mbx.asQueued s.port)).reply
    okWrite := ⟨_, rfl⟩
  rw [← ht] at hexec hfollow hframe
  clear ht hjoin hjoins
  have hrest := linkEffects_frame op a s.mbx.offset w (hostWake s)
  have hread := (linkEffects_cases op a s.mbx.offset w (hostWake s)).1
  unfold commandJoined at hfollow
  change FollowUp ({ linkEffects op a s.mbx.offset w (hostWake s) with hostQueue := _, mbx := _, port := _ }) t at hfollow
  generalize linkEffects op a s.mbx.offset w (hostWake s) = u at hfollow hrest hread
  have hpower : u.power = (hostWake s).power := by rw [hrest]
  have hwork := hfollow.work_of_filled (by simp) (show u.power.state ≠ .asleep by rw [hpower]; exact (hostWake_power s).1)
  obtain ⟨-, -, -, hport, -, -, hqueue, hslots, hcache, hmbx, -⟩ := hfollow.fields
  obtain ⟨-, -, -, -, -, -, -, kslots, kcache, -⟩ := (wakeKeeps_hostWake s).fields
  refine ⟨t, hexec, ?_, fun hop => ⟨?_, ?_, ?_⟩, ?_⟩
  · have heq := hframe.eq
    rw [hport, hqueue, hmbx] at heq
    exact heq
  · exact hslots.trans ((congrArg State.slots (hread hop)).trans kslots)
  · exact hcache.trans ((congrArg State.cache (hread hop)).trans kcache)
  · exact hwork.list.trans (congrArg (fun x => x.events.list) (hread hop))
  · rw [hport, hqueue, hmbx]
    exact hfollow

/-- A link command whose entry is the head at once and fails its checks (R85, R86, R93). -/
theorem exec_go_failsAlone {c : Instr} {op : HostOp} {s : State} {a : ModAddr} {w : Width} {o : LinkOutcome}
    (hstarts : StartsLink c op s.mbx) (hgo : GoTaken s)
    (hjoins : linkCommand op (resultCleared (hostWake s)) =
      commandJoined op (mailboxEntry op a w s) (hostWake s) s.hostQueue s.mbx.asQueued s.port)
    (hq : s.hostQueue = []) (hl : s.hostOnLink = false) (ho : headCheck (mailboxEntry op a w s) s = some o) :
    ∃ t, exec c s = .next t ∧
      HeadFailsAlone (mailboxEntry op a w s) (s.mbx.asQueued.failedWith o)
        ⟨.mailboxDone, modAddr? s.mbx.target, outcomeCode o, s.mbx.op.setWidth 32, 0, 0⟩
        { linkEffects op a s.mbx.offset w (hostWake s) with
          mbx := s.mbx.asQueued, port := { s.port with answer := some ⟨.ok, none⟩ } } t := by
  have hfail := (command_fails (m := s.mbx.asQueued) (p := s.port) (joined_woken op a w s) rfl hq hl ho).reply okWrite
  exact ⟨_, exec_go_joins hstarts hgo hjoins, hfail⟩

/-- Settles O43: the tests in their order, the entry that joins, and the one that fails WIDTH as the head. -/
theorem linkCommandsAreQueued : Obligations.LinkCommandsAreQueued := by
  intro s c op hstarts hgo hquiet awake argsBad
  obtain ⟨hmem, hcmd, hdone⟩ := StartsLink.names hstarts
  obtain ⟨hneeds, hstart⟩ := linkCmd_spec op
  obtain ⟨hnone, hsome⟩ := linkCommand_woken op s
  have hrefused : ∀ r, linkCommand op (resultCleared (hostWake s)) = failCommand r (resultCleared (hostWake s)) →
      ∃ t, exec c s = .next t ∧ FollowUp (mailboxEnded awake .failed r (modAddr? s.mbx.target)) t := fun r h => by
    rw [exec_go c hmem s]
    exact go_fails_woken s hgo hquiet.head r _ _ hcmd hneeds ((hstart _).trans h) hdone.symm
  refine ⟨fun hsleep => ?_, fun ha => ha ▸ hrefused _ (hnone ha), fun a ha hbad => ha ▸ hrefused _ ((hsome a ha).1 hbad),
    fun a ha hgood hoff hquar => ha ▸ hrefused _ (((hsome a ha).2 hgood).1 hoff hquar), fun a ha hgood hst hlen => ?_,
    fun a w ha hgood hd hw hst hlen hn => ?_, fun a w ha hgood hop hw hst hq hl hwide => ?_⟩
  · obtain ⟨t, hexec, hup, hlast, -⟩ := exec_go_wakes hmem hgo hcmd hneeds hsleep
    exact ⟨t, hexec, hup, hlast⟩
  · obtain ⟨hmbx, -, -, hport, -, -⟩ := hostWake_keeps s
    have hhead : HeadLaw (setMbxState .waiting (resultCleared (hostWake s))) :=
      headLaw_modules ((wakeKeeps_hostWake s).headLaw hquiet.head) rfl rfl rfl
    obtain ⟨t, hexec, hfollow⟩ := exec_go_woken hmem hgo hcmd hneeds ((hstart _).trans ((((hsome a ha).2 hgood).2 hst).1 hlen)) hhead
    refine ⟨t, hexec, ?_⟩
    rw [← hmbx, ← hport]
    exact hfollow
  · have hpass : s.hostQueue ≠ [] ∨ s.hostOnLink = true ∨ headCheck (mailboxEntry op a w s) s = none := by
      refine hn.imp_right (Or.imp_right fun h => ?_)
      rw [headCheck_mailboxEntry w hst, if_neg]
      rintro ⟨hop, hwide⟩
      obtain h | h := h
      · exact hop h
      · omega
    obtain ⟨t, hexec, hframe, hkept, hfollow⟩ :=
      exec_go_queued hstarts hgo hquiet.head ((((hsome a ha).2 hgood).2 hst).2 w hd hw hlen) hpass
    obtain ⟨hother, hwrite⟩ := linkEffects_cases op a s.mbx.offset w (hostWake s)
    exact ⟨t, hexec, hframe, hkept, _, hother, hwrite, hfollow⟩
  · obtain ⟨t, hexec, hfail⟩ := exec_go_failsAlone (o := .width) hstarts hgo
      ((((hsome a ha).2 hgood).2 hst).2 w (fun h => absurd h hop) (fun _ => hw) (by simp [hq])) hq hl
      (by rw [headCheck_mailboxEntry w hst, if_pos ⟨hop, hwide⟩])
    rw [ha] at hfail
    obtain ⟨hother, hwrite⟩ := linkEffects_cases op a s.mbx.offset w (hostWake s)
    have hevents : DueLaw s → s.power.state ≠ .asleep → t.events =
        (linkEffects op a s.mbx.offset w (hostWake s)).events.post ⟨.mailboxDone, some a, 8, s.mbx.op.setWidth 32, 0, 0⟩ :=
      fun hdue hup => by
        rw [linkEffects_woken hup] at hfail ⊢
        exact hfail.events_of_quiet hquiet hup (calm_linkEffects _ _ (fun _ => hgo.2.1) hq) (dueLaw_linkEffects hdue _ _ _)
    obtain ⟨-, -, hqueue, hslots, hcache, hmbx⟩ := hfail.fields
    refine ⟨t, linkEffects op a s.mbx.offset w (hostWake s), hexec, hqueue, hmbx, fun hread => hother (by simp [hread]), hwrite, hslots, hcache, ?_,
      fun hdue hup => congrArg EventUnit.list (hevents hdue hup)⟩
    rw [hmbx]
    exact hfail

end Sys2Proof.Machine
end

section
/-! PROOFS. The waiting command, and ABORT (O49). -/

namespace Sys2Proof.Machine

/-! ### Heads that fail behind a cancelled command (R86, R87) -/

/-- A failed read delivered to its slot changes neither the queue nor the mailbox (R104). -/
theorem completeSlot_failed {o : LinkOutcome} (ho : o ≠ .ok) (i : Fin 4) (e : HostEntry) (s : State) :
    (completeSlot i e o none s).hostQueue = s.hostQueue ∧ (completeSlot i e o none s).mbx = s.mbx := by
  unfold completeSlot
  cases vget s.slots i with
  | free => exact ⟨rfl, rfl⟩
  | complete x p d n => exact ⟨rfl, rfl⟩
  | pending x =>
    simp only [ho, false_and, if_false]
    split
    · unfold collect
      simp only [ho, if_false]
      exact ⟨rfl, rfl⟩
    · exact ⟨rfl, rfl⟩

/-- A failed entry delivered: what the checks of the next head, and the mailbox, see of it (R90, R93). -/
theorem deliver_failed {e : HostEntry} {o : LinkOutcome} (ho : o ≠ .ok) (s : State) :
    (deliver e o none s).hostQueue = s.hostQueue ∧
    (deliver e o none s).mbx = if e.origin = .mailbox then s.mbx.failedWith o else s.mbx := by
  cases horigin : e.origin with
  | windowWrite => rw [deliver_failedWrite horigin ho]; exact ⟨rfl, rfl⟩
  | mailbox => rw [deliver_failedCommand horigin ho]; exact ⟨rfl, rfl⟩
  | windowRead =>
    show _ ∧ _ = s.mbx
    unfold deliver
    rw [horigin]
    dsimp only
    cases e.slot with
    | none => exact ⟨rfl, rfl⟩
    | some i => exact completeSlot_failed ho i e s

theorem completeSlot_failed_port {o : LinkOutcome} (ho : o ≠ .ok) (i : Fin 4) (e : HostEntry) {s : State}
    (hheld : s.port.held = none) (r : Answer) : (completeSlot i e o none s).port = s.port ∧
      completeSlot i e o none (s.reply r) = (completeSlot i e o none s).reply r := by
  unfold completeSlot
  rw [show (s.reply r).slots = s.slots from rfl, show (s.reply r).port.held = s.port.held from rfl, hheld]
  cases vget s.slots i with
  | free => exact ⟨rfl, rfl⟩
  | complete x p d n => exact ⟨rfl, rfl⟩
  | pending x =>
    simp only [ho, false_and, if_false, Option.any_none, Bool.false_eq_true]
    exact ⟨rfl, rfl⟩

/-- With no access held, a failed delivery does not read or change the host port (R103). -/
theorem deliver_failed_port {e : HostEntry} {o : LinkOutcome} (ho : o ≠ .ok) {s : State} (hheld : s.port.held = none) (r : Answer) :
    (deliver e o none s).port = s.port ∧ deliver e o none (s.reply r) = (deliver e o none s).reply r := by
  cases horigin : e.origin with
  | windowWrite => rw [deliver_failedWrite horigin ho, deliver_failedWrite horigin ho]; exact ⟨rfl, rfl⟩
  | mailbox => rw [deliver_failedCommand horigin ho, deliver_failedCommand horigin ho]; exact ⟨rfl, rfl⟩
  | windowRead =>
    unfold deliver
    rw [horigin]
    dsimp only
    cases e.slot with
    | none => exact ⟨rfl, rfl⟩
    | some i => exact completeSlot_failed_port ho i e hheld r

theorem failHeads_reply (n : Nat) {s : State} (hheld : s.port.held = none) (r : Answer) :
    failHeads n (s.reply r) = (failHeads n s).reply r := by
  induction n generalizing s with
  | zero => rfl
  | succ n ih =>
    unfold failHeads
    rw [show (s.reply r).hostQueue = s.hostQueue from rfl]
    cases s.hostQueue with
    | nil => rfl
    | cons e rest =>
      dsimp only
      rw [show headCheck e (s.reply r) = headCheck e s from rfl]
      cases ho : headCheck e s with
      | none => rfl
      | some o =>
        obtain ⟨hport, hreply⟩ := deliver_failed_port (e := e) (headCheck_ne_ok ho) (s := { s with hostQueue := rest }) hheld r
        dsimp only
        rw [← ih (by rw [hport]; exact hheld), ← hreply]
        rfl

/-- With no access held, the heads that fail leave the answer of the event's own access alone. -/
theorem headChecks_reply {s : State} (hheld : s.port.held = none) (r : Answer) : headChecks (s.reply r) = (headChecks s).reply r := by
  unfold headChecks
  rw [show (s.reply r).hostOnLink = s.hostOnLink from rfl]
  split
  · rfl
  · exact failHeads_reply _ hheld r

theorem FollowUpOfHeads.reply {s t : State} (h : FollowUpOfHeads s t) (hheld : s.port.held = none) (r : Answer) :
    FollowUpOfHeads (s.reply r) (t.reply r) := by
  obtain ⟨u, hw, hc⟩ := h
  obtain ⟨-, -, -, hport, -⟩ := hw.fields
  exact ⟨u.reply r, hw.reply r, by rw [headChecks_reply (by rw [hport]; exact hheld)]; exact hc.reply r⟩

/-- Where every mailbox entry is cancelled, a mailbox that has ended CANCELLED stays so. -/
theorem failHeads_cancelled (n : Nat) {s : State} (hq : ∀ e ∈ s.hostQueue, e.origin = .mailbox → e.cancelled = true)
    (hm : s.mbx.failedWith .cancelled = s.mbx) : (failHeads n s).mbx = s.mbx := by
  induction n generalizing s with
  | zero => rfl
  | succ n ih =>
    unfold failHeads
    split
    · rfl
    · next e rest hqueue =>
      split
      · rfl
      · next o ho =>
        rw [hqueue] at hq
        have hcancel : e.origin = .mailbox → o = .cancelled := fun horigin => by
          unfold headCheck at ho
          simp only [hq e (List.mem_cons_self) horigin, if_true, Option.some.injEq] at ho
          exact ho.symm
        obtain ⟨hrest, hmbx⟩ := deliver_failed (e := e) (headCheck_ne_ok ho) { s with hostQueue := rest }
        have hsame : (deliver e o none { s with hostQueue := rest }).mbx = s.mbx := by
          rw [hmbx]
          split
          · next horigin => rw [hcancel horigin]; exact hm
          · rfl
        rw [ih (by rw [hrest]; exact fun x hx => hq x (List.mem_cons_of_mem _ hx)) (by rw [hsame]; exact hm), hsame]

/-- The first of the checks (R86, R87). -/
theorem headCheck_cancelled {e : HostEntry} (h : e.cancelled = true) (s : State) : headCheck e s = some .cancelled := by
  unfold headCheck
  rw [if_pos h]

/-- The mailbox's cancelled command as the head ends CANCELLED, whatever fails behind it (R87, R93). -/
theorem headChecks_cancelled {s : State} {e : HostEntry} {rest : List HostEntry} (hl : s.hostOnLink = false)
    (hq : s.hostQueue = e :: rest) (horigin : e.origin = .mailbox)
    (hall : ∀ x ∈ s.hostQueue, x.origin = .mailbox → x.cancelled = true) : (headChecks s).mbx = s.mbx.failedWith .cancelled := by
  have hcheck : headCheck e s = some .cancelled := headCheck_cancelled (hall e (by simp [hq]) horigin) s
  unfold headChecks
  rw [if_neg (by simp [hl]), hq, List.length_cons, failHeads, hq]
  simp only [hcheck]
  obtain ⟨hrest, hmbx⟩ := deliver_failed (e := e) (o := .cancelled) (by simp) { s with hostQueue := rest }
  rw [if_pos horigin] at hmbx
  rw [failHeads_cancelled _ (by rw [hrest]; exact fun x hx => hall x (by simp [hq, show x ∈ rest from hx])) (by rw [hmbx]; rfl), hmbx]

/-! ### The obligation -/

/-- The MBX_OP of a link operation. -/
theorem linkOp?_of {m : Mailbox} {op : HostOp} (h : m.op = (match op with | .read => 0 | .write => 1 | .descRead => 2)) :
    linkOp? m = some op := by
  cases op with
  | read => rw [linkOp?, h]; rfl
  | write => rw [linkOp?, h]; rfl
  | descRead => rw [linkOp?, h]; rfl

/-- MAILBOX_DONE of a link command names its target (R136). -/
theorem doneAddress_link {m : Mailbox} (h : m.op.toNat ≤ 2) : m.doneAddress = modAddr? m.target := by
  have hop : m.op.toNat = 0 ∨ m.op.toNat = 1 ∨ m.op.toNat = 2 := by omega
  unfold Mailbox.doneAddress cmdOf?
  obtain hop | hop | hop := hop
  all_goals rw [hop]; rfl

/-- MBX_WAITING_ENQUEUE of a command that has a place (R83, R125). -/
theorem exec_waitingEnqueue {s : State} {op : HostOp} {a : ModAddr} {w : Width} (hhold : s.pins.hold = false)
    (hwait : s.mbx.state = .waiting) (hlen : s.hostQueue.length < 16) (ha : modAddr? s.mbx.target = some a)
    (hop : linkOp? s.mbx = some op) (hw : linkArgs s.mbx op = some w) : exec .mbxWaitingEnqueue s =
      .next (settle (commandJoined op (mailboxEntry op a w s) s s.hostQueue { s.mbx with state := .queued } s.port)) := by
  refine (congrArg Host.Outcome.next (whenLive_live addWaitingCommand s hhold)).trans (congrArg Host.Outcome.next ?_)
  rw [addWaitingCommand, if_pos ⟨hwait, (hostRoom_iff s).mpr hlen⟩, hop, ha]
  dsimp only
  rw [hw]
  dsimp only
  rw [enqueueMailbox_eq]

/-- MBX_ABORT is taken whatever runs, and answered OK (R135). -/
theorem exec_mbxAbort {s : State} (hfree : s.portFree = true) :
    exec (.mbxAbort 0xF#4) s = .next ((settle (takeAbort s)).reply okWrite) :=
  congrArg Host.Outcome.next (registerWrite_taken writeAbort s hfree)

/-- An ABORT that leaves the heads in order is followed by the usual work. -/
theorem exec_mbxAbort_followUp {s u : State} (hfree : s.portFree = true) (hu : takeAbort s = u) (hh : HeadLaw u) :
    ∃ t, exec (.mbxAbort 0xF#4) s = .next t ∧ FollowUp (u.reply okWrite) t :=
  ⟨_, exec_mbxAbort hfree, by rw [hu]; exact followUp_settle_reply u okWrite hh⟩

/-- The host request queue as an ABORT leaves it, the mailbox's entry cancelled (R87, R135). -/
theorem takeAbort_queued {s : State} (h : s.mbx.state = .queued) : takeAbort s = { s with hostQueue := s.hostQueue.map cancelEntry } := by
  rw [takeAbort, h]

theorem cancelEntry_mailbox {e : HostEntry} (h : e.origin = .mailbox) : cancelEntry e = { e with cancelled := true } := if_pos h

theorem cancelEntry_other {e : HostEntry} (h : e.origin ≠ .mailbox) : cancelEntry e = e := if_neg h

/-- Behind an ABORT every mailbox entry is cancelled. -/
theorem cancelled_of_mem {l : List HostEntry} {x : HostEntry} (hx : x ∈ l.map cancelEntry) (horigin : x.origin = .mailbox) :
    x.cancelled = true := by
  obtain ⟨e, -, rfl⟩ := List.mem_map.mp hx
  by_cases h : e.origin = .mailbox
  · rw [cancelEntry_mailbox h]
  · rw [cancelEntry_other h] at horigin
    exact absurd horigin h

/-- An ABORT that cannot complete the head: an earlier entry is on the link, or the head is not the mailbox's (R85, R87). -/
theorem headLaw_cancelled {s : State} (hhead : HeadLaw s)
    (h : s.hostOnLink = true ∨ ∀ e rest, s.hostQueue = e :: rest → e.origin ≠ .mailbox) :
    HeadLaw { s with hostQueue := s.hostQueue.map cancelEntry } := by
  intro hl e rest hq
  obtain hon | hother := h
  · have hoff : s.hostOnLink = false := hl
    rw [hon] at hoff; cases hoff
  · cases hqueue : s.hostQueue with
    | nil => simp [hqueue] at hq
    | cons x l =>
      rw [show (State.hostQueue { s with hostQueue := s.hostQueue.map cancelEntry }) = s.hostQueue.map cancelEntry from rfl, hqueue,
        List.map_cons, cancelEntry_other (hother x l hqueue)] at hq
      obtain ⟨rfl, -⟩ := List.cons.inj hq
      exact hhead hl x l hqueue

/-- An ABORT of the command whose entry is the head, with nothing on the link (R86, R87, R93, R135). -/
theorem exec_mbxAbort_head {s : State} {e : HostEntry} {rest : List HostEntry} (hfree : s.portFree = true) (hst : s.mbx.state = .queued)
    (hl : s.hostOnLink = false) (hq : s.hostQueue = e :: rest) (horigin : e.origin = .mailbox) :
    ∃ t, exec (.mbxAbort 0xF#4) s = .next t ∧ t.mbx = s.mbx.failedWith .cancelled ∧
      FollowUpOfHeads { s with port := { s.port with answer := some ⟨.ok, none⟩ }, hostQueue := s.hostQueue.map cancelEntry } t := by
  refine ⟨_, exec_mbxAbort hfree, ?_⟩
  rw [takeAbort_queued hst]
  have hheads := (followUpOfHeads_settle { s with hostQueue := s.hostQueue.map cancelEntry }).reply (portFree_held s hfree) okWrite
  generalize (settle { s with hostQueue := s.hostQueue.map cancelEntry }).reply okWrite = t at hheads
  refine ⟨?_, hheads⟩
  obtain ⟨u, hw, hc⟩ := hheads
  obtain ⟨-, -, -, -, -, -, hqueue, -, -, hmbx, hengine, -⟩ := hw.fields
  obtain ⟨-, -, -, -, -, -, -, -, -, hend, -⟩ := hc.fields
  have hu : u.hostQueue = cancelEntry e :: rest.map cancelEntry := by
    rw [hqueue, show (State.hostQueue (State.reply { s with hostQueue := s.hostQueue.map cancelEntry } okWrite)) =
      s.hostQueue.map cancelEntry from rfl, hq, List.map_cons]
  rw [hend, headChecks_cancelled (by rw [hostOnLink_congr hengine]; exact hl) hu (by rw [cancelEntry_mailbox horigin]; exact horigin)
    (by rw [hqueue]; exact fun x hx => cancelled_of_mem hx), hmbx]
  rfl

/-- Settles O49: a WAITING command that is given a place, and ABORT in each state of the mailbox. -/
theorem waitingCommandAndAbort : Obligations.WaitingCommandAndAbort := by
  intro s hquiet s1
  refine ⟨fun op a w e hhold hwait hlen ha hop hd hw he => ?_, fun hfree hst hop => ?_, fun hfree hst hn => ?_,
    fun e rest hfree hst hl hq horigin => ?_, fun hfree hst => ?_, fun hfree hst => ?_⟩
  · have hexec := exec_waitingEnqueue hhold hwait hlen ha (linkOp?_of hop) (linkArgs_eq_some.mpr ⟨hd, hw⟩)
    have he' : e = mailboxEntry op a w s := he
    have hjoin : Joined e s (commandJoined op e s s.hostQueue { s.mbx with state := .queued } s.port) :=
      joined_command _ _ ⟨rfl, rfl, rfl, rfl, rfl, rfl, rfl, rfl⟩ fun _ => ⟨rfl, rfl, rfl⟩
    obtain ⟨hother, hwrite⟩ := linkEffects_cases op a s.mbx.offset w s
    have hsame : (linkEffects op a s.mbx.offset w s).port = s.port := by rw [linkEffects_frame]
    have haddr : e.addr = a := by rw [he]
    have hoff : e.offset = s.mbx.offset := by rw [he]
    have hwidth : e.width = w := by rw [he]
    have hmailbox : e.origin = .mailbox := by rw [he]
    rw [← he'] at hexec
    clear he he'
    refine ⟨fun hn => ?_, fun o hq hl ho => ?_⟩
    · have hfollow := followUp_settle _ (hjoin.headLaw hquiet.head hn)
      have hframe := (hjoin.frame.trans (accessFrame_settle _)).eq
      unfold commandJoined at hexec hfollow hframe
      rw [haddr, hoff, hwidth] at hexec hfollow hframe
      generalize linkEffects op a s.mbx.offset w s = u at hexec hfollow hframe hother hwrite hsame
      generalize settle _ = t at hexec hfollow hframe
      obtain ⟨-, -, -, hport, -, -, hqueue, -, -, hmbx, -⟩ := hfollow.fields
      rw [hport, hqueue, hmbx] at hframe
      refine ⟨t, hexec, hframe, u, hother, hwrite, ?_⟩
      rw [hqueue, hmbx]
      rw [← hsame] at hfollow
      exact hfollow
    · have hfail := command_fails hjoin hmailbox hq hl ho
      have hengine := (hjoin.frame.trans (accessFrame_settle _)).engine
      unfold commandJoined at hexec hfail hengine
      rw [haddr, hoff, hwidth] at hexec hfail hengine
      generalize linkEffects op a s.mbx.offset w s = u at hexec hfail hengine hother hwrite hsame
      generalize settle _ = t at hexec hfail hengine
      obtain ⟨-, hport, hqueue, hslots, hcache, hmbx⟩ := hfail.fields
      refine ⟨t, u, hexec, hother, hwrite, hqueue, hmbx, hslots, hcache, hport, hengine, ?_⟩
      rw [hmbx, ← ha]
      rw [← hsame] at hfail
      exact hfail
  · rw [← doneAddress_link hop]
    exact exec_mbxAbort_followUp hfree (by rw [takeAbort, hst]) (failCommand_head s hquiet.head _)
  · exact exec_mbxAbort_followUp hfree (takeAbort_queued hst) (headLaw_cancelled hquiet.head hn)
  · obtain ⟨t, hexec, hmbx, hheads⟩ := exec_mbxAbort_head hfree hst hl hq horigin
    have hlast : rest = [] → t.hostQueue = [] ∧ HeadFailsAlone { e with cancelled := true } t.mbx
        ⟨.mailboxDone, modAddr? s.mbx.target, 9, s.mbx.op.setWidth 32, 0, 0⟩ s1 t := fun hr => by
      have hmap : s.hostQueue.map cancelEntry = [cancelEntry e] := by rw [hq, hr]; rfl
      rw [hmap, cancelEntry_mailbox horigin] at hheads
      have hfail : HeadFailsAlone { e with cancelled := true } (s.mbx.failedWith .cancelled)
          ⟨.mailboxDone, modAddr? s.mbx.target, 9, s.mbx.op.setWidth 32, 0, 0⟩ s1 t := by
        obtain ⟨u, hw, hc⟩ := FollowUpOfHeads.single (o := .cancelled) hheads hl rfl (headCheck_cancelled rfl _)
        obtain ⟨-, -, -, -, -, -, -, -, -, kmbx, -⟩ := hw.fields
        rw [deliver_failedCommand (e := { e with cancelled := true }) horigin (by simp),
          show (State.mbx { u with hostQueue := [] }) = s.mbx from kmbx] at hc
        exact ⟨u, hw, hc⟩
      obtain ⟨-, -, hqueue, -⟩ := hfail.fields
      exact ⟨hqueue, hmbx ▸ hfail⟩
    refine ⟨t, hexec, fun _ => hmbx, by rw [hmbx]; rfl, by rw [hmbx]; rfl, hheads, hlast, fun hr hdue hp => ?_⟩
    exact congrArg EventUnit.list ((hlast hr).2.events_of_upright (.inl hp) hquiet.disc hdue)
  · exact exec_mbxAbort_followUp (u := { s with mbx := { s.mbx with abortLate := true } }) hfree (by rw [takeAbort, hst])
      (headLaw_modules hquiet.head rfl rfl rfl)
  · refine exec_mbxAbort_followUp (u := s) hfree ?_ hquiet.head
    rw [takeAbort]
    obtain h | h | h := hst <;> rw [h]

end Sys2Proof.Machine
end

section
/-! PROOFS. Draining and waking (O58). -/

namespace Sys2Proof.Machine

/-- A PING under way where no work is due keeps the link from being drained (R27, R190). -/
theorem not_drained_of_ping {s : State} {a : ModAddr} (h : PingUnderWay s a) (hdue : DueLaw s) : s.drained = false := by
  rw [Bool.eq_false_iff]
  intro hd
  simp only [State.drained, State.drainQueues, State.drainLink, Bool.and_eq_true, List.isEmpty_iff, decide_eq_true_eq] at hd
  obtain ⟨⟨⟨⟨⟨⟨-, hqueue⟩, hlink⟩, -⟩, -⟩, -⟩, -⟩ := hd
  obtain hp | hp | hp := h
  · have hroom : s.mgmtRoom = true := by unfold State.mgmtRoom; rw [hqueue]; rfl
    rw [((hdue hroom).2 a).1] at hp
    cases hp
  · rw [hqueue] at hp; cases hp
  · simp [State.mgmtOnLink, hlink.1, Link.request?] at hp

/-- Behind an event that leaves a PING under way on an awake link, nothing but follow-up work comes. -/
theorem FollowUp.work_of_ping {s t : State} {a : ModAddr} (h : FollowUp s t) (k : PingUnderWay s a) (hp : s.power.state ≠ .asleep) :
    WorkFollows s t :=
  h.work_of_undrained (fun _ hw => not_drained_of_ping (hw.pingUnderWay k) hw.due) hp

/-- A drain completes (R190, R194). -/
theorem exec_drainComplete {s : State} (hhold : s.pins.hold = false) : exec .drainComplete s = .next (drainEnds s) :=
  congrArg Host.Outcome.next (whenLive_live drainEnds s hhold)

/-- The wake timer runs out (R195). -/
theorem exec_wakeSettleEnd {s : State} {n w : Nat} (hhold : s.pins.hold = false) (hp : s.power.state = .waking)
    (hn : s.power.wakeTimer = some n) (hw : s.power.wakeSettle = some w) :
    exec .wakeSettleEnd s = .next (settle (leaveWaking (advance (w - n) s))) := by
  refine (congrArg Host.Outcome.next (whenLive_live wakeSettles s hhold)).trans (congrArg Host.Outcome.next ?_)
  rw [wakeSettles, hn, hw]
  exact if_pos hp

/-- A head that passes its checks passes them as the link wakes (R195). -/
theorem headLaw_leaveWaking {s : State} (h : HeadLaw s) : HeadLaw (leaveWaking s) := by
  obtain ⟨hrest, hentry⟩ := leaveWaking_spec s
  generalize leaveWaking s = v at hrest hentry
  refine headLaw_congr h (by rw [hrest]) (by rw [hrest]) fun a => ?_
  rw [hentry a, presentCalled_eq]
  exact ⟨rfl, rfl, rfl⟩

/-- The PINGs of a link that leaves WAKING: those of the present modules (R195). -/
theorem leaveWaking_pings (s : State) (a : ModAddr) (h : (s.entry a).state = .online ∨ (s.entry a).state = .quarantined) :
    PingUnderWay (leaveWaking s) a := by
  obtain ⟨hrest, hentry⟩ := leaveWaking_spec s
  generalize leaveWaking s = v at hrest hentry
  have hcalled : v.entry a = pingCalled s a := by rw [hentry a, presentCalled, if_pos h]
  exact pingUnderWay_of_called (by rw [hcalled]) (by rw [hcalled]; rfl) (by rw [hrest]) (by rw [hrest])

/-- A drained link, by its parts (R190). -/
theorem drained_of {s : State} (hq : s.hostQueue = []) (hm : s.mgmtQueue = []) (hl : s.engine.link = .free)
    (hr : s.engine.resetPending = false) (hj : ∀ a, (s.entry a).state ≠ .joining ∧ (s.entry a).state ≠ .describing)
    (hs : ∀ i, (vget s.slots i).isPending = false) (hb : s.mbx.busy = false) (ha : s.autoload.phase = .idle) : s.drained = true := by
  have hjoin : s.drainJoin = true := by
    simp only [State.drainJoin, List.all_eq_true, Bool.and_eq_true, decide_eq_true_eq]
    exact fun a _ => hj a
  simp [State.drained, State.drainQueues, State.drainLink, State.drainMailbox, State.drainAutoload, State.autoloadRuns, hq, hm, hl, hr,
    hjoin, (drainReads_iff s).mpr hs, hb, ha]

/-- The link as its wake settles: what the event makes before it closes (R195). -/
theorem wakeSettled_spec (s : State) (n w : Nat) :
    leaveWaking (advance (w - n) s) = { advance (w - n) s with
      modules := (leaveWaking (advance (w - n) s)).modules, attn := { s.attn with armed := true }
      power := { s.power with state := if s.power.sleepReq then .draining else .active, wakeTimer := none, wakeSettle := none } } ∧
    ∀ a, (leaveWaking (advance (w - n) s)).entry a =
      if (s.entry a).state = .online ∨ (s.entry a).state = .quarantined then pingCalled (advance (w - n) s) a
      else (advance (w - n) s).entry a := by
  obtain ⟨hrest, hentry⟩ := leaveWaking_spec (advance (w - n) s)
  refine ⟨hrest, fun a => ?_⟩
  rw [hentry a, presentCalled, advance_state]

/-- WAKE_SETTLE_END (R140, R191, R195). -/
theorem wakeSettleEnd_drainAndWake {s : State} {n w : Nat} (hhold : s.pins.hold = false) (hp : s.power.state = .waking)
    (hn : s.power.wakeTimer = some n) (hw : s.power.wakeSettle = some w) (hquiet : QuietLaw s) :
    ∃ t u v, exec .wakeSettleEnd s = .next t ∧ t.now = s.now + (w - n) ∧ OnlyTimePasses (w - n) s u ∧
      v = { u with modules := v.modules, attn := { s.attn with armed := true }
                   power := { s.power with state := if s.power.sleepReq then .draining else .active, wakeTimer := none
                                           wakeSettle := none } } ∧
      (∀ a, v.entry a =
        if (s.entry a).state = .online ∨ (s.entry a).state = .quarantined then pingCalled u a else u.entry a) ∧
      (∀ a, (s.entry a).state = .online ∨ (s.entry a).state = .quarantined → PingUnderWay v a) ∧ FollowUp v t ∧
      (s.power.sleepReq = false → s.attn.level = true → s.attn.sweep = none →
        t.attn.armed = false ∧ t.attn.sweep = if sweepSet s = [] then none else some (sweepSet s)) ∧
      (s.power.sleepReq = true → s.mbx.runs opDiscoverNow = true → ¬DiscCarried s →
        t.power.state = .active ∧ t.power.sleepReq = false) ∧
      (s.mbx.runs opDiscoverNow = false →
        s.power.sleepReq = false ∨ (∃ a, (s.entry a).state = .online ∨ (s.entry a).state = .quarantined) →
        t.power = { s.power with state := if s.power.sleepReq then .draining else .active, wakeTimer := none
                                 wakeSettle := none }) ∧
      t.hostQueue = s.hostQueue ∧
      ∀ a, (s.entry a).state = .online ∨ (s.entry a).state = .quarantined → PingUnderWay t a := by
  have hexec := exec_wakeSettleEnd hhold hp hn hw
  have hquietly := unnoticed_advance (w - n) s
  obtain ⟨hrest, hentry⟩ := wakeSettled_spec s n w
  have hfollow := followUp_settle _ (headLaw_leaveWaking (hquietly.quietLaw hquiet).head)
  have hpings : ∀ a, (s.entry a).state = .online ∨ (s.entry a).state = .quarantined →
      PingUnderWay (leaveWaking (advance (w - n) s)) a := fun a ha => leaveWaking_pings _ a (by rw [advance_state]; exact ha)
  have htime := onlyTimePasses_advance (w - n) s
  have hstates : ∀ a, (advance (w - n) s).entry a = { s.entry a with pollTimer := ((advance (w - n) s).entry a).pollTimer } :=
    hquietly.entry
  have hlink := (onLink_of_shape hquietly.link).1
  generalize leaveWaking (advance (w - n) s) = v at hexec hrest hentry hfollow hpings
  generalize settle v = t at hexec hfollow
  obtain ⟨hpower, hattn⟩ : v.power = { s.power with
      state := if s.power.sleepReq then .draining else .active, wakeTimer := none, wakeSettle := none } ∧
        v.attn = { s.attn with armed := true } := by rw [hrest]; exact ⟨rfl, rfl⟩
  have hawake : v.power.state ≠ .asleep := by rw [hpower]; dsimp only; split <;> simp
  have hactive : s.power.sleepReq = false → v.power.state = .active := fun hreq => by rw [hpower, hreq]; rfl
  obtain ⟨-, hnow, -, -, -, -, hqueue, -⟩ := hfollow.fields
  refine ⟨t, advance (w - n) s, v, hexec, hnow.trans (by rw [hrest]; rfl), htime, hrest, hentry, hpings, hfollow,
    fun hreq hl hs => ?_, fun hreq hrun hno => ?_, fun hrun hkeep => ?_, hqueue.trans (by rw [hrest]; rfl), fun a ha => ?_⟩
  · have hset : sweepSet v = sweepSet s := by
      unfold sweepSet
      refine List.filter_congr fun a _ => ?_
      have he := hentry a
      have ha := hstates a
      generalize advance (w - n) s = u at he ha
      have hsame : (v.entry a).state = (s.entry a).state ∧ (v.entry a).attention = (s.entry a).attention := by
        split at he
        · rw [he, pingCalled, ha]; exact ⟨rfl, rfl⟩
        · rw [he, ha]; exact ⟨rfl, rfl⟩
      rw [hsame.1, hsame.2]
    have hsweep := hfollow.sweep_starts (hactive hreq) (by rw [hattn]) (by rw [hattn]; exact hl) (by rw [hattn]; exact hs)
    rwa [hset] at hsweep
  · have hgiven := hfollow.drain_given_up ⟨by rw [hpower, hreq]; rfl, by rw [hrest]; exact hrun, fun hcarried => hno ?_⟩
    · rw [hgiven]; exact ⟨rfl, rfl⟩
    · unfold DiscCarried at hcarried ⊢
      rw [show v.disc.state = s.disc.state from by rw [hrest]; exact hquietly.disc.1,
        show v.mgmtOnLink = s.mgmtOnLink from (mgmtOnLink_congr (by rw [hrest])).trans hlink] at hcarried
      exact hcarried
  · rw [← hpower]
    obtain hreq | ⟨a, ha⟩ := hkeep
    · exact hfollow.power_of_upright (.inl (hactive hreq))
    · obtain ⟨-, hk⟩ | ⟨⟨-, hgiven, -⟩, -⟩ := (hfollow.work_of_ping (hpings a ha) hawake).power
      · exact hk
      · rw [show v.mbx = s.mbx from by rw [hrest]; rfl, hrun] at hgiven
        cases hgiven
  · exact (hfollow.work_of_ping (hpings a ha) hawake).pingUnderWay (hpings a ha)

/-- Settles O58: the drain's end, the wake's end, and what a wake makes. -/
theorem drainAndWake : Obligations.DrainAndWake := by
  refine ⟨fun s hhold => ⟨fun hp hq hm hl hr hj hs hb ha => ?_, fun hdrain => ?_,
    fun n w hp hn hw hquiet => wakeSettleEnd_drainAndWake hhold hp hn hw hquiet⟩, fun s r => ⟨?_, ?_, fun hz => ?_, fun hz => ?_⟩⟩
  · have hdrained := drained_of hq hm hl hr hj hs hb ha
    have hhead : HeadLaw { s with power := { s.power with state := .asleep } } := fun _ e rest he => by
      rw [show State.hostQueue { s with power := { s.power with state := .asleep } } = s.hostQueue from rfl, hq] at he
      cases he
    have hfollow := followUp_settle _ hhead
    refine ⟨_, ?_, hfollow, fun hlevel harmed => hfollow.wakes rfl hlevel harmed⟩
    rw [exec_drainComplete hhold, drainEnds, if_pos ⟨hp, hdrained⟩, drainIfDone, if_pos ⟨hp, hdrained⟩]
  · rw [exec_drainComplete hhold, drainEnds, if_neg hdrain]
  · by_cases hz : s.timing.settleTime = 0
    · obtain ⟨hrest, -⟩ := wakeLink_at_once r hz
      generalize wakeLink r s = t at hrest
      rw [hrest]
    · rw [wakeLink_settling r hz]
  · by_cases hz : s.timing.settleTime = 0
    · rw [(wakeLink_at_once r hz).1]
      rfl
    · rw [wakeLink_settling r hz]
      rfl
  · dsimp only
    rw [wakeLink_settling r hz]
    exact ⟨rfl, rfl, rfl⟩
  · obtain ⟨hrest, hentry⟩ := wakeLink_at_once r hz
    dsimp only
    generalize wakeLink r s = t at hrest hentry
    refine ⟨by rw [hrest], by rw [hrest], hentry, fun a ha => ?_⟩
    have hcalled : t.entry a = pingCalled s a := by rw [hentry a, presentCalled, if_pos ha]
    exact pingUnderWay_of_called (by rw [hcalled]) (by rw [hcalled]; rfl) (by rw [hrest]) (by rw [hrest])

end Sys2Proof.Machine
end

section
/-! PROOFS. The arbiter's grants (O50). -/

namespace Sys2Proof.Machine

/-! ### What a grant makes (R13, R22) -/

theorem FollowUp.work_of_busy {s t : State} (h : FollowUp s t) (hl : s.engine.link ≠ .free) (hp : s.power.state ≠ .asleep) :
    WorkFollows s t := by
  refine h.work_of_undrained (fun u hw => ?_) hp
  obtain ⟨-, -, -, -, -, -, -, -, -, -, hengine, -⟩ := hw.fields
  rw [Bool.eq_false_iff]
  intro hd
  rw [← hengine] at hl
  exact hl (drained_link hd)

/-- A module that is not paced, or whose pacing interval has passed (R23). -/
theorem pacingLeft_eq_zero {s : State} {a : ModAddr} :
    s.pacingLeft a = 0 ↔ ∀ n, (s.entry a).lastResponse = some n → n + 10 * (s.entry a).pacing.toNat ≤ s.now := by
  unfold State.pacingLeft
  cases (s.entry a).lastResponse with
  | none => simp
  | some n =>
    simp only [Option.some.injEq, forall_eq', Nat.mul_comm 10]
    omega

theorem destPacingLeft_eq_zero {s : State} {d : BitVec 4} :
    s.destPacingLeft d = 0 ↔ ∀ a, modAddr? d = some a → s.pacingLeft a = 0 := by
  unfold State.destPacingLeft
  cases modAddr? d with
  | none => simp
  | some a => simp

theorem modAddr?_linkAddr (a : ModAddr) : modAddr? (linkAddr a) = some a := by
  have h : (linkAddr a).toNat = a.val + 1 := by
    unfold linkAddr
    rw [BitVec.toNat_ofNat]
    omega
  unfold modAddr?
  rw [dif_pos (by omega)]
  exact congrArg some (Fin.ext (by simp [h]))

theorem payload_dest (e : HostEntry) : e.payload.dest = linkAddr e.addr := by
  unfold HostEntry.payload
  cases e.op with
  | read => rfl
  | write => rfl
  | descRead => rfl

/-- The request that begins with the parameters in force (R13, R14). -/
def begun (src : Source) (p : Payload) (seq : BitVec 4) (s : State) : Link :=
  .carrying ⟨src, p, seq, 0, 0, s.timing.linkParams, false, .sending⟩

/-- A request to a module takes the next of its sequence numbers (R13). -/
theorem beginRequest_module {src : Source} {p : Payload} {a : ModAddr} (h : modAddr? p.dest = some a) (s : State) :
    beginRequest src p s = { s with
      modules := vset s.modules a { s.entry a with seq := (s.entry a).seq + 1 }
      engine := { s.engine with
        link := begun src p ((s.entry a).seq + 1) s, line := requestFrame p ((s.entry a).seq + 1) false } } := by
  unfold beginRequest advanceSeq newRequest nextSeq
  rw [h]
  rfl

/-- A request to a joining module takes the next sequence number of the joins (R13). -/
theorem beginRequest_join {src : Source} {p : Payload} (h : p.dest = 0) (s : State) :
    beginRequest src p s = { s with
      engine := { s.engine with
        joinCounter := s.engine.joinCounter + 1
        link := begun src p (s.engine.joinCounter + 1) s, line := requestFrame p (s.engine.joinCounter + 1) false } } := by
  unfold beginRequest advanceSeq newRequest nextSeq
  rw [h]
  rfl

/-! ### The heads of the queues -/

theorem mgmtHead_of {s : State} {m : MgmtEntry} {rest : List MgmtEntry} (hq : s.mgmtQueue = m :: rest) :
    s.mgmtHead = if s.destPacingLeft m.payload.dest = 0 then some (m, rest) else none := by
  unfold State.mgmtHead
  rw [hq]

theorem hostHead_of {s : State} {e : HostEntry} {rest : List HostEntry} (hq : s.hostQueue = e :: rest) (hc : headCheck e s = none) :
    s.hostHead = if s.pacingLeft e.addr = 0 then some (e, rest) else none := by
  unfold State.hostHead
  rw [hq]
  simp only [hc, true_and]

/-- No management head is eligible. -/
theorem mgmtHead_eq_none {s : State} (h : ∀ m rest, s.mgmtQueue = m :: rest → s.destPacingLeft m.payload.dest ≠ 0) :
    s.mgmtHead = none := by
  cases hm : s.mgmtHead with
  | none => rfl
  | some p =>
    obtain ⟨m, rest⟩ := p
    have hq := mgmtHead_eq hm
    rw [mgmtHead_of hq, if_neg (h m rest hq)] at hm
    cases hm

theorem hostHead_eq_none {s : State} (h : ∀ e rest, s.hostQueue = e :: rest → s.pacingLeft e.addr ≠ 0) : s.hostHead = none := by
  cases he : s.hostHead with
  | none => rfl
  | some p =>
    obtain ⟨e, rest⟩ := p
    have hq := hostHead_eq he
    unfold State.hostHead at he
    rw [hq] at he
    simp only [h e rest hq, and_false, if_false] at he
    cases he

/-! ### The turn table (R22) -/

theorem takeTurn_none {s : State} (hm : s.mgmtHead = none) (hh : s.hostHead = none) : takeTurn s = s := by
  unfold takeTurn
  rw [hm, hh]

theorem takeTurn_host {s : State} {e : HostEntry} {rest : List HostEntry} (hh : s.hostHead = some (e, rest))
    (h : s.mgmtHead ≠ none → s.engine.lastTurn = .management) : takeTurn s = grantHost e rest s := by
  unfold takeTurn
  rw [hh]
  cases hm : s.mgmtHead with
  | none => rfl
  | some p =>
    dsimp only
    rw [if_neg (by rw [h (by simp [hm])]; simp)]

theorem takeTurn_mgmt {s : State} {m : MgmtEntry} {rest : List MgmtEntry} (hm : s.mgmtHead = some (m, rest))
    (h : s.hostHead ≠ none → s.engine.lastTurn = .host) : takeTurn s = grantMgmt m rest s := by
  unfold takeTurn
  rw [hm]
  cases hh : s.hostHead with
  | none => rfl
  | some p =>
    dsimp only
    rw [if_pos (h (by simp [hh]))]

/-- The host head granted (R22, R89). -/
theorem grantHost_eq (e : HostEntry) (rest : List HostEntry) (s : State) : grantHost e rest s = { s with
    hostQueue := rest
    mbx := if e.origin = .mailbox then { s.mbx with state := .active } else s.mbx
    modules := vset s.modules e.addr { s.entry e.addr with seq := (s.entry e.addr).seq + 1 }
    engine := { s.engine with
      lastTurn := .host, link := begun (.host e false) e.payload ((s.entry e.addr).seq + 1) s
      line := requestFrame e.payload ((s.entry e.addr).seq + 1) false } } := by
  unfold grantHost
  rw [beginRequest_module (by rw [payload_dest, modAddr?_linkAddr])]
  dsimp only
  split
  · rfl
  · rfl

/-- The management head granted (R13, R22). -/
theorem grantMgmt_module {m : MgmtEntry} {a : ModAddr} (h : modAddr? m.payload.dest = some a) (rest : List MgmtEntry) (s : State) :
    grantMgmt m rest s = { s with
      mgmtQueue := rest
      modules := vset s.modules a { s.entry a with seq := (s.entry a).seq + 1 }
      engine := { s.engine with
        lastTurn := .management, link := begun (.management m) m.payload ((s.entry a).seq + 1) s
        line := requestFrame m.payload ((s.entry a).seq + 1) false } } := by
  unfold grantMgmt
  rw [beginRequest_module h]
  rfl

theorem grantMgmt_join {m : MgmtEntry} (h : m.payload.dest = 0) (rest : List MgmtEntry) (s : State) :
    grantMgmt m rest s = { s with
      mgmtQueue := rest
      engine := { s.engine with
        lastTurn := .management, joinCounter := s.engine.joinCounter + 1
        link := begun (.management m) m.payload (s.engine.joinCounter + 1) s
        line := requestFrame m.payload (s.engine.joinCounter + 1) false } } := by
  unfold grantMgmt
  rw [beginRequest_join h]
  rfl

/-- The frames of management requests go to the joins or to a module (R4). -/
theorem mgmt_dest_cases (m : MgmtEntry) : m.payload.dest = 0 ∧ modAddr? m.payload.dest = none ∨
    m.payload.dest ≠ 0 ∧ ∃ a, modAddr? m.payload.dest = some a := by
  have hjoin : modAddr? 0 = none := by decide
  have hmod : ∀ a, linkAddr a ≠ 0 ∧ ∃ b, modAddr? (linkAddr a) = some b := fun a =>
    ⟨fun h0 => (Option.some_ne_none a) ((modAddr?_linkAddr a).symm.trans (h0 ▸ hjoin)), a, modAddr?_linkAddr a⟩
  cases m with
  | joinQuery => exact .inl ⟨rfl, hjoin⟩
  | assign a g w => exact .inl ⟨rfl, hjoin⟩
  | descRead a g w => exact .inr (hmod a)
  | ping a g => exact .inr (hmod a)
  | attnFetch a g => exact .inr (hmod a)
  | attnClear a g w => exact .inr (hmod a)
  | release a g => exact .inr (hmod a)

/-! ### The arbiter's act -/

theorem exec_arbiterGrant {s : State} (hhold : s.pins.hold = false) : exec .arbiterGrant s = .next (arbiterAct s) :=
  congrArg Host.Outcome.next (whenLive_live arbiterAct s hhold)

theorem arbiterActs_of {s : State} (hl : s.engine.link = .free) (hp : s.power.state = .active ∨ s.power.state = .draining) :
    s.arbiterActs = true := by
  unfold State.arbiterActs
  rcases hp with hp | hp <;> rw [hl, hp] <;> rfl

/-- With a head that passes and no broadcast pending, the arbiter takes a turn. -/
theorem arbiterAct_turn {s : State} (hhead : HeadLaw s) (hl : s.engine.link = .free)
    (hp : s.power.state = .active ∨ s.power.state = .draining) (hr : s.engine.resetPending = false) :
    arbiterAct s = settle (takeTurn s) := by
  rw [arbiterAct, if_pos (arbiterActs_of hl hp), if_neg (by simp [hr]), headChecks_quiet s hhead]

/-- On a FREE link the host head passes its checks (R86). -/
theorem HeadLaw.of_free {s : State} (h : HeadLaw s) (hl : s.engine.link = .free) {e : HostEntry} {rest : List HostEntry}
    (hq : s.hostQueue = e :: rest) : headCheck e s = none :=
  h (by unfold State.hostOnLink; rw [hl]; rfl) e rest hq

/-- The host head's turn. -/
theorem arbiterAct_host {s : State} {e : HostEntry} {rest : List HostEntry} (hhead : HeadLaw s) (hl : s.engine.link = .free)
    (hp : s.power.state = .active ∨ s.power.state = .draining) (hr : s.engine.resetPending = false) (hq : s.hostQueue = e :: rest)
    (hready : s.pacingLeft e.addr = 0) (hturn : s.mgmtHead ≠ none → s.engine.lastTurn = .management) :
    FollowUp (grantHost e rest s) (arbiterAct s) := by
  rw [arbiterAct_turn hhead hl hp hr, takeTurn_host (e := e) (rest := rest)
    (by rw [hostHead_of hq (hhead.of_free hl hq), if_pos hready]) hturn]
  refine followUp_settle _ fun hoff => ?_
  rw [grantHost_eq] at hoff
  cases hoff

/-- What is left of the management queue behind a grant: all of it, unless a JOIN_QUERY in it is dropped (R29). -/
theorem WorkFollows.queue_kept {s t : State} (h : WorkFollows s t) (hdisc : s.suspended = false → s.disc.state ≠ .disabled)
    (hno : s.suspended = true → .joinQuery ∉ s.mgmtQueue) : ∃ more, t.mgmtQueue = s.mgmtQueue ++ more := by
  obtain ⟨d, kept, item, added, hmove, -, -, hqueue, -⟩ := h.work
  have hkept : kept = s.mgmtQueue := by
    obtain ⟨-, -, hk⟩ | ⟨-, hk, hsus⟩ := hmove
    · exact hk
    · have hs : s.suspended = true := by
        obtain ⟨hs, -⟩ | ⟨hs | hd, -⟩ := hsus
        · exact hs
        · exact hs
        · cases hs : s.suspended with
          | true => rfl
          | false => exact absurd hd (hdisc hs)
      rw [hk]
      split
      · refine List.filter_eq_self.mpr fun m hm => decide_eq_true fun hj => hno hs (hj ▸ hm)
      · rfl
  exact ⟨item.toList ++ added, by rw [hqueue, hkept, List.append_assoc]⟩

/-- A management grant leaves the checks of the host head as they were: they do not read a sequence number. -/
theorem headLaw_grantMgmt {s : State} (hhead : HeadLaw s) (hl : s.engine.link = .free) (m : MgmtEntry) (rest : List MgmtEntry) :
    HeadLaw (grantMgmt m rest s) := by
  have hoff : s.hostOnLink = false := by unfold State.hostOnLink; rw [hl]; rfl
  obtain ⟨h0, -⟩ | ⟨-, a, ha⟩ := mgmt_dest_cases m
  · rw [grantMgmt_join h0]
    exact hhead.of_checks rfl hoff.symm fun _ h => h
  · have hmade := grantMgmt_module ha rest s
    generalize grantMgmt m rest s = x at hmade
    have hentry : ∀ b, x.entry b = if a = b then { s.entry a with seq := (s.entry a).seq + 1 } else s.entry b :=
      entry_cases (by rw [hmade]; rfl)
    have hon : x.hostOnLink = false := by rw [hmade]; rfl
    refine hhead.of_checks (by rw [hmade]) (hon.trans hoff.symm) fun e h => ?_
    rw [← h]
    refine headCheck_congr e _ _ fun b => ?_
    rw [hentry b]
    split
    · next hab => rw [← hab]; exact ⟨rfl, rfl, rfl⟩
    · exact ⟨rfl, rfl, rfl⟩

/-- Suspension does not read which request of the management queue is on the link, or that none is (R29). -/
theorem suspended_grantMgmt {s : State} (hl : s.engine.link = .free) (m : MgmtEntry) (rest : List MgmtEntry) :
    (grantMgmt m rest s).suspended = s.suspended ∧ (grantMgmt m rest s).disc = s.disc := by
  obtain ⟨h0, -⟩ | ⟨-, a, ha⟩ := mgmt_dest_cases m
  · rw [grantMgmt_join h0]
    simp [State.suspended, State.autoloadRuns, State.broadcasting, hl, begun, Link.request?]
  · rw [grantMgmt_module ha]
    simp [State.suspended, State.autoloadRuns, State.broadcasting, hl, begun, Link.request?]

/-- The arbiter's act that grants the management head: the queue behind it, and what else the event leaves (R22, R29). -/
theorem arbiterAct_mgmt {s : State} {m : MgmtEntry} {rest : List MgmtEntry} (hquiet : QuietLaw s) (hl : s.engine.link = .free)
    (hp : s.power.state = .active ∨ s.power.state = .draining) (hr : s.engine.resetPending = false) (hq : s.mgmtQueue = m :: rest)
    (hready : s.destPacingLeft m.payload.dest = 0) (hturn : s.hostHead ≠ none → s.engine.lastTurn = .host)
    (hjoin : s.suspended = true → .joinQuery ∉ rest) :
    FollowUp (grantMgmt m rest s) (arbiterAct s) ∧ WorkFollows (grantMgmt m rest s) (arbiterAct s) ∧
      ∃ more, (arbiterAct s).mgmtQueue = rest ++ more := by
  have hact : arbiterAct s = settle (grantMgmt m rest s) := by
    rw [arbiterAct_turn hquiet.head hl hp hr, takeTurn_mgmt (m := m) (rest := rest) (by rw [mgmtHead_of hq, if_pos hready]) hturn]
  have hfollow : FollowUp (grantMgmt m rest s) (arbiterAct s) := hact ▸ followUp_settle _ (headLaw_grantMgmt hquiet.head hl m rest)
  obtain ⟨hsus, hdisc⟩ := suspended_grantMgmt hl m rest
  have hmade : (grantMgmt m rest s).engine.link ≠ .free ∧ (grantMgmt m rest s).power = s.power ∧
      (grantMgmt m rest s).mgmtQueue = rest := by
    obtain ⟨h0, -⟩ | ⟨-, a, ha⟩ := mgmt_dest_cases m
    · rw [grantMgmt_join h0]; exact ⟨by simp [begun], rfl, rfl⟩
    · rw [grantMgmt_module ha]; exact ⟨by simp [begun], rfl, rfl⟩
  obtain ⟨hbusy, hpower, hqueue⟩ := hmade
  have hwork := hfollow.work_of_busy hbusy (by rw [hpower]; rcases hp with hp | hp <;> rw [hp] <;> simp)
  refine ⟨hfollow, hwork, ?_⟩
  have hkept := hwork.queue_kept (by rw [hsus, hdisc]; exact hquiet.disc.2) (by rw [hsus, hqueue]; exact hjoin)
  rwa [hqueue] at hkept

/-- Settles O50: nothing to grant, the broadcast, and a turn of either queue. -/
theorem arbiterGrants : Obligations.ArbiterGrants := by
  intro s hhold
  rw [exec_arbiterGrant hhold]
  refine ⟨fun h => ?_, fun hquiet hl hp => ?_⟩
  · rw [arbiterAct]
    split
    · next hacts =>
      have hlink := hacts
      simp only [State.arbiterActs, Bool.and_eq_true, decide_eq_true_eq] at hlink
      obtain ⟨hasleep, hwaking⟩ := arbiterActs_awake hacts
      obtain h | h | h | ⟨hr, hphase, hcold⟩ := h
      · exact absurd hlink.1 h
      · exact absurd h hasleep
      · exact absurd h hwaking
      · rw [if_pos hr, if_pos (by simp [State.coldRunHolds, State.autoloadRuns, hphase, hcold])]
    · rfl
  intro params started passed hostReady mgmtReady
  have hmgmt : ∀ m, s.destPacingLeft m.payload.dest = 0 ↔ mgmtReady m := fun m =>
    destPacingLeft_eq_zero.trans (forall₂_congr fun a _ => pacingLeft_eq_zero)
  have hhost : ∀ e, s.pacingLeft e.addr = 0 ↔ hostReady e := fun e => pacingLeft_eq_zero
  refine ⟨fun hr hnomgmt hnohost => ?_, fun hr hcold => ?_, fun e rest hr hq hready hturn => ?_,
    fun m mrest hr hq hready hturn hjoin => ?_⟩
  · have hnone : takeTurn s = s := takeTurn_none
      (mgmtHead_eq_none fun m rest hq => mt (hmgmt m).mp (hnomgmt m rest hq))
      (hostHead_eq_none fun e rest hq => mt (hhost e).mp (hnohost e rest hq))
    have hfollow := followUp_settle s hquiet.head
    rw [arbiterAct_turn hquiet.head hl hp hr, hnone]
    generalize settle s = t at hfollow
    obtain ⟨-, -, -, -, -, -, hqueue, -, -, -, hengine, -⟩ := hfollow.fields
    exact ⟨t, rfl, hfollow, hengine, hqueue⟩
  · have hsent : sendBroadcast s = { s with engine := { s.engine with
        resetPending := false, link := started .broadcast ⟨15, .linkReset, 0, 0, []⟩ 0
        line := requestFrame ⟨15, .linkReset, 0, 0, []⟩ 0 false } } := rfl
    have hheld : s.coldRunHolds = false := by
      unfold State.coldRunHolds State.autoloadRuns
      rcases hcold with h | h <;> rw [h] <;> simp
    have hoff : s.hostOnLink = false := by unfold State.hostOnLink; rw [hl]; rfl
    rw [arbiterAct, if_pos (arbiterActs_of hl hp), if_pos hr, if_neg (by simp [hheld]), hsent]
    exact ⟨_, rfl, followUp_settle _ (hquiet.head.of_checks rfl hoff.symm fun _ h => h)⟩
  · have hfollow := arbiterAct_host hquiet.head hl hp hr hq ((hhost e).mpr hready) fun hm => by
      obtain ⟨p, hp⟩ := Option.ne_none_iff_exists'.mp hm
      have hmq := mgmtHead_eq hp
      rw [mgmtHead_of hmq] at hp
      split at hp
      · next hpaced => exact hturn p.1 p.2 hmq ((hmgmt p.1).mp hpaced)
      · cases hp
    rw [grantHost_eq] at hfollow
    exact ⟨_, rfl, hfollow⟩
  · obtain ⟨hfollow, hwork, more, hmore⟩ := arbiterAct_mgmt hquiet hl hp hr hq ((hmgmt m).mpr hready) (fun hh => by
      obtain ⟨p, hp⟩ := Option.ne_none_iff_exists'.mp hh
      have hhq := hostHead_eq hp
      rw [hostHead_of hhq (hquiet.head.of_free hl hhq)] at hp
      split at hp
      · next hpaced => exact hturn p.1 p.2 hhq ((hhost p.1).mp hpaced)
      · cases hp) hjoin
    generalize arbiterAct s = t at hfollow hwork hmore
    obtain ⟨h0, hnone⟩ | ⟨hne, a, ha⟩ := mgmt_dest_cases m
    · rw [grantMgmt_join h0] at hfollow
      obtain ⟨-, -, -, -, -, -, hqueue, -, -, -, hengine, -⟩ := hfollow.fields
      refine ⟨t, more, rfl, hmore, hqueue, by rw [hengine], fun _ => ?_, fun a ha => ?_, ?_⟩
      · rw [hengine]; exact ⟨rfl, rfl, rfl⟩
      · rw [hnone] at ha; cases ha
      · rw [hnone, hengine]; exact hfollow
    · rw [grantMgmt_module ha] at hfollow hwork
      obtain ⟨-, -, -, -, -, -, hqueue, -, -, -, hengine, -⟩ := hfollow.fields
      refine ⟨t, more, rfl, hmore, hqueue, by rw [hengine], fun h0 => absurd h0 hne, fun b hb => ?_, ?_⟩
      · obtain rfl : a = b := Option.some.inj (ha.symm.trans hb)
        refine ⟨by rw [hengine], ?_, by rw [hengine]; rfl, by rw [hengine]⟩
        rw [hwork.entry_keeps a]
        exact congrArg Entry.seq (entry_cases (s := s) rfl a |>.trans (if_pos rfl))
      · rw [ha, hengine]; exact hfollow

end Sys2Proof.Machine
end

section
/-! PROOFS. The timers that run out (O55). -/

namespace Sys2Proof.Machine

theorem exec_discoveryTimerExpiry {s : State} {n : Nat} (hhold : s.pins.hold = false) (hst : s.disc.state = .idle)
    (hn : s.disc.queryTimer = some n) :
    exec .discoveryTimerExpiry s = .next (settle (queryNow (advance (s.disc.queryInterval * 1000 - n) s))) := by
  refine (congrArg Host.Outcome.next (whenLive_live queryTimerExpires s hhold)).trans (congrArg Host.Outcome.next ?_)
  rw [queryTimerExpires, hn]
  exact if_pos hst

/-- A poll timer reaches its interval in a link that lets it run (R39). -/
theorem exec_pollTimerExpiry {s : State} {a : ModAddr} {n ms : Nat} (hhold : s.pins.hold = false)
    (hst : (s.entry a).state = .online ∧ ms = s.timing.pollInterval ∨ (s.entry a).state = .quarantined ∧ ms = s.timing.quarPollInterval)
    (hn : (s.entry a).pollTimer = some n) (hp : s.power.state = .active ∨ s.power.state = .draining) :
    exec (.pollTimerExpiry a) s = .next (settle ((advance (ms * 1000 - n) s).setEntry a
      { pingCalled (advance (ms * 1000 - n) s) a with pollTimer := none })) := by
  have hlimit : s.pollLimit a = some (ms * 1000) := by
    unfold State.pollLimit
    rcases hst with ⟨h, rfl⟩ | ⟨h, rfl⟩ <;> rw [h]
  refine (congrArg Host.Outcome.next (whenLive_live (pollTimerExpires a) s hhold)).trans (congrArg Host.Outcome.next ?_)
  rw [pollTimerExpires, hlimit, hn]
  dsimp only
  rw [if_pos ((pollsRun_iff s).mpr hp), setPingDue_stopped]

theorem exec_discardTimerExpiry {s : State} {i : Fin 4} {x : SlotInfo} {o : LinkOutcome} {d : Option Word} {n : Nat}
    (hhold : s.pins.hold = false) (hi : vget s.slots i = .complete x o d n) :
    exec (.discardTimerExpiry i) s = .next (settle (post (discardRecord i x 1)
      ((advance (s.timing.discardTime * 1000 - n) s).setSlot i .free))) := by
  refine (congrArg Host.Outcome.next (whenLive_live (discardTimerExpires i) s hhold)).trans (congrArg Host.Outcome.next ?_)
  rw [discardTimerExpires, hi]
  dsimp only
  rw [discardSlot, advance_slots, hi]
  rfl

theorem exec_pacingIntervalEnd {s : State} (a : ModAddr) (hhold : s.pins.hold = false) :
    exec (.pacingIntervalEnd a) s = .next (pacingEnds a s) :=
  congrArg Host.Outcome.next (whenLive_live (pacingEnds a) s hhold)

/-- What of a pacing interval is left when it has passed: nothing (R23). -/
theorem pacingLeft_advance (s : State) (a : ModAddr) : (advance (s.pacingLeft a) s).pacingLeft a = 0 := by
  unfold State.pacingLeft
  rw [advance_entry]
  cases (s.entry a).lastResponse with
  | none => rfl
  | some n =>
    show n + (s.entry a).pacing.toNat * 10 - (s.now + _) = 0
    dsimp only
    omega

/-- Settles O55: each timer lets its time pass, and then makes its own change; the end of a pacing interval is a grant. -/
theorem timersRunOut : Obligations.TimersRunOut := by
  intro s hhold hquiet
  refine ⟨fun n hst hn hsus => ?_, fun a n ms hst hn hp => ?_, fun i x o d n hi => ?_, fun a hnone => ?_, fun a n hsome => ?_,
    fun e hl hp hr hmq hq hresp => ?_⟩
  · have hexec := exec_discoveryTimerExpiry hhold hst hn
    have hquietly := unnoticed_advance (s.disc.queryInterval * 1000 - n) s
    have hlater : (advance (s.disc.queryInterval * 1000 - n) s).suspended = false := hquietly.calm.suspended.trans hsus
    have hfollow := followUp_settle (queryNow (advance (s.disc.queryInterval * 1000 - n) s))
      (headLaw_modules (hquietly.quietLaw hquiet).head rfl rfl rfl)
    obtain ⟨hstate, hquery⟩ := hfollow.discovery ((suspended_of_fields rfl rfl rfl).trans hlater) (by simp [queryNow])
    obtain ⟨-, hnow, -, -, -, -, hqueue, -⟩ := hfollow.fields
    exact ⟨_, _, hexec, hnow, onlyTimePasses_advance _ s, hfollow, hstate, hquery (.inl rfl), hqueue⟩
  · have hexec := exec_pollTimerExpiry hhold hst hn hp
    have hquietly := unnoticed_advance (ms * 1000 - n) s
    have htime := onlyTimePasses_advance (ms * 1000 - n) s
    have hpower : (advance (ms * 1000 - n) s).power.state = s.power.state := rfl
    have hnow' : (advance (ms * 1000 - n) s).now = s.now + (ms * 1000 - n) := rfl
    have hqueue' : (advance (ms * 1000 - n) s).hostQueue = s.hostQueue := rfl
    have hhead := (hquietly.quietLaw hquiet).head
    generalize advance (ms * 1000 - n) s = u at hexec hhead htime hpower hnow' hqueue'
    have hentry : ∀ b, (u.setEntry a { pingCalled u a with pollTimer := none }).entry b =
        if a = b then { pingCalled u a with pollTimer := none } else u.entry b := entry_cases rfl
    have hfollow := followUp_settle (u.setEntry a { pingCalled u a with pollTimer := none })
      (headLaw_congr hhead rfl rfl fun b => by
        rw [hentry b]
        split
        · next hab => rw [← hab]; exact ⟨rfl, rfl, rfl⟩
        · exact ⟨rfl, rfl, rfl⟩)
    have hping : PingUnderWay (u.setEntry a { pingCalled u a with pollTimer := none }) a :=
      pingUnderWay_of_called (s := u) (by rw [hentry a, if_pos rfl]) (by rw [hentry a, if_pos rfl]; rfl) rfl rfl
    have hwork := hfollow.work_of_ping hping (by
      show u.power.state ≠ _
      rw [hpower]; rcases hp with hp | hp <;> rw [hp] <;> simp)
    obtain ⟨-, hnow, -, -, -, -, hqueue, -⟩ := hfollow.fields
    refine ⟨_, u, hexec, hnow.trans hnow', htime, hfollow, ?_, hwork.pingUnderWay hping, hqueue.trans hqueue'⟩
    rw [hwork.entry_keeps a, hentry a, if_pos rfl]
  · have hexec := exec_discardTimerExpiry hhold hi
    have hquietly := unnoticed_advance (s.timing.discardTime * 1000 - n) s
    have hfreed : Unnoticed s (post (discardRecord i x 1) ((advance (s.timing.discardTime * 1000 - n) s).setSlot i .free)) :=
      (hquietly.trans (unnoticed_setSlot _ i .free (by rw [advance_slots, hi]; rfl))).trans (unnoticed_post _ _)
    have hquiet' := hfreed.quietLaw hquiet
    have hfollow := followUp_settle _ hquiet'.head
    have hwork := hfollow.work_of_quiet hquiet'
    obtain ⟨-, hnow, -, -, -, -, hqueue, hslots, -⟩ := hfollow.fields
    refine ⟨_, _, hexec, hnow, onlyTimePasses_advance _ s, hfollow, ?_, hqueue, hwork.list⟩
    rw [hslots]
    exact vget_vset_same _ _ _
  · rw [exec_pacingIntervalEnd a hhold, pacingEnds, if_pos hnone]
  · have hleft : n + 10 * (s.entry a).pacing.toNat - s.now = s.pacingLeft a := by
      unfold State.pacingLeft
      rw [hsome, Nat.mul_comm]
    rw [hleft]
    refine ⟨_, onlyTimePasses_advance _ s, ?_⟩
    rw [exec_pacingIntervalEnd a hhold, pacingEnds, if_neg (by simp [hsome]), exec_arbiterGrant]
    exact hhold
  · have hquietly := unnoticed_advance (s.pacingLeft e.addr) s
    have hnone : (advance (s.pacingLeft e.addr) s).mgmtHead = none := mgmtHead_eq_none fun m rest h => by
      rw [show (advance (s.pacingLeft e.addr) s).mgmtQueue = s.mgmtQueue from rfl, hmq] at h
      cases h
    have hfollow := arbiterAct_host (e := e) (rest := []) (s := advance (s.pacingLeft e.addr) s) (hquietly.quietLaw hquiet).head
      (shape_free.mpr (hquietly.link.trans (shape_free.mp hl))) (.inl hp) hr hq (pacingLeft_advance s e.addr)
      (fun hm => absurd hnone hm)
    have hexec := exec_pacingIntervalEnd e.addr hhold
    rw [pacingEnds, if_neg hresp] at hexec
    rw [grantHost_eq] at hfollow
    obtain ⟨-, hnow, -, -, -, -, hqueue, -, -, -, hengine, -⟩ := hfollow.fields
    have hseq : ((advance (s.pacingLeft e.addr) s).entry e.addr).seq = (s.entry e.addr).seq := by rw [advance_entry]
    rw [hseq] at hengine
    exact ⟨_, hexec, hnow, hqueue, by rw [hengine], _, by rw [hengine]; rfl, rfl, rfl⟩

end Sys2Proof.Machine
end

section
/-! PROOFS. Joins and leaves: the outcomes of discovery's requests and of a RELEASE (O46). -/

namespace Sys2Proof.Machine

/-! ### Discovery's reports to a DISCOVER_NOW (R131) -/

/-- The state and the result in which a DISCOVER_NOW ends where no module has joined. -/
def DiscEnd.ending : DiscEnd → MbxState × Result
  | .joined _ _ => (.done, .joined)
  | .noneWaiting => (.done, .noneWaiting)
  | .collision => (.failed, .collision)
  | .describeFailed => (.failed, .describeFailed)
  | .tableFull => (.failed, .tableFull)
  | .bindingConflict => (.failed, .bindingConflict)

theorem discoverReport_eq {d : DiscEnd} (h : ∀ a g, d ≠ .joined a g) (s : State) :
    discoverReport d s = discoverEnded d.ending.1 d.ending.2 s := by
  unfold discoverReport discoverEnded
  by_cases hr : s.mbx.runs opDiscoverNow = true
  · obtain ⟨hst, hop⟩ := (runs_iff s.mbx opDiscoverNow).mp hr
    have hop7 : s.mbx.op = 7 := hop
    rw [if_pos hr, if_pos ⟨hst, hop7⟩]
    cases d with
    | joined a g => exact absurd rfl (h a g)
    | noneWaiting => simp only [endMailbox, post, hop7]; rfl
    | collision => simp only [endMailbox, post, hop7]; rfl
    | describeFailed => simp only [endMailbox, post, hop7]; rfl
    | tableFull => simp only [endMailbox, post, hop7]; rfl
    | bindingConflict => simp only [endMailbox, post, hop7]; rfl
  · have hno : ¬(s.mbx.state = .active ∧ s.mbx.op = 7) := fun k => hr ((runs_iff s.mbx opDiscoverNow).mpr k)
    rw [if_neg hr, if_neg hno]

/-- The end of a query or join, as the mailbox hears of it (R29, R30, R131). -/
theorem discoveryEnds_eq {d : DiscEnd} (h : ∀ a g, d ≠ .joined a g) (s : State) :
    discoverReport d (endDiscovery false s) = discoverEnded d.ending.1 d.ending.2 { s with disc := discoveryEnded false s } := by
  rw [endDiscovery_eq, discoverReport_eq h]

/-! ### The end of a JOIN_QUERY (R29, R31 to R33) -/

theorem mgmtOutcome_joinQuery (o : LinkOutcome) (garbled : Bool) (data : List Byte) (s : State) :
    mgmtOutcome .joinQuery o garbled data s = joinQueryOutcome o garbled data s := rfl

theorem queryCollides_eq (s : State) : queryCollides s = discoverEnded .failed .collision
    { s with disc := discoveryEnded false s, events := s.events.post joinCollision } :=
  discoveryEnds_eq (d := .collision) (fun _ _ h => by cases h) _

/-- No entry holds the ID. -/
theorem holderOf_none {s : State} {id : UniqueId} (h : ∀ a, (s.entry a).state ≠ .empty → (s.entry a).uniqueId ≠ some id) :
    s.holderOf id = none :=
  List.find?_eq_none.mpr fun a _ => by
    simp only [decide_eq_true_eq, not_and]
    exact h a

/-- The one entry that holds the ID (R24). -/
theorem holderOf_some {s : State} {id : UniqueId} {a : ModAddr} (hlaw : ModuleLaw s) (hst : (s.entry a).state ≠ .empty)
    (hid : (s.entry a).uniqueId = some id) : s.holderOf id = some a := by
  cases hh : s.holderOf id with
  | none =>
    have := List.find?_eq_none.mp hh a (mem_allAddrs a)
    simp only [decide_eq_true_eq, not_and] at this
    exact absurd hid (this hst)
  | some b =>
    have hb := List.find?_some hh
    simp only [decide_eq_true_eq] at hb
    rw [hlaw a b id hst hb.1 hid hb.2]

theorem queryEnds (s : State) (garbled : Bool) (data : List Byte) : QueryEnds s garbled data where
  quiet := discoveryEnds_eq (d := .noneWaiting) (fun _ _ h => by cases h) s
  collision o h := by
    rw [mgmtOutcome_joinQuery, ← queryCollides_eq]
    obtain ⟨rfl, hg⟩ | rfl | rfl | rfl := h
    · exact if_pos hg
    · rfl
    · rfl
    · rfl
  dropped h := if_pos h
  newModule hr hnew := by
    rw [mgmtOutcome_joinQuery, joinQueryOutcome, if_neg (by simp [hr]), idReturned, holderOf_none hnew]
  reappeared a u hr hlaw hst hid hu := by
    rw [mgmtOutcome_joinQuery, joinQueryOutcome, if_neg (by simp [hr]), idReturned, holderOf_some hlaw hst hid, hu]

/-! ### The address choice (R54 to R57) -/

theorem boundAddr_none {s : State} {id : UniqueId} (h : ∀ c b, vget s.bindings c = some b → b.id ≠ id) : s.boundAddr id = none :=
  List.find?_eq_none.mpr fun a _ => by
    simp only [Option.any_eq_true, decide_eq_true_eq, not_exists, not_and]
    exact fun b hb => h a b hb

/-- The one address whose binding names the ID (R49). -/
theorem boundAddr_some {s : State} {id : UniqueId} (hlaw : BindingLaw s) {a : ModAddr} {b : Binding}
    (hb : vget s.bindings a = some b) (hid : b.id = id) : s.boundAddr id = some a := by
  cases hh : s.boundAddr id with
  | none =>
    have := List.find?_eq_none.mp hh a (mem_allAddrs a)
    simp only [hb, Option.any_some, decide_eq_true_eq] at this
    exact absurd hid this
  | some c =>
    have hc := List.find?_some hh
    simp only [Option.any_eq_true, decide_eq_true_eq] at hc
    obtain ⟨b', hb', hid'⟩ := hc
    rw [hlaw a c b b' hb hb' (hid.trans hid'.symm)]

theorem freeUnnamed_iff (s : State) (a : ModAddr) : (s.addrFree a && s.addrUnnamed a) = true ↔ FreeUnnamed s a := by
  simp [State.addrFree, State.addrUnnamed, FreeUnnamed]

theorem lowestFree_some {s : State} {c : ModAddr} (h : LowestFree s c) : s.lowestFree = some c := by
  have hplace : ∀ i : Fin 14, allAddrs[i.val]'(by simp [allAddrs]) = i := by decide
  refine List.find?_eq_some_iff_getElem.mpr ⟨(freeUnnamed_iff s c).mpr h.1, c.val, by simp [allAddrs], hplace c, fun j hj => ?_⟩
  have hlt : (⟨j, by omega⟩ : Fin 14) < c := hj
  rw [hplace ⟨j, by omega⟩, Bool.not_eq_true']
  exact Bool.eq_false_iff.mpr fun hf => h.2 _ hlt ((freeUnnamed_iff s _).mp hf)

theorem lowestFree_none {s : State} (h : ∀ c, ¬FreeUnnamed s c) : s.lowestFree = none :=
  List.find?_eq_none.mpr fun a _ hf => h a ((freeUnnamed_iff s a).mp hf)

theorem addrFree_iff (s : State) (a : ModAddr) : s.addrFree a = true ↔ (s.entry a).state = .empty := by simp [State.addrFree]

/-- The choice for an ID bound to an address that is taken (R55). -/
theorem choose_taken {s : State} {id : UniqueId} (returning : Option ModAddr) (hlaw : BindingLaw s) {a : ModAddr} {b : Binding}
    (hb : vget s.bindings a = some b) (hid : b.id = id) (hst : (s.entry a).state ≠ .empty) :
    choose id returning s = if b.mode = .strict then .conflict a else chooseLowest .fallback s := by
  unfold choose
  rw [boundAddr_some hlaw hb hid]
  dsimp only
  rw [if_neg (mt (addrFree_iff s a).mp hst), hb]
  simp only [Option.any_some, decide_eq_true_eq]

/-- The choice for an ID without a binding, with a returning address or none (R54). -/
theorem choose_unbound {s : State} {id : UniqueId} (h : ∀ c b, vget s.bindings c = some b → b.id ≠ id) :
    choose id none s = chooseLowest .unbound s ∧ ∀ a, choose id (some a) s =
      if (s.addrFree a && s.addrUnnamed a) = true then .address a .unbound else chooseLowest .unbound s := by
  unfold choose
  rw [boundAddr_none h]
  exact ⟨rfl, fun _ => rfl⟩

theorem chooseLowest_of {s : State} (how : Bound) : (∀ c, LowestFree s c → chooseLowest how s = .address c how) ∧
    ((∀ c, ¬FreeUnnamed s c) → chooseLowest how s = .full) := by
  unfold chooseLowest
  exact ⟨fun c h => by rw [lowestFree_some h], fun h => by rw [lowestFree_none h]⟩

theorem addressChoice {s : State} (hlaw : BindingLaw s) (id : UniqueId) (returning : Option ModAddr) : AddressChoice s id returning where
  bound a b hb hid hst := by
    unfold choose
    rw [boundAddr_some hlaw hb hid]
    exact if_pos ((addrFree_iff s a).mpr hst)
  conflict a b hb hid hst hmode := by rw [choose_taken returning hlaw hb hid hst, if_pos hmode]
  fallback a b c hb hid hst hmode hc := by
    rw [choose_taken returning hlaw hb hid hst, if_neg (by simp [hmode]), (chooseLowest_of .fallback).1 c hc]
  noneLeft a b hb hid hst hmode hnone := by
    rw [choose_taken returning hlaw hb hid hst, if_neg (by simp [hmode]), (chooseLowest_of .fallback).2 hnone]
  returned a hno hret hfree := by
    rw [hret, (choose_unbound hno).2 a, if_pos ((freeUnnamed_iff s a).mpr hfree)]
  lowest c hno hret hc := by
    cases returning with
    | none => rw [(choose_unbound hno).1, (chooseLowest_of .unbound).1 c hc]
    | some a =>
      rw [(choose_unbound hno).2 a, if_neg (mt (freeUnnamed_iff s a).mp (hret a rfl)), (chooseLowest_of .unbound).1 c hc]
  full hno hnone := by
    cases returning with
    | none => rw [(choose_unbound hno).1, (chooseLowest_of .unbound).2 hnone]
    | some a =>
      rw [(choose_unbound hno).2 a, if_neg (mt (freeUnnamed_iff s a).mp (hnone a)), (chooseLowest_of .unbound).2 hnone]

theorem choiceCarriedOut (s : State) (id : UniqueId) : ChoiceCarriedOut s id where
  address _ _ := rfl
  conflict _ := discoverReport_eq (d := .bindingConflict) (fun _ _ h => by cases h) _
  full := discoverReport_eq (d := .tableFull) (fun _ _ h => by cases h) _

/-! ### The end of an ASSIGN and of a DESC_READ (R34 to R37) -/

/-- An outcome that reaches the entry it was asked for (R28). -/
theorem mgmtOutcome_live {m : MgmtEntry} {s : State} {a : ModAddr} (h : m.concerns = some (a, (s.entry a).generation))
    (hst : (s.entry a).state ≠ .empty) (o : LinkOutcome) (garbled : Bool) (data : List Byte) :
    mgmtOutcome m o garbled data s = applyOutcome m o data s := by
  unfold mgmtOutcome
  rw [h]
  exact if_pos ⟨rfl, hst⟩

/-- An outcome of another incarnation is dropped (R28). -/
theorem mgmtOutcome_dropped {m : MgmtEntry} {s : State} {a : ModAddr} {g : Half} (h : m.concerns = some (a, g))
    (hno : (s.entry a).generation ≠ g ∨ (s.entry a).state = .empty) (o : LinkOutcome) (garbled : Bool) (data : List Byte) :
    mgmtOutcome m o garbled data s = s := by
  unfold mgmtOutcome
  rw [h]
  exact if_neg fun ⟨hg, hst⟩ => hno.elim (fun k => k hg) hst

/-- A DESC_READ's outcome on an entry that is DESCRIBING (R35 to R37). -/
theorem mgmtOutcome_descRead {s : State} {a : ModAddr} (hst : (s.entry a).state = .describing) (word : Byte) (o : LinkOutcome)
    (garbled : Bool) (data : List Byte) : mgmtOutcome (.descRead a (s.entry a).generation word) o garbled data s =
      if o = .ok then
        if word = 0 then compareId a (s.entry a).generation (BitVec.ofNat 32 (leNat data)) (((s.entry a).uniqueId.getD 0).setWidth 32) 1 s
        else if word = 1 then
          compareId a (s.entry a).generation (BitVec.ofNat 32 (leNat data)) ((((s.entry a).uniqueId.getD 0) >>> 32).setWidth 32) 2 s
        else if word = 2 then headerWord a (s.entry a).generation (BitVec.ofNat 32 (leNat data)) s
        else recordWord a (s.entry a).generation word (BitVec.ofNat 32 (leNat data)) s
      else if o = .noRegister ∧ word ≠ 0 ∧ word ≠ 1 ∧ word ≠ 2 then truncateChain a s
      else releaseAfter a .describeFailed s := by
  rw [mgmtOutcome_live rfl (by rw [hst]; simp)]
  exact if_neg (by simp [hst])

/-- A word of a capability record: neither an ID word nor the header (R36). -/
theorem recordWord_iff {word : Byte} : 2 < word.toNat ↔ word ≠ 0 ∧ word ≠ 1 ∧ word ≠ 2 := by
  simp only [ne_eq, ← BitVec.toNat_inj, BitVec.ofNat_eq_ofNat, BitVec.toNat_ofNat]
  omega

theorem bits_eq (w : Word) (p n : Nat) : bits w p n = (w.extractLsb' p n).toNat := by
  rw [BitVec.extractLsb'_toNat, bits, Nat.shiftRight_eq_div_pow]

/-- The test of a record's length (R36). -/
theorem badLength_iff {w : Word} : (w.extractLsb' 8 8 = 0 ∨ 15 < (w.extractLsb' 8 8).toNat) ↔ bits w 8 8 = 0 ∨ 15 < bits w 8 8 := by
  rw [bits_eq, ← BitVec.toNat_inj]
  rfl

theorem joinGoesOn (s : State) (a : ModAddr) (garbled : Bool) (data : List Byte) : JoinGoesOn s a garbled data where
  assigned guard hst := by
    rw [mgmtOutcome_live rfl (by rw [hst]; simp), applyOutcome, assignOutcome, if_neg (by simp [hst]), if_pos rfl]
    rfl
  unassigned guard o hst ho := by
    rw [mgmtOutcome_live rfl (by rw [hst]; simp), applyOutcome, assignOutcome, if_neg (by simp [hst]), if_neg ho]
    rfl
  sameId word half hst hword := by
    rw [mgmtOutcome_descRead hst, if_pos rfl]
    obtain ⟨rfl, rfl⟩ | ⟨rfl, rfl⟩ := hword
    · rw [if_pos rfl, compareId]; rfl
    · rw [if_neg (by decide), if_pos rfl, compareId]; rfl
  header w hst hw := by
    rw [mgmtOutcome_descRead hst, if_pos rfl, if_neg (by decide), if_neg (by decide), if_pos rfl, headerWord, ← hw]
    exact followPointer_eq a _ _ _ (by simp [State.entry, State.setEntry])
  badRecord word w hst hword hw hlen := by
    obtain ⟨h0, h1, h2⟩ := recordWord_iff.mp hword
    rw [mgmtOutcome_descRead hst, if_pos rfl, if_neg h0, if_neg h1, if_neg h2, recordWord, ← hw, ← truncateChain_eq]
    exact if_pos (badLength_iff.mpr hlen)
  record word w hst hword hw hlow hhigh := by
    obtain ⟨h0, h1, h2⟩ := recordWord_iff.mp hword
    rw [mgmtOutcome_descRead hst, if_pos rfl, if_neg h0, if_neg h1, if_neg h2, recordWord, ← hw]
    refine (if_neg (mt badLength_iff.mp (by omega))).trans ?_
    exact followPointer_eq a _ _ _ (by simp [State.entry, State.setEntry])
  noWord word hst hword := by
    rw [mgmtOutcome_descRead hst, if_neg (by simp), if_pos ⟨rfl, recordWord_iff.mp hword⟩, truncateChain_eq]
  failed word o hst ho hword := by
    rw [mgmtOutcome_descRead hst, if_neg ho, if_neg]
    · rfl
    · rintro ⟨rfl, hrecord⟩
      have := recordWord_iff.mpr hrecord
      exact hword.elim (fun h => by omega) fun h => h rfl

/-! ### The end of a RELEASE, and the leaves (R34, R37, R42, R44 to R46) -/

theorem mgmtOutcome_release {s : State} {a : ModAddr} (hst : (s.entry a).state ≠ .empty) (o : LinkOutcome) (garbled : Bool)
    (data : List Byte) : mgmtOutcome (.release a (s.entry a).generation) o garbled data s = releaseOutcome a o s :=
  mgmtOutcome_live rfl hst o garbled data

theorem releaseEnds (s : State) (a : ModAddr) (o : LinkOutcome) (garbled : Bool) (data : List Byte) : ReleaseEnds s a o garbled data where
  forget hst hfor := by rw [mgmtOutcome_release hst, releaseOutcome, hfor]; exact leave_eq a _ s
  assignFailed u hst hfor hu := by
    rw [mgmtOutcome_release hst, releaseOutcome, hfor, hu]
    dsimp only
    rw [leave_eq]
    exact discoveryEnds_eq (d := .collision) (fun _ _ h => by cases h) _
  idMismatch u hst hfor hu := by
    rw [mgmtOutcome_release hst, releaseOutcome, hfor, hu]
    dsimp only
    rw [leave_eq]
    exact discoveryEnds_eq (d := .collision) (fun _ _ h => by cases h) _
  describeFailed u hst hfor hu := by
    rw [mgmtOutcome_release hst, releaseOutcome, hfor, hu]
    dsimp only
    rw [leave_eq]
    exact discoveryEnds_eq (d := .describeFailed) (fun _ _ h => by cases h) _
  silent := leave_eq a _ s
  reappeared := leave_eq a _ s
  linkReset := leave_eq a _ s

/-- Settles O46: each outcome by the function that takes it. -/
theorem joinsAndLeaves : Obligations.JoinsAndLeaves := by
  intro s garbled data
  refine ⟨queryEnds s garbled data, fun hlaw id returning => addressChoice hlaw id returning, choiceCarriedOut s,
    fun a => joinGoesOn s a garbled data, fun a o => releaseEnds s a o garbled data,
    fun m a g o h hno => mgmtOutcome_dropped h hno o garbled data, fun a g guard o hst => ?_, fun a g word o hst => ?_⟩
  · by_cases hlive : (s.entry a).generation = g ∧ (s.entry a).state ≠ .empty
    · obtain ⟨rfl, hlive⟩ := hlive
      rw [mgmtOutcome_live rfl hlive]
      exact if_pos hst
    · exact mgmtOutcome_dropped rfl (by tauto) o garbled data
  · by_cases hlive : (s.entry a).generation = g ∧ (s.entry a).state ≠ .empty
    · obtain ⟨rfl, hlive⟩ := hlive
      rw [mgmtOutcome_live rfl hlive]
      exact if_pos hst
    · exact mgmtOutcome_dropped rfl (by tauto) o garbled data

end Sys2Proof.Machine
end

section
/-! PROOFS. Reservations, and the outcomes of ATTN_FETCH, ATTN_CLEAR and PING (O60). -/

namespace Sys2Proof.Machine

theorem EventUnit.take_of_full {u : EventUnit} (h : u.overflowPresent = true ∨ 31 ≤ u.ordinaryCount + u.reservations) : u.take = u := by
  refine if_neg fun hp => ?_
  obtain ⟨hover, hlt⟩ := u.hasPlace_iff.mp hp
  obtain h | h := h
  · rw [hover] at h; cases h
  · omega

/-- An ATTN_FETCH's outcome on the fetch record that it was made for (R144 to R146). -/
theorem mgmtOutcome_attnFetch {s : State} {a : ModAddr} {f : FetchRec} (hst : (s.entry a).state ≠ .empty) (hf : s.fetchRec a = some f)
    (hgen : f.gen = (s.entry a).generation) (o : LinkOutcome) (garbled : Bool) (data : List Byte) :
    mgmtOutcome (.attnFetch a (s.entry a).generation) o garbled data s =
      if o = .ok ∧ BitVec.ofNat 16 (leNat data) ≠ 0 then
        if (BitVec.ofNat 16 (leNat data)).getLsbD 15 then contentsChanged a (applyWord a (BitVec.ofNat 16 (leNat data)) f.reserved s)
        else applyWord a (BitVec.ofNat 16 (leNat data)) f.reserved s
      else fetchEndsEmpty a s := by
  rw [mgmtOutcome_live rfl hst, applyOutcome, fetchOutcome, hf]
  dsimp only
  rw [if_neg fun h => h hgen]

/-- A non-zero word recorded (R144, R158). -/
theorem applyWord_eq (a : ModAddr) (w : Half) (reserved : Bool) (s : State) : applyWord a w reserved s = { s with
    modules := vset s.modules a { s.entry a with
      attention := if reserved = true ∧ s.attn.mode = .held then .held else .clearDue, clearBits := some w }
    attn := { s.attn with fetches := vset s.attn.fetches a none }
    events := if reserved = true then
                s.events.fill a w (s.entry a).generation (decide (reserved = true ∧ s.attn.mode = .held))
              else s.events.post ⟨.attention, some a, 0, w.setWidth 32, (s.entry a).generation.setWidth 32, 0⟩ } := by
  unfold applyWord
  cases reserved with
  | true => simp only [Bool.true_and, decide_eq_true_eq, if_true, true_and]; rfl
  | false => simp only [Bool.false_and, Bool.false_eq_true, if_false, false_and]; rfl

/-- A fetch that ends with no word to record (R144, R145). -/
theorem fetchEndsEmpty_eq {s : State} {a : ModAddr} {f : FetchRec} (hf : s.fetchRec a = some f) : fetchEndsEmpty a s = { s with
    modules := vset s.modules a { s.entry a with attention := .none }
    attn := { s.attn with fetches := vset s.attn.fetches a none }
    events := if f.reserved = true then s.events.release else s.events } := by
  unfold fetchEndsEmpty dropFetch
  rw [hf, Option.any_some]
  cases f.reserved with
  | true => rfl
  | false => rfl

/-- CONTENTS_CHANGED (R109, R117, R146). -/
theorem contentsChanged_eq (a : ModAddr) (s : State) : contentsChanged a s = { s with
    cache := { lines := vmap (fun l => l.filter fun l => l.addr ≠ a) s.cache.lines
               useOrder := s.cache.useOrder.filter fun i => (vget s.cache.lines i).any fun l => l.addr ≠ a }
    slots := vmap (noFillFor a) s.slots } := by
  unfold contentsChanged dropLinesOf
  rw [drop_address]

theorem fetchEnds {s : State} {a : ModAddr} {f : FetchRec} (hst : (s.entry a).state ≠ .empty) (hf : s.fetchRec a = some f)
    (hgen : f.gen = (s.entry a).generation) (garbled : Bool) (data : List Byte) : FetchEnds s a f garbled data where
  word w u hw hne hu := by
    rw [mgmtOutcome_attnFetch hst hf hgen, ← hw, if_pos ⟨rfl, hne⟩, applyWord_eq, ← hu]
    split
    · rw [contentsChanged_eq, hu]
    · rfl
  empty o h := by
    rw [mgmtOutcome_attnFetch hst hf hgen, if_neg fun k => h.elim (fun h => h k.1) k.2, fetchEndsEmpty_eq hf]

/-- Settles O60: the four operations on reservations, and the three outcomes of the attention unit's requests. -/
theorem reservationsAreKept : Obligations.ReservationsAreKept := by
  refine ⟨fun u => ⟨fun hover hlt => take_of_place u (u.hasPlace_iff.mpr ⟨hover, hlt⟩), EventUnit.take_of_full, fun _ => rfl,
    fun a word gen held hr => if_pos hr⟩, fun s a garbled data hst => ⟨fun f hf hgen => fetchEnds hst hf hgen garbled data,
    fun o hno => ?_, fun o cleared => ?_, fun o => ?_⟩⟩
  · rw [mgmtOutcome_live rfl hst, applyOutcome, fetchOutcome]
    cases hf : s.fetchRec a with
    | none => rfl
    | some f => exact if_pos (hno f hf)
  · rw [mgmtOutcome_live rfl hst]
    rfl
  · rw [mgmtOutcome_live rfl hst]
    exact leaveSweep_eq a s

end Sys2Proof.Machine
end

section
/-! PROOFS. The outcome of a request: its report and its owner, and what the close of the event leaves of the entries; the attempts that
fail (O54). -/

namespace Sys2Proof.Machine

/-! ### What an event's close leaves of the module table -/

/-- What follow-up work and the closes of events may change of an entry: its attention, and the marks of its due work. -/
def EntriesKept (s t : State) : Prop := ∀ a, t.entry a = { s.entry a with
  attention := (t.entry a).attention, pingDue := (t.entry a).pingDue, releaseDue := (t.entry a).releaseDue }

theorem EntriesKept.trans {s t u : State} (h : EntriesKept s t) (k : EntriesKept t u) : EntriesKept s u := fun a => by
  have hs := h a
  have ht := k a
  generalize u.entry a = z at ht ⊢
  generalize t.entry a = y at hs ht
  calc z = { y with attention := z.attention, pingDue := z.pingDue, releaseDue := z.releaseDue } := ht
    _ = { s.entry a with attention := z.attention, pingDue := z.pingDue, releaseDue := z.releaseDue } := by rw [hs]

theorem EntriesKept.of_modules {s t : State} (h : t.modules = s.modules) : EntriesKept s t := fun a => by
  rw [entry_of_modules s t h a]

theorem WakeKeeps.entriesKept {s t : State} (h : WakeKeeps s t) : EntriesKept s t := fun a => by
  have he := h.entry a
  generalize t.entry a = y at he ⊢
  rw [he]

theorem ClosesAs.entriesKept {s t : State} (h : ClosesAs s t) : EntriesKept s t := by
  obtain ⟨v, hv, ht⟩ := h
  have hmodules : EntriesKept s v := .of_modules (by rw [hv]; split <;> rfl)
  split at ht
  · exact hmodules.trans ((wakeKeeps_wakeLink _ v).entriesKept.trans ht.entry_keeps)
  · exact ht ▸ hmodules

/-- The close of an event leaves the entries but for their attention and their due work. -/
theorem entriesKept_settle (s : State) : EntriesKept s (settle s) := by
  obtain ⟨u, hw, hc⟩ := followUpOfHeads_settle s
  have hwork : EntriesKept s u := hw.entry_keeps
  exact hwork.trans ((EntriesKept.of_modules (headsKeep_headChecks u).modules).trans hc.entriesKept)

/-! ### A valid response noted (R20, R48, R142) -/

theorem noteResponse_eq (p : Response) (s : State) : noteResponse p s = responseNoted p s := by
  unfold noteResponse responseNoted
  cases modAddr? p.source with
  | none => rfl
  | some a =>
    dsimp only
    unfold takeFlag
    rw [entry_cases (s := s) (a := a) rfl a, if_pos rfl]
    dsimp only
    by_cases h : p.attention = true ∧ (s.entry a).hasAttention = true ∧ (s.entry a).attention = .none
    · rw [if_pos h, if_pos h, setEntry_again]; rfl
    · rw [if_neg h, if_neg h]; rfl

theorem responseNoted_time {p : Response} {a : ModAddr} (h : modAddr? p.source = some a) (s : State) :
    ((responseNoted p s).entry a).lastResponse = some s.now := by
  unfold responseNoted
  rw [h, State.entry]
  simp

/-! ### The failure-run report (R20, R39 to R42) -/

/-- A report for the incarnation it was made for, unless it is that of a FORGET's RELEASE. -/
theorem failureReport_taken {src : Source} {s : State} {a : ModAddr} (h : reportFor src = some (a, (s.entry a).generation))
    (hno : ∀ g, src = .management (.release a g) → (s.entry a).releaseFor ≠ some .forget) (o : LinkOutcome) :
    failureReport src o s = takeReport a o s := by
  have hrelease : forgetRelease a src.mgmt? s = false := by
    unfold forgetRelease
    split
    · next b g hm =>
      have hsrc : src = .management (.release b g) := by
        cases src with
        | broadcast => cases hm
        | management m => exact congrArg Source.management (Option.some.inj hm)
        | host e d => cases hm
      rw [hsrc] at h
      have hb : b = a := congrArg Prod.fst (Option.some.inj h)
      exact decide_eq_false (hno g (hb ▸ hsrc))
    · rfl
  unfold failureReport
  rw [h]
  dsimp only
  by_cases hst : (s.entry a).state = .empty
  · rw [if_neg fun k => k.2.1 hst, takeReport, hst]
  · rw [if_pos ⟨rfl, hst, hrelease⟩]

theorem setEntry_vset (s : State) (a : ModAddr) (e : Entry) : s.setEntry a e = { s with modules := vset s.modules a e } := rfl

/-- The leave of an entry does not read its counts. -/
theorem entryLeft_setEntry {s : State} {a : ModAddr} {e : Entry} (hg : e.generation = (s.entry a).generation)
    (hs : e.seq = (s.entry a).seq) (ha : e.attention = (s.entry a).attention) (p : Posted) (r : Result) :
    entryLeft a p r (s.setEntry a e) = entryLeft a p r s := by
  have he : (s.setEntry a e).entry a = e := (entry_cases rfl a).trans (if_pos rfl)
  have hfetch : (s.setEntry a e).fetchRec a = s.fetchRec a := rfl
  have hdisc : discoveryEnded true (s.setEntry a e) = discoveryEnded true s := rfl
  simp only [entryLeft, he, hg, hs, ha, hfetch, hdisc]
  simp only [State.setEntry, vset_vset]
  rfl

theorem dropLinesOf_eq (a : ModAddr) (s : State) : dropLinesOf a s = { s with
    cache := { lines := vmap (fun l => l.filter fun l => l.addr ≠ a) s.cache.lines
               useOrder := s.cache.useOrder.filter fun i => (vget s.cache.lines i).any fun l => l.addr ≠ a } } := by
  unfold dropLinesOf
  rw [drop_address]

/-- A report taken, by the entry's state (R39 to R42). -/
theorem takeReport_online {s : State} {a : ModAddr} (h : (s.entry a).state = .online) (o : LinkOutcome) :
    takeReport a o s =
      if o = .noResponse then silentOnline a s else s.setEntry a { s.entry a with failureRun := 0, pollTimer := some 0 } := by
  rw [takeReport, h]

theorem takeReport_quarantined {s : State} {a : ModAddr} (h : (s.entry a).state = .quarantined) (o : LinkOutcome) :
    takeReport a o s = if o = .noResponse then silentQuarantined a s else answeredQuarantined a s := by
  rw [takeReport, h]

theorem reportTaken {s : State} {a : ModAddr} {src : Source} (h : reportFor src = some (a, (s.entry a).generation))
    (hno : ∀ g, src = .management (.release a g) → (s.entry a).releaseFor ≠ some .forget) : ReportTaken s a src where
  answered o ho hst := by rw [failureReport_taken h hno, takeReport_online hst, if_neg ho]; rfl
  silent hst hrun := by
    rw [failureReport_taken h hno, takeReport_online hst, if_pos rfl, silentOnline]
    exact if_neg (by omega)
  quarantined hst hrun := by
    rw [failureReport_taken h hno, takeReport_online hst, if_pos rfl, silentOnline]
    dsimp only
    rw [if_pos hrun, dropLinesOf_eq]
    rfl
  quarAnswered o ho hst := by
    rw [failureReport_taken h hno, takeReport_quarantined hst, if_neg ho, answeredQuarantined]
    dsimp only
    split
    · rfl
    · rfl
  quarSilent hst hrun := by
    rw [failureReport_taken h hno, takeReport_quarantined hst, if_pos rfl, silentQuarantined]
    exact if_neg (by omega)
  departed hst hrun := by
    rw [failureReport_taken h hno, takeReport_quarantined hst, if_pos rfl, silentQuarantined]
    refine (if_pos hrun).trans ?_
    rw [leave_eq, entry_cases (s := s) rfl a, if_pos rfl]
    exact entryLeft_setEntry (by rfl) (by rfl) (by rfl) _ _
  untouched o hst := by
    rw [failureReport_taken h hno, takeReport]
    obtain hst | hst | hst := hst <;> rw [hst]

theorem ownerTakes_host {r : Request} {e : HostEntry} (hsrc : r.source = .host e false) (o : LinkOutcome) (data : List Byte)
    (s : State) : ownerTakes r o data s = deliver e o (dataWord data) s := by
  rw [ownerTakes, hsrc]
  exact if_neg (by simp)

/-- In either order, the outcome of a host request changes the entries and the link by its report alone, made on what the request's
owner leaves of them (R20, R90). -/
theorem outcomeTaken_report {r : Request} {e : HostEntry} (hsrc : r.source = .host e false) (order : PostOrder) (o : LinkOutcome)
    (data : List Byte) (s : State) : ∃ w, w.modules = s.modules ∧ w.timing = s.timing ∧ w.engine = s.engine ∧
      (outcomeTaken order r o data s).modules = (failureReport r.source o w).modules ∧
      (outcomeTaken order r o data s).engine = (failureReport r.source o w).engine := by
  unfold outcomeTaken
  cases order with
  | ownerFirst =>
    have hkeep := headsKeep_deliver e o (dataWord data) s
    have hstill := still_deliver e o (dataWord data) s
    exact ⟨_, (ownerTakes_host hsrc o data s ▸ hkeep.modules), (ownerTakes_host hsrc o data s ▸ hstill.timing),
      (ownerTakes_host hsrc o data s ▸ hstill.engine), rfl, rfl⟩
  | managerFirst =>
    dsimp only
    rw [ownerTakes_host hsrc]
    exact ⟨s, rfl, rfl, rfl, (headsKeep_deliver e o _ _).modules, (still_deliver e o _ _).engine⟩

/-- The timeout of a host request to an ONLINE module, its last attempt (R40). -/
theorem timedOut_online {r : Request} {e : HostEntry} (hsrc : r.source = .host e false) (order : PostOrder) {s : State}
    (hst : (s.entry e.addr).state = .online) (hgen : (s.entry e.addr).generation = e.gen) :
    (outcomeTaken order r .noResponse [] s).engine = s.engine ∧
    ((s.entry e.addr).failureRun + 1 < s.timing.quarThreshold →
      ((outcomeTaken order r .noResponse [] s).entry e.addr).state = .online ∧
      ((outcomeTaken order r .noResponse [] s).entry e.addr).failureRun = (s.entry e.addr).failureRun + 1) ∧
    (s.timing.quarThreshold ≤ (s.entry e.addr).failureRun + 1 →
      ((outcomeTaken order r .noResponse [] s).entry e.addr).state = .quarantined ∧
      ((outcomeTaken order r .noResponse [] s).entry e.addr).departCount = 0) := by
  obtain ⟨w, hmodules, htiming, hengine, hx, hxe⟩ := outcomeTaken_report hsrc order .noResponse [] s
  generalize outcomeTaken order r .noResponse [] s = x at hx hxe
  have hentry : w.entry e.addr = s.entry e.addr := entry_of_modules s w hmodules e.addr
  have hreport : ReportTaken w e.addr r.source :=
    reportTaken (by rw [hsrc, hentry, hgen]; rfl) (fun g h => by rw [hsrc] at h; cases h)
  have hxentry : x.entry e.addr = (failureReport r.source .noResponse w).entry e.addr := entry_of_modules _ x hx e.addr
  rw [hxe, hxentry, ← htiming, ← hengine, ← hentry]
  rw [← hentry] at hst
  obtain hlow | hhigh := Nat.lt_or_ge ((w.entry e.addr).failureRun + 1) w.timing.quarThreshold
  · have hz := hreport.silent hst hlow
    generalize failureReport r.source .noResponse w = z at hz
    have he : z.entry e.addr = { w.entry e.addr with failureRun := (w.entry e.addr).failureRun + 1, pollTimer := some 0 } := by
      rw [hz]; exact vget_vset_same _ _ _
    rw [he]
    exact ⟨by rw [hz], fun _ => ⟨hst, rfl⟩, fun h => absurd hlow (by omega)⟩
  · have hz := hreport.quarantined hst hhigh
    generalize failureReport r.source .noResponse w = z at hz
    have he : z.entry e.addr = { w.entry e.addr with
        state := .quarantined, failureRun := w.timing.quarThreshold, departCount := 0, responding := false, pollTimer := some 0 } := by
      rw [hz]; exact vget_vset_same _ _ _
    rw [he]
    exact ⟨by rw [hz], fun h => absurd h (by omega), fun _ => ⟨rfl, rfl⟩⟩

/-! ### An attempt ends (R14 to R18) -/

theorem exec_responseReceived {s : State} {r : Request} (frame : List Byte) (order : PostOrder) (hhold : s.pins.hold = false)
    (hl : s.engine.link = .carrying r) (ha : r.attempt = .receiving ∨ ∃ n, r.attempt = .awaiting n) :
    exec (.responseReceived frame order) s = .next (checkResponse order r frame s) := by
  refine (congrArg Host.Outcome.next (whenLive_live (takeResponse order frame) s hhold)).trans (congrArg Host.Outcome.next ?_)
  rw [takeResponse, hl]
  obtain ha | ⟨n, ha⟩ := ha
  · simp only [ha]
  · simp only [ha]

theorem exec_responseTimeout {s : State} {r : Request} {n : Nat} (order : PostOrder) (hhold : s.pins.hold = false)
    (hl : s.engine.link = .carrying r) (ha : r.attempt = .awaiting n) :
    exec (.responseTimeout order) s =
      .next (attemptFails order r (max n r.params.respTimeout) (advance (r.params.respTimeout - n) s)) := by
  refine (congrArg Host.Outcome.next (whenLive_live (timeoutExpires order) s hhold)).trans (congrArg Host.Outcome.next ?_)
  rw [timeoutExpires, hl]
  simp only [ha]

/-- A response whose frame fails its check, or that is not for the request, fails the attempt (R15, R16). -/
theorem checkResponse_fails {r : Request} {frame : List Byte} (order : PostOrder) (s : State) :
    (parseResponse r.payload.op r.payload.length frame = none →
      checkResponse order r frame s = attemptFails order { r with garbled := true } 0 s) ∧
    ∀ p, parseResponse r.payload.op r.payload.length frame = some p →
      (p.source ≠ r.expectedSource ∨ p.echo ≠ r.seq → checkResponse order r frame s = attemptFails order r 0 s) ∧
      (p.source = r.expectedSource → p.echo = r.seq → checkResponse order r frame s = validResponse order r p s) := by
  unfold checkResponse
  refine ⟨fun h => by rw [h], fun p h => ⟨fun hno => ?_, fun hs he => ?_⟩⟩
  · rw [h]
    exact if_neg fun k => hno.elim (fun hs => hs k.1) fun he => he k.2
  · rw [h]
    exact if_pos ⟨hs, he⟩

/-- A failed attempt is counted and waits for the idle line, while the retry limit allows (R16). -/
theorem attemptFails_again {r : Request} (order : PostOrder) (idle : Nat) (s : State) (h : r.retransUsed < r.params.retryLimit) :
    attemptFails order r idle s = { s with engine := { s.engine with
      link := .carrying { r with retransUsed := r.retransUsed + 1, attempt := .gap idle } } } := if_pos h

/-- The end of a request, but for an ASSIGN that ended OK (R13, R18, R90). -/
theorem endRequest_eq {r : Request} {o : LinkOutcome} (h : ∀ a g guard, r.source = .management (.assign a g guard) → o ≠ .ok)
    (order : PostOrder) (data : List Byte) (s : State) : endRequest order r o data s =
      settle (outcomeTaken order r o data { s with engine := { s.engine with link := .free } }) := by
  have hseq : ∀ t, seqFromAssign r o t = t := fun t => by
    unfold seqFromAssign
    split
    · next a g guard hsrc => exact if_neg (h a g guard hsrc)
    · rfl
  unfold endRequest
  rw [hseq]
  rfl

/-- A request whose last attempt failed ends NO_RESPONSE (R16, R18). -/
theorem attemptFails_last {r : Request} (order : PostOrder) (idle : Nat) (s : State) (h : r.params.retryLimit ≤ r.retransUsed) :
    attemptFails order r idle s =
      settle (outcomeTaken order r .noResponse [] { s with engine := { s.engine with link := .free } }) := by
  rw [attemptFails, if_neg (by omega), endRequest_eq (by simp)]

/-- Settles O54: the attempt that fails, again or for the last time, and the report that it makes. -/
theorem failedAttemptsAreRepeated : Obligations.FailedAttemptsAreRepeated := by
  refine ⟨?_, fun s src => ⟨fun a h hno => reportTaken h hno, fun a g o hsrc hfor => ?_, fun a g o h hg => ?_, fun o h => ?_,
    fun e d hsrc => ?_, fun m a g hsrc hm hno => ?_, fun h => ?_⟩⟩
  on_goal 1 =>
    intro s r frame order hhold hl again
    refine ⟨fun ha hretry hparse => ?_, fun p ha hretry hparse hno => ?_, fun p u ha hparse hs he hbusy hleft hu => ?_,
      fun n ha hretry => ?_, fun n ha hlast => ?_, fun ha hlast hparse => ?_, fun p ha hlast hparse hno => ?_,
      fun n e ha hlast hsrc hst hgen => ?_⟩
  · rw [exec_responseReceived frame order hhold hl (.inl ha), (checkResponse_fails order s).1 hparse,
      attemptFails_again (r := { r with garbled := true }) order 0 s hretry]
  · rw [exec_responseReceived frame order hhold hl (.inl ha), ((checkResponse_fails order s).2 p hparse).1 hno,
      attemptFails_again order 0 s hretry]
  · have hvalid : validResponse order r p s = settle u := by
      rw [validResponse, noteResponse_eq, if_pos ⟨hbusy, hleft⟩, hu]
      rfl
    refine ⟨settle u, ?_, rfl, (still_settle u).engine, followUp_settle u, fun a ha' => ?_⟩
    · rw [exec_responseReceived frame order hhold hl (.inl ha), ((checkResponse_fails order s).2 p hparse).2 hs he, hvalid]
    · rw [entriesKept_settle u a, hu]
      exact responseNoted_time ha' s
  · exact ⟨_, onlyTimePasses_advance _ s, by rw [exec_responseTimeout order hhold hl ha, attemptFails_again order _ _ hretry]; rfl⟩
  · exact ⟨_, _, onlyTimePasses_advance _ s, rfl,
      by rw [exec_responseTimeout order hhold hl ha, attemptFails_last order _ _ hlast]; rfl⟩
  · rw [exec_responseReceived frame order hhold hl (.inl ha), (checkResponse_fails order s).1 hparse,
      attemptFails_last (r := { r with garbled := true }) order 0 s hlast]
  · rw [exec_responseReceived frame order hhold hl (.inl ha), ((checkResponse_fails order s).2 p hparse).1 hno,
      attemptFails_last order 0 s hlast]
  · have hend := attemptFails_last (r := r) order (max n r.params.respTimeout) (advance (r.params.respTimeout - n) s) (by omega)
    have hexec := exec_responseTimeout order hhold hl ha
    rw [hend] at hexec
    obtain ⟨z, hz⟩ : ∃ z : State, z = { advance (r.params.respTimeout - n) s with
        engine := { (advance (r.params.respTimeout - n) s).engine with link := .free } } := ⟨_, rfl⟩
    rw [← hz] at hexec
    have hentry : z.entry e.addr = (advance (r.params.respTimeout - n) s).entry e.addr :=
      entry_of_modules _ z (by rw [hz]) e.addr
    rw [advance_entry] at hentry
    obtain ⟨hengine, hlow, hhigh⟩ := timedOut_online hsrc order (s := z) (by rw [hentry]; exact hst) (by rw [hentry]; exact hgen)
    have hrun : (z.entry e.addr).failureRun = (s.entry e.addr).failureRun := by rw [hentry]
    have htiming : z.timing = s.timing := by rw [hz]; rfl
    rw [hrun, htiming] at hlow hhigh
    have hkept := entriesKept_settle (outcomeTaken order r .noResponse [] z) e.addr
    have hstill := still_settle (outcomeTaken order r .noResponse [] z)
    refine ⟨_, hexec, (hstill.engine.trans hengine).trans (by rw [hz]; rfl), fun h => ?_, fun h => ?_⟩
    · rw [hkept]; exact hlow h
    · rw [hkept]; exact hhigh h
  · subst hsrc
    rw [failureReport]
    refine if_neg fun k => ?_
    have hfor' : forgetRelease a (Source.management (.release a g)).mgmt? s = true := decide_eq_true hfor
    rw [hfor'] at k
    cases k.2.2
  · rw [failureReport, h]
    exact if_neg fun k => hg k.1.symm
  · rw [failureReport, h]
  · rw [hsrc]; rfl
  · rw [hsrc]
    cases m with
    | joinQuery => cases hm
    | assign b h w => exact absurd (by simp only [MgmtEntry.concerns, Option.some.injEq, Prod.mk.injEq] at hm; rw [hm.1, hm.2]) (hno w)
    | descRead b h w => exact hm
    | ping b h => exact hm
    | attnFetch b h => exact hm
    | attnClear b h w => exact hm
    | release b h => exact hm
  · obtain rfl | rfl | ⟨a, g, guard, rfl⟩ := h
    · rfl
    · rfl
    · rfl

end Sys2Proof.Machine
end

section
/-! PROOFS. What a delivered outcome, a fill and the head checks do (for O53). -/

namespace Sys2Proof.Machine

/-! ### A fill (R112, R115) -/

/-- What a fill of `l` leaves of a line: the line, unless it overlaps the fill. -/
def Cache.keptBy (c : Cache) (l : Line) (j : Fin 32) : Option Line :=
  (vget c.lines j).filter fun m => !(m.addr = l.addr && bytesOverlap m.offset m.width l.offset l.width)

/-- The first element that a search of an ascending list finds is the lowest. -/
theorem find?_least {n : Nat} {l : List (Fin n)} (hl : l.Pairwise (· < ·)) {p : Fin n → Bool} {i : Fin n} (h : l.find? p = some i) :
    p i = true ∧ ∀ j ∈ l, j < i → p j = false := by
  obtain ⟨hp, as, bs, rfl, hno⟩ := List.find?_eq_some_iff_append.mp h
  refine ⟨hp, fun j hj hlt => ?_⟩
  obtain hj | hj := List.mem_append.mp hj
  · simpa using hno j hj
  · obtain ⟨-, htail, -⟩ := List.pairwise_append.mp hl
    obtain rfl | hj := List.mem_cons.mp hj
    · exact absurd hlt (lt_irrefl _)
    · exact absurd hlt (not_lt_of_gt ((List.pairwise_cons.mp htail).1 j hj))

theorem allLines_ascending : allLines.Pairwise (· < ·) := by decide

theorem fill_eq (c : Cache) (l : Line) : ∃ c1 : Cache, (∀ j, vget c1.lines j = c.keptBy l j) ∧
    c1.useOrder = (c.useOrder.filter fun j => (c.keptBy l j).isSome) ∧
    c.fill l = ({ c1 with lines := vset c1.lines c1.victim (some l) }).touch c1.victim := by
  refine ⟨c.drop fun m => m.addr = l.addr ∧ bytesOverlap m.offset m.width l.offset l.width, fun j => ?_, ?_, rfl⟩
  · unfold Cache.drop Cache.keptBy
    rw [vget_vmap]
    simp
  · unfold Cache.drop Cache.keptBy
    refine List.filter_congr fun j _ => ?_
    cases vget c.lines j with
    | none => rfl
    | some m => simp [Option.filter]; split <;> simp_all

theorem filled (c : Cache) (l : Line) : Filled c l := by
  obtain ⟨c1, hlines, huse, hfill⟩ := fill_eq c l
  refine ⟨c1.victim, ?_, fun j hj => ?_, fun ⟨j, hj⟩ => ?_, fun hall k rest hk => ?_, ?_⟩
  · rw [hfill]
    exact vget_vset_same _ _ _
  · rw [hfill]
    exact (vget_vset_ne _ _ _ _ (Ne.symm hj)).trans (hlines j)
  · have hfound : ∃ i, allLines.find? (fun i => (vget c1.lines i).isNone) = some i := by
      refine Option.isSome_iff_exists.mp (List.find?_isSome.mpr ⟨j, mem_allLines j, ?_⟩)
      rw [hlines j]
      exact Option.isNone_iff_eq_none.mpr hj
    obtain ⟨i, hi⟩ := hfound
    obtain ⟨hfree, hlow⟩ := find?_least allLines_ascending hi
    have hvictim : c1.victim = i := by rw [Cache.victim, hi]
    rw [hvictim]
    refine ⟨(hlines i).symm.trans (Option.isNone_iff_eq_none.mp hfree), fun j hj hnone => ?_⟩
    have := hlow j (mem_allLines j) hj
    rw [hlines j] at this
    exact absurd (Option.isNone_iff_eq_none.mpr hnone) (Bool.eq_false_iff.mp this)
  · have hnone : allLines.find? (fun i => (vget c1.lines i).isNone) = none := by
      refine List.find?_eq_none.mpr fun i _ h => ?_
      rw [hlines i] at h
      exact hall i (Option.isNone_iff_eq_none.mp h)
    have hkeep : c1.useOrder = c.useOrder := by
      rw [huse]
      exact List.filter_eq_self.mpr fun i _ => Option.isSome_iff_ne_none.mpr (hall i)
    rw [Cache.victim, hnone, hkeep, hk]
    rfl
  · rw [hfill]
    show c1.useOrder.filter (· ≠ c1.victim) ++ [c1.victim] = _
    rw [huse, List.filter_filter]
    congr 1
    exact List.filter_congr fun j _ => by rw [Bool.and_comm]; rfl

/-! ### An outcome delivered by origin (R90, R91, R93, R103 to R105, R114, R126) -/

theorem offerFill_eq (l : Line) (s : State) : offerFill l s =
    if (s.entry l.addr).state = .online ∧ (s.entry l.addr).generation = l.gen then { s with cache := s.cache.fill l } else s := rfl

/-- The outcome of a read, delivered to its PENDING slot. -/
theorem completeSlot_pending {i : Fin 4} {x : SlotInfo} {s : State} (hx : vget s.slots i = .pending x) (e : HostEntry)
    (o : LinkOutcome) (data : Option Word) : completeSlot i e o data s =
      if o = .ok ∧ e.cacheable = true ∧ x.noFill = false then
        offerFill ⟨e.addr, e.gen, e.offset, e.width, (if o = .ok then some (data.getD 0 &&& x.width.mask) else none).getD 0⟩
          (if s.port.held.any (fun h => h.what = .slot i) = true then
            collect i x o (if o = .ok then some (data.getD 0 &&& x.width.mask) else none) { s with port := { s.port with held := none } }
          else s.setSlot i (.complete x o (if o = .ok then some (data.getD 0 &&& x.width.mask) else none) 0))
      else
        if s.port.held.any (fun h => h.what = .slot i) = true then
          collect i x o (if o = .ok then some (data.getD 0 &&& x.width.mask) else none) { s with port := { s.port with held := none } }
        else s.setSlot i (.complete x o (if o = .ok then some (data.getD 0 &&& x.width.mask) else none) 0) := by
  unfold completeSlot
  rw [hx]

theorem collect_eq (i : Fin 4) (x : SlotInfo) (o : LinkOutcome) (v : Option Word) (s : State) : collect i x o v s = { s with
    slots := vset s.slots i .free
    port := { s.port with
      answer := if o = .ok then some ⟨.ok, some (toLanes (x.hostAddr.toNat % 4) x.width (v.getD 0))⟩
                else some ⟨.error, some 0xFFFFFFFF#32⟩
      readFault := if o = .ok then s.port.readFault
                   else ⟨some o, x.hostAddr, BitVec.ofNat 3 x.width.bytes, BitVec.ofNat 2 i.val⟩ } } := by
  unfold collect slotAnswer
  by_cases ho : o = .ok
  · simp only [ho, if_true]; rfl
  · simp only [ho, if_false]; rfl

theorem delivered (s : State) (e : HostEntry) (o : LinkOutcome) (data : Option Word) : Delivered s e o data where
  write h := by
    unfold deliver
    rw [h]
    rfl
  read i x v u horigin hslot hx hv hu := by
    unfold deliver
    rw [horigin, hslot]
    dsimp only
    rw [completeSlot_pending hx, ← hv]
    have hmade : (if s.port.held.any (fun h => h.what = .slot i) = true then
        collect i x o v { s with port := { s.port with held := none } } else s.setSlot i (.complete x o v 0)) = u := by
      rw [hu]
      split
      · exact collect_eq i x o v _
      · rfl
    rw [hmade, offerFill_eq]
    have hentry : u.entry e.addr = s.entry e.addr := by rw [hu]; split <;> rfl
    have hcache : u.cache = s.cache := by rw [hu]; split <;> rfl
    dsimp only
    rw [hentry, hcache]
    by_cases hfill : o = .ok ∧ e.cacheable = true ∧ x.noFill = false
    · by_cases hlive : (s.entry e.addr).state = .online ∧ (s.entry e.addr).generation = e.gen
      · rw [if_pos hfill, if_pos hlive, if_pos ⟨hfill.1, hfill.2.1, hfill.2.2, hlive⟩]
      · rw [if_pos hfill, if_neg hlive, if_neg fun k => hlive ⟨k.2.2.2.1, k.2.2.2.2⟩]
    · rw [if_neg hfill, if_neg fun k => hfill ⟨k.1, k.2.1, k.2.2.1⟩]
  mailbox v horigin hv := by
    unfold deliver
    rw [horigin]
    show endLinkCommand e o data s = _
    unfold endLinkCommand
    by_cases ho : o = .ok
    · rw [if_pos ho, if_pos ho]
      by_cases hw : e.op = .write
      · rw [if_pos hw, if_pos hw, if_pos hw]; rfl
      · rw [if_neg hw, if_neg hw, if_neg hw, hv]; rfl
    · rw [if_neg ho, if_neg ho]; rfl

/-! ### The head checks (R85 to R88) -/

theorem headsChecked (s : State) : HeadsChecked s where
  onLink h := if_pos h
  empty h := by
    unfold headChecks
    rw [h]
    split
    · rfl
    · rfl
  passes e rest hq hc := by
    unfold headChecks
    split
    · rfl
    · rw [hq, List.length_cons, failHeads, hq]
      simp only [hc]
  fails e rest o hl hq ho := by
    obtain ⟨hqueue, hengine⟩ := deliver_queue e o none { s with hostQueue := rest }
    have hoff : (deliver e o none { s with hostQueue := rest }).hostOnLink = false := (hostOnLink_congr hengine).trans hl
    unfold headChecks
    rw [if_neg (by simp [hl]), if_neg (by simp [hoff]), hqueue, hq, List.length_cons, failHeads, hq]
    simp only [ho]
  check e := by
    unfold headCheck
    dsimp only
    have hstale : ((s.entry e.addr).generation ≠ e.gen ∨ (s.entry e.addr).state = .empty ∨ (s.entry e.addr).state = .joining ∨
        (s.entry e.addr).state = .describing) ↔ ((s.entry e.addr).generation ≠ e.gen ∨
          ¬((s.entry e.addr).state = .online ∨ (s.entry e.addr).state = .quarantined)) := by
      cases (s.entry e.addr).state <;> simp
    simp only [hstale]

end Sys2Proof.Machine
end

section
/-! PROOFS. The final response of a request (O53). -/

namespace Sys2Proof.Machine

/-! ### What the heads that fail leave alone (R85, R86) -/

/-- What holds before the head checks, and behind each head that fails, holds behind them. -/
theorem headChecks_keeps {P : State → Prop} (hstep : ∀ s e rest o, P s → s.hostQueue = e :: rest → headCheck e s = some o →
    P (deliver e o none { s with hostQueue := rest })) {s : State} (hs : P s) : P (headChecks s) := by
  have hheads : ∀ (n : Nat) (s : State), P s → P (failHeads n s) := by
    intro n
    induction n with
    | zero => exact fun _ h => h
    | succ n ih =>
      intro s h
      unfold failHeads
      split
      · exact h
      · next e rest hq =>
        split
        · exact h
        · next o ho => exact ih _ (hstep s e rest o h hq ho)
  unfold headChecks
  split
  · exact hs
  · exact hheads _ _ hs

/-- What the follow-up work and the close leave alone, an event leaves so if the heads that fail do. -/
theorem settle_keeps (s : State) : ∃ u, u.hostQueue = s.hostQueue ∧ u.slots = s.slots ∧ u.port = s.port ∧
    u.cache = s.cache ∧ u.mbx = s.mbx ∧
    (settle s).slots = (headChecks u).slots ∧ (settle s).port = (headChecks u).port ∧ (settle s).cache = (headChecks u).cache ∧
    (settle s).mbx = (headChecks u).mbx := by
  obtain ⟨u, hw, hc⟩ := followUpOfHeads_settle s
  obtain ⟨-, -, -, hport, -, -, hqueue, hslots, hcache, hmbx, -⟩ := hw.fields
  obtain ⟨-, -, -, kport, -, -, -, kslots, kcache, kmbx, -⟩ := hc.fields
  exact ⟨u, hqueue, hslots, hport, hcache, hmbx, kslots, kport, kcache, kmbx⟩

theorem completeSlot_failed_slots {o : LinkOutcome} (ho : o ≠ .ok) {i : Fin 4} (j : Fin 4) (e : HostEntry) {s : State}
    (hi : (vget s.slots i).isPending = false) :
    vget (completeSlot j e o none s).slots i = vget s.slots i ∧ (completeSlot j e o none s).cache = s.cache := by
  unfold completeSlot
  cases hj : vget s.slots j with
  | free => exact ⟨rfl, rfl⟩
  | complete x p d n => exact ⟨rfl, rfl⟩
  | pending x =>
    have hne : j ≠ i := fun h => by rw [← h, hj] at hi; cases hi
    simp only [ho, false_and, if_false]
    split
    · rw [collect_eq]
      exact ⟨vget_vset_ne _ _ _ _ hne, rfl⟩
    · exact ⟨vget_vset_ne _ _ _ _ hne, rfl⟩

theorem deliver_failed_slots {e : HostEntry} {o : LinkOutcome} (ho : o ≠ .ok) {i : Fin 4} {s : State}
    (hi : (vget s.slots i).isPending = false) : vget (deliver e o none s).slots i = vget s.slots i := by
  cases horigin : e.origin with
  | windowWrite => rw [deliver_failedWrite horigin ho]
  | mailbox => rw [deliver_failedCommand horigin ho]
  | windowRead =>
    unfold deliver
    rw [horigin]
    dsimp only
    cases e.slot with
    | none => rfl
    | some j => exact (completeSlot_failed_slots ho j e hi).1

theorem deliver_failed_cache {e : HostEntry} {o : LinkOutcome} (ho : o ≠ .ok) (s : State) : (deliver e o none s).cache = s.cache := by
  cases horigin : e.origin with
  | windowWrite => rw [deliver_failedWrite horigin ho]
  | mailbox => rw [deliver_failedCommand horigin ho]
  | windowRead =>
    unfold deliver
    rw [horigin]
    dsimp only
    cases e.slot with
    | none => rfl
    | some j =>
      unfold completeSlot
      dsimp only
      cases vget s.slots j with
      | free => rfl
      | complete x p d n => rfl
      | pending x =>
        simp only [ho, false_and, if_false]
        split
        · rw [collect_eq]
        · rfl

/-- A slot that is not PENDING is no head's (R104). -/
theorem settle_slot {s : State} {i : Fin 4} (hi : (vget s.slots i).isPending = false) : vget (settle s).slots i = vget s.slots i := by
  obtain ⟨u, -, hslots, -, -, -, kslots, -⟩ := settle_keeps s
  rw [kslots, ← hslots]
  rw [← hslots] at hi
  refine headChecks_keeps (P := fun t => vget t.slots i = vget u.slots i) (fun t e rest o ht _ ho => ?_) rfl
  exact (deliver_failed_slots (headCheck_ne_ok ho) (s := { t with hostQueue := rest })
    (by rw [show State.slots { t with hostQueue := rest } = t.slots from rfl, ht]; exact hi)).trans ht

/-- With no access held, the close of an event leaves the host port (R103). -/
theorem settle_port {s : State} (h : s.port.held = none) : (settle s).port = s.port := by
  obtain ⟨u, -, -, hport, -, -, -, kport, -⟩ := settle_keeps s
  rw [kport, ← hport]
  rw [← hport] at h
  refine headChecks_keeps (P := fun t => t.port = u.port) (fun t e rest o ht _ ho => ?_) rfl
  exact (deliver_failed_port (headCheck_ne_ok ho) (s := { t with hostQueue := rest }) (ht ▸ h) okWrite).1.trans ht

theorem settle_cache (s : State) : (settle s).cache = s.cache := by
  obtain ⟨u, -, -, -, hcache, -, -, -, kcache, -⟩ := settle_keeps s
  rw [kcache, ← hcache]
  exact headChecks_keeps (P := fun t => t.cache = u.cache)
    (fun t e rest o ht _ ho => (deliver_failed_cache (headCheck_ne_ok ho) _).trans ht) rfl

/-- With no command of the mailbox in the queue, the close of an event leaves the mailbox. -/
theorem settle_mbx {s : State} (h : ∀ e ∈ s.hostQueue, e.origin ≠ .mailbox) : (settle s).mbx = s.mbx := by
  obtain ⟨u, hqueue, -, -, -, hmbx, -, -, -, kmbx⟩ := settle_keeps s
  rw [kmbx, ← hmbx]
  rw [← hqueue] at h
  refine (headChecks_keeps (P := fun t => t.mbx = u.mbx ∧ ∀ e ∈ t.hostQueue, e.origin ≠ .mailbox)
    (fun t e rest o ht hq ho => ?_) ⟨rfl, h⟩).1
  obtain ⟨kqueue, km⟩ := deliver_failed (e := e) (headCheck_ne_ok ho) { t with hostQueue := rest }
  rw [if_neg (ht.2 e (by simp [hq]))] at km
  exact ⟨km.trans ht.1, fun x hx => ht.2 x (by rw [kqueue] at hx; rw [hq]; exact List.mem_cons_of_mem _ hx)⟩

/-! ### The report of an answered host request (R39 to R41) -/

/-- The report of a host request for `e` that was answered: counts and timers of entries, and a record where the module was
QUARANTINED. -/
structure Answered (e : HostEntry) (s t : State) : Prop where
  rest  : t = { s with modules := t.modules, events := t.events }
  entry : ∀ b, t.entry b = { s.entry b with
            failureRun := (t.entry b).failureRun, departCount := (t.entry b).departCount
            responding := (t.entry b).responding, pollTimer := (t.entry b).pollTimer }
  quiet : (s.entry e.addr).state = .online → t.events = s.events

theorem Answered.refl (e : HostEntry) (s : State) : Answered e s s := ⟨rfl, fun _ => rfl, fun _ => rfl⟩

/-- An entry whose counts and timer alone have changed. -/
theorem answered_of_counts {e : HostEntry} {s t : State} {n d : Nat} {r : Bool} {p : Option Nat} {u : EventUnit}
    (ht : t = { s with
      modules := vset s.modules e.addr { s.entry e.addr with failureRun := n, departCount := d, responding := r, pollTimer := p }
      events := u })
    (hquiet : (s.entry e.addr).state = .online → u = s.events) : Answered e s t where
  rest := by rw [ht]
  entry b := by
    have hb : t.entry b = if e.addr = b then
        { s.entry e.addr with failureRun := n, departCount := d, responding := r, pollTimer := p } else s.entry b := by
      rw [ht]; exact vget_vset _ _ _ _
    generalize t.entry b = z at hb ⊢
    rw [hb]
    split
    · next h => rw [← h]
    · rfl
  quiet h := by rw [ht]; exact hquiet h

theorem answered_failureReport {e : HostEntry} {o : LinkOutcome} (ho : o ≠ .noResponse) (s : State) :
    Answered e s (failureReport (.host e false) o s) := by
  by_cases hg : (s.entry e.addr).generation = e.gen
  · have hreport : ReportTaken s e.addr (.host e false) := reportTaken (by rw [hg]; rfl) (fun g h => by cases h)
    have hother : (s.entry e.addr).state = .empty ∨ (s.entry e.addr).state = .joining ∨ (s.entry e.addr).state = .describing →
        Answered e s (failureReport (.host e false) o s) := fun hst => by
      rw [hreport.untouched o hst]
      exact .refl e s
    cases hst : (s.entry e.addr).state with
    | empty => exact hother (.inl hst)
    | joining => exact hother (.inr (.inl hst))
    | describing => exact hother (.inr (.inr hst))
    | online => exact answered_of_counts (hreport.answered o ho hst) fun _ => rfl
    | quarantined => exact answered_of_counts (hreport.quarAnswered o ho hst) fun h => by rw [hst] at h; cases h
  · have hnone : failureReport (.host e false) o s = s := by
      unfold failureReport
      exact if_neg fun k => hg k.1
    rw [hnone]
    exact .refl e s

/-- An ONLINE module that answers has no failure run (R40). -/
theorem failureRun_answered {e : HostEntry} {o : LinkOutcome} (ho : o ≠ .noResponse) {s : State} (hst : (s.entry e.addr).state = .online)
    (hg : (s.entry e.addr).generation = e.gen) : ((failureReport (.host e false) o s).entry e.addr).failureRun = 0 := by
  have hreport : ReportTaken s e.addr (.host e false) := reportTaken (by rw [hg]; rfl) (fun g h => by cases h)
  rw [hreport.answered o ho hst]
  exact congrArg Entry.failureRun (vget_vset_same _ _ _)

/-- In either order, what a host request's owner does is a delivery, made on a state whose ports, slots, lines, mailbox and queue are
as they were, and whose entries have kept their incarnations (R90). -/
theorem outcomeTaken_delivery {r : Request} {e : HostEntry} {o : LinkOutcome} (hsrc : r.source = .host e false) (order : PostOrder)
    (ho : o ≠ .noResponse) (data : List Byte) (s : State) : ∃ w, Answered e s w ∧
      (outcomeTaken order r o data s).slots = (deliver e o (dataWord data) w).slots ∧
      (outcomeTaken order r o data s).port = (deliver e o (dataWord data) w).port ∧
      (outcomeTaken order r o data s).cache = (deliver e o (dataWord data) w).cache ∧
      (outcomeTaken order r o data s).mbx = (deliver e o (dataWord data) w).mbx ∧
      (outcomeTaken order r o data s).hostQueue = s.hostQueue ∧
      ((s.entry e.addr).state = .online → (outcomeTaken order r o data s).events = (deliver e o (dataWord data) w).events) := by
  have hqueue := fun w => (deliver_queue e o (dataWord data) w).1
  unfold outcomeTaken
  rw [hsrc]
  cases order with
  | ownerFirst =>
    dsimp only
    rw [ownerTakes_host hsrc]
    have hw := answered_failureReport (e := e) ho (deliver e o (dataWord data) s)
    have hstate : ((deliver e o (dataWord data) s).entry e.addr).state = (s.entry e.addr).state := by
      rw [entry_of_modules s _ (headsKeep_deliver e o _ s).modules]
    have hrest := hw.rest
    have hquiet := hw.quiet
    generalize failureReport (.host e false) o (deliver e o (dataWord data) s) = y at hrest hquiet
    exact ⟨s, .refl e s, by rw [hrest], by rw [hrest], by rw [hrest], by rw [hrest],
      by rw [hrest]; exact hqueue s, fun h => hquiet (hstate.trans h)⟩
  | managerFirst =>
    dsimp only
    rw [ownerTakes_host hsrc]
    have hw := answered_failureReport (e := e) ho s
    have hrest := hw.rest
    refine ⟨_, hw, rfl, rfl, rfl, rfl, (hqueue _).trans (by rw [hrest]), fun _ => rfl⟩

/-! ### The final response (R15, R18) -/

theorem statusOutcome_ne (st : Status) : statusOutcome st ≠ .noResponse := by cases st <;> simp [statusOutcome]

theorem dataWord_eq (data : List Byte) : dataWord data = if data = [] then none else some (BitVec.ofNat 32 (leNat data)) := by
  cases data with
  | nil => rfl
  | cons b l => rfl

theorem dataWord_getD (data : List Byte) : (dataWord data).getD 0 = BitVec.ofNat 32 (leNat data) := by
  cases data with
  | nil => rfl
  | cons b l => rfl

/-- A response with a final status ends the request (R15, R17, R18). -/
theorem exec_finalResponse {s : State} {r : Request} {frame : List Byte} {p : Response} (order : PostOrder)
    (hhold : s.pins.hold = false) (hl : s.engine.link = .carrying r) (ha : r.attempt = .receiving ∨ ∃ n, r.attempt = .awaiting n)
    (hparse : parseResponse r.payload.op r.payload.length frame = some p) (hs : p.source = r.expectedSource) (he : p.echo = r.seq)
    (hfinal : p.status ≠ .busy ∨ r.params.busyLimit ≤ r.busyUsed) :
    exec (.responseReceived frame order) s = .next (endRequest order r (statusOutcome p.status) p.data (responseNoted p s)) := by
  rw [exec_responseReceived frame order hhold hl ha, ((checkResponse_fails order s).2 p hparse).2 hs he, validResponse, noteResponse_eq]
  refine congrArg Host.Outcome.next (if_neg fun k => hfinal.elim (fun h => h k.1) fun h => ?_)
  have := k.2
  omega

/-- What a host request that ends leaves before the event closes. -/
structure HostEnded (e : HostEntry) (o : LinkOutcome) (data : List Byte) (u y : State) : Prop where
  delivery : ∃ w, Answered e u w ∧ y.slots = (deliver e o (dataWord data) w).slots ∧ y.port = (deliver e o (dataWord data) w).port ∧
    y.cache = (deliver e o (dataWord data) w).cache ∧ y.mbx = (deliver e o (dataWord data) w).mbx ∧
    ((u.entry e.addr).state = .online → y.events = (deliver e o (dataWord data) w).events)
  queue    : y.hostQueue = u.hostQueue
  power    : y.power = u.power
  still    : y.engine = u.engine ∧ y.windows = u.windows ∧ y.bindings = u.bindings ∧ y.timing = u.timing ∧ y.autoload = u.autoload
  time     : (y.entry e.addr).lastResponse = (u.entry e.addr).lastResponse
  run      : (u.entry e.addr).state = .online → (u.entry e.addr).generation = e.gen → (y.entry e.addr).failureRun = 0

theorem hostEnded {r : Request} {e : HostEntry} {o : LinkOutcome} (hsrc : r.source = .host e false) (order : PostOrder)
    (ho : o ≠ .noResponse) (data : List Byte) (u : State) : HostEnded e o data u (outcomeTaken order r o data u) := by
  obtain ⟨w, hw, h1, h2, h3, h4, h5, h6⟩ := outcomeTaken_delivery hsrc order ho data u
  obtain ⟨v, vmodules, -, -, hmodules, -⟩ := outcomeTaken_report hsrc order o data u
  have hkept : (outcomeTaken order r o data u).power = u.power ∧ (outcomeTaken order r o data u).engine = u.engine ∧
      (outcomeTaken order r o data u).windows = u.windows ∧ (outcomeTaken order r o data u).bindings = u.bindings ∧
      (outcomeTaken order r o data u).timing = u.timing ∧ (outcomeTaken order r o data u).autoload = u.autoload := by
    unfold outcomeTaken
    rw [hsrc]
    cases order with
    | ownerFirst =>
      dsimp only
      rw [ownerTakes_host hsrc, (answered_failureReport (e := e) ho _).rest]
      have hs := still_deliver e o (dataWord data) u
      exact ⟨(headsKeep_deliver e o _ u).power, hs.engine, hs.windows, hs.bindings, hs.timing, hs.autoload⟩
    | managerFirst =>
      dsimp only
      rw [ownerTakes_host hsrc]
      have hrest := (answered_failureReport (e := e) ho u).rest
      generalize failureReport (.host e false) o u = z at hrest
      have hs := still_deliver e o (dataWord data) z
      have hp := (headsKeep_deliver e o (dataWord data) z).power
      refine ⟨hp.trans ?_, hs.engine.trans ?_, hs.windows.trans ?_, hs.bindings.trans ?_, hs.timing.trans ?_, hs.autoload.trans ?_⟩
      all_goals rw [hrest]
  generalize outcomeTaken order r o data u = y at h1 h2 h3 h4 h5 h6 hmodules hkept
  have hventry : v.entry e.addr = u.entry e.addr := entry_of_modules u v vmodules e.addr
  rw [hsrc] at hmodules
  have hentry : y.entry e.addr = (failureReport (.host e false) o v).entry e.addr := entry_of_modules _ y hmodules e.addr
  refine ⟨⟨w, hw, h1, h2, h3, h4, h6⟩, h5, hkept.1, hkept.2, ?_, fun hst hg => ?_⟩
  · rw [hentry, (answered_failureReport (e := e) ho v).entry, hventry]
  · rw [hentry]
    exact failureRun_answered ho (hventry ▸ hst) (hventry ▸ hg)

/-- The value that a read's response gives a slot. -/
def readValue (o : LinkOutcome) (data : List Byte) (x : SlotInfo) : Option Word :=
  if o = .ok then some (BitVec.ofNat 32 (leNat data) &&& x.width.mask) else none

/-- The host port as a held read is answered (R103, R105). -/
def answeredPort (i : Fin 4) (x : SlotInfo) (o : LinkOutcome) (v : Option Word) (p : HostPort) : HostPort :=
  { p with
    held := none
    answer := if o = .ok then some ⟨.ok, some (toLanes (x.hostAddr.toNat % 4) x.width (v.getD 0))⟩
              else some ⟨.error, some 0xFFFFFFFF#32⟩
    readFault := if o = .ok then p.readFault
                 else ⟨some o, x.hostAddr, BitVec.ofNat 3 x.width.bytes, BitVec.ofNat 2 i.val⟩ }

/-- A read's outcome delivered to its slot, by what it changes (R103, R104, R114). -/
theorem deliver_read {e : HostEntry} {i : Fin 4} {x : SlotInfo} {s : State} (horigin : e.origin = .windowRead) (hslot : e.slot = some i)
    (hx : vget s.slots i = .pending x) (o : LinkOutcome) (data : List Byte) :
    (s.port.held.any (fun h => h.what = .slot i) = true → (deliver e o (dataWord data) s).slots = vset s.slots i .free ∧
      (deliver e o (dataWord data) s).port = answeredPort i x o (readValue o data x) s.port) ∧
    (s.port.held.any (fun h => h.what = .slot i) = false →
      (deliver e o (dataWord data) s).slots = vset s.slots i (.complete x o (readValue o data x) 0) ∧
      (deliver e o (dataWord data) s).port = s.port) ∧
    (deliver e o (dataWord data) s).cache =
      if o = .ok ∧ e.cacheable = true ∧ x.noFill = false ∧ (s.entry e.addr).state = .online ∧
          (s.entry e.addr).generation = e.gen then
        s.cache.fill ⟨e.addr, e.gen, e.offset, e.width, BitVec.ofNat 32 (leNat data) &&& x.width.mask⟩
      else s.cache := by
  have hvalue : readValue o data x = if o = .ok then some ((dataWord data).getD 0 &&& x.width.mask) else none := by
    rw [dataWord_getD]; rfl
  obtain ⟨u, hu⟩ : ∃ u : State, u = (if s.port.held.any (fun h => h.what = .slot i) = true then
      { s with slots := vset s.slots i .free, port := answeredPort i x o (readValue o data x) s.port }
    else { s with slots := vset s.slots i (.complete x o (readValue o data x) 0) }) := ⟨_, rfl⟩
  have hdeliver := (delivered s e o (dataWord data)).read i x (readValue o data x) u horigin hslot hx hvalue hu
  have hfields : (deliver e o (dataWord data) s).slots = u.slots ∧ (deliver e o (dataWord data) s).port = u.port := by
    rw [hdeliver]
    split
    · exact ⟨rfl, rfl⟩
    · exact ⟨rfl, rfl⟩
  rw [hfields.1, hfields.2]
  refine ⟨fun h => ?_, fun h => ?_, ?_⟩
  · rw [hu, if_pos h]; exact ⟨rfl, rfl⟩
  · rw [hu, if_neg (by simp [h])]; exact ⟨rfl, rfl⟩
  · have hcache : u.cache = s.cache := by rw [hu]; split <;> rfl
    rw [hdeliver]
    split
    · next hfill =>
      rw [show readValue o data x = some (BitVec.ofNat 32 (leNat data) &&& x.width.mask) from if_pos hfill.1]
      rfl
    · exact hcache

section
variable {e : HostEntry} {o : LinkOutcome} {data : List Byte} {u y : State}

/-- A read whose access is not held any more completes its slot (R104). -/
theorem HostEnded.slot (h : HostEnded e o data u y) {i : Fin 4} {x : SlotInfo} (horigin : e.origin = .windowRead)
    (hslot : e.slot = some i) (hx : vget u.slots i = .pending x) :
    (u.port.held.any (fun h => h.what = .slot i) = true → y.slots = vset u.slots i .free ∧
      y.port = answeredPort i x o (readValue o data x) u.port) ∧
    (u.port.held.any (fun h => h.what = .slot i) = false → y.slots = vset u.slots i (.complete x o (readValue o data x) 0) ∧
      y.port = u.port) ∧
    y.cache =
      if o = .ok ∧ e.cacheable = true ∧ x.noFill = false ∧ (u.entry e.addr).state = .online ∧
          (u.entry e.addr).generation = e.gen then
        u.cache.fill ⟨e.addr, e.gen, e.offset, e.width, BitVec.ofNat 32 (leNat data) &&& x.width.mask⟩
      else u.cache := by
  obtain ⟨w, hw, hslots, hport, hcache, -, -⟩ := h.delivery
  have hentry := hw.entry e.addr
  have hstate : (w.entry e.addr).state = (u.entry e.addr).state ∧ (w.entry e.addr).generation = (u.entry e.addr).generation := by
    rw [hentry]; exact ⟨rfl, rfl⟩
  have hrest := hw.rest
  have hwslots : w.slots = u.slots := by rw [hrest]
  have hwport : w.port = u.port := by rw [hrest]
  have hwcache : w.cache = u.cache := by rw [hrest]
  have hread := deliver_read horigin hslot (hwslots ▸ hx) o data
  rw [← hslots, ← hport, ← hcache, hwslots, hwport, hwcache, hstate.1, hstate.2] at hread
  exact hread

/-- A window write that ends is silent, or posts WRITE_FAILED (R91). -/
theorem HostEnded.write (h : HostEnded e o data u y) (horigin : e.origin = .windowWrite) (hst : (u.entry e.addr).state = .online) :
    y.events = if o = .ok then u.events
               else u.events.post ⟨.writeFailed, some e.addr, outcomeCode o, e.offset.setWidth 32, BitVec.ofNat 32 e.width.bytes,
                                   e.data.getD 0⟩ := by
  obtain ⟨w, hw, -, -, -, -, hevents⟩ := h.delivery
  rw [hevents hst, (delivered w e o (dataWord data)).write horigin, ← hw.quiet hst]
  split
  · rfl
  · rfl

/-- A mailbox command ends with its outcome (R93, R126). -/
theorem HostEnded.command (h : HostEnded e o data u y) (horigin : e.origin = .mailbox) :
    (o ≠ .ok → y.mbx = u.mbx.failedWith o) ∧
    (o = .ok → y.mbx = { u.mbx with state := .done, result := .outcome .ok
                                    data := if e.op = .write then u.mbx.data else BitVec.ofNat 32 (leNat data) &&& e.width.mask }) := by
  obtain ⟨w, hw, -, -, -, hmbx, -⟩ := h.delivery
  have hdeliver := (delivered w e o (dataWord data)).mailbox _ horigin rfl
  have hwmbx : w.mbx = u.mbx := by rw [hw.rest]
  rw [hmbx, hdeliver, ← hwmbx]
  refine ⟨fun ho => by rw [if_neg ho]; rfl, fun ho => ?_⟩
  rw [if_pos ho, dataWord_getD]

end

/-- The entry of a response's source (R20, R48, R142). -/
theorem responseNoted_entry {p : Response} {a : ModAddr} (h : modAddr? p.source = some a) (s : State) :
    (responseNoted p s).entry a = { s.entry a with
      lastResponse := some s.now
      attention := if p.attention = true ∧ (s.entry a).hasAttention = true ∧ (s.entry a).attention = .none then .fetchDue
                   else (s.entry a).attention } := by
  unfold responseNoted
  rw [h]
  exact vget_vset_same _ _ _

/-- The final response of a host request (R18 to R20, R90 to R93, R103 to R105, R114, R126). -/
theorem finalResponse_host {s : State} {r : Request} {p : Response} {e : HostEntry} {o : LinkOutcome} {order : PostOrder} {t : State}
    (hlaw : MailboxLaw s) (hl : s.engine.link = .carrying r) (hsrc : r.source = .host e false) (hdest : p.source = linkAddr e.addr)
    (ho : o ≠ .noResponse) (ht : t = settle (outcomeTaken order r o p.data
      { responseNoted p s with engine := { (responseNoted p s).engine with link := .free } })) :
    t.engine = { s.engine with link := .free } ∧
    t.windows = s.windows ∧ t.bindings = s.bindings ∧ t.timing = s.timing ∧ t.autoload = s.autoload ∧
    (t.entry e.addr).lastResponse = some s.now ∧
    ((s.entry e.addr).state = .online → (s.entry e.addr).generation = e.gen → (t.entry e.addr).failureRun = 0) ∧
    (∀ i x, e.origin = .windowRead → e.slot = some i → vget s.slots i = .pending x → s.port.held = none →
      vget t.slots i = .complete x o (readValue o p.data x) 0) ∧
    (∀ i x h, e.origin = .windowRead → e.slot = some i → vget s.slots i = .pending x → s.port.held = some h →
      h.what = .slot i → vget t.slots i = .free ∧ t.port = answeredPort i x o (readValue o p.data x) s.port) ∧
    (∀ i x, e.origin = .windowRead → e.slot = some i → vget s.slots i = .pending x → t.cache =
      if o = .ok ∧ e.cacheable = true ∧ x.noFill = false ∧ (s.entry e.addr).state = .online ∧
          (s.entry e.addr).generation = e.gen then
        s.cache.fill ⟨e.addr, e.gen, e.offset, e.width, BitVec.ofNat 32 (leNat p.data) &&& x.width.mask⟩
      else s.cache) ∧
    (e.origin = .windowWrite → s.hostQueue = [] → s.power.state = .active → (s.entry e.addr).state = .online →
      t.events.list = if o = .ok then s.events.list
                      else (s.events.post ⟨.writeFailed, some e.addr, outcomeCode o, e.offset.setWidth 32,
                                           BitVec.ofNat 32 e.width.bytes, e.data.getD 0⟩).list) ∧
    (e.origin = .mailbox → (o ≠ .ok → t.mbx = s.mbx.failedWith o) ∧
      (o = .ok → t.mbx = { s.mbx with state := .done, result := .outcome .ok
                                      data := if e.op = .write then s.mbx.data
                                              else BitVec.ofNat 32 (leNat p.data) &&& e.width.mask })) := by
  obtain ⟨u, hu⟩ : ∃ u, u = { responseNoted p s with engine := { (responseNoted p s).engine with link := .free } } := ⟨_, rfl⟩
  have hend := hostEnded hsrc order ho p.data u
  rw [← hu] at ht
  generalize outcomeTaken order r o p.data u = y at hend ht
  have hstill := still_settle y
  obtain ⟨hengine, hwindows, hbindings, htiming, hautoload⟩ := hend.still
  have hkept := entriesKept_settle y e.addr
  have hentry : u.entry e.addr = { s.entry e.addr with
      lastResponse := some s.now, attention := (u.entry e.addr).attention } := by
    have hnoted : u.entry e.addr = (responseNoted p s).entry e.addr := entry_of_modules _ u (by rw [hu]) e.addr
    have hmodule : modAddr? p.source = some e.addr := by rw [hdest, modAddr?_linkAddr]
    generalize u.entry e.addr = z at hnoted ⊢
    rw [hnoted, responseNoted_entry hmodule]
  have hstate : (u.entry e.addr).state = (s.entry e.addr).state ∧ (u.entry e.addr).generation = (s.entry e.addr).generation := by
    rw [hentry]; exact ⟨rfl, rfl⟩
  have huslots : u.slots = s.slots := by rw [hu]; rfl
  have huport : u.port = s.port := by rw [hu]; rfl
  have hucache : u.cache = s.cache := by rw [hu]; rfl
  have hqueue : y.hostQueue = s.hostQueue := hend.queue.trans (by rw [hu]; rfl)
  refine ⟨?_, ?_, ?_, ?_, ?_, ?_, fun hst hg => ?_, fun i x horigin hslot hx hheld => ?_, fun i x h horigin hslot hx hheld hwhat => ?_,
    fun i x horigin hslot hx => ?_, fun horigin hq hp hst => ?_, fun horigin => ?_⟩
  · rw [ht, hstill.engine, hengine, hu]; rfl
  · rw [ht, hstill.windows, hwindows, hu]; rfl
  · rw [ht, hstill.bindings, hbindings, hu]; rfl
  · rw [ht, hstill.timing, htiming, hu]; rfl
  · rw [ht, hstill.autoload, hautoload, hu]; rfl
  · rw [ht, hkept]
    exact hend.time.trans (by rw [hentry])
  · rw [ht, hkept]
    exact hend.run (hstate.1.trans hst) (hstate.2.trans hg)
  · obtain ⟨-, hfree, -⟩ := hend.slot horigin hslot (huslots ▸ hx)
    obtain ⟨hslots, -⟩ := hfree (by rw [huport, hheld]; rfl)
    have hi : vget y.slots i = .complete x o (readValue o p.data x) 0 := by rw [hslots]; exact vget_vset_same _ _ _
    rw [ht, settle_slot (by rw [hi]; rfl), hi]
  · obtain ⟨hyes, -, -⟩ := hend.slot horigin hslot (huslots ▸ hx)
    obtain ⟨hslots, hport⟩ := hyes (by rw [huport, hheld]; simp [hwhat])
    have hi : vget y.slots i = .free := by rw [hslots]; exact vget_vset_same _ _ _
    rw [ht, settle_slot (by rw [hi]; rfl), hi, settle_port (by rw [hport]; rfl), hport, huport]
    exact ⟨rfl, rfl⟩
  · obtain ⟨-, -, hcache⟩ := hend.slot horigin hslot (huslots ▸ hx)
    rw [ht, settle_cache, hcache, hstate.1, hstate.2, hucache]
  · have hhead : HeadLaw y := fun _ x rest hx => by rw [hqueue, hq] at hx; cases hx
    have hup : y.power.state = .active := by rw [hend.power, hu]; exact hp
    rw [ht, ((followUp_settle y hhead).work_of_upright (.inl hup)).list, hend.write horigin (hstate.1.trans hst), hu]
    split
    · rfl
    · rfl
  · have hnone : ∀ x ∈ y.hostQueue, x.origin ≠ .mailbox := fun x hx hm => by
      obtain ⟨-, hqueued, hactive⟩ := hlaw
      have h1 := (hqueued x (hqueue ▸ hx) hm).1
      have h2 := (hactive r e (by rw [hl]; rfl) hsrc horigin).1
      rw [h1] at h2; cases h2
    obtain ⟨hfail, hdone⟩ := hend.command horigin
    rw [ht, settle_mbx hnone]
    exact ⟨fun ho => (hfail ho).trans (by rw [hu]; rfl), fun ho => (hdone ho).trans (by rw [hu]; rfl)⟩

/-- Settles O53: the request's end, what it leaves of a host request, and the functions that it calls. -/
theorem finalResponseEndsTheRequest : Obligations.FinalResponseEndsTheRequest := by
  refine ⟨?_, fun s r o data => ⟨fun e hsrc => ?_, fun e hsrc => ?_, fun m hsrc => ?_⟩, delivered, filled,
    fun s => ⟨headsChecked s, followUp_settle s⟩⟩
  · intro s r frame p order hhold hl ha hparse hs he hfinal o
    have hexec := exec_finalResponse order hhold hl ha hparse hs he hfinal
    refine ⟨fun u hu => ⟨fun a g guard hsrc hok => ?_, fun hno => ?_⟩, fun e hlaw hsrc hpayload => ?_⟩
    · have hseq : ∀ v, seqFromAssign r o v = v.setEntry a { v.entry a with seq := r.seq } := fun v => by
        rw [seqFromAssign, hsrc]
        exact if_pos hok
      rw [hexec, hu]
      refine congrArg Host.Outcome.next ?_
      unfold endRequest
      rw [hseq]
      rfl
    · rw [hexec, endRequest_eq hno, hu]
      rfl
    · have hdest : p.source = linkAddr e.addr := by
        rw [hs, Request.expectedSource, hsrc, hpayload]
        exact payload_dest e
      rw [endRequest_eq (by rw [hsrc]; simp)] at hexec
      generalize ht : settle _ = t at hexec
      obtain ⟨h1, h2, h3, h4, h5, h6, h7, h8, h9, h10, h11, h12⟩ :=
        finalResponse_host hlaw hl hsrc hdest (statusOutcome_ne p.status) ht.symm
      refine ⟨t, hexec, h1, h2, h3, h4, h5, h6, h7, h8, fun i x h horigin hslot hx hheld hwhat => ?_, h10, h11,
        fun hm ho => ?_, fun hm ho => ?_⟩
      · obtain ⟨hfree, hport⟩ := h9 i x h horigin hslot hx hheld hwhat
        rw [hport]
        refine ⟨hfree, rfl, fun ho => ?_, fun ho => ?_⟩
        · unfold answeredPort readValue
          rw [if_pos ho, if_pos ho, if_pos ho]
          rfl
        · unfold answeredPort
          rw [if_neg ho, if_neg ho]
      · rw [(h12 hm).1 ho]
        exact ⟨rfl, rfl⟩
      · rw [(h12 hm).2 ho]
        exact ⟨rfl, rfl, fun hw => if_neg hw⟩
  · rw [ownerTakes, hsrc]
    exact if_pos rfl
  · rw [ownerTakes_host hsrc, dataWord_eq]
  · rw [ownerTakes, hsrc]

end Sys2Proof.Machine
end

section
/-! PROOFS. The frames of requests and responses, and the attempts on the line (O52). -/

namespace Sys2Proof.Machine

/-! ### The two field bytes of a request (R207) -/

theorem append_low {x y : BitVec 4} : (x ++ y : Byte).extractLsb' 0 4 = y := by
  revert x y
  decide

theorem append_high {x y : BitVec 4} : (x ++ y : Byte).extractLsb' 4 4 = x := by
  revert x y
  decide

/-- The second byte of a request frame: the sequence number, the retransmit flag, the length code, and bit 7 clear (R207). -/
theorem secondByte (l : BitVec 2) (retransmit : Bool) (seq : BitVec 4) :
    (((0#1 ++ l) ++ (BitVec.ofBool retransmit ++ seq) : Byte).extractLsb' 0 4 = seq) ∧
    ((0#1 ++ l) ++ (BitVec.ofBool retransmit ++ seq) : Byte).getLsbD 4 = retransmit ∧
    ((0#1 ++ l) ++ (BitVec.ofBool retransmit ++ seq) : Byte).getLsbD 7 = false ∧
    (((0#1 ++ l) ++ (BitVec.ofBool retransmit ++ seq) : Byte).extractLsb' 5 2 = l) := by
  revert l retransmit seq
  decide

theorem lengthCode_eq {n : Nat} {c : BitVec 2} (h : (n, c) ∈ [(0, 0#2), (1, 1#2), (2, 2#2), (4, 3#2)]) : lengthCode n = c := by
  simp only [List.mem_cons, Prod.mk.injEq, List.not_mem_nil, or_false] at h
  obtain ⟨rfl, rfl⟩ | ⟨rfl, rfl⟩ | ⟨rfl, rfl⟩ | ⟨rfl, rfl⟩ := h
  all_goals rfl

theorem requestLaidOut (p : Payload) (seq : BitVec 4) (retransmit : Bool) : RequestLaidOut p seq retransmit where
  bytes := by
    obtain ⟨hseq, hflag, hclear, hlength⟩ := secondByte (lengthCode p.length) retransmit seq
    refine ⟨p.op.code ++ p.dest, (0#1 ++ lengthCode p.length) ++ (BitVec.ofBool retransmit ++ seq), requestFields p seq retransmit,
      ?_, ?_, append_low, append_high, hseq, hflag, hclear, fun n c hmem hn => ?_⟩
    · rw [requestFields, leBytes_two]
      rfl
    · rw [requestFrame, leBytes_two, crc16_eq_crcOf]
      rfl
    · rw [hlength, hn]
      exact lengthCode_eq hmem
  check := crc16_eq_crcOf
  codes := rfl

/-! ### A response that passes its check (R1, R3, R4, R208) -/

theorem responseLength?_eq_some {c : BitVec 3} {n : Nat} :
    responseLength? c = some n ↔ (c, n) ∈ [(0#3, 0), (1#3, 1), (2#3, 2), (3#3, 4), (4#3, 8)] := by
  have hcases : ∀ c : BitVec 3, c = 0#3 ∨ c = 1#3 ∨ c = 2#3 ∨ c = 3#3 ∨ c = 4#3 ∨ c = 5#3 ∨ c = 6#3 ∨ c = 7#3 := by decide
  obtain rfl | rfl | rfl | rfl | rfl | rfl | rfl | rfl := hcases c
  all_goals simp [responseLength?, eq_comm]

theorem statusOf_eq {c : BitVec 2} {st : Status} :
    statusOf c = st ↔ (c, st) ∈ [(0#2, Status.ok), (1#2, .busy), (2#2, .refused), (3#2, .noRegister)] := by
  cases st
  all_goals
    revert c
    decide

theorem parseResponse_iff (op : LinkOp) (length : Nat) (frame : List Byte) (r : Response) :
    parseResponse op length frame = some r ↔ ResponseLaidOut op length frame r := by
  constructor
  · intro h
    unfold parseResponse at h
    split at h
    · next b0 b1 rest =>
      split at h
      · cases h
      · next n hn =>
        split at h
        · next hpass =>
          obtain ⟨hlen, hcheck, hb0, hb1, hrequired⟩ := hpass
          obtain ⟨lo, hi, hlast⟩ := List.length_eq_two.mp (show (rest.drop n).length = 2 by rw [List.length_drop]; omega)
          have hdata : (rest.take n).length = n := by rw [List.length_take]; omega
          have hrest : rest = rest.take n ++ [lo, hi] := by rw [← hlast, List.take_append_drop]
          cases h
          refine ⟨⟨b0, b1, lo, hi, ?_, ?_, rfl, statusOf_eq.mp rfl, rfl, hb0, rfl, hb1, ?_⟩, ?_⟩
          · exact congrArg (fun l => b0 :: b1 :: l) hrest
          · rw [hlast, leNat_two, crc16_eq_crcOf] at hcheck
            exact hcheck
          · dsimp only
            rw [hdata]
            exact responseLength?_eq_some.mp hn
          · dsimp only
            rw [hdata, ← requiredData_eq]
            exact hrequired
        · cases h
    · cases h
  · rintro ⟨⟨b0, b1, lo, hi, rfl, hcheck, hsource, hstatus, hattention, hb0, hecho, hb1, hcode⟩, hlength⟩
    have hst := statusOf_eq.mpr hstatus
    have hn := responseLength?_eq_some.mpr hcode
    show parseResponse op length (b0 :: b1 :: (r.data ++ [lo, hi])) = some r
    unfold parseResponse
    dsimp only
    rw [hn]
    dsimp only
    rw [List.take_left, List.drop_left, if_pos]
    · rw [hsource, hst, hattention, hecho]
    · refine ⟨by simp, ?_, hb0, hb1, ?_⟩
      · rw [leNat_two, crc16_eq_crcOf]
        exact hcheck
      · rw [hst, requiredData_eq]
        exact hlength

/-! ### What the frames ask (R2, R4, R89) -/

/-- The bytes of a word written (R2). -/
theorem leBytes_word {n k : Nat} (h : k < n) (w : Word) : (leBytes n w.toNat)[k]? = some (w.extractLsb' (8 * k) 8) := by
  rw [leBytes_getElem? n _ k h]
  refine congrArg some (BitVec.eq_of_toNat_eq ?_)
  rw [BitVec.toNat_ofNat, BitVec.extractLsb'_toNat, Nat.shiftRight_eq_div_pow, Nat.pow_mul]

theorem hostFrames (e : HostEntry) : HostFrames e where
  read h := by rw [HostEntry.payload, h]
  write h := ⟨_, by rw [HostEntry.payload, h], leBytes_length _ _, fun k hk => leBytes_word hk _⟩
  descRead h := by rw [HostEntry.payload, h]

theorem mgmtFrames (a : ModAddr) (g : Half) : MgmtFrames a g where
  joinQuery := rfl
  assign _ := rfl
  descRead _ := rfl
  ping := rfl
  attnFetch := rfl
  attnClear w := by rw [MgmtEntry.payload, leBytes_two]
  release := rfl
  address := by
    unfold linkAddr
    rw [BitVec.toNat_ofNat]
    omega

/-! ### The attempts (R14, R16, R17, R23) -/

theorem exec_requestFrameSent {s : State} {r : Request} (hhold : s.pins.hold = false) (hl : s.engine.link = .carrying r)
    (ha : r.attempt = .sending) (hsrc : r.source ≠ .broadcast) :
    exec .requestFrameSent s = .next (carry { r with attempt := .awaiting 0 } s) := by
  refine (congrArg Host.Outcome.next (whenLive_live frameSent s hhold)).trans (congrArg Host.Outcome.next ?_)
  rw [frameSent, hl]
  exact if_pos ⟨ha, hsrc⟩

theorem exec_responseLeadIn {s : State} {r : Request} {n : Nat} (hhold : s.pins.hold = false) (hl : s.engine.link = .carrying r)
    (ha : r.attempt = .awaiting n) : exec .responseLeadIn s = .next (carry { r with attempt := .receiving } s) := by
  refine (congrArg Host.Outcome.next (whenLive_live leadIn s hhold)).trans (congrArg Host.Outcome.next ?_)
  rw [leadIn, hl]
  simp only [ha]

theorem exec_retransmission {s : State} {r : Request} {n : Nat} (hhold : s.pins.hold = false) (hl : s.engine.link = .carrying r)
    (ha : r.attempt = .gap n) : exec .retransmission s =
      .next (sendAgain r (advance (max (2 * charTime r.params.linkRate - n) (s.destPacingLeft r.payload.dest)) s)) := by
  refine (congrArg Host.Outcome.next (whenLive_live retransmit s hhold)).trans (congrArg Host.Outcome.next ?_)
  rw [retransmit, hl]
  simp only [ha]

/-- The resend, in the holdoff or behind it (log entry 33). -/
theorem exec_holdoffEnd {s : State} {r : Request} (hhold : s.pins.hold = false) :
    (∀ n, s.engine.link = .holdoff r n → exec .holdoffEnd s =
      .next (sendAgain r (advance (max (r.params.busyHoldoff - n) (s.destPacingLeft r.payload.dest)) s))) ∧
    (s.engine.link = .carrying r → r.attempt = .resend → exec .holdoffEnd s =
      .next (sendAgain r (advance (s.destPacingLeft r.payload.dest) s))) := by
  have hexec : exec .holdoffEnd s = .next (holdoffEnds s) := congrArg Host.Outcome.next (whenLive_live holdoffEnds s hhold)
  refine ⟨fun n hl => ?_, fun hl ha => ?_⟩
  · rw [hexec, holdoffEnds, hl]
  · rw [hexec, holdoffEnds, hl]
    simp only [ha]

/-- Settles O52: the layouts of the frames, and one equation for each step of an attempt. -/
theorem attemptsOnTheLine : Obligations.AttemptsOnTheLine := by
  refine ⟨charactersLaidOut, requestLaidOut, parseResponse_iff, hostFrames, mgmtFrames, ?_⟩
  intro s r hhold again
  exact ⟨fun hl ha hsrc => exec_requestFrameSent hhold hl ha hsrc, fun n hl ha => exec_responseLeadIn hhold hl ha,
    fun n hl ha => ⟨_, exec_retransmission hhold hl ha, onlyTimePasses_advance _ s⟩,
    fun n hl => ⟨_, (exec_holdoffEnd hhold).1 n hl, onlyTimePasses_advance _ s⟩,
    fun hl ha => ⟨_, (exec_holdoffEnd hhold).2 hl ha, onlyTimePasses_advance _ s⟩⟩

end Sys2Proof.Machine
end

section
/-! PROOFS. The end of an autoload run, with what follows for the mailbox and for discovery, and the reads of the boot memory. -/

namespace Sys2Proof.Machine

/-! ### The end of a run (R134, R172, R182, R186) -/

/-- `s` with the result items of a run that has just ended, and its record. -/
def runEnded (e : RunEnd) (s : State) : State :=
  { s with autoload := { s.autoload with phase := .idle, lastOutcome := e.outcome, recordCount := e.count, faultReason := e.reason
                                         faultRecord := e.record, staging := [] }
           events := s.events.post ⟨.autoloadDone, none, loadCode e.outcome, BitVec.ofNat 32 e.detail, 0, 0⟩ }

/-- `s` with the command of a RELOAD ended as its run ended. -/
def reloadFailed (o : LoadOutcome) (s : State) : State :=
  { s with events := s.events.post ⟨.mailboxDone, none, 32, s.mbx.op.setWidth 32, 0, 0⟩
           mbx := { s.mbx with state := .failed, result := .loadFailed, data := (loadCode o).setWidth 32 } }

theorem reloadEnds_forgotten {o : LoadOutcome} {s : State} (hrun : s.mbx.runs opReload = false) : reloadEnds o s = s :=
  if_neg (by rw [hrun]; decide)

theorem reloadEnds_failed {o : LoadOutcome} {s : State} (hrun : s.mbx.runs opReload = true) (ho : o ≠ .loaded) :
    reloadEnds o s = reloadFailed o s :=
  (if_pos hrun).trans (if_neg ho)

/-- `s` as a run closes in it, the command of a RELOAD with it. -/
def runClosed (e : RunEnd) (s : State) : State :=
  if s.autoload.startedBy = .reload then reloadEnds e.outcome (runEnded e s) else runEnded e s

theorem runClosed_alone {e : RunEnd} {s : State} (h : s.autoload.startedBy = .cold ∨ s.mbx.runs opReload = false) :
    runClosed e s = runEnded e s := by
  unfold runClosed
  obtain hcold | hno := h
  · rw [if_neg (by rw [hcold]; decide)]
  · rw [reloadEnds_forgotten (s := runEnded e s) hno, ite_self]

theorem runClosed_failed {e : RunEnd} {s : State} (hby : s.autoload.startedBy = .reload) (hrun : s.mbx.runs opReload = true)
    (ho : e.outcome ≠ .loaded) : runClosed e s = reloadFailed e.outcome (runEnded e s) := by
  rw [runClosed, if_pos hby, reloadEnds_failed (s := runEnded e s) hrun ho]

theorem runClosed_loaded {e : RunEnd} {s : State} (hby : s.autoload.startedBy = .reload) (hrun : s.mbx.runs opReload = true)
    (ho : e.outcome = .loaded) : runClosed e s = { runEnded e s with
      events := (runEnded e s).events.post ⟨.mailboxDone, none, 31, s.mbx.op.setWidth 32, 0, 0⟩
      mbx := { s.mbx with state := .done, result := .loaded } } := by
  rw [runClosed, if_pos hby]
  exact (if_pos (c := s.mbx.runs opReload = true) hrun).trans (if_pos ho)

theorem runClosed_rest (e : RunEnd) (s : State) : runClosed e s = { runEnded e s with
    events := (runClosed e s).events, mbx := (runClosed e s).mbx } := by
  unfold runClosed reloadEnds
  split_ifs <;> rfl

theorem alone_or_reloads (s : State) : (s.autoload.startedBy = .cold ∨ s.mbx.runs opReload = false) ∨
    s.autoload.startedBy = .reload ∧ s.mbx.runs opReload = true := by
  cases s.autoload.startedBy <;> cases s.mbx.runs opReload <;> simp

theorem endRun_followUp {s : State} (e : RunEnd) (hhead : HeadLaw s) : FollowUp (runClosed e s) (endRun e s) := by
  refine followUp_settle _ ?_
  have hrest := runClosed_rest e s
  generalize runClosed e s = u at hrest
  exact headLaw_modules hhead (by rw [hrest]; rfl) (by rw [hrest]; rfl) (by rw [hrest]; rfl)

theorem endRun_alone {e : RunEnd} {s : State} (hhead : HeadLaw s)
    (h : s.autoload.startedBy = .cold ∨ s.mbx.runs opReload = false) : FollowUp (runEnded e s) (endRun e s) := by
  rw [← runClosed_alone h]
  exact endRun_followUp e hhead

theorem endRun_failed {e : RunEnd} {s : State} (hhead : HeadLaw s) (hby : s.autoload.startedBy = .reload)
    (hrun : s.mbx.runs opReload = true) (ho : e.outcome ≠ .loaded) :
    FollowUp (reloadFailed e.outcome (runEnded e s)) (endRun e s) := by
  rw [← runClosed_failed hby hrun ho]
  exact endRun_followUp e hhead

/-- Once its suspension has ended, DISABLED discovery has a query due at once (R29). -/
theorem FollowUp.query_of_disabled {s t : State} (h : FollowUp s t) (hd : s.disc.state = .disabled) (hs : s.suspended = false) :
    t.disc.state = .querying ∧ QueryUnderWay t := by
  have hcarried : ¬DiscCarried s := by simp [DiscCarried, hd]
  obtain ⟨d, kept, item, added, hmoves, hitem, hdisc, hqueue, -⟩ :=
    (h.work_of_upright (.inl (upright_of_not_suspended hs))).work
  have hdue : d = { s.disc with state := .querying, waiting := some .joinQuery, queryTimer := none } := by
    obtain ⟨hk | ⟨hk, -⟩ | ⟨-, -, hk⟩, -, -⟩ | ⟨-, -, ⟨hk, -⟩ | ⟨-, -, hk⟩⟩ := hmoves
    · exact absurd hk hcarried
    · rw [hs] at hk; cases hk
    · exact absurd hd hk
    · rw [hs] at hk; cases hk
    · exact hk
  refine ⟨by rw [hdisc, hdue], ?_⟩
  by_cases hroom : kept.length < Config.mgmtQueueCapacity
  · rw [if_pos hroom, hdue] at hitem
    refine .inr ?_
    rw [hqueue, hitem]
    simp
  · rw [if_neg hroom] at hitem
    refine .inl ?_
    rw [hdisc, hitem, hdue]
    rfl

/-- Between runs, with the link ACTIVE and FREE and no reset pending, nothing suspends discovery (R29). -/
theorem not_suspended_of_free {s : State} (hphase : s.autoload.phase = .idle) (hp : s.power.state = .active)
    (hl : s.engine.link = .free) (hr : s.engine.resetPending = false) : s.suspended = false := by
  simp [State.suspended, State.autoloadRuns, State.broadcasting, Link.request?, hphase, hp, hl, hr]

/-! ### The reads of the boot memory (R174, R175) -/

theorem exec_autoloadMarkerRead {s : State} {b1 b2 : Byte} (hhold : s.pins.hold = false) (hph : s.autoload.phase = .reading)
    (hst : s.autoload.staging = []) : exec (.autoloadMarkerRead b1 b2) s =
      .next (if b1 = 0x5B ∧ b2 = 0xC3 then stage [b1, b2] s else endRun absentEnd s) :=
  congrArg Host.Outcome.next ((whenLive_live (markerRead b1 b2) s hhold).trans (if_pos ⟨hph, hst⟩))

theorem exec_autoloadHeaderRead {s : State} {version count lenLow lenHigh : Byte} (hhold : s.pins.hold = false)
    (hph : s.autoload.phase = .reading) (hst : s.autoload.staging.length = 2) :
    exec (.autoloadHeaderRead version count lenLow lenHigh) s =
      .next (match headerTest version count (leNat [lenLow, lenHigh]) with
             | some r => endRun (headerFault r) s
             | none => stage [version, count, lenLow, lenHigh] s) :=
  congrArg Host.Outcome.next ((whenLive_live (headerRead version count lenLow lenHigh) s hhold).trans (if_pos ⟨hph, hst⟩))

/-- The header tests, in numbers (R175). -/
theorem headerTest_eq (version count lenLow lenHigh : Byte) :
    headerTest version count (leNat [lenLow, lenHigh]) =
      if version = 1 ∧ 1 ≤ count.toNat ∧ count.toNat ≤ 40 ∧ 10 ≤ lenLow.toNat + 256 * lenHigh.toNat ∧
          lenLow.toNat + 256 * lenHigh.toNat ≤ 2048 then none
      else some (if version ≠ 1 then .version else if count.toNat < 1 ∨ 40 < count.toNat then .count else .length) := by
  have htotal : leNat [lenLow, lenHigh] = lenLow.toNat + 256 * lenHigh.toNat := leNat_pair _ _
  have hzero : count = 0 ↔ count.toNat < 1 := by
    rw [← BitVec.toNat_inj, Nat.lt_one_iff]
    rfl
  rw [htotal]
  unfold headerTest
  simp only [hzero]
  by_cases hversion : version = 1
  · rw [if_neg (not_not.mpr hversion), if_neg (not_not.mpr hversion)]
    by_cases hcount : count.toNat < 1 ∨ 40 < count.toNat
    · rw [if_pos hcount, if_neg (by omega), if_pos hcount]
    · rw [if_neg hcount]
      by_cases hlength : lenLow.toNat + 256 * lenHigh.toNat < 10 ∨ 2048 < lenLow.toNat + 256 * lenHigh.toNat
      · rw [if_pos hlength, if_neg (by omega), if_neg hcount]
      · rw [if_neg hlength, if_pos ⟨hversion, by omega⟩]
  · rw [if_pos hversion, if_neg fun h => hversion h.1, if_pos hversion]

theorem exec_autoloadImageRead {s : State} {bytes : List Byte} (hhold : s.pins.hold = false) (hph : s.autoload.phase = .reading)
    (hst : 6 ≤ s.autoload.staging.length)
    (hlen : s.autoload.staging.length + bytes.length =
      (s.autoload.staging.getD 4 0).toNat + 256 * (s.autoload.staging.getD 5 0).toNat) :
    exec (.autoloadImageRead bytes) s = .next { s with autoload := { s.autoload with
      phase := .verifying, staging := s.autoload.staging ++ bytes } } := by
  have htotal : headerTotal s.autoload.staging = (s.autoload.staging ++ bytes).length := by
    rw [List.length_append, hlen]
    exact leNat_pair _ _
  refine congrArg Host.Outcome.next ((whenLive_live (imageRead bytes) s hhold).trans ((if_pos ⟨hph, hst⟩).trans ?_))
  dsimp only
  rw [htotal, List.take_length, if_pos rfl]

/-- Settles O56: each read either stages its bytes or ends the run, whose end is followed by the due work. -/
theorem autoloadReads : Obligations.AutoloadReads := by
  intro s hhold hph
  refine ⟨fun hst => ?_, fun b1 b2 hst hmarker halone hquiet => ?_, fun b1 b2 hst hmarker hby hrun hquiet => ?_,
    fun version count lenLow lenHigh hst => ⟨fun h1 h2 h3 h4 h5 => ?_, fun hbad hquiet => ⟨fun halone => ?_, fun hby hrun => ?_⟩⟩,
    fun bytes hst hlen => exec_autoloadImageRead hhold hph hst hlen⟩
  · rw [exec_autoloadMarkerRead hhold hph hst, if_pos ⟨rfl, rfl⟩, stage, hst]
    rfl
  · rw [exec_autoloadMarkerRead hhold hph hst, if_neg hmarker]
    exact ⟨_, rfl, endRun_alone (e := absentEnd) hquiet.head halone⟩
  · rw [exec_autoloadMarkerRead hhold hph hst, if_neg hmarker]
    have hfollow := endRun_failed (e := absentEnd) hquiet.head hby hrun LoadOutcome.noConfusion
    exact ⟨_, rfl, hfollow, fun hd hp hl hr => hfollow.query_of_disabled hd (not_suspended_of_free rfl hp hl hr)⟩
  · rw [exec_autoloadHeaderRead hhold hph hst, headerTest_eq, if_pos ⟨h1, h2, h3, h4, h5⟩]
    rfl
  · rw [exec_autoloadHeaderRead hhold hph hst, headerTest_eq, if_neg hbad]
    exact ⟨_, rfl, endRun_alone (e := headerFault _) hquiet.head halone⟩
  · rw [exec_autoloadHeaderRead hhold hph hst, headerTest_eq, if_neg hbad]
    exact ⟨_, rfl, endRun_failed (e := headerFault _) hquiet.head hby hrun LoadOutcome.noConfusion⟩

end Sys2Proof.Machine
end

section
/-! PROOFS. What a good image sets: each record once, and the timers compared with the new intervals; then the end of verification. -/

namespace Sys2Proof.Machine

/-! ### Observations of a fold -/

/-- What no step of a fold changes, the fold keeps. -/
theorem foldl_kept {σ α β : Type} {f : σ → α → σ} {g : σ → β} {l : List α} {s : σ}
    (h : ∀ x ∈ l, ∀ u, g u = g s → g (f u x) = g s) : g (l.foldl f s) = g s := by
  refine List.foldlRecOn (motive := fun u => g u = g s) l f rfl fun u hu x hx => h x hx u hu

theorem pairwise_split {α : Type} {P : α → α → Prop} {l : List α} (hl : l.Pairwise P) {x : α} (hx : x ∈ l) :
    ∃ before after, l = before ++ x :: after ∧ (∀ q ∈ before, P q x) ∧ ∀ q ∈ after, P x q := by
  obtain ⟨before, after, rfl⟩ := List.append_of_mem hx
  obtain ⟨-, hafter, hbefore⟩ := List.pairwise_append.mp hl
  exact ⟨before, after, rfl, fun q hq => hbefore q hq x (List.mem_cons_self ..), (List.pairwise_cons.mp hafter).1⟩

/-- What the step of one element sets and no later step changes, the fold sets. -/
theorem foldl_set {σ α β : Type} {P : α → α → Prop} {f : σ → α → σ} {g : σ → β} {l : List α} (hl : l.Pairwise P)
    {x : α} (hx : x ∈ l) {v : β} (hset : ∀ u, g (f u x) = v) (hkept : ∀ q ∈ l, P x q → ∀ u, g (f u q) = g u) (s : σ) : g (l.foldl f s) = v := by
  obtain ⟨before, after, rfl, -, hafter⟩ := pairwise_split hl hx
  rw [List.foldl_append, List.foldl_cons]
  refine (foldl_kept fun q hq u hu => ?_).trans (hset _)
  exact (hkept q (by simp [hq]) (hafter q hq) u).trans hu

/-! ### What one record sets (R181, R210) -/

theorem RecordValid.window_byte {r : ImageRec} (h : RecordValid r) (ht : r.type = .window) : (r.byte 1).toNat ≤ 7 := by
  simp only [RecordValid, ht] at h
  exact h.1

theorem RecordValid.binding_bytes {r : ImageRec} (h : RecordValid r) (ht : r.type = .binding) :
    1 ≤ (r.byte 9).toNat ∧ (r.byte 9).toNat ≤ 14 := by
  simp only [RecordValid, ht] at h
  exact ⟨h.1, h.2.1⟩

theorem kindOfNumber?_iff (n : Nat) (k : Kind) : kindOfNumber? n = some k ↔ kindNumber k = n := by
  refine ⟨fun h => by simpa using List.find?_some h, ?_⟩
  rintro rfl
  cases k <;> decide

theorem routeOfCode?_iff (n : Nat) (r : Route) : routeOfCode? n = some r ↔ routeCode r = n := by
  refine ⟨fun h => ?_, ?_⟩
  · unfold routeOfCode? at h
    split_ifs at h with h0 h1 h2 h3 <;> cases h
    exacts [h0.symm, h1.symm, h2.symm, h3.symm]
  · rintro rfl
    exact routeOfCode?_code r

theorem RecordValid.route {r : ImageRec} (h : RecordValid r) (ht : r.type = .route) :
    ∃ k rt, kindNumber k = (r.byte 1).toNat ∧ routeCode rt = (r.byte 2).toNat := by
  have hpass := (contentPasses_iff r).mpr h
  simp only [contentPasses, ht] at hpass
  split at hpass
  · next k rt hk hr => exact ⟨k, rt, (kindOfNumber?_iff _ _).mp hk, (routeOfCode?_iff _ _).mp hr⟩
  · cases hpass

/-- A record of the image sets windows, bindings, timing values and routes only. -/
theorem applyRecord_rest (s : State) (r : ImageRec) : applyRecord s r = { s with
    windows := (applyRecord s r).windows, bindings := (applyRecord s r).bindings, timing := (applyRecord s r).timing
    events := { s.events with routes := (applyRecord s r).events.routes } } := by
  unfold applyRecord
  cases r.type with
  | window | end_ => rfl
  | binding | timing | route => dsimp only; split <;> rfl

theorem applyRecord_window {r : ImageRec} (h : RecordValid r) (s : State) (n : Fin 8) : vget (applyRecord s r).windows n =
    if r.type = .window ∧ (r.byte 1).toNat = n.val then r.window else vget s.windows n := by
  cases ht : r.type with
  | window =>
    have hindex : Fin.ofNat 8 (r.byte 1).toNat = n ↔ (r.byte 1).toNat = n.val := by
      rw [Fin.ext_iff, Fin.val_ofNat, Nat.mod_eq_of_lt (by have := h.window_byte ht; omega)]
    simp only [applyRecord, ht, vget_vset, hindex, true_and]
  | end_ => simp [applyRecord, ht]
  | binding | timing | route => simp only [applyRecord, ht]; split <;> simp

theorem applyRecord_timing (s : State) (r : ImageRec) (p : Param) : (applyRecord s r).timing.value p =
    if r.type = .timing ∧ (r.byte 1).toNat = Param.index p then r.value else s.timing.value p := by
  cases ht : r.type with
  | timing =>
    simp only [applyRecord, ht, true_and]
    split
    · next q hq =>
      have hindex : (r.byte 1).toNat = Param.index p ↔ q = p := by
        rw [eq_comm, ← paramOfIndex?_iff, hq, Option.some_inj]
      simp only [timing_set_value, hindex]
    · next hnone => rw [if_neg fun h => by rw [(paramOfIndex?_iff _ p).mpr h.symm] at hnone; cases hnone]
  | window | end_ => simp [applyRecord, ht]
  | binding | route => simp only [applyRecord, ht]; split <;> simp

theorem applyRecord_bindings {r : ImageRec} (h : RecordValid r) (s : State) (a : ModAddr) : vget (applyRecord s r).bindings a =
    if r.type = .binding ∧ (r.byte 9).toNat = a.val + 1 then some ⟨r.id, if r.byte 10 = 0 then .strict else .preferred⟩
    else vget s.bindings a := by
  cases ht : r.type with
  | binding =>
    obtain ⟨hlow, hhigh⟩ := h.binding_bytes ht
    have hmod : modAddr? ((r.byte 9).setWidth 4) = some ⟨(r.byte 9).toNat - 1, by omega⟩ := by
      have hwidth : ((r.byte 9).setWidth 4).toNat = (r.byte 9).toNat := by
        rw [BitVec.toNat_setWidth]
        omega
      unfold modAddr?
      simp only [hwidth]
      rw [dif_pos ⟨hlow, hhigh⟩]
    have haddr : (⟨(r.byte 9).toNat - 1, by omega⟩ : ModAddr) = a ↔ (r.byte 9).toNat = a.val + 1 := by
      rw [Fin.ext_iff]
      dsimp only
      omega
    simp only [applyRecord, ht, hmod, vget_vset, haddr, true_and, ImageRec.binding]
  | window | end_ => simp [applyRecord, ht]
  | timing | route => simp only [applyRecord, ht]; split <;> simp

theorem applyRecord_route {r : ImageRec} (h : RecordValid r) (s : State) (k : Kind) :
    (∀ rt, r.type = .route → (r.byte 1).toNat = kindNumber k → (r.byte 2).toNat = routeCode rt →
      (applyRecord s r).events.routeOf k = rt) ∧
    (¬(r.type = .route ∧ (r.byte 1).toNat = kindNumber k) → (applyRecord s r).events.routeOf k = s.events.routeOf k) := by
  cases ht : r.type with
  | route =>
    obtain ⟨j, q, hj, hq⟩ := h.route ht
    have happly : applyRecord s r = { s with events := s.events.setRoute j q } := by
      simp only [applyRecord, ht, (kindOfNumber?_iff _ j).mpr hj, (routeOfCode?_iff _ q).mpr hq]
    rw [happly]
    refine ⟨fun rt _ hk hr => ?_, fun hno => ?_⟩
    · have hkj : k = j := Option.some_inj.mp (((kindOfNumber?_iff _ k).mpr hk.symm).symm.trans ((kindOfNumber?_iff _ j).mpr hj))
      have hrq : rt = q := Option.some_inj.mp (((routeOfCode?_iff _ rt).mpr hr.symm).symm.trans ((routeOfCode?_iff _ q).mpr hq))
      rw [routeOf_setRoute, if_pos hkj, hrq]
    · rw [routeOf_setRoute, if_neg fun hkj => hno ⟨rfl, by rw [hkj, hj]⟩]
  | window | end_ => simp [applyRecord, ht]
  | binding | timing => simp only [applyRecord, ht]; split <;> simp

/-! ### What the records of a good image set -/

theorem NamesTheSame.of_byte {q r : ImageRec} {ty : RecType} (hty : ty = .window ∨ ty = .timing ∨ ty = .route) (hq : q.type = ty)
    (hr : r.type = ty) {n : Nat} (hqn : (q.byte 1).toNat = n) (hrn : (r.byte 1).toNat = n) : NamesTheSame q r := by
  have hbyte : q.byte 1 = r.byte 1 := BitVec.eq_of_toNat_eq (by rw [hqn, hrn])
  obtain rfl | rfl | rfl := hty <;> simp [NamesTheSame, hq, hr, hbyte]

theorem NamesTheSame.of_address {q r : ImageRec} (hq : q.type = .binding) (hr : r.type = .binding) {n : Nat}
    (hqn : (q.byte 9).toNat = n) (hrn : (r.byte 9).toNat = n) : NamesTheSame q r := by
  have hbyte : q.byte 9 = r.byte 9 := BitVec.eq_of_toNat_eq (by rw [hqn, hrn])
  simp [NamesTheSame, hq, hr, hbyte]

/-- `w` is `s` as the records `l` set it, with the binding table `s` has. -/
structure RecordsSet (l : List ImageRec) (s w : State) : Prop where
  rest         : w = { s with windows := w.windows, bindings := w.bindings, timing := w.timing
                              events := { s.events with routes := w.events.routes } }
  window       : ∀ rec ∈ l, rec.type = .window → ∀ n : Fin 8, (rec.byte 1).toNat = n.val → vget w.windows n = rec.window
  windowKept   : ∀ n : Fin 8, (∀ rec ∈ l, rec.type = .window → (rec.byte 1).toNat ≠ n.val) → vget w.windows n = vget s.windows n
  timing       : ∀ rec ∈ l, rec.type = .timing → ∀ p, (rec.byte 1).toNat = Param.index p → w.timing.value p = rec.value
  timingKept   : ∀ p : Param, (∀ rec ∈ l, rec.type = .timing → (rec.byte 1).toNat ≠ Param.index p) →
                   w.timing.value p = s.timing.value p
  binding      : ∀ rec ∈ l, rec.type = .binding → ∀ a : ModAddr, (rec.byte 9).toNat = a.val + 1 →
                   vget w.bindings a = some ⟨rec.id, if rec.byte 10 = 0 then .strict else .preferred⟩
  bindingKept  : ∀ a : ModAddr, (∀ rec ∈ l, rec.type = .binding → (rec.byte 9).toNat ≠ a.val + 1) →
                   vget w.bindings a = vget s.bindings a
  route        : ∀ rec ∈ l, rec.type = .route → ∀ k r, (rec.byte 1).toNat = kindNumber k → (rec.byte 2).toNat = routeCode r →
                   w.events.routeOf k = r
  routeKept    : ∀ k, (∀ rec ∈ l, rec.type = .route → (rec.byte 1).toNat ≠ kindNumber k) →
                   w.events.routeOf k = s.events.routeOf k

theorem foldl_applyRecord_rest (l : List ImageRec) (s : State) : l.foldl applyRecord s = { s with
    windows := (l.foldl applyRecord s).windows, bindings := (l.foldl applyRecord s).bindings
    timing := (l.foldl applyRecord s).timing, events := { s.events with routes := (l.foldl applyRecord s).events.routes } } := by
  refine List.foldlRecOn (motive := fun u : State => u = { s with
    windows := u.windows, bindings := u.bindings, timing := u.timing, events := { s.events with routes := u.events.routes } })
    l applyRecord rfl fun u hu r _ => ?_
  have hstep := applyRecord_rest u r
  generalize applyRecord u r = v at hstep
  rw [hstep, hu]

theorem recordsSet {l : List ImageRec} (hpass : AllPass l) (s : State) : RecordsSet l s (l.foldl applyRecord s) where
  rest := foldl_applyRecord_rest l s
  window rec hrec ht n hn := by
    refine foldl_set (g := fun u : State => vget u.windows n) hpass.2 hrec (fun u => ?_) (fun q hq hdiff u => ?_) s
    · exact (applyRecord_window (hpass.1 rec hrec) u n).trans (if_pos ⟨ht, hn⟩)
    · exact (applyRecord_window (hpass.1 q hq) u n).trans (if_neg fun h => hdiff (.of_byte (.inl rfl) h.1 ht h.2 hn))
  windowKept n hno := foldl_kept (g := fun u : State => vget u.windows n) fun q hq u hu =>
    ((applyRecord_window (hpass.1 q hq) u n).trans (if_neg fun h => hno q hq h.1 h.2)).trans hu
  timing rec hrec ht p hp := by
    refine foldl_set (g := fun u : State => u.timing.value p) hpass.2 hrec (fun u => ?_) (fun q hq hdiff u => ?_) s
    · exact (applyRecord_timing u rec p).trans (if_pos ⟨ht, hp⟩)
    · exact (applyRecord_timing u q p).trans (if_neg fun h => hdiff (.of_byte (.inr (.inl rfl)) h.1 ht h.2 hp))
  timingKept p hno := foldl_kept (g := fun u : State => u.timing.value p) fun q hq u hu =>
    ((applyRecord_timing u q p).trans (if_neg fun h => hno q hq h.1 h.2)).trans hu
  binding rec hrec ht a ha := by
    refine foldl_set (g := fun u : State => vget u.bindings a) hpass.2 hrec (fun u => ?_) (fun q hq hdiff u => ?_) s
    · exact (applyRecord_bindings (hpass.1 rec hrec) u a).trans (if_pos ⟨ht, ha⟩)
    · exact (applyRecord_bindings (hpass.1 q hq) u a).trans (if_neg fun h => hdiff (.of_address h.1 ht h.2 ha))
  bindingKept a hno := foldl_kept (g := fun u : State => vget u.bindings a) fun q hq u hu =>
    ((applyRecord_bindings (hpass.1 q hq) u a).trans (if_neg fun h => hno q hq h.1 h.2)).trans hu
  route rec hrec ht k r hk hr := by
    refine foldl_set (g := fun u : State => u.events.routeOf k) hpass.2 hrec (fun u => ?_) (fun q hq hdiff u => ?_) s
    · exact (applyRecord_route (hpass.1 rec hrec) u k).1 r ht hk hr
    · exact (applyRecord_route (hpass.1 q hq) u k).2 fun h => hdiff (.of_byte (.inr (.inr rfl)) h.1 ht h.2 hk)
  routeKept k hno := foldl_kept (g := fun u : State => u.events.routeOf k) fun q hq u hu =>
    ((applyRecord_route (hpass.1 q hq) u k).2 fun h => hno q hq h.1 h.2).trans hu

/-! ### The timers compared (R39, R107, R185) -/

theorem Param.index_inj {p q : Param} (h : Param.index p = Param.index q) : p = q :=
  Option.some_inj.mp (((paramOfIndex?_iff _ p).mpr rfl).symm.trans ((paramOfIndex?_iff _ q).mpr h.symm))

/-- A record compares the timers of the parameter it names. -/
theorem compareRecord_cases (u : State) (r : ImageRec) :
    (∃ p, r.type = .timing ∧ (r.byte 1).toNat = Param.index p ∧ Compared p u (compareRecord u r)) ∨ compareRecord u r = u := by
  unfold compareRecord
  split
  · next ht =>
    split
    · next p hp => exact .inl ⟨p, ht, ((paramOfIndex?_iff _ p).mp hp).symm, compared_compareAfter p u⟩
    · exact .inr rfl
  · exact .inr rfl

theorem compareRecord_compared {u : State} {r : ImageRec} {p : Param} (ht : r.type = .timing)
    (hp : (r.byte 1).toNat = Param.index p) : Compared p u (compareRecord u r) := by
  rw [compareRecord, if_pos ht, (paramOfIndex?_iff _ p).mpr hp.symm]
  exact compared_compareAfter p u

theorem Calm.refl (s : State) : Calm s s :=
  ⟨rfl, rfl, rfl, rfl, fun _ => ⟨rfl, rfl, rfl⟩, rfl, rfl, ⟨id, id⟩, rfl, id, id⟩

theorem Calm.trans {s t u : State} (h : Calm s t) (k : Calm t u) : Calm s u where
  queue := k.queue.trans h.queue
  mgmt := k.mgmt.trans h.mgmt
  link := k.link.trans h.link
  reset := k.reset.trans h.reset
  entry a := ⟨(k.entry a).1.trans (h.entry a).1, (k.entry a).2.1.trans (h.entry a).2.1, (k.entry a).2.2.trans (h.entry a).2.2⟩
  disc := k.disc.trans h.disc
  power := k.power.trans h.power
  attn := ⟨fun j => h.attn.1 (k.attn.1 j), fun j => h.attn.2 (k.attn.2 j)⟩
  runs := k.runs.trans h.runs
  reads j := h.reads (k.reads j)
  mbx j := h.mbx (k.mbx j)

theorem compareRecord_calm (u : State) (r : ImageRec) : Calm u (compareRecord u r) ∧ compareRecord u r = { u with
    slots := (compareRecord u r).slots, modules := (compareRecord u r).modules, events := (compareRecord u r).events } := by
  obtain ⟨p, -, -, hcomp⟩ | hsame := compareRecord_cases u r
  · exact ⟨hcomp.calm, hcomp.rest⟩
  · rw [hsame]
    exact ⟨.refl u, rfl⟩

theorem foldl_compareRecord_calm (l : List ImageRec) (v : State) : Calm v (l.foldl compareRecord v) ∧
    l.foldl compareRecord v = { v with slots := (l.foldl compareRecord v).slots, modules := (l.foldl compareRecord v).modules
                                       events := (l.foldl compareRecord v).events } := by
  refine List.foldlRecOn (motive := fun u : State => Calm v u ∧ u = { v with
    slots := u.slots, modules := u.modules, events := u.events }) l compareRecord ⟨.refl v, rfl⟩ fun u ⟨hcalm, hu⟩ r _ => ?_
  obtain ⟨hstep, hrest⟩ := compareRecord_calm u r
  refine ⟨hcalm.trans hstep, ?_⟩
  generalize compareRecord u r = x at hrest
  rw [hrest, hu]

theorem compareRecord_slots {u : State} {r : ImageRec} (h : ¬(r.type = .timing ∧ (r.byte 1).toNat = Param.index .discardTime)) :
    ((compareRecord u r).slots, (compareRecord u r).events) = (u.slots, u.events) := by
  obtain ⟨p, ht, hp, hcomp⟩ | hsame := compareRecord_cases u r
  · have hno : p ≠ .discardTime := fun hd => h ⟨ht, by rw [hp, hd]⟩
    rw [hcomp.events, if_neg hno, vget_ext fun i => (hcomp.slots i).trans (if_neg hno)]
  · rw [hsame]

/-- Does a record set the interval that rules an entry's poll timer? -/
def rulesPolls (r : ImageRec) (e : Entry) : Prop :=
  r.type = .timing ∧ ((r.byte 1).toNat = Param.index .pollInterval ∧ e.state = .online ∨
    (r.byte 1).toNat = Param.index .quarPollInterval ∧ e.state = .quarantined)

theorem compareRecord_entry {u : State} {r : ImageRec} {a : ModAddr} (h : ¬rulesPolls r (u.entry a)) :
    (compareRecord u r).entry a = u.entry a := by
  obtain ⟨p, ht, hp, hcomp⟩ | hsame := compareRecord_cases u r
  · refine (hcomp.entry a).trans (if_neg ?_)
    rintro (⟨rfl, hst⟩ | ⟨rfl, hst⟩)
    exacts [h ⟨ht, .inl ⟨hp, hst⟩⟩, h ⟨ht, .inr ⟨hp, hst⟩⟩]
  · rw [hsame]

theorem compareRecord_polls {u : State} {r : ImageRec} {a : ModAddr} (h : rulesPolls r (u.entry a))
    (hvalue : ∀ p, (r.byte 1).toNat = Param.index p → u.timing.value p = r.value) :
    (compareRecord u r).entry a = pollTaken r.value u a := by
  obtain ⟨ht, ⟨hp, hst⟩ | ⟨hp, hst⟩⟩ := h
  · rw [(compareRecord_compared ht hp).entry a, if_pos (.inl ⟨rfl, hst⟩), hvalue _ hp]
  · rw [(compareRecord_compared ht hp).entry a, if_pos (.inr ⟨rfl, hst⟩), hvalue _ hp]

theorem discardsTaken_congr {s t : State} (h : t.slots = s.slots) (ms : Nat) : discardsTaken ms t = discardsTaken ms s := by
  unfold discardsTaken
  rw [h]

theorem discardRecords_congr {s t : State} (h : t.slots = s.slots) (ms : Nat) (u : EventUnit) :
    discardRecords ms t u = discardRecords ms s u := by
  unfold discardRecords
  rw [h]

theorem pollTaken_congr {s t : State} {a : ModAddr} (he : t.entry a = s.entry a) (hp : t.power = s.power)
    (hq : t.mgmtQueue = s.mgmtQueue) (hl : t.engine = s.engine) (ms : Nat) : pollTaken ms t a = pollTaken ms s a := by
  unfold pollTaken pingCalled State.mgmtHas State.mgmtOnLink
  rw [he, hp, hq, hl]

/-- `w` is `v`, whose intervals the records `l` have set, with the timers past them run out. -/
structure TimersCompared (l : List ImageRec) (v w : State) : Prop where
  calm      : Calm v w
  rest      : w = { v with slots := w.slots, modules := w.modules, events := w.events }
  kept      : (∀ rec ∈ l, rec.type = .timing → (rec.byte 1).toNat ≠ Param.index .discardTime) →
                w.slots = v.slots ∧ w.events = v.events
  discards  : ∀ rec ∈ l, rec.type = .timing → (rec.byte 1).toNat = Param.index .discardTime →
                (∀ i, vget w.slots i = discardsTaken rec.value v i) ∧ w.events = discardRecords rec.value v v.events
  polls     : ∀ rec ∈ l, ∀ a, rulesPolls rec (v.entry a) → w.entry a = pollTaken rec.value v a
  entryKept : ∀ a, (∀ rec ∈ l, ¬rulesPolls rec (v.entry a)) → w.entry a = v.entry a

theorem timersCompared {l : List ImageRec} {v : State} (hpass : AllPass l)
    (hvalue : ∀ rec ∈ l, rec.type = .timing → ∀ p, (rec.byte 1).toNat = Param.index p → v.timing.value p = rec.value) :
    TimersCompared l v (l.foldl compareRecord v) where
  calm := (foldl_compareRecord_calm l v).1
  rest := (foldl_compareRecord_calm l v).2
  kept hno := Prod.mk.inj (foldl_kept (g := fun u : State => (u.slots, u.events)) fun q hq u hu =>
    (compareRecord_slots fun h => hno q hq h.1 h.2).trans hu)
  discards rec hrec ht hp := by
    obtain ⟨before, after, hl, hbefore, hafter⟩ := pairwise_split hpass.2 hrec
    rw [hl, List.foldl_append, List.foldl_cons]
    have hrest := (foldl_compareRecord_calm before v).2
    have hsame := foldl_kept (f := compareRecord) (g := fun u : State => (u.slots, u.events)) (l := before) (s := v) fun q hq u hu =>
      (compareRecord_slots fun h => hbefore q hq (.of_byte (.inr (.inl rfl)) ht h.1 hp h.2)).trans hu
    generalize before.foldl compareRecord v = u at hrest hsame
    obtain ⟨hslots, hevents⟩ := Prod.mk.inj hsame
    have hlast := foldl_kept (f := compareRecord) (g := fun u : State => (u.slots, u.events)) (l := after)
      (s := compareRecord u rec) fun q hq x hx =>
        (compareRecord_slots fun h => hafter q hq (.of_byte (.inr (.inl rfl)) h.1 ht h.2 hp)).trans hx
    obtain ⟨hslots', hevents'⟩ := Prod.mk.inj hlast
    have hcomp := compareRecord_compared (u := u) ht hp
    have hms : u.timing.value .discardTime = rec.value := by
      rw [hrest]
      exact hvalue rec hrec ht _ hp
    refine ⟨fun i => ?_, ?_⟩
    · rw [hslots', hcomp.slots i, if_pos rfl, hms, discardsTaken_congr hslots]
    · rw [hevents', hcomp.events, if_pos rfl, hms, discardRecords_congr hslots, hevents]
  polls rec hrec a hrules := by
    obtain ⟨before, after, hl, hbefore, hafter⟩ := pairwise_split hpass.2 hrec
    rw [hl, List.foldl_append, List.foldl_cons]
    have honly : ∀ q, rulesPolls q (v.entry a) → NamesTheSame q rec ∧ NamesTheSame rec q := fun q hq => by
      obtain ⟨hqt, ⟨hqp, hqs⟩ | ⟨hqp, hqs⟩⟩ := hq <;> obtain ⟨ht, ⟨hp, hs⟩ | ⟨hp, hs⟩⟩ := hrules
      · exact ⟨.of_byte (.inr (.inl rfl)) hqt ht hqp hp, .of_byte (.inr (.inl rfl)) ht hqt hp hqp⟩
      · rw [hqs] at hs; cases hs
      · rw [hqs] at hs; cases hs
      · exact ⟨.of_byte (.inr (.inl rfl)) hqt ht hqp hp, .of_byte (.inr (.inl rfl)) ht hqt hp hqp⟩
    have hrest := (foldl_compareRecord_calm before v).2
    have hsame := foldl_kept (f := compareRecord) (g := fun u : State => u.entry a) (l := before) (s := v) fun q hq u hu =>
      (compareRecord_entry (by rw [hu]; exact fun h => hbefore q hq (honly q h).2)).trans hu
    generalize before.foldl compareRecord v = u at hrest hsame
    have htaken : (compareRecord u rec).entry a = pollTaken rec.value v a := by
      rw [compareRecord_polls (by rw [hsame]; exact hrules)
        fun p hp => by rw [hrest]; exact hvalue rec hrec hrules.1 p hp]
      exact pollTaken_congr hsame (by rw [hrest]) (by rw [hrest]) (by rw [hrest]) _
    refine (foldl_kept (f := compareRecord) (g := fun u : State => u.entry a) fun q hq x hx => ?_).trans htaken
    refine (compareRecord_entry fun h => hafter q hq (honly q ?_).1).trans hx
    rw [show x.entry a = pollTaken rec.value v a from hx.trans htaken, rulesPolls, (pollTaken_keeps _ _ _).1] at h
    exact h
  entryKept a hno := foldl_kept (g := fun u : State => u.entry a) fun q hq u hu =>
    (compareRecord_entry (by rw [hu]; exact hno q hq)).trans hu

end Sys2Proof.Machine
end

section
/-! PROOFS. The end of verification: a fault leaves the configuration, a good image is applied whole. -/

namespace Sys2Proof.Machine

/-! ### The image applied (R53, R181, R185) -/

/-- The binding table that the records of an image are added to: an image that has a binding begins with none (R181). -/
def bindingsBefore (l : List ImageRec) (s : State) : Vector (Option Binding) 14 :=
  if (l.any fun r => r.type = .binding) = true then Vector.replicate 14 none else s.bindings

theorem bindingsBefore_of_binding {l : List ImageRec} (h : ∃ rec ∈ l, rec.type = .binding) (s : State) :
    bindingsBefore l s = Vector.replicate 14 none :=
  if_pos (by simpa [List.any_eq_true] using h)

theorem bindingsBefore_of_no_binding {l : List ImageRec} (h : ∀ rec ∈ l, rec.type ≠ .binding) (s : State) :
    bindingsBefore l s = s.bindings :=
  if_neg (by simpa [List.any_eq_true] using h)

/-- `s` as the records of an image set it, before its timers are compared. -/
def configured (l : List ImageRec) (s : State) : State := l.foldl applyRecord { s with bindings := bindingsBefore l s }

theorem applyImage_eq (l : List ImageRec) (s : State) : applyImage l s =
    if (l.any fun r => r.type = .binding) = true then unpark (l.foldl compareRecord (configured l s))
    else l.foldl compareRecord (configured l s) := by
  have hstart : (if (l.any fun r => r.type = .binding) = true then { s with bindings := Vector.replicate 14 none } else s) =
      { s with bindings := bindingsBefore l s } := by
    unfold bindingsBefore
    split <;> rfl
  unfold applyImage configured
  dsimp only
  rw [hstart]

theorem calm_configured (l : List ImageRec) (s : State) : Calm s (configured l s) ∧ configured l s = { s with
    windows := (configured l s).windows, bindings := (configured l s).bindings, timing := (configured l s).timing
    events := { s.events with routes := (configured l s).events.routes } } := by
  have hrest := foldl_applyRecord_rest l { s with bindings := bindingsBefore l s }
  refine ⟨?_, hrest⟩
  unfold configured
  generalize l.foldl applyRecord { s with bindings := bindingsBefore l s } = v at hrest
  rw [hrest]
  exact ⟨rfl, rfl, rfl, rfl, fun _ => ⟨rfl, rfl, rfl⟩, rfl, rfl, ⟨id, id⟩, rfl, id, id⟩

/-- While autoload runs, discovery is not parked, and the image leaves it as it is (R29, R53). -/
theorem applyImage_of_suspended {l : List ImageRec} {s : State} (hs : s.suspended = true) (hdisc : DiscLaw s) :
    applyImage l s = l.foldl compareRecord (configured l s) := by
  have hunparked : unpark (l.foldl compareRecord (configured l s)) = l.foldl compareRecord (configured l s) := by
    refine if_neg fun hp => ?_
    rw [(foldl_compareRecord_calm l _).1.disc, (calm_configured l s).1.disc] at hp
    rw [not_suspended_of_parked hdisc hp] at hs
    cases hs
  rw [applyImage_eq, hunparked, ite_self]

theorem allPass_of_verify {staging : List Byte} {l : List ImageRec} (h : verify staging = .records l) : AllPass l := by
  obtain ⟨hvalid, -, hpair⟩ := contentFault_none l [] 1 (verify_records h)
  exact ⟨hvalid, hpair⟩

/-- `w` is `s` with the image of the records `l` applied (R181, R185). -/
structure ImageApplied (l : List ImageRec) (s w : State) : Prop where
  calm     : Calm s w
  rest     : w = { s with windows := w.windows, bindings := w.bindings, timing := w.timing, slots := w.slots, modules := w.modules
                          events := w.events }
  sets     : ∃ v, w.windows = v.windows ∧ w.bindings = v.bindings ∧ w.timing = v.timing ∧ w.events.routes = v.events.routes ∧
               RecordsSet l { s with bindings := bindingsBefore l s } v
  kept     : (∀ rec ∈ l, rec.type = .timing → (rec.byte 1).toNat ≠ Param.index .discardTime) →
               w.slots = s.slots ∧ w.events = { s.events with routes := w.events.routes }
  discards : ∀ rec ∈ l, rec.type = .timing → (rec.byte 1).toNat = Param.index .discardTime →
               (∀ i, vget w.slots i = discardsTaken rec.value s i) ∧
               w.events = discardRecords rec.value s { s.events with routes := w.events.routes }
  polls    : ∀ rec ∈ l, ∀ a, rulesPolls rec (s.entry a) → w.entry a = pollTaken rec.value s a
  entry    : ∀ a, (∀ rec ∈ l, ¬rulesPolls rec (s.entry a)) → w.entry a = s.entry a

theorem post_routes (u : EventUnit) (p : Posted) : (u.post p).routes = u.routes := by
  unfold EventUnit.post EventUnit.countLost EventUnit.append
  split_ifs <;> rfl

theorem discardRecords_routes (ms : Nat) (s : State) (u : EventUnit) : (discardRecords ms s u).routes = u.routes := by
  refine foldl_kept (g := EventUnit.routes) fun i _ v hv => ?_
  split
  · split
    · exact (post_routes ..).trans hv
    · exact hv
  · exact hv
  · exact hv

theorem imageApplied {l : List ImageRec} {s : State} (hs : s.suspended = true) (hdisc : DiscLaw s) (hpass : AllPass l) :
    ImageApplied l s (applyImage l s) := by
  rw [applyImage_of_suspended hs hdisc]
  obtain ⟨hcalm, hrest⟩ := calm_configured l s
  have hsets : RecordsSet l _ (configured l s) := recordsSet hpass { s with bindings := bindingsBefore l s }
  have hcomp := timersCompared (v := configured l s) hpass hsets.timing
  generalize configured l s = v at hcalm hrest hsets hcomp
  generalize l.foldl compareRecord v = w at hcomp
  have hwrest := hcomp.rest
  have hslots : v.slots = s.slots := by rw [hrest]
  have hentry : ∀ a, v.entry a = s.entry a := fun a => by rw [hrest]; rfl
  have hevents : v.events = { s.events with routes := v.events.routes } := by rw [hrest]
  have hroutes : w.events.routes = v.events.routes := by
    by_cases h : ∃ rec ∈ l, rec.type = .timing ∧ (rec.byte 1).toNat = Param.index .discardTime
    · obtain ⟨rec, hrec, ht, hp⟩ := h
      rw [(hcomp.discards rec hrec ht hp).2, discardRecords_routes]
    · rw [(hcomp.kept fun rec hrec ht hp => h ⟨rec, hrec, ht, hp⟩).2]
  refine ⟨hcalm.trans hcomp.calm, ?_, ⟨v, by rw [hwrest], by rw [hwrest], by rw [hwrest], hroutes, hsets⟩, fun hno => ?_,
    fun rec hrec ht hp => ?_, fun rec hrec a hrules => ?_, fun a hno => ?_⟩
  · rw [hwrest, hrest]
  · obtain ⟨hkept, hkept'⟩ := hcomp.kept hno
    exact ⟨hkept.trans hslots, by rw [hroutes, hkept', ← hevents]⟩
  · obtain ⟨htaken, hrecords⟩ := hcomp.discards rec hrec ht hp
    refine ⟨fun i => by rw [htaken i, discardsTaken_congr hslots], ?_⟩
    rw [hroutes, hrecords, discardRecords_congr hslots, ← hevents]
  · rw [hcomp.polls rec hrec a (by rw [hentry a]; exact hrules)]
    exact pollTaken_congr (hentry a) (by rw [hrest]) (by rw [hrest]) (by rw [hrest]) _
  · rw [hcomp.entryKept a fun rec hrec => by rw [hentry a]; exact hno rec hrec, hentry a]

end Sys2Proof.Machine
end

section
/-! PROOFS. What the close of an event keeps; AUTOLOAD_VERIFY_END and what each end of a run is followed by. -/

namespace Sys2Proof.Machine

/-! ### What an event's close keeps of the event unit, the power and the attention -/

/-- `w` is `u` with what blocks post: its modes and routes, and its first record where that is no OVERFLOW record. -/
structure EventsGrow (u w : EventUnit) : Prop where
  routes : w.routes = u.routes
  mode   : w.mode = u.mode
  line0  : w.line0En = u.line0En
  line1  : w.line1En = u.line1En
  stale  : w.staleRelease = u.staleRelease
  head   : ∀ r l, u.list = r :: l → r.kind ≠ .overflow → ∃ rest, w.list = r :: rest

theorem EventsGrow.refl (u : EventUnit) : EventsGrow u u := ⟨rfl, rfl, rfl, rfl, rfl, fun _ l h _ => ⟨l, h⟩⟩

theorem EventsGrow.trans {u v w : EventUnit} (h : EventsGrow u v) (k : EventsGrow v w) : EventsGrow u w where
  routes := k.routes.trans h.routes
  mode := k.mode.trans h.mode
  line0 := k.line0.trans h.line0
  line1 := k.line1.trans h.line1
  stale := k.stale.trans h.stale
  head r l hl hr := by
    obtain ⟨rest, hrest⟩ := h.head r l hl hr
    exact k.head r rest hrest hr

theorem eventsGrow_append (u : EventUnit) (p : Posted) (held : Bool) : EventsGrow u (u.append p held) :=
  ⟨rfl, rfl, rfl, rfl, rfl, fun r l hl _ => ⟨l ++ _, by rw [EventUnit.append, hl, List.cons_append]⟩⟩

theorem eventsGrow_countLost (u : EventUnit) : EventsGrow u u.countLost :=
  ⟨rfl, rfl, rfl, rfl, rfl, fun r l hl hr => ⟨l.map _, by rw [EventUnit.countLost, hl, List.map_cons, if_neg hr]⟩⟩

theorem eventsGrow_post (u : EventUnit) (p : Posted) : EventsGrow u (u.post p) := by
  unfold EventUnit.post
  split
  · exact .refl u
  · split
    · exact eventsGrow_countLost u
    · split
      · exact eventsGrow_append u p false
      · exact eventsGrow_append u _ false

theorem WorkFollows.eventsGrow {s t : State} (h : WorkFollows s t) : EventsGrow s.events t.events := by
  obtain ⟨_, _, _, _, -, -, -, -, hadded⟩ := h.work
  rw [hadded.events]
  exact ⟨rfl, rfl, rfl, rfl, rfl, fun _ l h _ => ⟨l, h⟩⟩

/-- Follow-up work makes no entry HELD. -/
theorem WorkFollows.not_held {s t : State} (h : WorkFollows s t) {a : ModAddr} (ha : (s.entry a).attention ≠ .held) :
    (t.entry a).attention ≠ .held := by
  obtain ⟨_, _, _, _, -, -, -, -, hadded⟩ := h.work
  rw [hadded.entry a]
  dsimp only
  split
  · decide
  · exact ha

theorem WorkFollows.retain {s t : State} (h : WorkFollows s t) : t.power.retain = s.power.retain := by
  obtain ⟨-, hk⟩ | ⟨-, hk⟩ := h.power <;> rw [hk]

theorem wakeLink_retain (r : WakeReason) (s : State) : (wakeLink r s).power.retain = s.power.retain := by
  rw [wakeLink_power]
  split <;> rfl

theorem wakeLink_events (r : WakeReason) (s : State) : (wakeLink r s).events = s.events.post (wakeRecord r) := by
  by_cases h : s.timing.settleTime = 0
  · exact congrArg State.events (wakeLink_at_once r h).1
  · exact congrArg State.events (wakeLink_settling r h)

/-- What every event's close keeps. -/
structure CloseKeeps (s t : State) : Prop where
  rest    : t = { s with modules := t.modules, mgmtQueue := t.mgmtQueue, disc := t.disc, attn := t.attn, events := t.events
                         power := t.power }
  events  : EventsGrow s.events t.events
  notHeld : ∀ a, (s.entry a).attention ≠ .held → (t.entry a).attention ≠ .held
  retain  : t.power.retain = s.power.retain

theorem CloseKeeps.trans {s t u : State} (h : CloseKeeps s t) (k : CloseKeeps t u) : CloseKeeps s u where
  rest := by
    have hs := h.rest
    generalize t.modules = a, t.mgmtQueue = b, t.disc = c, t.attn = d, t.events = e, t.power = f at hs
    rw [k.rest, hs]
  events := h.events.trans k.events
  notHeld a ha := k.notHeld a (h.notHeld a ha)
  retain := k.retain.trans h.retain

theorem WorkFollows.closeKeeps {s t : State} (h : WorkFollows s t) : CloseKeeps s t :=
  ⟨h.rest, h.eventsGrow, fun _ => h.not_held, h.retain⟩

theorem closeKeeps_wakeLink (r : WakeReason) (s : State) : CloseKeeps s (wakeLink r s) where
  rest := by
    have h := (wakeKeeps_wakeLink r s).rest
    generalize wakeLink r s = t at h
    rw [h]
  events := by
    rw [wakeLink_events]
    exact eventsGrow_post _ _
  notHeld a ha := by
    rw [(wakeKeeps_wakeLink r s).entry a]
    exact ha
  retain := wakeLink_retain r s

theorem FollowUp.closeKeeps {s t : State} (h : FollowUp s t) : CloseKeeps s t := by
  obtain ⟨u, hwork, v, hv, hclose⟩ := h
  have hsleep : CloseKeeps u v := by
    rw [hv]
    split <;> exact ⟨rfl, .refl _, fun _ h => h, rfl⟩
  split at hclose
  · exact hwork.closeKeeps.trans (hsleep.trans ((closeKeeps_wakeLink _ v).trans hclose.closeKeeps))
  · rw [hclose]
    exact hwork.closeKeeps.trans hsleep

/-! ### The end of verification (R177 to R187) -/

/-- Where a reset is pending, DISABLED discovery stays so (R29). -/
theorem WorkFollows.stays_disabled {s t : State} (h : WorkFollows s t) (hd : s.disc.state = .disabled)
    (hr : s.engine.resetPending = true) : t.disc.state = .disabled := by
  obtain ⟨d, kept, item, added, hmoves, -, hdisc, -⟩ := h.work
  have hsuspended : t.suspended = true := by
    rw [h.rest]
    simp [State.suspended, hr]
  rw [hdisc]
  obtain ⟨-, hk, -⟩ | ⟨-, -, ⟨-, -, -, hk⟩ | ⟨-, hk, -⟩⟩ := hmoves
  · rw [hk]; exact hd
  · rw [hk]
  · rw [hsuspended] at hk; cases hk

theorem FollowUp.stays_disabled {s t : State} (h : FollowUp s t) (hd : s.disc.state = .disabled)
    (hr : s.engine.resetPending = true) : t.disc.state = .disabled := by
  obtain ⟨u, hwork, v, hv, hclose⟩ := h
  have hud := hwork.stays_disabled hd hr
  have hur : u.engine.resetPending = true := by rw [hwork.rest]; exact hr
  have hvd : v.disc.state = .disabled ∧ v.engine.resetPending = true := by
    rw [hv]
    split <;> exact ⟨hud, hur⟩
  split at hclose
  · have hwoken := wakeKeeps_wakeLink .attention v
    generalize wakeLink .attention v = x at hclose hwoken
    exact hclose.stays_disabled (by rw [hwoken.rest]; exact hvd.1) (by rw [hwoken.rest]; exact hvd.2)
  · rw [hclose]; exact hvd.1

theorem exec_autoloadVerifyEnd {s : State} (hhold : s.pins.hold = false) (hph : s.autoload.phase = .verifying) :
    (∀ f, verify s.autoload.staging = .fault f → exec .autoloadVerifyEnd s =
      .next (endRun (recordFault (headerCount s.autoload.staging) f.reason f.number) s)) ∧
    (∀ l, verify s.autoload.staging = .records l → exec .autoloadVerifyEnd s =
      .next (endRun (loadedEnd (headerCount s.autoload.staging)) (applyImage l s))) := by
  have hexec : exec .autoloadVerifyEnd s = .next (verifyEnds s) := congrArg Host.Outcome.next (whenLive_live verifyEnds s hhold)
  refine ⟨fun f hf => ?_, fun l hl => ?_⟩
  · rw [hexec, verifyEnds, if_pos hph, hf]
  · rw [hexec, verifyEnds, if_pos hph, hl]

/-- What follows for discovery as a run ends (R29, R186). -/
theorem endRun_discovery {e : RunEnd} {s w t : State} (h : FollowUp (runClosed e w) t) (hcalm : Calm s w)
    (hengine : w.engine = s.engine) :
    (s.disc.state = .disabled → s.power.state = .active → s.engine.link = .free → s.engine.resetPending = false →
      t.disc.state = .querying ∧ QueryUnderWay t) ∧
    (s.disc.state = .disabled → s.engine.resetPending = true → t.disc.state = .disabled) := by
  have hrest := runClosed_rest e w
  generalize runClosed e w = u at h hrest
  have hdisc : u.disc.state = s.disc.state := by rw [hrest]; exact hcalm.disc
  have hlink : u.engine = s.engine := by rw [hrest]; exact hengine
  refine ⟨fun hd hp hl hr => ?_, fun hd hr => h.stays_disabled (hdisc.trans hd) (by rw [hlink, hr])⟩
  exact h.query_of_disabled (hdisc.trans hd) (not_suspended_of_free (by rw [hrest]; rfl) (by rw [hrest]; exact hcalm.power.trans hp)
    (by rw [hlink, hl]) (by rw [hlink, hr]))

theorem verifyEnd_fault {s : State} (hhold : s.pins.hold = false) (hph : s.autoload.phase = .verifying) (hhead : HeadLaw s)
    {f : RecFault} (hf : verify s.autoload.staging = .fault f) : ∃ t, exec .autoloadVerifyEnd s = .next t ∧
    FollowUp (runClosed (recordFault (headerCount s.autoload.staging) f.reason f.number) s) t :=
  ⟨_, (exec_autoloadVerifyEnd hhold hph).1 f hf, endRun_followUp _ hhead⟩

theorem verifyEnd_records {s : State} (hhold : s.pins.hold = false) (hph : s.autoload.phase = .verifying) (hquiet : QuietLaw s)
    {l : List ImageRec} (hl : verify s.autoload.staging = .records l) : ∃ t w, exec .autoloadVerifyEnd s = .next t ∧
    ImageApplied l s w ∧ FollowUp (runClosed (loadedEnd (headerCount s.autoload.staging)) w) t := by
  have hs : s.suspended = true := by simp [State.suspended, State.autoloadRuns, hph]
  have happlied := imageApplied hs hquiet.disc (allPass_of_verify hl)
  exact ⟨_, _, (exec_autoloadVerifyEnd hhold hph).2 l hl, happlied, endRun_followUp _ (happlied.calm.quietLaw hquiet).head⟩

/-- The records and the mailbox as a run that loaded an image closes (R134, R182). -/
structure LoadCloses (count : Nat) (w u : State) : Prop where
  rest    : u = { runEnded (loadedEnd count) w with events := u.events, mbx := u.mbx }
  routes  : u.events.routes = w.events.routes
  alone   : w.autoload.startedBy = .cold ∨ w.mbx.runs opReload = false → u.mbx = w.mbx ∧
              u.events = w.events.post ⟨.autoloadDone, none, 1, BitVec.ofNat 32 count, 0, 0⟩
  reloads : w.autoload.startedBy = .reload ∧ w.mbx.runs opReload = true →
              u.mbx = { w.mbx with state := .done, result := .loaded } ∧
              u.events = (w.events.post ⟨.autoloadDone, none, 1, BitVec.ofNat 32 count, 0, 0⟩).post
                ⟨.mailboxDone, none, 31, w.mbx.op.setWidth 32, 0, 0⟩

theorem loadCloses (count : Nat) (w : State) : LoadCloses count w (runClosed (loadedEnd count) w) := by
  refine ⟨runClosed_rest _ _, ?_, fun halone => ?_, fun ⟨hby, hrun⟩ => ?_⟩
  · obtain halone | ⟨hby, hrun⟩ := alone_or_reloads w
    · rw [runClosed_alone halone]
      exact post_routes ..
    · rw [runClosed_loaded hby hrun rfl]
      exact (post_routes ..).trans (post_routes ..)
  · rw [runClosed_alone halone]
    exact ⟨rfl, rfl⟩
  · rw [runClosed_loaded hby hrun rfl]
    exact ⟨rfl, rfl⟩

/-- Settles O57: the laws of the verification, and the end of a run in a state that the image, where it is good, has set. -/
theorem autoloadVerifies : Obligations.AutoloadVerifies := by
  refine ⟨imageVerified, recordSays, fun s hhold hph hquiet => ⟨?_, fun f hf => ?_, fun l hl => ?_⟩⟩
  · cases hverify : verify s.autoload.staging with
    | fault f =>
      obtain ⟨t, hexec, hfollow⟩ := verifyEnd_fault hhold hph hquiet.head hverify
      exact ⟨t, hexec, endRun_discovery hfollow (.refl s) rfl⟩
    | records l =>
      obtain ⟨t, w, hexec, happlied, hfollow⟩ := verifyEnd_records hhold hph hquiet hverify
      exact ⟨t, hexec, endRun_discovery hfollow happlied.calm (by rw [happlied.rest])⟩
  · obtain ⟨t, hexec, hfollow⟩ := verifyEnd_fault hhold hph hquiet.head hf
    refine ⟨t, hexec, fun halone => ?_, fun ⟨hby, hrun⟩ => ?_⟩
    · rw [runClosed_alone halone] at hfollow
      exact hfollow
    · rw [runClosed_failed hby hrun LoadOutcome.noConfusion] at hfollow
      exact hfollow
  · obtain ⟨t, w, hexec, happlied, hfollow⟩ := verifyEnd_records hhold hph hquiet hl
    have hclose := loadCloses (headerCount s.autoload.staging) w
    generalize runClosed (loadedEnd (headerCount s.autoload.staging)) w = u at hfollow hclose
    have hu := hclose.rest
    have hw := happlied.rest
    obtain ⟨v, hvwindows, hvbindings, hvtiming, hvroutes, hset⟩ := happlied.sets
    have hby : w.autoload = s.autoload := by rw [hw]
    have hmail : w.mbx = s.mbx := by rw [hw]
    have halone := hclose.alone
    have hreloads := hclose.reloads
    rw [hby, hmail] at halone hreloads
    obtain ⟨-, -, -, -, htiming, hwindows, hqueue, hslots, -, hmbx, hengine, hbindings, hautoload⟩ := hfollow.fields
    have htw : t.windows = w.windows := hwindows.trans (by rw [hu]; rfl)
    have htt : t.timing = w.timing := htiming.trans (by rw [hu]; rfl)
    have htb : t.bindings = w.bindings := hbindings.trans (by rw [hu]; rfl)
    have hts : t.slots = w.slots := hslots.trans (by rw [hu]; rfl)
    have hta : t.autoload = { phase := .idle, lastOutcome := .loaded, recordCount := headerCount s.autoload.staging
                              faultReason := .none, faultRecord := 0, startedBy := s.autoload.startedBy, staging := [] } :=
      hautoload.trans (by rw [hu, ← hby]; rfl)
    have htr : t.events.routes = w.events.routes := hfollow.closeKeeps.events.routes.trans hclose.routes
    have htroute : ∀ k, t.events.routeOf k = v.events.routeOf k := fun k => congrArg (vget · (kindIndex k)) (htr.trans hvroutes)
    have humodules : u.modules = w.modules := by rw [hu]; rfl
    have huentry : ∀ a, u.entry a = w.entry a := fun a => by rw [hu]; rfl
    refine ⟨t, hexec, hta, ?_, ?_, ?_, ?_, ?_, ?_, ?_, ?_, ?_, ?_, ?_, ?_, ?_, ?_, ?_, u, w.events, hfollow, ?_, ?_, ?_, ?_, ?_, ?_, ?_⟩
    · rw [htw, hvwindows]
      exact hset.window
    · rw [htw, hvwindows]
      exact hset.windowKept
    · rw [htt, hvtiming]
      exact hset.timing
    · rw [htt, hvtiming]
      exact hset.timingKept
    · intro hnone
      refine htb.trans (hvbindings.trans (vget_ext fun a => ?_))
      refine (hset.bindingKept a fun rec hrec ht => absurd ht (hnone rec hrec)).trans ?_
      rw [bindingsBefore_of_no_binding hnone]
    · rw [htb, hvbindings]
      exact hset.binding
    · intro hbinding a hno
      rw [htb, hvbindings, hset.bindingKept a hno, bindingsBefore_of_binding hbinding]
      exact vget_replicate ..
    · intro rec hrec ht k r hk hr
      exact (htroute k).trans (hset.route rec hrec ht k r hk hr)
    · intro k hno
      exact (htroute k).trans (hset.routeKept k hno)
    · exact fun h => hmbx.trans (halone h).1
    · exact fun h => hmbx.trans (hreloads h).1
    · rw [hqueue, hu, hw]
      rfl
    · rw [hengine, hu, hw]
      rfl
    · exact fun hno => hts.trans (happlied.kept hno).1
    · rw [hts]
      exact fun rec hrec ht hp => (happlied.discards rec hrec ht hp).1
    · rw [hta, htw, htt, htb, hts, hmbx, humodules]
      exact hu.trans (congrArg (fun x : State => { runEnded (loadedEnd (headerCount s.autoload.staging)) x with
        events := u.events, mbx := u.mbx }) hw)
    · exact fun h => (halone h).2
    · exact fun h => (hreloads h).2
    · rw [htr]
      exact fun hno => (happlied.kept hno).2
    · rw [htr]
      exact fun rec hrec ht hp => (happlied.discards rec hrec ht hp).2
    · intro rec hrec ht a hrules
      exact (huentry a).trans (happlied.polls rec hrec a ⟨ht, hrules⟩)
    · intro a hno
      refine (huentry a).trans (happlied.entry a fun rec hrec hrules => ?_)
      obtain ⟨ht, hp | hp⟩ := hrules
      exacts [(hno rec hrec ht).1 hp, (hno rec hrec ht).2 hp]

end Sys2Proof.Machine
end

section
/-! PROOFS. The broadcast and the settle: the table cleared entry by entry, what the event is followed by where every entry is EMPTY,
and the posted writes that fail. -/

namespace Sys2Proof.Machine

/-! ### The table cleared (R46) -/

/-- The entry as a link reset leaves it: one that was not EMPTY keeps its generation and its seq. -/
def clearedEntry (e : Entry) : Entry := if e.state = .empty then e else { generation := e.generation, seq := e.seq }

/-- The step of the fold that clears the table. -/
def leaveAtReset (v : State) (a : ModAddr) : State := if (v.entry a).state = .empty then v else leave a .linkReset v

theorem leaveAtReset_left (v : State) (a : ModAddr) :
    leaveAtReset v a = if (v.entry a).state = .empty then v else entryLeft a (moduleLeft v a 4) .overtaken v := by
  unfold leaveAtReset
  rw [leave_eq]
  rfl

theorem leaveAtReset_eq : leaveAtReset =
    fun v a => if (v.entry a).state = .empty then v else entryLeft a (moduleLeft v a 4) .overtaken v :=
  funext fun v => funext fun a => leaveAtReset_left v a

/-- `v`, whose entries have left, with nothing queued for them, no sweep, no line and no query (R46, R141). -/
def tableEmptied (v : State) : State :=
  { v with mgmtQueue := [], attn := { v.attn with sweep := none }, cache := {}
           disc := { v.disc with state := .disabled, waiting := none, queryTimer := none } }

theorem clearTable_eq (s : State) : clearTable s = tableEmptied (allAddrs.foldl leaveAtReset s) := by
  unfold clearTable
  dsimp only
  rw [show (fun (t : State) (a : ModAddr) => if (t.entry a).state = .empty then t else leave a .linkReset t) = leaveAtReset from rfl]
  generalize allAddrs.foldl leaveAtReset s = v
  rfl

theorem leaveAtReset_entry (v : State) (a b : ModAddr) :
    (leaveAtReset v a).entry b = if a = b then clearedEntry (v.entry b) else v.entry b := by
  unfold leaveAtReset clearedEntry
  split
  · next h =>
    by_cases hab : a = b
    · rw [if_pos hab, if_pos (hab ▸ h)]
    · rw [if_neg hab]
  · next h =>
    rw [entry_leave]
    by_cases hab : a = b
    · subst hab
      rw [if_pos rfl, if_pos rfl, if_neg h]
    · rw [if_neg hab, if_neg hab]

theorem clearedEntry_again (e : Entry) : clearedEntry (clearedEntry e) = clearedEntry e := by
  unfold clearedEntry
  by_cases h : e.state = .empty
  · rw [if_pos h, if_pos h]
  · rw [if_neg h]
    exact if_pos rfl

theorem foldl_leaveAtReset_entry (l : List ModAddr) (v : State) (b : ModAddr) :
    (l.foldl leaveAtReset v).entry b = if b ∈ l then clearedEntry (v.entry b) else v.entry b := by
  induction l generalizing v with
  | nil => rw [if_neg (List.not_mem_nil)]; rfl
  | cons a l ih =>
    rw [List.foldl_cons, ih, leaveAtReset_entry]
    by_cases hab : a = b
    · subst hab
      rw [if_pos rfl, clearedEntry_again, ite_self, if_pos (List.mem_cons_self ..)]
    · rw [if_neg hab]
      exact if_congr (by simp [Ne.symm hab]) rfl rfl

/-- What the leave of an entry leaves as it is; it ends no command but a FORGET. -/
theorem leaveAtReset_rest (v : State) (a : ModAddr) : leaveAtReset v a = { v with
      modules := (leaveAtReset v a).modules, mgmtQueue := (leaveAtReset v a).mgmtQueue, cache := (leaveAtReset v a).cache
      disc := (leaveAtReset v a).disc, attn := (leaveAtReset v a).attn, events := (leaveAtReset v a).events
      mbx := (leaveAtReset v a).mbx } ∧
    (leaveAtReset v a).mbx.op = v.mbx.op ∧ (v.mbx.op ≠ 6 → (leaveAtReset v a).mbx = v.mbx) := by
  rw [leaveAtReset_left]
  split
  · exact ⟨rfl, rfl, fun _ => rfl⟩
  · unfold entryLeft
    dsimp only
    split
    · next h => exact ⟨rfl, rfl, fun hop => absurd h.2.1 hop⟩
    · exact ⟨rfl, rfl, fun _ => rfl⟩

theorem foldl_leaveAtReset_rest (l : List ModAddr) (v : State) : l.foldl leaveAtReset v = { v with
      modules := (l.foldl leaveAtReset v).modules, mgmtQueue := (l.foldl leaveAtReset v).mgmtQueue
      cache := (l.foldl leaveAtReset v).cache, disc := (l.foldl leaveAtReset v).disc, attn := (l.foldl leaveAtReset v).attn
      events := (l.foldl leaveAtReset v).events, mbx := (l.foldl leaveAtReset v).mbx } ∧
    (l.foldl leaveAtReset v).mbx.op = v.mbx.op ∧ (v.mbx.op ≠ 6 → (l.foldl leaveAtReset v).mbx = v.mbx) := by
  refine List.foldlRecOn (motive := fun u : State => u = { v with
      modules := u.modules, mgmtQueue := u.mgmtQueue, cache := u.cache, disc := u.disc, attn := u.attn, events := u.events
      mbx := u.mbx } ∧ u.mbx.op = v.mbx.op ∧ (v.mbx.op ≠ 6 → u.mbx = v.mbx)) l leaveAtReset ⟨rfl, rfl, fun _ => rfl⟩
    fun u ⟨hu, hop, hmbx⟩ a _ => ?_
  obtain ⟨hrest, kop, kmbx⟩ := leaveAtReset_rest u a
  generalize leaveAtReset u a = x at hrest kop kmbx
  refine ⟨by rw [hrest, hu], kop.trans hop, fun h => (kmbx (by rwa [hop])).trans (hmbx h)⟩

/-- `w` is `v` but for the link and discovery. -/
def SameButLink (v w : State) : Prop := w = { v with engine := w.engine, disc := w.disc }

theorem SameButLink.leaveAtReset {v w : State} (h : SameButLink v w) (a : ModAddr) :
    SameButLink (leaveAtReset v a) (leaveAtReset w a) := by
  unfold SameButLink at h ⊢
  generalize w.engine = g, w.disc = d at h
  subst h
  rw [leaveAtReset_left, leaveAtReset_left]
  by_cases he : (v.entry a).state = .empty
  · rw [if_pos he, if_pos (show (State.entry { v with engine := g, disc := d } a).state = .empty from he)]
  · rw [if_neg he, if_neg (show ¬(State.entry { v with engine := g, disc := d } a).state = .empty from he)]
    unfold entryLeft
    dsimp only
    split <;> rfl

theorem SameButLink.foldl {v w : State} (h : SameButLink v w) (l : List ModAddr) :
    SameButLink (l.foldl Machine.leaveAtReset v) (l.foldl Machine.leaveAtReset w) := by
  induction l generalizing v w with
  | nil => exact h
  | cons a l ih => exact ih (h.leaveAtReset a)

/-! ### What follows where every entry is EMPTY -/

/-- Every entry is EMPTY, and nothing is due for it. -/
def Vacant (s : State) : Prop := ∀ a, (s.entry a).state = .empty ∧ (s.entry a).attention = .none ∧ (s.entry a).pingDue = false ∧
  (s.entry a).releaseDue = false

theorem Vacant.sweepSet {s : State} (h : Vacant s) : sweepSet s = [] := by
  refine List.filter_eq_nil_iff.mpr fun a _ => ?_
  simp [(h a).1]

theorem Vacant.of_modules {s t : State} (h : Vacant s) (hm : t.modules = s.modules) : Vacant t := fun a => by
  unfold State.entry
  rw [hm]
  exact h a

/-- With every entry EMPTY, the follow-up work adds nothing but a JOIN_QUERY. -/
theorem WorkFollows.of_vacant {x y : State} (h : WorkFollows x y) (hv : Vacant x) (hsweep : x.attn.sweep = none)
    (hqueue : x.mgmtQueue = []) (hd : x.disc.state = .disabled) (hw : x.disc.waiting = none) :
    Vacant y ∧ y.attn.sweep = none ∧ (y.mgmtQueue = [] ∨ y.mgmtQueue = [.joinQuery]) ∧
      (y.suspended = true → y.mgmtQueue = [] ∧ y.disc.state = .disabled ∧ y.disc.waiting = none) ∧ y.events = x.events := by
  obtain ⟨d, kept, item, added, hmoves, hitem, hdisc, hq, hadded⟩ := h.work
  have hnone : added = [] := List.eq_nil_iff_forall_not_mem.mpr fun m hm => by
    obtain ⟨hdue, -⟩ := (hadded.chosen m).mp hm
    cases m with
    | joinQuery | assign | descRead => exact hdue
    | release a g => exact absurd hdue.2 (by rw [(hv a).2.2.2]; decide)
    | attnClear a g w => exact absurd hdue.2.1 (by rw [(hv a).2.1]; decide)
    | attnFetch a g => exact absurd hdue.2.1 (by rw [(hv a).2.1]; decide)
    | ping a g => exact absurd hdue.2 (by simp [pingFallsDue, (hv a).2.2.1, hv.sweepSet])
  subst hnone
  have hentry : Vacant y := fun a => by
    rw [hadded.entry a]
    refine ⟨(hv a).1, by simp [(hv a).2.1], by simp [pingFallsDue, (hv a).2.2.1, hv.sweepSet], by simp [(hv a).2.2.2]⟩
  have hkept : kept = [] := by
    obtain ⟨-, -, hk⟩ | ⟨-, hk, -⟩ := hmoves
    · rw [hk, hqueue]
    · rw [hk, hqueue, List.filter_nil, ite_self]
  have hcases : d.waiting = none ∧ d.state = .disabled ∨ d.waiting = some .joinQuery ∧ y.suspended = false := by
    obtain ⟨-, hk, -⟩ | ⟨-, -, ⟨-, -, -, hk⟩ | ⟨-, hs, hk⟩⟩ := hmoves
    · exact .inl (by rw [hk]; exact ⟨hw, hd⟩)
    · exact .inl (by rw [hk]; exact ⟨rfl, rfl⟩)
    · exact .inr (by rw [hk]; exact ⟨rfl, hs⟩)
  rw [hkept, List.nil_append, List.append_nil] at hq
  rw [hkept, if_pos (by decide)] at hitem
  refine ⟨hentry, ?_, ?_, fun hs => ?_, ?_⟩
  · obtain ⟨-, -, hk⟩ | ⟨-, -, hk⟩ := h.sweep
    · rw [hk, hsweep]
    · rw [hk, if_pos hv.sweepSet]
  · rw [hq, hitem]
    obtain ⟨hk, -⟩ | ⟨hk, -⟩ := hcases
    · exact .inl (by rw [hk]; rfl)
    · exact .inr (by rw [hk]; rfl)
  · obtain ⟨hk, hst⟩ | ⟨-, hno⟩ := hcases
    · exact ⟨by rw [hq, hitem, hk]; rfl, by rw [hdisc]; exact hst, by rw [hdisc, hitem, hk]; rfl⟩
    · rw [hs] at hno; cases hno
  · rw [hadded.events]
    simp

theorem Vacant.wakeLink {s : State} (h : Vacant s) (r : WakeReason) : Vacant (wakeLink r s) := by
  by_cases ht : s.timing.settleTime = 0
  · intro a
    rw [(wakeLink_at_once r ht).2 a, presentCalled, if_neg (by simp [(h a).1])]
    exact h a
  · exact h.of_modules (by rw [wakeLink_settling r ht])

/-- The close of an event with every entry EMPTY. -/
theorem ClosesAs.of_vacant {x y : State} (h : ClosesAs x y) (hv : Vacant x) (hsweep : x.attn.sweep = none)
    (hqueue : x.mgmtQueue = [] ∨ x.mgmtQueue = [.joinQuery])
    (hs : x.suspended = true → x.mgmtQueue = [] ∧ x.disc.state = .disabled ∧ x.disc.waiting = none) :
    Vacant y ∧ y.attn.sweep = none ∧ (y.mgmtQueue = [] ∨ y.mgmtQueue = [.joinQuery]) := by
  obtain ⟨v, hvx, hclose⟩ := h
  have hrest : v = { x with power := v.power } := by
    rw [hvx]
    split <;> rfl
  have hasleep : v.power.state = .asleep → x.power.state ≠ .active := fun hp hact => by
    rw [hvx, if_neg fun h => absurd (hact.symm.trans h.1) (by decide)] at hp
    rw [hact] at hp
    cases hp
  split at hclose
  · next hwakes =>
    have hsuspended : x.suspended = true := by simp [State.suspended, hasleep hwakes.1]
    obtain ⟨hq, hd, hw⟩ := hs hsuspended
    have hkeeps := wakeKeeps_wakeLink .attention v
    have hvacant : Vacant (wakeLink .attention v) := (hv.of_modules (by rw [hrest])).wakeLink _
    generalize wakeLink .attention v = z at hclose hkeeps hvacant
    obtain ⟨hy, hys, hyq, -⟩ := hclose.of_vacant hvacant (by rw [hkeeps.sweep, hrest]; exact hsweep)
      (by rw [hkeeps.rest, hrest]; exact hq) (by rw [hkeeps.rest, hrest]; exact hd) (by rw [hkeeps.rest, hrest]; exact hw)
    exact ⟨hy, hys, hyq⟩
  · rw [hclose, hrest]
    exact ⟨hv.of_modules rfl, hsweep, hqueue⟩

/-! ### The posted writes that fail (R86, R91) -/

theorem headCheck_of_empty {e : HostEntry} {s : State} (hc : e.cancelled = false) (he : (s.entry e.addr).state = .empty) :
    headCheck e s = some .stale := by
  unfold headCheck
  dsimp only
  rw [if_neg (by rw [hc]; decide), if_pos (.inr (.inl he))]

theorem headCheck_of_empty_ne {e : HostEntry} {s : State} (he : (s.entry e.addr).state = .empty) : headCheck e s ≠ none := by
  cases hc : e.cancelled with
  | false => rw [headCheck_of_empty hc he]; exact fun h => by cases h
  | true =>
    unfold headCheck
    dsimp only
    rw [if_pos hc]
    exact fun h => by cases h

/-- The posted writes of a queue fail STALE in its order where every entry is EMPTY. -/
theorem failHeads_writes {q : List HostEntry} {s : State} (hq : s.hostQueue = q) (hempty : ∀ a, (s.entry a).state = .empty)
    (hwrites : ∀ e ∈ q, e.origin = .windowWrite ∧ e.cancelled = false) :
    (failHeads q.length s).events = q.foldl (fun v e => v.post (writeFailedRecord e .stale)) s.events := by
  induction q generalizing s with
  | nil => rfl
  | cons e q ih =>
    obtain ⟨ho, hc⟩ := hwrites e (List.mem_cons_self ..)
    have hstep : failHeads (e :: q).length s = failHeads q.length (deliver e .stale none { s with hostQueue := q }) := by
      rw [List.length_cons, failHeads, hq]
      dsimp only
      rw [headCheck_of_empty hc (hempty e.addr)]
    have hdeliver : deliver e .stale none { s with hostQueue := q } =
        { s with hostQueue := q, events := s.events.post (writeFailedRecord e .stale) } := by
      rw [deliver, ho]
      rfl
    rw [hstep, hdeliver]
    exact ih (s := { s with hostQueue := q, events := s.events.post (writeFailedRecord e .stale) }) rfl hempty
      fun x hx => hwrites x (List.mem_cons_of_mem _ hx)

/-! ### BROADCAST_SENT (R21, R46, R132) -/

/-- What the event of the broadcast does, before what follows it. -/
structure TableCleared (s x : State) : Prop where
  rest    : x = { s with modules := x.modules, mgmtQueue := [], cache := {}, disc := x.disc, attn := x.attn, events := x.events
                         mbx := x.mbx, engine := (beginSettle s).engine }
  entry   : ∀ a, x.entry a = clearedEntry (s.entry a)
  sweep   : x.attn.sweep = none
  disc    : x.disc.state = .disabled ∧ x.disc.waiting = none
  ended   : s.mbx.state = .active → s.mbx.op = 8 → s.engine.resetPending = false →
              x.mbx = { s.mbx with state := .done, result := .outcome .ok }
  events  : x.events = if s.mbx.state = .active ∧ s.mbx.op = 8 ∧ s.engine.resetPending = false then
              (allAddrs.foldl leaveAtReset s).events.post ⟨.mailboxDone, none, 1, 8, 0, 0⟩
            else (allAddrs.foldl leaveAtReset s).events

theorem tableCleared (s : State) : TableCleared s (linkResetEnds (clearTable (beginSettle s))) := by
  have hsame : SameButLink (allAddrs.foldl leaveAtReset s) (allAddrs.foldl leaveAtReset (beginSettle s)) :=
    SameButLink.foldl (w := beginSettle s) rfl allAddrs
  obtain ⟨hrest, hop, hmbx⟩ := foldl_leaveAtReset_rest allAddrs (beginSettle s)
  have hentry : ∀ a, (allAddrs.foldl leaveAtReset (beginSettle s)).entry a = clearedEntry (s.entry a) := fun a =>
    (foldl_leaveAtReset_entry allAddrs (beginSettle s) a).trans (if_pos (mem_allAddrs a))
  rw [clearTable_eq]
  generalize allAddrs.foldl leaveAtReset (beginSettle s) = v at hsame hrest hop hmbx hentry
  have hevents : v.events = (allAddrs.foldl leaveAtReset s).events := by rw [hsame]
  have hreset : v.engine.resetPending = s.engine.resetPending := by rw [hrest]; rfl
  have hengine : v.engine = (beginSettle s).engine := by rw [hrest]
  have hruns : v.mbx.runs opLinkReset = true ∧ v.engine.resetPending = false ↔
      s.mbx.state = .active ∧ s.mbx.op = 8 ∧ s.engine.resetPending = false := by
    rw [runs_iff, hreset, and_assoc]
    by_cases h8 : s.mbx.op = 8
    · rw [hmbx (show s.mbx.op ≠ 6 by rw [h8]; decide)]
      exact Iff.rfl
    · exact iff_of_false (fun h => h8 (hop.symm.trans h.2.1)) fun h => h8 h.2.1
  by_cases hends : s.mbx.state = .active ∧ s.mbx.op = 8 ∧ s.engine.resetPending = false
  · have hv : v.mbx = s.mbx := hmbx (show s.mbx.op ≠ 6 by rw [hends.2.1]; decide)
    have hx : linkResetEnds (tableEmptied v) = endMailbox .done (.outcome .ok) none 0 (tableEmptied v) := if_pos (hruns.mpr hends)
    rw [hx]
    refine ⟨?_, hentry, rfl, ⟨rfl, rfl⟩, fun _ _ _ => ?_, ?_⟩
    · exact congrArg (fun u : State => endMailbox .done (.outcome .ok) none 0 (tableEmptied u)) hrest
    · exact congrArg (fun m : Mailbox => { m with state := .done, result := .outcome .ok }) hv
    · rw [if_pos hends, ← hevents]
      have h8 : v.mbx.op = 8 := hop.trans hends.2.1
      exact congrArg (fun o : Byte => v.events.post ⟨.mailboxDone, none, 1, o.setWidth 32, 0, 0⟩) h8
  · have hx : linkResetEnds (tableEmptied v) = tableEmptied v := if_neg (mt hruns.mp hends)
    rw [hx]
    refine ⟨?_, hentry, rfl, ⟨rfl, rfl⟩, fun h1 h2 h3 => absurd ⟨h1, h2, h3⟩ hends, ?_⟩
    · exact congrArg tableEmptied hrest
    · rw [if_neg hends, ← hevents]
      rfl

theorem vacant_of_cleared {s x : State} (h : TableCleared s x) (hlaw : EmptyLaw s) : Vacant x := fun a => by
  rw [h.entry a]
  unfold clearedEntry
  split
  · next he =>
    rw [hlaw a he]
    exact ⟨rfl, rfl, rfl, rfl⟩
  · exact ⟨rfl, rfl, rfl, rfl⟩

theorem clearedEntry_keeps (e : Entry) : (clearedEntry e).state = .empty ∧ (clearedEntry e).generation = e.generation ∧
    (clearedEntry e).seq = e.seq := by
  unfold clearedEntry
  split
  · next he => exact ⟨he, rfl, rfl⟩
  · exact ⟨rfl, rfl, rfl⟩

end Sys2Proof.Machine
end

section
/-! PROOFS. BROADCAST_SENT and SETTLED. -/

namespace Sys2Proof.Machine

theorem exec_broadcastSent {s : State} (hhold : s.pins.hold = false) (hb : s.broadcasting = true) :
    ∃ x, TableCleared s x ∧ exec .broadcastSent s = .next (settle x) := by
  refine ⟨_, tableCleared s, congrArg Host.Outcome.next ((whenLive_live broadcastSent s hhold).trans ?_)⟩
  exact if_pos hb

/-- The link as the broadcast ends in it carries no request. -/
theorem beginSettle_hostOnLink {s t : State} (h : t.engine = (beginSettle s).engine) : t.hostOnLink = false := by
  unfold State.hostOnLink
  rw [h, beginSettle]
  by_cases ht : s.timing.settleTime = 0
  · simp only [ht]
    rfl
  · simp only [ht]
    rfl

theorem QuietLaw.queue_of_empty {t : State} (h : QuietLaw t) (hl : t.hostOnLink = false) (he : ∀ a, (t.entry a).state = .empty) :
    t.hostQueue = [] := by
  cases hq : t.hostQueue with
  | nil => rfl
  | cons e rest => exact absurd (h.head hl e rest hq) (headCheck_of_empty_ne (he e.addr))

/-- What follows where the table has been cleared (R27, R29, R86, R194). -/
theorem settle_of_cleared {s x : State} (h : TableCleared s x) (hlaw : EmptyLaw s) :
    (settle x).attn.sweep = none ∧ ((settle x).mgmtQueue = [] ∨ (settle x).mgmtQueue = [.joinQuery]) ∧
    (s.power.state = .active → (∀ e ∈ s.hostQueue, e.origin = .windowWrite ∧ e.cancelled = false) →
      (settle x).events = s.hostQueue.foldl (fun v e => v.post (writeFailedRecord e .stale)) x.events) := by
  obtain ⟨u, hwork, hclose⟩ := followUpOfHeads_settle x
  generalize settle x = t at hclose
  have hx := h.rest
  obtain ⟨hd, hw⟩ := h.disc
  obtain ⟨hvacant, hsweep, hqueue, hsuspended, hevents⟩ :=
    hwork.of_vacant (vacant_of_cleared h hlaw) h.sweep (by rw [hx]) hd hw
  have hheads := headsKeep_headChecks u
  have hengine : (headChecks u).engine = u.engine := (still_headChecks u).engine
  have hsame : (headChecks u).suspended = u.suspended := by
    unfold State.suspended State.autoloadRuns State.broadcasting
    rw [(still_headChecks u).autoload, hheads.power, hengine]
  obtain ⟨-, ksweep, kqueue⟩ := hclose.of_vacant (hvacant.of_modules hheads.modules) (by rw [hheads.attn]; exact hsweep)
    (by rw [hheads.mgmt]; exact hqueue) fun hs => by
      rw [hheads.mgmt, hheads.disc]
      exact hsuspended (hsame ▸ hs)
  refine ⟨ksweep, kqueue, fun hp hwrites => ?_⟩
  have hxp : x.power.state = .active := by rw [hx]; exact hp
  have hup : u.power.state = .active := by rw [hwork.power_of_upright (.inl hxp)]; exact hxp
  rw [hclose.of_upright (.inl (by rw [hheads.power]; exact hup))]
  have huq : u.hostQueue = s.hostQueue := by rw [hwork.rest, hx]
  have hul : u.hostOnLink = false := beginSettle_hostOnLink (s := s) (by rw [hwork.rest, hx])
  have hchecks : headChecks u = failHeads s.hostQueue.length u := by
    rw [headChecks, if_neg (by rw [hul]; decide), huq]
  rw [hchecks, ← hevents]
  exact failHeads_writes huq (fun a => (hvacant a).1) hwrites

/-- `v` with the link FREE. -/
def linkFreed (v : State) : State := { v with engine := { v.engine with link := .free } }

theorem settledEnds_eq {s : State} {e w : Nat} (hl : s.engine.link = .settling e w) :
    settledEnds s = settle (linkFreed (advance (w - e) s)) := by
  simp only [settledEnds, hl, linkFreed]

/-- The wait for the settle ends with the link FREE (R21, R46). -/
theorem exec_settled {s : State} {e w : Nat} (hhold : s.pins.hold = false) (hl : s.engine.link = .settling e w) (hquiet : QuietLaw s) :
    ∃ v t, OnlyTimePasses (w - e) s v ∧ exec .settled s = .next t ∧ FollowUp (linkFreed v) t := by
  have hhead : HeadLaw (linkFreed (advance (w - e) s)) := by
    refine hquiet.head.of_checks (by rw [linkFreed, (onlyTimePasses_advance (w - e) s).rest]) ?_ fun f hf => ?_
    · unfold State.hostOnLink
      rw [hl]
      rfl
    · refine (headCheck_congr f s _ fun a => ?_).trans hf
      have he : (linkFreed (advance (w - e) s)).entry a = (advance (w - e) s).entry a := rfl
      rw [he, advance_entry]
      exact ⟨rfl, rfl, rfl⟩
  have hexec : exec .settled s = .next (settle (linkFreed (advance (w - e) s))) :=
    congrArg Host.Outcome.next ((whenLive_live settledEnds s hhold).trans (settledEnds_eq hl))
  exact ⟨_, _, onlyTimePasses_advance _ s, hexec, followUp_settle _ hhead⟩

/-- Settles O51: the broadcast clears the table, its event is followed by what follows where every entry is EMPTY, and the settle's end
leaves the link FREE. -/
theorem broadcastClearsTheTable : Obligations.BroadcastClearsTheTable := by
  intro s hhold
  refine ⟨fun hb hlaw hmailbox => ?_, fun e w hl hquiet => ?_⟩
  · obtain ⟨x, hcleared, hexec⟩ := exec_broadcastSent hhold hb
    obtain ⟨hsweep, hqueue, hevents⟩ := settle_of_cleared hcleared hlaw
    have hx := hcleared.rest
    have hstill := still_settle x
    have hkept := entriesKept_settle x
    have hcache := settle_cache x
    have hquiet := (settle_laws x).1
    have hmbx : s.mbx.state = .active → (settle x).mbx = x.mbx := fun hactive => settle_mbx fun e he ho => by
      rw [hx] at he
      rw [(hmailbox.2.1 e he ho).1] at hactive
      cases hactive
    generalize settle x = t at hexec hsweep hqueue hevents hstill hkept hcache hquiet hmbx
    have hengine : t.engine = (beginSettle s).engine := hstill.engine.trans (by rw [hx])
    have hentry : ∀ a, (t.entry a).state = .empty ∧ (t.entry a).generation = (s.entry a).generation ∧
        (t.entry a).seq = (s.entry a).seq := fun a => by
      rw [hkept a, hcleared.entry a]
      exact clearedEntry_keeps _
    refine ⟨t, hexec, hentry, ?_, hquiet.queue_of_empty (beginSettle_hostOnLink hengine) fun a => (hentry a).1, hsweep, hqueue, hengine,
      hstill.windows.trans (by rw [hx]), hstill.bindings.trans (by rw [hx]), hstill.timing.trans (by rw [hx]),
      fun hactive hop hreset => ?_, fun hp hwrites => ?_⟩
    · rw [hcache, hx]
    · rw [hmbx hactive, hcleared.ended hactive hop hreset]
      exact ⟨rfl, rfl⟩
    · dsimp only
      rw [hevents hp hwrites, hcleared.events, leaveAtReset_eq]
      rfl
  · obtain ⟨v, t, honly, hexec, hfollow⟩ := exec_settled hhold hl hquiet
    have hv := honly.rest
    obtain ⟨-, hnow, -, -, -, hwindows, hqueue, -, -, -, hengine, -, -⟩ := hfollow.fields
    refine ⟨t, hexec, by rw [hengine]; rfl, hnow.trans (by rw [linkFreed, hv]), hqueue.trans (by rw [linkFreed, hv]),
      hwindows.trans (by rw [linkFreed, hv]), fun hd hreset hp hphase => hfollow.query_of_disabled (by rw [linkFreed, hv]; exact hd) ?_⟩
    exact not_suspended_of_free (by rw [linkFreed, hv]; exact hphase) (by rw [linkFreed, hv]; exact hp) rfl
      (by rw [linkFreed, hv]; exact hreset)

end Sys2Proof.Machine
end

section
/-! PROOFS. The host-port reset with RETAIN set, block by block. -/

namespace Sys2Proof.Machine

/-! ### The blocks at the reset (R12, R170, R198) -/

/-- The state in which the blocks have taken their part of the reset, HOST_RESET_RETAINED posted. -/
def blocksRetained (s : State) : State := { s with
  pins := { s.pins with host := true }
  port := { s.port with held := none, answer := none }
  hostQueue := []
  slots := Vector.replicate 4 .free
  cache := {}
  mbx := { s.mbx with state := .idle, result := .none, refused := false, abortLate := false }
  engine := { s.engine with link := s.engine.link.retain }
  modules := vmap retainEntry s.modules
  attn := { s.attn with mode := .auto, armed := true, fetches := Vector.replicate 14 none }
  events := ({ routes := s.events.routes } : EventUnit).post ⟨.hostResetRetained, none, 0, 0, 0, 0⟩ }

theorem blocksRetained_entry (s : State) (a : ModAddr) : (blocksRetained s).entry a =
    if (s.entry a).attention = .held ∨ (s.entry a).attention = .fetching then
      { s.entry a with attention := .none, clearBits := none }
    else s.entry a :=
  entry_retainBlocks s a

theorem retainedEntry_keeps (s : State) (a : ModAddr) : ((blocksRetained s).entry a).state = (s.entry a).state ∧
    ((blocksRetained s).entry a).uniqueId = (s.entry a).uniqueId ∧
    ((blocksRetained s).entry a).generation = (s.entry a).generation ∧ ((blocksRetained s).entry a).attention ≠ .held := by
  rw [blocksRetained_entry]
  split
  · exact ⟨rfl, rfl, rfl, AttnState.noConfusion⟩
  · next h => exact ⟨rfl, rfl, rfl, fun hheld => h (.inl hheld)⟩

theorem exec_hostPortReset {s : State} (hhost : s.pins.host = false) (hretain : s.power.retain = true) :
    exec .hostPortReset s = .next (settle (blocksRetained s)) ∧ exec (.coldReset .hostRst) s = .next (settle (blocksRetained s)) ∧
      FollowUp (blocksRetained s) (settle (blocksRetained s)) := by
  have hreset : assertHost s = settle (blocksRetained s) :=
    (if_neg (by rw [hhost]; decide)).trans (if_pos hretain)
  exact ⟨congrArg Host.Outcome.next hreset, congrArg Host.Outcome.next hreset, followUp_settle _ fun _ _ _ h => by cases h⟩

/-- HOST_RESET_RETAINED comes first in the cleared event queue (R170). -/
theorem retained_head {s : State} (h : s.events.routeOf .hostResetRetained ≠ .suppress) : (blocksRetained s).events.list =
    [⟨0, .hostResetRetained, none, 0, 0, 0, 0, s.events.routeOf .hostResetRetained, false⟩] := by
  have hpost : ({ routes := s.events.routes } : EventUnit).post ⟨.hostResetRetained, none, 0, 0, 0, 0⟩ =
      ({ routes := s.events.routes } : EventUnit).append ⟨.hostResetRetained, none, 0, 0, 0, 0⟩ false := by
    unfold EventUnit.post
    rw [if_neg (show ¬({ routes := s.events.routes } : EventUnit).routeOf .hostResetRetained = .suppress from h)]
    exact (if_neg (by simp [EventUnit.overflowPresent])).trans
      (if_pos (by simp [EventUnit.hasPlace, EventUnit.overflowPresent, EventUnit.ordinaryCount, Config.ordinaryPlaces]))
  exact congrArg EventUnit.list hpost

theorem discard_host {r : Request} {e : HostEntry} {d : Bool} (h : r.source = .host e d) :
    r.discard = { r with source := .host e true } := by
  rw [Request.discard, h]

theorem discard_other {r : Request} (h : ∀ e d, r.source ≠ .host e d) : r.discard = r := by
  unfold Request.discard
  split
  · next e d hs => exact absurd hs (h e d)
  · rfl
  · rfl

/-- The link goes on with a request that did not come from the host request queue. -/
theorem retain_other {l : Link} (h : ∀ r, l.request? = some r → ∀ e d, r.source ≠ .host e d) : l.retain = l := by
  cases l with
  | free | settling => rfl
  | carrying r => rw [Link.retain, discard_other (h r rfl)]
  | holdoff r n => rw [Link.retain, discard_other (h r rfl)]

theorem exec_hostRstRelease {s : State} (hhold : s.pins.hold = false) :
    exec .hostRstRelease s = .next { s with pins := { s.pins with host := false } } :=
  congrArg Host.Outcome.next (if_neg fun h => by rw [show (s.pins.release .hostRst).hold = s.pins.hold from rfl, hhold] at h; cases h.1)

/-- Settles O20: the blocks' parts, and what the event's close keeps of them. -/
theorem hostPortResetRetains : Obligations.HostPortResetRetains := by
  refine fun s => ⟨fun hhost hretain => ?_, exec_hostRstRelease⟩
  obtain ⟨hreset, hcold, hfollow⟩ := exec_hostPortReset hhost hretain
  have hstill := still_settle (blocksRetained s)
  have hentries := entriesKept_settle (blocksRetained s)
  generalize settle (blocksRetained s) = t at hreset hcold hfollow hstill hentries
  have hkeeps := hfollow.closeKeeps
  have hengine : t.engine = { s.engine with link := s.engine.link.retain } := hstill.engine
  have hmbx : t.mbx = { s.mbx with state := .idle, result := .none, refused := false, abortLate := false } := by
    rw [hkeeps.rest]
    rfl
  have hother : (∀ r, s.engine.link.request? = some r → ∀ e d, r.source ≠ .host e d) → t.engine = s.engine := fun h => by
    rw [hengine, retain_other h]
  have hgrow := (eventsGrow_post { routes := s.events.routes } ⟨.hostResetRetained, none, 0, 0, 0, 0⟩).trans hkeeps.events
  refine ⟨t, hreset, hcold, ?_, ?_, hkeeps.retain.trans hretain, hstill.mode, hstill.level, hgrow.routes, hgrow.mode, hgrow.line0,
    hgrow.line1, hgrow.stale, fun hroute => ?_, fun a => ?_, fun hl => ?_, fun r e d hl hs => ?_, fun r m hl hs => ?_,
    fun r n e d hl hs => ?_, fun r hr hs => ?_, fun n w hl => ?_, fun hawake hdrain => ?_, blocksRetained s, hfollow, ?_,
    blocksRetained_entry s⟩
  · rw [hengine, hmbx]
    exact hkeeps.rest
  · exact hmbx
  · exact hkeeps.events.head _ [] (retained_head hroute) Kind.noConfusion
  · obtain ⟨hstate, hid, hgen, hnot⟩ := retainedEntry_keeps s a
    have hkept := hentries a
    refine ⟨?_, ?_, ?_, hkeeps.notHeld a hnot⟩
    · rw [hkept]; exact hstate
    · rw [hkept]; exact hgen
    · rw [hkept]; exact hid
  · exact hother fun r hr => by rw [hl] at hr; cases hr
  · rw [hengine, hl, Link.retain, discard_host hs]
  · refine hother fun q hq e d h => ?_
    rw [hl] at hq
    cases hq
    rw [hs] at h
    cases h
  · rw [hengine, hl, Link.retain, discard_host hs]
  · refine hother fun q hq => ?_
    rw [hr] at hq
    cases hq
    exact hs
  · exact hother fun r hr => by rw [hl] at hr; cases hr
  · refine hfollow.power_of_upright ?_
    show s.power.state = .active ∨ s.power.state = .waking
    cases hp : s.power.state with
    | active => exact .inl rfl
    | waking => exact .inr rfl
    | asleep => exact absurd hp hawake
    | draining => exact absurd hp hdrain
  · rw [hengine]
    rfl

end Sys2Proof.Machine
end

section
/-! PROOFS. Words made of fields, and what a read or a write of a register meets: the register at an offset, the lanes, the read-only
registers. -/

namespace Sys2Proof.Machine

/-! ### Words made of fields -/

/-- The word that holds the fields given, each as its lowest bit, its number of bits and its value. -/
def packed (fs : List (Nat × Nat × Nat)) : Word := BitVec.ofNat 32 (fs.map fun f => 2 ^ f.1 * f.2.2).sum

/-- From bit `lo` up, the fields stand in ascending order, do not overlap, and hold values that fit. -/
def FieldsFit : Nat → List (Nat × Nat × Nat) → Prop
  | lo, [] => lo ≤ 32
  | lo, f :: fs => lo ≤ f.1 ∧ f.2.2 < 2 ^ f.2.1 ∧ FieldsFit (f.1 + f.2.1) fs

theorem FieldsFit.le {lo : Nat} {fs : List (Nat × Nat × Nat)} (h : FieldsFit lo fs) : lo ≤ 32 := by
  induction fs generalizing lo with
  | nil => exact h
  | cons f fs ih => exact (h.1.trans (Nat.le_add_right _ _)).trans (ih h.2.2)

theorem FieldsFit.le_of_mem {lo : Nat} {fs : List (Nat × Nat × Nat)} (h : FieldsFit lo fs) : ∀ f ∈ fs, lo ≤ f.1 := by
  induction fs generalizing lo with
  | nil => exact fun _ hf => absurd hf List.not_mem_nil
  | cons g gs ih =>
    intro f hf
    obtain rfl | hf := List.mem_cons.mp hf
    · exact h.1
    · exact (h.1.trans (Nat.le_add_right _ _)).trans (ih h.2.2 f hf)

/-- The sum of the fields from bit `lo` up is a multiple of 2 ^ `lo` and fits 32 bits. -/
theorem FieldsFit.sum {lo : Nat} {fs : List (Nat × Nat × Nat)} (h : FieldsFit lo fs) :
    2 ^ lo ∣ (fs.map fun f => 2 ^ f.1 * f.2.2).sum ∧ (fs.map fun f => 2 ^ f.1 * f.2.2).sum + 2 ^ lo ≤ 2 ^ 32 := by
  induction fs generalizing lo with
  | nil => exact ⟨⟨0, rfl⟩, (Nat.zero_add _).le.trans (Nat.pow_le_pow_right (by decide) h)⟩
  | cons f fs ih =>
    obtain ⟨hlo, hval, hrest⟩ := h
    obtain ⟨hdvd, hle⟩ := ih hrest
    rw [List.map_cons, List.sum_cons]
    have hpow : 2 ^ lo ∣ 2 ^ f.1 := Nat.pow_dvd_pow 2 hlo
    have hfield : 2 ^ f.1 * f.2.2 + 2 ^ f.1 ≤ 2 ^ (f.1 + f.2.1) := by
      rw [pow_add, ← Nat.mul_succ]
      exact Nat.mul_le_mul_left _ hval
    refine ⟨(Dvd.dvd.mul_right hpow _).add ((Nat.pow_dvd_pow 2 (hlo.trans (Nat.le_add_right _ _))).trans hdvd), ?_⟩
    have := Nat.le_of_dvd (Nat.two_pow_pos _) hpow
    omega

theorem FieldsFit.toNat {fs : List (Nat × Nat × Nat)} (h : FieldsFit 0 fs) :
    (packed fs).toNat = (fs.map fun f => 2 ^ f.1 * f.2.2).sum := by
  have := h.sum.2
  rw [packed, BitVec.toNat_ofNat]
  exact Nat.mod_eq_of_lt (by omega)

/-- Each field is found at its place. -/
theorem FieldsFit.field {lo : Nat} {fs : List (Nat × Nat × Nat)} (h : FieldsFit lo fs) :
    ∀ f ∈ fs, (fs.map fun g => 2 ^ g.1 * g.2.2).sum / 2 ^ f.1 % 2 ^ f.2.1 = f.2.2 := by
  induction fs generalizing lo with
  | nil => exact fun _ hf => absurd hf List.not_mem_nil
  | cons g gs ih =>
    obtain ⟨-, hval, hrest⟩ := h
    obtain ⟨⟨k, hk⟩, -⟩ := hrest.sum
    have hsplit : ((g :: gs).map fun g => 2 ^ g.1 * g.2.2).sum = 2 ^ g.1 * (g.2.2 + 2 ^ g.2.1 * k) := by
      rw [List.map_cons, List.sum_cons, hk, pow_add]
      ring
    intro f hf
    rw [hsplit]
    obtain rfl | hf := List.mem_cons.mp hf
    · rw [Nat.mul_div_cancel_left _ (Nat.two_pow_pos _), Nat.add_mul_mod_self_left, Nat.mod_eq_of_lt hval]
    · have hpos := hrest.le_of_mem f hf
      have hquot : 2 ^ g.1 * (g.2.2 + 2 ^ g.2.1 * k) / 2 ^ (g.1 + g.2.1) = k := by
        rw [pow_add, ← Nat.div_div_eq_div_mul, Nat.mul_div_cancel_left _ (Nat.two_pow_pos _),
          Nat.add_mul_div_left _ _ (Nat.two_pow_pos _), Nat.div_eq_of_lt hval, Nat.zero_add]
      obtain ⟨j, hj⟩ := Nat.exists_eq_add_of_le hpos
      have hthis := ih hrest f hf
      rw [hk, hj, pow_add _ _ j, ← Nat.div_div_eq_div_mul, Nat.mul_div_cancel_left _ (Nat.two_pow_pos _)] at hthis
      rw [hj, pow_add _ _ j, ← Nat.div_div_eq_div_mul, hquot]
      exact hthis

/-- The bits of a word of fields. -/
theorem bits_packed {fs : List (Nat × Nat × Nat)} (h : FieldsFit 0 fs) : ∀ f ∈ fs, bits (packed fs) f.1 f.2.1 = f.2.2 := by
  intro f hf
  rw [bits, h.toNat]
  exact h.field f hf

theorem flag_eq (p : Nat) (b : Bool) : Machine.flag p b = 2 ^ p * b.toNat := by
  cases b with
  | false => rfl
  | true => exact (Nat.mul_one _).symm

theorem field_eq (p v : Nat) : Machine.field p v = 2 ^ p * v := Nat.mul_comm _ _

theorem toNat_decide (p : Prop) [Decidable p] : (decide p).toNat = if p then 1 else 0 := by
  by_cases h : p
  · rw [if_pos h, decide_eq_true h]
    rfl
  · rw [if_neg h, decide_eq_false h]
    rfl

/-- A word of fields, as the model writes them, in their list. -/
theorem word_eq_packed {l : List Nat} {fs : List (Nat × Nat × Nat)} (h : l.sum = (fs.map fun f => 2 ^ f.1 * f.2.2).sum) :
    word l = packed fs := by
  rw [word, packed, h]

/-- Do the fields stand in ascending order without overlap, from bit `lo` up? -/
def fieldsApart : Nat → List (Nat × Nat × Nat) → Bool
  | lo, [] => lo ≤ 32
  | lo, f :: fs => lo ≤ f.1 && fieldsApart (f.1 + f.2.1) fs

theorem FieldsFit.of_apart {lo : Nat} {fs : List (Nat × Nat × Nat)} (ha : fieldsApart lo fs = true)
    (hv : ∀ f ∈ fs, f.2.2 < 2 ^ f.2.1) : FieldsFit lo fs := by
  induction fs generalizing lo with
  | nil => exact of_decide_eq_true (p := lo ≤ 32) ha
  | cons f fs ih =>
    obtain ⟨hlo, hrest⟩ := (Bool.and_eq_true ..).mp ha
    exact ⟨of_decide_eq_true hlo, hv f (List.mem_cons_self ..), ih hrest fun g hg => hv g (List.mem_cons_of_mem _ hg)⟩

/-! ### Reads (R199, R201) -/

theorem readRegister_full {o : BitVec 12} {r : Reg} (hr : regAt o = some r) (s : State) :
    readRegister o 0xF#4 s = ⟨.ok, some (readWord r s)⟩ := by
  have hlanes : enabledLanes 0 .four (readWord r s) = readWord r s := by
    rw [enabledLanes, Nat.mul_zero, BitVec.shiftLeft_zero]
    exact BitVec.and_allOnes
  unfold readRegister
  rw [hr, show laneGroup? 0xF#4 = some (0, .four) from rfl]
  exact congrArg (fun w => (⟨.ok, some w⟩ : Answer)) hlanes

/-- A register that reads a word of fields shows them. -/
theorem shows_packed {o : BitVec 12} {r : Reg} {s : State} {fs : List (Nat × Nat × Nat)} (hr : regAt o = some r)
    (hw : readWord r s = packed fs) (hfit : ∀ f ∈ fs, f.2.2 < 2 ^ f.2.1) : Shows s o fs :=
  ⟨hfit, by rw [readRegister_full hr, hw, packed]⟩

/-- The bits of a word hold the fields given, one statement for each. -/
def FieldsAt (v : Word) : List (Nat × Nat × Nat) → Prop
  | [] => True
  | [f] => bits v f.1 f.2.1 = f.2.2
  | f :: g :: fs => bits v f.1 f.2.1 = f.2.2 ∧ FieldsAt v (g :: fs)

theorem fieldsAt_of_forall {v : Word} {fs : List (Nat × Nat × Nat)} (h : ∀ f ∈ fs, bits v f.1 f.2.1 = f.2.2) : FieldsAt v fs := by
  induction fs with
  | nil => trivial
  | cons f fs ih =>
    have hrest := ih fun g hg => h g (List.mem_cons_of_mem _ hg)
    cases fs with
    | nil => exact h f (List.mem_cons_self ..)
    | cons g gs => exact ⟨h f (List.mem_cons_self ..), hrest⟩

/-- A register that reads a word of fields reads each of them at its place. -/
theorem reads_packed {o : BitVec 12} {r : Reg} {s : State} {fs : List (Nat × Nat × Nat)} (hr : regAt o = some r)
    (hw : readWord r s = packed fs) (ha : fieldsApart 0 fs = true) (hfit : ∀ f ∈ fs, f.2.2 < 2 ^ f.2.1) :
    ∃ v, readRegister o 0xF#4 s = ⟨.ok, some v⟩ ∧ FieldsAt v fs :=
  ⟨_, by rw [readRegister_full hr, hw], fieldsAt_of_forall (bits_packed (.of_apart ha hfit))⟩

theorem readRegister_no_lanes {lanes : BitVec 4} (h : laneGroup? lanes = none) (o : BitVec 12) (s : State) :
    readRegister o lanes s = ⟨.error, some 0xFFFFFFFF#32⟩ := by
  unfold readRegister
  rw [h]
  rfl

theorem readRegister_no_register {o : BitVec 12} (h : regAt o = none) (lanes : BitVec 4) (s : State) :
    readRegister o lanes s = ⟨.error, some 0xFFFFFFFF#32⟩ := by
  unfold readRegister
  rw [h]
  cases laneGroup? lanes <;> rfl

theorem readRegister_lanes {o : BitVec 12} {lanes : BitVec 4} {lane : Nat} {w : Width} {s : State} {v : Word}
    (hg : laneGroup? lanes = some (lane, w)) (hfull : readRegister o 0xF#4 s = ⟨.ok, some v⟩) :
    readRegister o lanes s = ⟨.ok, some (v &&& (w.mask <<< (8 * lane)))⟩ := by
  cases hr : regAt o with
  | none =>
    rw [readRegister_no_register hr] at hfull
    cases hfull
  | some r =>
    rw [readRegister_full hr] at hfull
    unfold readRegister
    rw [hr, hg]
    cases hfull
    rfl

/-! ### Writes of read-only registers, and of ATTN_MODE (R138, R201) -/

/-- The registers that no write changes. -/
def Reg.readOnly : Reg → Bool
  | .pwrStatus | .autoloadStatus | .linkStatus | .discStatus | .hrqLevel | .cacheLines | .attnStatus | .mbxResult | .evtW _
  | .evtCount | .evtOverflowCount | .slotView _ | .slotViewAddr _ | .bindView | .bindIdLo | .bindIdHi | .modState | .modGen
  | .modSupv | .modDesc | .modIdLo | .modIdHi | .modCap _ | .winView _ _ => true
  | .pwrCtrl | .attnMode | .winFault | .readFault | .timing _ | .mbxOp | .mbxTarget | .mbxOffset | .mbxWidth | .mbxData | .mbxXdata
  | .mbxFlags | .mbxGo | .mbxAbort | .mbxStatus | .evtRelease | .evtMode | .evtLineEn | .evtStatus | .evtRoute _ | .bindSel | .modSel
  | .win _ _ | .winEnable _ => false

theorem writeReg_readOnly {r : Reg} (h : r.readOnly = true) (data : Word) (s : State) : writeReg r data s = refuseWrite s := by
  cases r with
  | pwrStatus | autoloadStatus | linkStatus | discStatus | hrqLevel | cacheLines | attnStatus | mbxResult | evtW | evtCount
  | evtOverflowCount | slotView | slotViewAddr | bindView | bindIdLo | bindIdHi | modState | modGen | modSupv | modDesc | modIdLo
  | modIdHi | modCap | winView => rfl
  | pwrCtrl | attnMode | winFault | readFault | timing | mbxOp | mbxTarget | mbxOffset | mbxWidth | mbxData | mbxXdata | mbxFlags
  | mbxGo | mbxAbort | mbxStatus | evtRelease | evtMode | evtLineEn | evtStatus | evtRoute | bindSel | modSel | win | winEnable =>
    cases h

theorem registerWrite_readOnly {s : State} {o : BitVec 12} (data : Word) (hfree : s.portFree = true)
    (h : (regAt o).any Reg.readOnly = true) : exec (.registerWrite o 0xF#4 data) s = .next (refuseWrite s) := by
  obtain ⟨r, hr, hread⟩ := (Option.any_eq_true ..).mp h
  rw [exec_registerWrite data hfree hr, writeReg_readOnly hread]

theorem registerWrite_attnMode {s : State} (data : Word) (hfree : s.portFree = true) :
    (data = 0 → exec (.registerWrite 0x01C#12 0xF#4 data) s = exec (.attnModeAuto 0xF#4) s) ∧
    (data = 1 → exec (.registerWrite 0x01C#12 0xF#4 data) s = exec (.attnModeHeld 0xF#4) s) ∧
    (data ≠ 0 → data ≠ 1 → exec (.registerWrite 0x01C#12 0xF#4 data) s = .next (refuseWrite s)) := by
  have hexec : exec (.registerWrite 0x01C#12 0xF#4 data) s = .next (writeAttnMode data s) :=
    exec_registerWrite data hfree (r := .attnMode) rfl
  have hauto : exec (.attnModeAuto 0xF#4) s = .next (writeAuto s) :=
    congrArg Host.Outcome.next (registerWrite_taken writeAuto s hfree)
  have hheld : exec (.attnModeHeld 0xF#4) s = .next (writeHeld s) :=
    congrArg Host.Outcome.next (registerWrite_taken writeHeld s hfree)
  refine ⟨fun h => ?_, fun h => ?_, fun h0 h1 => ?_⟩
  · rw [hexec, hauto, writeAttnMode, if_pos h]
  · have h0 : ¬data = 0 := by
      rw [h]
      decide
    rw [hexec, hheld, writeAttnMode, if_neg h0, if_pos h]
  · rw [hexec, writeAttnMode, if_neg h0, if_neg h1]

/-- Offsets of read-only registers, one at least of each kind. -/
def readOnlyOffsets : List (BitVec 12) :=
  [0x004#12, 0x008#12, 0x00C#12, 0x010#12, 0x014#12, 0x018#12, 0x020#12, 0x0A8#12, 0x0C0#12, 0x0C4#12, 0x0C8#12,
   0x0CC#12, 0x0E0#12, 0x0E4#12, 0x180#12, 0x184#12, 0x198#12, 0x19C#12, 0x204#12, 0x208#12, 0x20C#12, 0x244#12,
   0x248#12, 0x24C#12, 0x250#12, 0x254#12, 0x258#12, 0x260#12, 0x27C#12, 0x414#12, 0x418#12, 0x41C#12, 0x4FC#12]

theorem readOnly_of_offset : ∀ o ∈ readOnlyOffsets, (regAt o).any Reg.readOnly = true := by decide +kernel

/-- The read of any register, through its lanes. -/
theorem registerReads (s : State) (o : BitVec 12) (lanes : BitVec 4) :
    (laneGroup? lanes = none → readRegister o lanes s = ⟨.error, some 0xFFFFFFFF#32⟩) ∧
    (o ∈ [0x02C#12, 0x034#12, 0x074#12, 0x0AC#12, 0x0E8#12, 0x144#12, 0x1A0#12, 0x210#12, 0x25C#12, 0x280#12, 0x500#12, 0x7FC#12] →
      readRegister o lanes s = ⟨.error, some 0xFFFFFFFF#32⟩) ∧
    (∀ lane w v, laneGroup? lanes = some (lane, w) → readRegister o 0xF#4 s = ⟨.ok, some v⟩ →
      readRegister o lanes s = ⟨.ok, some (v &&& (w.mask <<< (8 * lane)))⟩) := by
  have hnone : ∀ o ∈ [0x02C#12, 0x034#12, 0x074#12, 0x0AC#12, 0x0E8#12, 0x144#12, 0x1A0#12, 0x210#12, 0x25C#12, 0x280#12,
      0x500#12, 0x7FC#12], regAt o = none := by decide
  exact ⟨fun h => readRegister_no_lanes h o s, fun h => readRegister_no_register (hnone o h) lanes s,
    fun _ _ _ hg hfull => readRegister_lanes hg hfull⟩

end Sys2Proof.Machine
end

section
/-! PROOFS. What the registers read whose fields the statement names one by one. -/

namespace Sys2Proof.Machine

/-! ### The codes fit their fields (R202) -/

theorem powerCode_lt (p : PowerState) : powerCode p < 2 ^ 2 := by cases p <;> decide

theorem wakeCode_lt (r : WakeReason) : (wakeCode r).toNat < 2 ^ 2 := by cases r <;> decide

theorem discCode_lt (d : DiscState) : discCode d < 2 ^ 3 := by cases d <;> decide

theorem linkCode_lt (l : Link) : l.code < 2 ^ 2 := by cases l <;> simp [Link.code]

theorem sourceCode_lt (l : Link) : l.sourceCode < 2 ^ 2 := by
  unfold Link.sourceCode
  split
  · decide
  · split <;> decide

theorem addressCode_lt (a : Option ModAddr) : addressCode a < 2 ^ 4 := by
  cases a with
  | none => decide
  | some a => rw [addressCode]; omega

theorem kindNumber_lt (k : Kind) : kindNumber k < 2 ^ 5 := by cases k <;> decide

theorem routeCode_lt (r : Route) : routeCode r < 2 ^ 2 := by cases r <;> decide

theorem widthBytes_lt (w : Width) : w.bytes < 2 ^ 3 := by cases w <;> decide

theorem outcomeCode_lt (o : LinkOutcome) : (outcomeCode o).toNat < 2 ^ 4 := by cases o <;> decide

theorem modStateCode_lt (m : ModState) : modStateCode m < 2 ^ 3 := by cases m <;> decide

theorem attnCode_lt (a : AttnState) : attnCode a < 2 ^ 3 := by cases a <;> decide

theorem boundCode_lt (b : Bound) : (boundCode b).toNat < 2 ^ 2 := by cases b <;> decide

/-! ### Power, link, discovery, queue and attention (R138, R188, R205) -/

theorem pwrStatus_reads (s : State) : (s.power.state ≠ .draining → ∃ v, readRegister 0x004#12 0xF#4 s = ⟨.ok, some v⟩ ∧
      FieldsAt v [(0, 2, powerCode s.power.state), (2, 1, s.power.sleepReq.toNat), (4, 2, (wakeCode s.power.lastWake).toNat), (8, 6, 0)]) ∧
    (s.power.state = .draining → ∃ v, readRegister 0x004#12 0xF#4 s = ⟨.ok, some v⟩ ∧
      FieldsAt v [(0, 2, powerCode s.power.state), (2, 1, s.power.sleepReq.toNat), (4, 2, (wakeCode s.power.lastWake).toNat),
          (8, 1, (!s.drainQueues).toNat), (9, 1, (!s.drainLink).toNat), (10, 1, (!s.drainJoin).toNat), (11, 1, (!s.drainReads).toNat),
          (12, 1, (!s.drainMailbox).toNat), (13, 1, (!s.drainAutoload).toNat)]) := by
  refine ⟨fun h => reads_packed (r := .pwrStatus) rfl ?_ rfl ?_, fun h => reads_packed (r := .pwrStatus) rfl ?_ rfl ?_⟩
  · refine word_eq_packed ?_
    simp [h, flag_eq, field_eq]
  · simp only [List.forall_mem_cons, List.not_mem_nil, false_implies, implies_true, and_true]
    exact ⟨powerCode_lt _, Bool.toNat_lt _, wakeCode_lt _, by decide⟩
  · refine word_eq_packed ?_
    simp [h, flag_eq, field_eq, Nat.add_assoc]
  · simp only [List.forall_mem_cons, List.not_mem_nil, false_implies, implies_true, and_true]
    exact ⟨powerCode_lt _, Bool.toNat_lt _, wakeCode_lt _, Bool.toNat_lt _, Bool.toNat_lt _, Bool.toNat_lt _, Bool.toNat_lt _,
      Bool.toNat_lt _, Bool.toNat_lt _⟩

theorem linkStatus_reads (s : State) : ∃ v, readRegister 0x00C#12 0xF#4 s = ⟨.ok, some v⟩ ∧
    FieldsAt v [(0, 2, s.engine.link.code), (4, 1, s.engine.resetPending.toNat), (5, 1, if s.engine.lastTurn = .host then 1 else 0),
      (8, 4, s.engine.joinCounter.toNat), (12, 2, s.engine.link.sourceCode)] := by
  refine reads_packed (r := .linkStatus) rfl (word_eq_packed ?_) rfl ?_
  · simp only [field_eq, flag_eq, toNat_decide, List.map_cons, List.map_nil, Nat.pow_zero, Nat.one_mul]
  · simp only [List.forall_mem_cons, List.not_mem_nil, false_implies, implies_true, and_true]
    exact ⟨linkCode_lt _, Bool.toNat_lt _, by split <;> decide, BitVec.isLt _, sourceCode_lt _⟩

theorem discStatus_reads (s : State) : ∃ v, readRegister 0x010#12 0xF#4 s = ⟨.ok, some v⟩ ∧
    FieldsAt v [(0, 3, discCode s.disc.state), (8, 4, addressCode s.joiningAddr)] := by
  refine reads_packed (r := .discStatus) rfl (word_eq_packed ?_) rfl ?_
  · simp only [field_eq, List.map_cons, List.map_nil, Nat.pow_zero, Nat.one_mul]
  · simp only [List.forall_mem_cons, List.not_mem_nil, false_implies, implies_true, and_true]
    exact ⟨discCode_lt _, addressCode_lt _⟩

theorem joiningAddr_none {s : State} (h : s.disc.state ≠ .joining) : s.joiningAddr = none := if_neg h

/-- The one entry that joins. -/
theorem joiningAddr_some {s : State} {a : ModAddr} (h : s.disc.state = .joining)
    (ha : (s.entry a).state = .joining ∨ (s.entry a).state = .describing)
    (honly : ∀ b, (s.entry b).state = .joining ∨ (s.entry b).state = .describing → b = a) : s.joiningAddr = some a := by
  rw [State.joiningAddr, if_pos h]
  cases hf : allAddrs.find? fun a => (s.entry a).state = .joining ∨ (s.entry a).state = .describing with
  | none => exact absurd ha (by simpa using List.find?_eq_none.mp hf a (mem_allAddrs a))
  | some b => rw [honly b (by simpa using List.find?_some hf)]

theorem hrqLevel_reads (s : State) (hlaw : QueueLaw s) : ∃ v, readRegister 0x014#12 0xF#4 s = ⟨.ok, some v⟩ ∧
    FieldsAt v [(0, 5, s.hostQueue.length), (8, 1, if s.engine.link.sourceCode = 2 then 1 else 0)] := by
  refine reads_packed (r := .hrqLevel) rfl (word_eq_packed ?_) rfl ?_
  · simp only [flag_eq, toNat_decide, List.map_cons, List.map_nil, Nat.pow_zero, Nat.one_mul]
  · simp only [List.forall_mem_cons, List.not_mem_nil, false_implies, implies_true, and_true]
    exact ⟨hlaw.1.trans_lt (by decide), by split <;> decide⟩

theorem sourceCode_eq_two (l : Link) : l.sourceCode = 2 ↔ ∃ r e d, l.request? = some r ∧ r.source = .host e d := by
  unfold Link.sourceCode
  cases hr : l.request? with
  | none => simp
  | some r =>
    cases hs : r.source with
    | broadcast | management => simp [hs]
    | host e d => exact iff_of_true (by simp [hs]) ⟨r, e, d, rfl, hs⟩

theorem attnStatus_reads (s : State) : ∃ v, readRegister 0x020#12 0xF#4 s = ⟨.ok, some v⟩ ∧
    FieldsAt v [(0, 1, s.attn.level.toNat), (1, 1, s.attn.armed.toNat), (2, 1, s.attn.sweep.isSome.toNat),
      (8, 4, (allAddrs.filter fun a => (s.entry a).attention = .fetching).length)] := by
  refine reads_packed (r := .attnStatus) rfl (word_eq_packed ?_) rfl ?_
  · simp only [field_eq, flag_eq, List.map_cons, List.map_nil]
  · simp only [List.forall_mem_cons, List.not_mem_nil, false_implies, implies_true, and_true]
    exact ⟨Bool.toNat_lt _, Bool.toNat_lt _, Bool.toNat_lt _, (List.length_filter_le _ _).trans_lt (by decide)⟩

/-! ### The event queue (R160, R168) -/

theorem noHead_reads {s : State} (h : s.events.list = []) :
    ∀ o ∈ [0x0C0#12, 0x0C4#12, 0x0C8#12, 0x0CC#12], readRegister o 0xF#4 s = ⟨.ok, some 0⟩ := by
  have hzero : ∀ i : Fin 4, readWord (.evtW i) s = 0 := fun i => by
    unfold readWord headWord headDetail
    rw [h]
    simp
  have hat : ∀ o ∈ [0x0C0#12, 0x0C4#12, 0x0C8#12, 0x0CC#12], ∃ i : Fin 4, regAt o = some (.evtW i) := by decide
  intro o ho
  obtain ⟨i, hi⟩ := hat o ho
  rw [readRegister_full hi, hzero]

theorem head_reads {s : State} {r : EventRec} {rest : List EventRec} (h : s.events.list = r :: rest) :
    (∃ v, readRegister 0x0C0#12 0xF#4 s = ⟨.ok, some v⟩ ∧
      FieldsAt v [(0, 8, r.seq.toNat), (8, 5, kindNumber r.kind), (13, 1, r.address.isSome.toNat), (14, 1, r.held.toNat),
        (16, 4, addressCode r.address), (20, 2, routeCode r.route), (24, 8, r.code.toNat)]) ∧
    readRegister 0x0C4#12 0xF#4 s = ⟨.ok, some r.detailA⟩ ∧ readRegister 0x0C8#12 0xF#4 s = ⟨.ok, some r.detailB⟩ ∧
    readRegister 0x0CC#12 0xF#4 s = ⟨.ok, some r.detailC⟩ := by
  have hdetail : ∀ f : EventRec → Word, headDetail s.events f = f r := fun f => by rw [headDetail, h]
  have hhead : readWord (.evtW 0) s = headWord s.events := rfl
  refine ⟨reads_packed (r := .evtW 0) rfl ?_ rfl ?_, ?_, ?_, ?_⟩
  · rw [hhead, headWord, h]
    refine word_eq_packed ?_
    simp only [field_eq, flag_eq, List.map_cons, List.map_nil, Nat.pow_zero, Nat.one_mul]
  · simp only [List.forall_mem_cons, List.not_mem_nil, false_implies, implies_true, and_true]
    exact ⟨BitVec.isLt _, kindNumber_lt _, Bool.toNat_lt _, Bool.toNat_lt _, addressCode_lt _, routeCode_lt _, BitVec.isLt _⟩
  · rw [readRegister_full (r := .evtW 1) rfl, ← hdetail EventRec.detailA]
    rfl
  · rw [readRegister_full (r := .evtW 2) rfl, ← hdetail EventRec.detailB]
    rfl
  · rw [readRegister_full (r := .evtW 3) rfl, ← hdetail EventRec.detailC]
    rfl

theorem evtStatus_reads (s : State) : ∃ v, readRegister 0x0DC#12 0xF#4 s = ⟨.ok, some v⟩ ∧
    FieldsAt v [(0, 1, s.events.staleRelease.toNat), (8, 8, s.events.nextSeq.toNat),
      (16, 1, (s.events.list.any fun r => r.route = .line0).toNat), (17, 1, s.line0Active.toNat),
      (18, 1, (s.events.list.any fun r => r.route = .line1).toNat), (19, 1, s.line1Active.toNat)] := by
  refine reads_packed (r := .evtStatus) rfl (word_eq_packed ?_) rfl ?_
  · simp only [field_eq, flag_eq, List.map_cons, List.map_nil, EventUnit.routed]
  · simp only [List.forall_mem_cons, List.not_mem_nil, false_implies, implies_true, and_true]
    exact ⟨Bool.toNat_lt _, BitVec.isLt _, Bool.toNat_lt _, Bool.toNat_lt _, Bool.toNat_lt _, Bool.toNat_lt _⟩

theorem evtCount_reads (s : State) (hlaw : EventLaw s) : ∃ v, readRegister 0x0E0#12 0xF#4 s = ⟨.ok, some v⟩ ∧
    FieldsAt v [(0, 6, s.events.list.length), (8, 6, s.events.ordinaryCount), (16, 6, s.events.reservations),
      (24, 1, s.events.overflowPresent.toNat)] := by
  obtain ⟨hlength, -, hplaces⟩ := hlaw
  have hordinary : s.events.ordinaryCount ≤ Config.ordinaryPlaces := (Nat.le_add_right _ _).trans hplaces
  have hreserved : s.events.reservations ≤ Config.ordinaryPlaces := (Nat.le_add_left _ _).trans hplaces
  refine reads_packed (r := .evtCount) rfl (word_eq_packed ?_) rfl ?_
  · simp only [field_eq, flag_eq, List.map_cons, List.map_nil, Nat.pow_zero, Nat.one_mul]
  · simp only [List.forall_mem_cons, List.not_mem_nil, false_implies, implies_true, and_true]
    exact ⟨hlength.trans_lt (by decide), hordinary.trans_lt (by decide), hreserved.trans_lt (by decide), Bool.toNat_lt _⟩

/-! ### The slot views (R100) -/

theorem regAt_slotView : ∀ i : Fin 4, regAt (0x180#12 + BitVec.ofNat 12 (8 * i.val)) = some (.slotView i) := by decide

theorem regAt_slotViewAddr : ∀ i : Fin 4, regAt (0x184#12 + BitVec.ofNat 12 (8 * i.val)) = some (.slotViewAddr i) := by decide

theorem freeSlot_reads {s : State} {i : Fin 4} (h : vget s.slots i = .free) :
    readRegister (0x180#12 + BitVec.ofNat 12 (8 * i.val)) 0xF#4 s = ⟨.ok, some 0⟩ := by
  rw [readRegister_full (regAt_slotView i), readWord, h]
  rfl

/-- The fields of a slot's first view word (R100, R201). -/
def slotViewFields (code : Nat) (x : SlotInfo) : List (Nat × Nat × Nat) :=
  [(0, 2, code), (2, 1, x.noFill.toNat), (4, 3, x.width.bytes), (8, 3, x.window.val), (12, 4, x.target.val + 1),
   (16, 16, x.offset.toNat)]

theorem slotViewFields_fit {code : Nat} (hc : code < 2 ^ 2) (x : SlotInfo) : ∀ f ∈ slotViewFields code x, f.2.2 < 2 ^ f.2.1 := by
  unfold slotViewFields
  simp only [List.forall_mem_cons, List.not_mem_nil, false_implies, implies_true, and_true]
  exact ⟨hc, Bool.toNat_lt _, widthBytes_lt _, x.window.isLt, by have := x.target.isLt; omega, BitVec.isLt _⟩

theorem word_slotFields (code : Nat) (x : SlotInfo) : word (code :: slotFields x) = packed (slotViewFields code x) := by
  refine word_eq_packed ?_
  simp only [slotFields, slotViewFields, field_eq, flag_eq, List.map_cons, List.map_nil, Nat.pow_zero, Nat.one_mul]

theorem completeSlot_reads {s : State} {i : Fin 4} {x : SlotInfo} {o : LinkOutcome} {d : Option Word} {m : Nat}
    (h : vget s.slots i = .complete x o d m) :
    (∃ v, readRegister (0x180#12 + BitVec.ofNat 12 (8 * i.val)) 0xF#4 s = ⟨.ok, some v⟩ ∧
      FieldsAt v (slotViewFields 2 x)) ∧
    ∃ v, readRegister (0x184#12 + BitVec.ofNat 12 (8 * i.val)) 0xF#4 s = ⟨.ok, some v⟩ ∧
      FieldsAt v [(0, 17, x.hostAddr.toNat), (24, 4, (outcomeCode o).toNat)] := by
  refine ⟨reads_packed (regAt_slotView i) ?_ rfl (slotViewFields_fit (by decide) x),
    reads_packed (regAt_slotViewAddr i) ?_ rfl ?_⟩
  · rw [readWord, h]
    exact word_slotFields 2 x
  · rw [readWord, h]
    refine word_eq_packed ?_
    simp only [field_eq, List.map_cons, List.map_nil, Nat.pow_zero, Nat.one_mul]
  · simp only [List.forall_mem_cons, List.not_mem_nil, false_implies, implies_true, and_true]
    exact ⟨BitVec.isLt _, outcomeCode_lt _⟩

/-! ### The module table view (R204) -/

theorem selectedEntry_eq {s : State} {a : ModAddr} (h : modAddr? s.port.modSel = some a) : s.selectedEntry = s.entry a := by
  rw [State.selectedEntry, h]

theorem modState_reads {s : State} {e : Entry} (he : s.selectedEntry = e) : ∃ v, readRegister 0x244#12 0xF#4 s = ⟨.ok, some v⟩ ∧
    FieldsAt v [(0, 3, modStateCode e.state), (4, 2, (boundCode e.bound).toNat), (8, 3, attnCode e.attention), (12, 1, e.pingDue.toNat),
      (13, 1, e.releaseDue.toNat), (16, 4, e.seq.toNat)] := by
  refine reads_packed (r := .modState) rfl ?_ rfl ?_
  · rw [readWord, he]
    refine word_eq_packed ?_
    simp only [field_eq, flag_eq, List.map_cons, List.map_nil, Nat.pow_zero, Nat.one_mul]
  · simp only [List.forall_mem_cons, List.not_mem_nil, false_implies, implies_true, and_true]
    exact ⟨modStateCode_lt _, boundCode_lt _, attnCode_lt _, Bool.toNat_lt _, Bool.toNat_lt _, BitVec.isLt _⟩

theorem modGen_reads {s : State} {e : Entry} (he : s.selectedEntry = e) : ∃ v, readRegister 0x248#12 0xF#4 s = ⟨.ok, some v⟩ ∧
    FieldsAt v [(0, 16, e.generation.toNat), (16, 16, (e.clearBits.getD 0).toNat)] := by
  refine reads_packed (r := .modGen) rfl ?_ rfl ?_
  · rw [readWord, he]
    refine word_eq_packed ?_
    simp only [field_eq, List.map_cons, List.map_nil, Nat.pow_zero, Nat.one_mul]
  · simp only [List.forall_mem_cons, List.not_mem_nil, false_implies, implies_true, and_true]
    exact ⟨BitVec.isLt _, BitVec.isLt _⟩

theorem modSupv_reads {s : State} {e : Entry} (he : s.selectedEntry = e) (hrun : e.failureRun ≤ 15) (hcount : e.departCount ≤ 15)
    (hcaps : e.capabilities.length ≤ 8) : ∃ v, readRegister 0x24C#12 0xF#4 s = ⟨.ok, some v⟩ ∧
    FieldsAt v [(0, 4, e.failureRun), (8, 4, e.departCount), (16, 1, e.responding.toNat), (17, 1, e.hasAttention.toNat),
      (18, 1, e.truncated.toNat), (20, 3, e.widthLimit.bytes), (24, 4, e.capabilities.length)] := by
  refine reads_packed (r := .modSupv) rfl ?_ rfl ?_
  · rw [readWord, he]
    refine word_eq_packed ?_
    simp only [field_eq, flag_eq, List.map_cons, List.map_nil, Nat.pow_zero, Nat.one_mul]
  · simp only [List.forall_mem_cons, List.not_mem_nil, false_implies, implies_true, and_true]
    exact ⟨hrun.trans_lt (by decide), hcount.trans_lt (by decide), Bool.toNat_lt _, Bool.toNat_lt _, Bool.toNat_lt _,
      widthBytes_lt _, hcaps.trans_lt (by decide)⟩

theorem modDesc_reads {s : State} {e : Entry} (he : s.selectedEntry = e) : ∃ v, readRegister 0x250#12 0xF#4 s = ⟨.ok, some v⟩ ∧
    FieldsAt v [(0, 16, (e.moduleClass.getD 0).toNat), (16, 8, (e.revision.getD 0).toNat), (24, 8, e.pacing.toNat)] := by
  refine reads_packed (r := .modDesc) rfl ?_ rfl ?_
  · rw [readWord, he]
    refine word_eq_packed ?_
    simp only [field_eq, List.map_cons, List.map_nil, Nat.pow_zero, Nat.one_mul]
  · simp only [List.forall_mem_cons, List.not_mem_nil, false_implies, implies_true, and_true]
    exact ⟨BitVec.isLt _, BitVec.isLt _, BitVec.isLt _⟩

theorem setWidth_low (x : BitVec 64) : x.setWidth 32 = x.extractLsb' 0 32 := by
  refine BitVec.eq_of_toNat_eq ?_
  rw [BitVec.extractLsb'_toNat, BitVec.toNat_setWidth, Nat.shiftRight_zero]

theorem setWidth_high (x : BitVec 64) : (x >>> 32).setWidth 32 = x.extractLsb' 32 32 := by
  refine BitVec.eq_of_toNat_eq ?_
  rw [BitVec.extractLsb'_toNat, BitVec.toNat_setWidth, BitVec.toNat_ushiftRight]

theorem modId_reads {s : State} {e : Entry} (he : s.selectedEntry = e) :
    readRegister 0x254#12 0xF#4 s = ⟨.ok, some ((e.uniqueId.getD 0).extractLsb' 0 32)⟩ ∧
    readRegister 0x258#12 0xF#4 s = ⟨.ok, some ((e.uniqueId.getD 0).extractLsb' 32 32)⟩ := by
  rw [readRegister_full (r := .modIdLo) rfl, readRegister_full (r := .modIdHi) rfl, readWord, readWord, he, setWidth_low,
    setWidth_high]
  exact ⟨rfl, rfl⟩

theorem regAt_modCap : ∀ k : Fin 8, regAt (0x260#12 + BitVec.ofNat 12 (4 * k.val)) = some (.modCap k) := by decide

theorem modCap_reads {s : State} {e : Entry} (he : s.selectedEntry = e) (k : Fin 8) :
    (e.capabilities[k.val]? = none → readRegister (0x260#12 + BitVec.ofNat 12 (4 * k.val)) 0xF#4 s = ⟨.ok, some 0⟩) ∧
    ∀ c, e.capabilities[k.val]? = some c →
      ∃ v, readRegister (0x260#12 + BitVec.ofNat 12 (4 * k.val)) 0xF#4 s = ⟨.ok, some v⟩ ∧
        FieldsAt v [(0, 8, c.type.toNat), (8, 8, c.length.toNat), (16, 8, c.word.toNat), (24, 8, c.value.toNat)] := by
  refine ⟨fun h => ?_, fun c h => reads_packed (regAt_modCap k) ?_ rfl ?_⟩
  · rw [readRegister_full (regAt_modCap k), readWord, he, h]
    rfl
  · rw [readWord, he, h]
    refine word_eq_packed ?_
    simp only [field_eq, List.map_cons, List.map_nil, Nat.pow_zero, Nat.one_mul]
  · simp only [List.forall_mem_cons, List.not_mem_nil, false_implies, implies_true, and_true]
    exact ⟨BitVec.isLt _, BitVec.isLt _, BitVec.isLt _, BitVec.isLt _⟩

/-! ### The remote range of an enabled window (R61) -/

theorem regAt_winViewRemote : ∀ n : Fin 8, regAt (0x41C#12 + BitVec.ofNat 12 (0x20 * n.val)) = some (.winView n 2) := by decide

theorem winViewRemote_reads {s : State} (hlaw : WindowLaw s) {n : Fin 8} (hn : (vget s.windows n).enabled = true) :
    ∃ v, readRegister (0x41C#12 + BitVec.ofNat 12 (0x20 * n.val)) 0xF#4 s = ⟨.ok, some v⟩ ∧
      FieldsAt v [(0, 16, (vget s.windows n).remoteBase.toNat),
        (16, 16, (vget s.windows n).remoteBase.toNat + ((vget s.windows n).limit - (vget s.windows n).base))] := by
  obtain ⟨hbase, -, -, hfits, -⟩ := hlaw n hn
  have hword : readWord (.winView n 2) s = word [(vget s.windows n).remoteBase.toNat, Machine.field 16
      (((vget s.windows n).remoteBase.toNat + 0x10000 + (vget s.windows n).limit - (vget s.windows n).base) % 0x10000)] := rfl
  generalize vget s.windows n = w at hbase hfits hword
  have hlast : (w.remoteBase.toNat + 0x10000 + w.limit - w.base) % 0x10000 = w.remoteBase.toNat + (w.limit - w.base) := by omega
  refine reads_packed (regAt_winViewRemote n) ?_ rfl ?_
  · rw [hword, hlast]
    refine word_eq_packed ?_
    simp only [field_eq, List.map_cons, List.map_nil, Nat.pow_zero, Nat.one_mul]
  · simp only [List.forall_mem_cons, List.not_mem_nil, false_implies, implies_true, and_true]
    exact ⟨BitVec.isLt _, by omega⟩

end Sys2Proof.Machine
end

section
/-! PROOFS. The registers that hold modes, faults, counts, arguments, timing values, routes and selections; the pins; the codes. -/

namespace Sys2Proof.Machine

/-! ### Codes and values that fit (R202, R203) -/

theorem phaseCode_lt (p : Phase) : phaseCode p < 2 ^ 2 := by cases p <;> decide

theorem loadCode_lt (o : LoadOutcome) : (loadCode o).toNat < 2 ^ 2 := by cases o <;> decide

theorem faultCode_lt (r : FaultReason) : faultCode r < 2 ^ 4 := by cases r <;> decide

theorem winFaultCode_lt (r : WinFaultReason) : winFaultCode r < 2 ^ 3 := by cases r <;> decide

theorem outcomeField_lt (o : Option LinkOutcome) : outcomeField o < 2 ^ 4 := by
  cases o with
  | none => decide
  | some o => exact outcomeCode_lt o

theorem mbxStateCode_lt (m : MbxState) : mbxStateCode m < 2 ^ 3 := by cases m <;> decide

theorem widthCode_lt (w : Width) : w.code < 2 ^ 2 := by cases w <;> decide

theorem ite_one_lt (p : Prop) [Decidable p] : (if p then 1 else 0) < 2 ^ 1 := by split <;> decide

theorem inTimingTable_lt {p : Param} {v : Nat} (h : InTimingTable p v) : v < 2 ^ 16 := by
  obtain ⟨-, h | h | h⟩ | ⟨low, high, step, hmem, -, hle, -⟩ := h
  · omega
  · omega
  · omega
  · have hhigh : ∀ x ∈ [(Param.respTimeout, 20, 2000, 10), (.retryLimit, 0, 7, 1), (.busyLimit, 0, 15, 1), (.busyHoldoff, 50, 5000, 50),
        (.pollInterval, 1, 255, 1), (.discoveryInterval, 1, 255, 1), (.quarThreshold, 1, 15, 1), (.departThreshold, 1, 15, 1),
        (.quarPollInterval, 10, 2550, 10), (.hostHold, 0, 255, 1), (.discardTime, 1, 255, 1), (.settleTime, 0, 255, 1)],
        x.2.2.1 < 2 ^ 16 := by decide
    exact hle.trans_lt (hhigh _ hmem)

theorem packed_whole (w : Word) : packed [(0, 32, w.toNat)] = w := by
  simp [packed]

/-! ### The status registers and the faults -/

theorem pwrCtrl_shows (s : State) : Shows s 0x000#12 [(0, 1, s.power.sleepReq.toNat), (1, 1, s.power.retain.toNat)] := by
  refine shows_packed (r := .pwrCtrl) rfl (word_eq_packed ?_) ?_
  · simp only [flag_eq, List.map_cons, List.map_nil]
  · simp only [List.forall_mem_cons, List.not_mem_nil, false_implies, implies_true, and_true]
    exact ⟨Bool.toNat_lt _, Bool.toNat_lt _⟩

theorem autoloadStatus_shows {s : State} (hcount : s.autoload.recordCount < 64) (hrecord : s.autoload.faultRecord < 64) :
    Shows s 0x008#12 [(0, 2, phaseCode s.autoload.phase), (4, 2, (loadCode s.autoload.lastOutcome).toNat),
      (8, 6, s.autoload.recordCount), (16, 4, faultCode s.autoload.faultReason), (24, 6, s.autoload.faultRecord)] := by
  refine shows_packed (r := .autoloadStatus) rfl (word_eq_packed ?_) ?_
  · simp only [field_eq, List.map_cons, List.map_nil, Nat.pow_zero, Nat.one_mul]
  · simp only [List.forall_mem_cons, List.not_mem_nil, false_implies, implies_true, and_true]
    exact ⟨phaseCode_lt _, loadCode_lt _, hcount, faultCode_lt _, hrecord⟩

theorem cache_count (c : Cache) : c.count = (allLines.filter fun i => (vget c.lines i).isSome).length := by
  have hlist : c.lines.toList = allLines.map (vget c.lines) := by
    refine List.ext_getElem (by rw [Vector.length_toList, List.length_map]; rfl) fun i hi hi' => ?_
    have hline : ∀ (j : Nat) (hj : j < allLines.length), allLines[j].val = j := by decide
    rw [List.getElem_map, Vector.getElem_toList]
    have hval := hline i (by rwa [List.length_map] at hi')
    generalize allLines[i] = k at hval
    subst hval
    rfl
  rw [Cache.count, hlist, List.filter_map, List.length_map]
  rfl

theorem cacheLines_shows (s : State) :
    Shows s 0x018#12 [(0, 6, (allLines.filter fun i => (vget s.cache.lines i).isSome).length)] := by
  refine shows_packed (r := .cacheLines) rfl (word_eq_packed ?_) ?_
  · simp only [cache_count, List.map_cons, List.map_nil, Nat.pow_zero, Nat.one_mul]
  · simp only [List.forall_mem_cons, List.not_mem_nil, false_implies, implies_true, and_true]
    exact (List.length_filter_le _ _).trans_lt (by decide)

theorem attnMode_shows (s : State) : Shows s 0x01C#12 [(0, 1, if s.attn.mode = .held then 1 else 0)] := by
  refine shows_packed (r := .attnMode) rfl (word_eq_packed ?_) ?_
  · simp only [flag_eq, toNat_decide, List.map_cons, List.map_nil]
  · simp only [List.forall_mem_cons, List.not_mem_nil, false_implies, implies_true, and_true]
    exact ite_one_lt _

theorem winFault_shows (s : State) : Shows s 0x024#12 [(0, 3, winFaultCode s.port.winFault.reason),
    (3, 1, if s.port.winFault.dir = .write then 1 else 0), (4, 4, s.port.winFault.window.toNat),
    (8, 17, s.port.winFault.address.toNat)] := by
  refine shows_packed (r := .winFault) rfl (word_eq_packed ?_) ?_
  · simp only [field_eq, flag_eq, toNat_decide, List.map_cons, List.map_nil, Nat.pow_zero, Nat.one_mul]
  · simp only [List.forall_mem_cons, List.not_mem_nil, false_implies, implies_true, and_true]
    exact ⟨winFaultCode_lt _, ite_one_lt _, BitVec.isLt _, BitVec.isLt _⟩

theorem readFault_shows (s : State) : Shows s 0x028#12 [(0, 4, outcomeField s.port.readFault.outcome),
    (4, 3, s.port.readFault.width.toNat), (8, 2, s.port.readFault.slot.toNat), (12, 17, s.port.readFault.hostAddr.toNat)] := by
  refine shows_packed (r := .readFault) rfl (word_eq_packed ?_) ?_
  · simp only [field_eq, List.map_cons, List.map_nil, Nat.pow_zero, Nat.one_mul]
  · simp only [List.forall_mem_cons, List.not_mem_nil, false_implies, implies_true, and_true]
    exact ⟨outcomeField_lt _, BitVec.isLt _, BitVec.isLt _, BitVec.isLt _⟩

theorem regAt_timing (p : Param) : regAt (0x040#12 + BitVec.ofNat 12 (4 * (Param.index p - 1))) = some (.timing p) := by
  cases p <;> rfl

theorem timing_shows {s : State} (hlaw : TimingLaw s) (p : Param) :
    Shows s (0x040#12 + BitVec.ofNat 12 (4 * (Param.index p - 1))) [(0, 16, s.timing.value p)] := by
  refine shows_packed (regAt_timing p) (word_eq_packed ?_) ?_
  · simp only [List.map_cons, List.map_nil, Nat.pow_zero, Nat.one_mul]
  · simp only [List.forall_mem_cons, List.not_mem_nil, false_implies, implies_true, and_true]
    exact inTimingTable_lt (hlaw p)

/-! ### The mailbox registers -/

/-- A register that reads one bit vector shows it. -/
theorem shows_one {o : BitVec 12} {r : Reg} {s : State} {n : Nat} {x : BitVec n} (hr : regAt o = some r)
    (hw : readWord r s = word [x.toNat]) : Shows s o [(0, n, x.toNat)] := by
  refine shows_packed hr (hw.trans (word_eq_packed ?_)) ?_
  · simp only [List.map_cons, List.map_nil, Nat.pow_zero, Nat.one_mul]
  · simp only [List.forall_mem_cons, List.not_mem_nil, false_implies, implies_true, and_true]
    exact x.isLt

theorem shows_whole {o : BitVec 12} {r : Reg} {s : State} {w : Word} (hr : regAt o = some r) (hw : readWord r s = w) :
    Shows s o [(0, 32, w.toNat)] :=
  shows_packed hr (hw.trans (packed_whole w).symm) (by
    simp only [List.forall_mem_cons, List.not_mem_nil, false_implies, implies_true, and_true]
    exact w.isLt)

/-- A register that reads 0 shows no field. -/
theorem shows_nothing {o : BitVec 12} {r : Reg} {s : State} (hr : regAt o = some r) (hw : readWord r s = 0) : Shows s o [] :=
  shows_packed hr hw fun _ h => absurd h List.not_mem_nil

theorem mbxFlags_shows (s : State) : Shows s 0x098#12 [(0, 2, s.mbx.flagMode.toNat), (4, 1, s.mbx.replace.toNat)] := by
  refine shows_packed (r := .mbxFlags) rfl (word_eq_packed ?_) ?_
  · simp only [flag_eq, List.map_cons, List.map_nil, Nat.pow_zero, Nat.one_mul]
  · simp only [List.forall_mem_cons, List.not_mem_nil, false_implies, implies_true, and_true]
    exact ⟨BitVec.isLt _, Bool.toNat_lt _⟩

theorem writeOnly_shows (s : State) : ∀ o ∈ [0x09C#12, 0x0A0#12, 0x0D0#12], Shows s o [] := by
  have hat : ∀ o ∈ [0x09C#12, 0x0A0#12, 0x0D0#12], regAt o = some .mbxGo ∨ regAt o = some .mbxAbort ∨ regAt o = some .evtRelease := by
    decide
  intro o ho
  obtain hr | hr | hr := hat o ho <;> exact shows_nothing hr rfl

theorem mbxStatus_shows (s : State) :
    Shows s 0x0A4#12 [(0, 3, mbxStateCode s.mbx.state), (8, 1, s.mbx.refused.toNat), (9, 1, s.mbx.abortLate.toNat)] := by
  refine shows_packed (r := .mbxStatus) rfl (word_eq_packed ?_) ?_
  · simp only [flag_eq, List.map_cons, List.map_nil, Nat.pow_zero, Nat.one_mul]
  · simp only [List.forall_mem_cons, List.not_mem_nil, false_implies, implies_true, and_true]
    exact ⟨mbxStateCode_lt _, Bool.toNat_lt _, Bool.toNat_lt _⟩

/-! ### The event registers -/

theorem evtMode_shows (s : State) : Shows s 0x0D4#12 [(0, 1, if s.events.mode = .release then 1 else 0)] := by
  refine shows_packed (r := .evtMode) rfl (word_eq_packed ?_) ?_
  · simp only [flag_eq, toNat_decide, List.map_cons, List.map_nil]
  · simp only [List.forall_mem_cons, List.not_mem_nil, false_implies, implies_true, and_true]
    exact ite_one_lt _

theorem evtLineEn_shows (s : State) : Shows s 0x0D8#12 [(0, 1, s.events.line0En.toNat), (1, 1, s.events.line1En.toNat)] := by
  refine shows_packed (r := .evtLineEn) rfl (word_eq_packed ?_) ?_
  · simp only [flag_eq, List.map_cons, List.map_nil]
  · simp only [List.forall_mem_cons, List.not_mem_nil, false_implies, implies_true, and_true]
    exact ⟨Bool.toNat_lt _, Bool.toNat_lt _⟩

theorem overflowCount_none {u : EventUnit} (h : ∀ r ∈ u.list, r.kind ≠ .overflow) : u.overflowCount = 0 := by
  have hfind : (u.list.find? fun r => r.kind = .overflow) = none :=
    List.find?_eq_none.mpr fun r hr => by simpa using h r hr
  rw [EventUnit.overflowCount, hfind]

/-- The one OVERFLOW record. -/
theorem overflowCount_some {u : EventUnit} (hone : (u.list.filter fun r => r.kind = .overflow).length ≤ 1) {r : EventRec}
    (hr : r ∈ u.list) (hk : r.kind = .overflow) : u.overflowCount = r.detailA := by
  cases hfind : u.list.find? fun r => r.kind = .overflow with
  | none => exact absurd hk (by simpa using List.find?_eq_none.mp hfind r hr)
  | some q =>
    have hq : q ∈ u.list.filter fun r => r.kind = .overflow :=
      List.mem_filter.mpr ⟨List.mem_of_find?_eq_some hfind, by simpa using List.find?_some hfind⟩
    have hr' : r ∈ u.list.filter fun r => r.kind = .overflow := List.mem_filter.mpr ⟨hr, by simpa using hk⟩
    have hsame : q = r := by
      generalize (u.list.filter fun r => r.kind = .overflow) = l at hone hq hr'
      match l, hone with
      | [x], _ => rw [List.mem_singleton.mp hq, List.mem_singleton.mp hr']
    rw [EventUnit.overflowCount, hfind, hsame]

theorem regAt_evtRoute (k : Kind) : regAt (0x100#12 + BitVec.ofNat 12 (4 * (kindNumber k - 1))) = some (.evtRoute k) := by
  cases k <;> decide +kernel

theorem evtRoute_shows (s : State) (k : Kind) :
    Shows s (0x100#12 + BitVec.ofNat 12 (4 * (kindNumber k - 1))) [(0, 3, routeCode (s.events.routeOf k))] := by
  refine shows_packed (regAt_evtRoute k) (word_eq_packed ?_) ?_
  · simp only [List.map_cons, List.map_nil, Nat.pow_zero, Nat.one_mul]
  · simp only [List.forall_mem_cons, List.not_mem_nil, false_implies, implies_true, and_true]
    exact (routeCode_lt _).trans (by decide)

/-! ### Slots, bindings and windows -/

theorem pendingSlot_shows {s : State} {i : Fin 4} {x : SlotInfo} (h : vget s.slots i = .pending x) :
    Shows s (0x180#12 + BitVec.ofNat 12 (8 * i.val)) (slotViewFields 1 x) ∧
    Shows s (0x184#12 + BitVec.ofNat 12 (8 * i.val)) [(0, 17, x.hostAddr.toNat)] := by
  refine ⟨shows_packed (regAt_slotView i) ?_ (slotViewFields_fit (by decide) x), shows_one (regAt_slotViewAddr i) ?_⟩
  · rw [readWord, h]
    exact word_slotFields 1 x
  · rw [readWord, h]
    rfl

theorem freeSlot_shows {s : State} {i : Fin 4} (h : vget s.slots i = .free) :
    Shows s (0x184#12 + BitVec.ofNat 12 (8 * i.val)) [] := by
  refine shows_nothing (regAt_slotViewAddr i) ?_
  rw [readWord, h]
  rfl

theorem selectedBinding_eq {s : State} {a : ModAddr} (h : modAddr? s.port.bindSel = some a) :
    s.selectedBinding = vget s.bindings a := by
  rw [State.selectedBinding, h]

theorem boundView_shows {s : State} {b : Binding} (h : s.selectedBinding = some b) :
    Shows s 0x204#12 [(0, 1, 1), (1, 1, if b.mode = .preferred then 1 else 0)] ∧
    Shows s 0x208#12 [(0, 32, (b.id.extractLsb' 0 32).toNat)] ∧ Shows s 0x20C#12 [(0, 32, (b.id.extractLsb' 32 32).toNat)] := by
  refine ⟨shows_packed (r := .bindView) rfl ?_ ?_, shows_whole (r := .bindIdLo) rfl ?_, shows_whole (r := .bindIdHi) rfl ?_⟩
  · rw [readWord, h]
    refine word_eq_packed ?_
    simp only [flag_eq, toNat_decide, Option.isSome_some, Option.any_some, Bool.toNat_true, List.map_cons, List.map_nil]
  · simp only [List.forall_mem_cons, List.not_mem_nil, false_implies, implies_true, and_true]
    exact ⟨by decide, ite_one_lt _⟩
  · rw [readWord, h]
    exact setWidth_low b.id
  · rw [readWord, h]
    exact setWidth_high b.id

theorem unboundView_shows {s : State} (h : s.selectedBinding = none) :
    Shows s 0x204#12 [] ∧ Shows s 0x208#12 [] ∧ Shows s 0x20C#12 [] := by
  refine ⟨shows_nothing (r := .bindView) rfl ?_, shows_nothing (r := .bindIdLo) rfl ?_, shows_nothing (r := .bindIdHi) rfl ?_⟩ <;>
  · rw [readWord, h]
    rfl

/-- The words of a window stand at its eight offsets (R61, R201). -/
theorem regAt_window : ∀ n : Fin 8, regAt (0x400#12 + BitVec.ofNat 12 (0x20 * n.val)) = some (.win n .range) ∧
    regAt (0x404#12 + BitVec.ofNat 12 (0x20 * n.val)) = some (.win n .target) ∧
    regAt (0x408#12 + BitVec.ofNat 12 (0x20 * n.val)) = some (.win n .remote) ∧
    regAt (0x40C#12 + BitVec.ofNat 12 (0x20 * n.val)) = some (.win n .attr) ∧
    regAt (0x410#12 + BitVec.ofNat 12 (0x20 * n.val)) = some (.winEnable n) ∧
    regAt (0x414#12 + BitVec.ofNat 12 (0x20 * n.val)) = some (.winView n 0) ∧
    regAt (0x418#12 + BitVec.ofNat 12 (0x20 * n.val)) = some (.winView n 1) := by decide +kernel

theorem winField_shows (s : State) (n : Fin 8) (w : Window) (hw : w = vget s.windows n) :
    Shows s (0x400#12 + BitVec.ofNat 12 (0x20 * n.val)) [(0, 8, w.basePage.toNat), (8, 8, w.limitPage.toNat)] ∧
    Shows s (0x404#12 + BitVec.ofNat 12 (0x20 * n.val)) [(0, 4, w.target.toNat), (16, 16, w.expectedClass.toNat)] ∧
    Shows s (0x408#12 + BitVec.ofNat 12 (0x20 * n.val)) [(0, 16, w.remoteBase.toNat)] ∧
    Shows s (0x40C#12 + BitVec.ofNat 12 (0x20 * n.val)) [(0, 2, w.width.code), (4, 1, w.readOnly.toNat), (5, 1, w.cacheable.toNat)] := by
  obtain ⟨hrange, htarget, hremote, hattr, -⟩ := regAt_window n
  have hread : ∀ f, readWord (.win n f) s = winFieldWord w f := fun f => by rw [readWord, hw]
  refine ⟨shows_packed hrange ((hread .range).trans (word_eq_packed ?_)) ?_,
    shows_packed htarget ((hread .target).trans (word_eq_packed ?_)) ?_, shows_one hremote (hread .remote),
    shows_packed hattr ((hread .attr).trans (word_eq_packed ?_)) ?_⟩
  · simp only [field_eq, List.map_cons, List.map_nil, Nat.pow_zero, Nat.one_mul]
  · simp only [List.forall_mem_cons, List.not_mem_nil, false_implies, implies_true, and_true]
    exact ⟨BitVec.isLt _, BitVec.isLt _⟩
  · simp only [field_eq, List.map_cons, List.map_nil, Nat.pow_zero, Nat.one_mul]
  · simp only [List.forall_mem_cons, List.not_mem_nil, false_implies, implies_true, and_true]
    exact ⟨BitVec.isLt _, BitVec.isLt _⟩
  · simp only [flag_eq, List.map_cons, List.map_nil, Nat.pow_zero, Nat.one_mul]
  · simp only [List.forall_mem_cons, List.not_mem_nil, false_implies, implies_true, and_true]
    exact ⟨widthCode_lt _, Bool.toNat_lt _, Bool.toNat_lt _⟩

theorem winView_shows (s : State) (n : Fin 8) (w : Window) (hw : w = vget s.windows n) :
    Shows s (0x410#12 + BitVec.ofNat 12 (0x20 * n.val)) [(0, 1, w.enabled.toNat)] ∧
    Shows s (0x414#12 + BitVec.ofNat 12 (0x20 * n.val)) [(0, 1, w.enabled.toNat)] ∧
    Shows s (0x418#12 + BitVec.ofNat 12 (0x20 * n.val)) [(0, 16, 256 * w.basePage.toNat), (16, 16, 256 * w.limitPage.toNat + 255)] := by
  obtain ⟨-, -, -, -, henable, hview, hrange⟩ := regAt_window n
  have hread : readWord (.winEnable n) s = word [Machine.flag 0 w.enabled] := by rw [readWord, hw]
  have hread0 : readWord (.winView n 0) s = word [Machine.flag 0 w.enabled] := by rw [readWord, hw]; rfl
  have hread1 : readWord (.winView n 1) s = word [w.base, Machine.field 16 w.limit] := by rw [readWord, hw]; rfl
  have hbit : word [Machine.flag 0 w.enabled] = packed [(0, 1, w.enabled.toNat)] := word_eq_packed (by
    simp only [flag_eq, List.map_cons, List.map_nil])
  have hfit : ∀ f ∈ [(0, 1, w.enabled.toNat)], f.2.2 < 2 ^ f.2.1 := by
    simp only [List.forall_mem_cons, List.not_mem_nil, false_implies, implies_true, and_true]
    exact Bool.toNat_lt _
  refine ⟨shows_packed henable (hread.trans hbit) hfit, shows_packed hview (hread0.trans hbit) hfit,
    shows_packed hrange (hread1.trans (word_eq_packed ?_)) ?_⟩
  · simp only [field_eq, Window.base, Window.limit, Nat.mul_comm 256, List.map_cons, List.map_nil, Nat.pow_zero, Nat.one_mul]
  · have hbase := w.basePage.isLt
    have hlimit := w.limitPage.isLt
    simp only [List.forall_mem_cons, List.not_mem_nil, false_implies, implies_true, and_true]
    exact ⟨by omega, by omega⟩

/-- What the registers show that hold the blocks' values (section 12.2). -/
theorem blockViews (s : State) : BlockViews s where
  pwrCtrl := pwrCtrl_shows s
  autoload := autoloadStatus_shows
  cacheLines := cacheLines_shows s
  attnMode := attnMode_shows s
  winFault := winFault_shows s
  readFault := readFault_shows s
  timing := timing_shows
  mbxOp := shows_one (r := .mbxOp) rfl rfl
  mbxTarget := shows_one (r := .mbxTarget) rfl rfl
  mbxOffset := shows_one (r := .mbxOffset) rfl rfl
  mbxWidth := shows_one (r := .mbxWidth) rfl rfl
  mbxData := shows_whole (r := .mbxData) rfl rfl
  mbxXdata := shows_whole (r := .mbxXdata) rfl rfl
  mbxFlags := mbxFlags_shows s
  writeOnly := writeOnly_shows s
  mbxStatus := mbxStatus_shows s
  mbxResult := shows_one (r := .mbxResult) rfl rfl
  evtMode := evtMode_shows s
  evtLineEn := evtLineEn_shows s
  noOverflow h := shows_nothing (r := .evtOverflowCount) rfl (overflowCount_none h)
  overflow r hr hk hlaw := shows_whole (r := .evtOverflowCount) rfl (overflowCount_some hlaw.2.1 hr hk)
  routes := evtRoute_shows s
  pending _ _ := pendingSlot_shows
  freeSlot _ := freeSlot_shows
  bindSel := shows_one (r := .bindSel) rfl rfl
  bound _ _ ha hb := boundView_shows ((selectedBinding_eq ha).trans hb)
  unbound _ ha hb := unboundView_shows ((selectedBinding_eq ha).trans hb)
  modSel := shows_one (r := .modSel) rfl rfl
  window n w hw := by
    obtain ⟨hrange, htarget, hremote, hattr⟩ := winField_shows s n w hw
    exact ⟨hrange, htarget, hremote, hattr, winView_shows s n w hw⟩

end Sys2Proof.Machine
end

section
/-! PROOFS. The pins, the codes, and the statement on the other registers. -/

namespace Sys2Proof.Machine

/-! ### The pins (R200, R211) -/

theorem drivesSpan_iff (s : State) : s.drivesSpan = true ↔ ∃ r, s.engine.link = .carrying r ∧ r.attempt = .sending := by
  unfold State.drivesSpan State.spanFrame
  cases hl : s.engine.link with
  | free | holdoff | settling => simp
  | carrying r =>
    by_cases hs : r.attempt = .sending
    · simp [hs]
    · simp [hs]

theorem resetAsserted_eq_false (s : State) :
    s.resetAsserted = false ↔ s.pins.cold = false ∧ s.pins.host = false ∧ s.pins.hold = false := by
  simp [State.resetAsserted, and_assoc]

theorem routed_iff (u : EventUnit) (r : Route) : u.routed r = true ↔ ∃ e ∈ u.list, e.route = r := by
  simp [EventUnit.routed]

theorem lineActive_iff {s : State} {active enable : Bool} {r : Route}
    (h : active = (!s.resetAsserted && enable && s.events.routed r)) :
    active = true ↔ s.pins.cold = false ∧ s.pins.host = false ∧ s.pins.hold = false ∧ enable = true ∧
      ∃ e ∈ s.events.list, e.route = r := by
  rw [h, Bool.and_eq_true, Bool.and_eq_true, Bool.not_eq_true', resetAsserted_eq_false, routed_iff]
  simp only [and_assoc]

theorem pinsShow (s : State) : PinsShow s where
  held h hh := by simp [State.ready, hh]
  ready hn := by simp [State.ready, hn, Option.isSome_iff_exists]
  span := drivesSpan_iff s
  asleep hlaw hp := by
    refine Bool.eq_false_iff.mpr fun h => ?_
    obtain ⟨r, hr, -⟩ := (drivesSpan_iff s).mp h
    rw [hlaw hp] at hr
    cases hr
  boot := decide_eq_true_iff
  inReset hlaw hhold := by
    rw [hlaw hhold]
    exact ⟨rfl, rfl, rfl⟩
  line0 := lineActive_iff rfl
  line1 := lineActive_iff rfl
  levels := ⟨rfl, rfl⟩

/-! ### The codes (R202) -/

theorem codeTables : CodeTables where
  power := rfl
  wake := rfl
  phase := rfl
  outcome := rfl
  fault := rfl
  winFault := rfl
  mailbox := rfl
  route := rfl
  modules := rfl
  attn := rfl
  bound := rfl
  disc := rfl
  links := rfl
  results := ⟨fun _ => rfl, rfl⟩
  kinds := by decide
  answers := rfl

/-! ### The registers by their fields -/

/-- Settles O41: each register as the word of its fields, each field found at its place. -/
theorem otherRegisterWrites : Obligations.OtherRegisterWrites := by
  refine ⟨fun s data hfree => ⟨fun o ho => registerWrite_readOnly data hfree (readOnly_of_offset o ho),
    registerWrite_attnMode data hfree⟩, registerReads, fun s hqueue hevents => ?_, blockViews, pinsShow, codeTables⟩
  refine ⟨?_, ?_, ?_, ?_, attnStatus_reads s, noHead_reads, fun r rest hlist _ => head_reads hlist, evtStatus_reads s,
    evtCount_reads s hevents, fun _ => freeSlot_reads, fun i x o d m hslot => completeSlot_reads hslot,
    fun a hsel hrun hcount hcaps => ?_, fun n hn hlaw => winViewRemote_reads hlaw hn⟩
  · by_cases hdrain : s.power.state = .draining
    · obtain ⟨v, hread, hpower, hsleep, hwake, hdrains⟩ := (pwrStatus_reads s).2 hdrain
      exact ⟨v, hread, hpower, hsleep, hwake, fun h => absurd hdrain h, fun _ => hdrains⟩
    · obtain ⟨v, hread, hpower, hsleep, hwake, hzero⟩ := (pwrStatus_reads s).1 hdrain
      exact ⟨v, hread, hpower, hsleep, hwake, fun _ => hzero, fun h => absurd h hdrain⟩
  · obtain ⟨v, hread, hcode, hreset, hturn, hjoin, hsource⟩ := linkStatus_reads s
    refine ⟨v, hread, hcode.trans ?_, hreset, hturn, hjoin, hsource.trans ?_⟩
    · cases s.engine.link <;> rfl
    · rw [Link.sourceCode]
      cases s.engine.link.request? with
      | none => rfl
      | some r => cases hs : r.source <;> simp [hs]
  · obtain ⟨v, hread, hstate, haddr⟩ := discStatus_reads s
    refine ⟨v, hread, hstate, fun hno => haddr.trans ?_, fun a hj ha honly => haddr.trans ?_⟩
    · rw [joiningAddr_none hno, addressCode]
    · rw [joiningAddr_some hj ha honly, addressCode]
  · obtain ⟨v, hread, hlength, hbit⟩ := hrqLevel_reads s hqueue
    refine ⟨v, hread, hlength, ?_⟩
    rw [show bits v 8 1 = _ from hbit, ← sourceCode_eq_two]
    by_cases htwo : s.engine.link.sourceCode = 2
    · simp [htwo]
    · simp [htwo]
  · have he := selectedEntry_eq hsel
    obtain ⟨hlow, hhigh⟩ := modId_reads he
    exact ⟨modState_reads he, modGen_reads he, modSupv_reads he hrun hcount hcaps, modDesc_reads he, hlow, hhigh, modCap_reads he⟩

end Sys2Proof.Machine
end
